-- ==== Sys2Proof/Word.lean ====
section
/-! DEFINITION. The word types of UDC-SEQ: 32-bit registers and words, 16-bit halves, bytes (00_scope.md R19, 20_memory.md R73). -/

namespace Sys2Proof

/-- A 32-bit register or word: controller registers, command-port registers, handles (R19, R36, D4). -/
abbrev Word := BitVec 32

/-- A byte: data-register accesses, endpoint addresses, buffer memory (R73, R88). -/
abbrev Byte := BitVec 8

/-- A 16-bit word: the SETUP words and `mps` (R32, R33). -/
abbrev Half := BitVec 16

end Sys2Proof
end

