-- ==== Sys2Proof/Config.lean ====
section
/-! DEFINITION. The configuration record of UDC-SEQ (00_scope.md section 3, R6 to R18) with the `BITMAP` of 30_encoding.md R92 to R99,
and the free values of the model. -/

namespace Sys2Proof

/-- The six named bits of `BUSINTSTS` and `BUSINTEN` (R40, R93). -/
inductive BusBit where
  | reset | resume | suspend | highSpeed | dmaDone | vbus
  deriving DecidableEq, Repr

/-- The source's list order of the bus bits, which is the order they are handled in (R125, R191, C5). -/
def BusBit.all : List BusBit := [.reset, .resume, .suspend, .highSpeed, .dmaDone, .vbus]

/-- The thirteen named bits of `CEPINTSTS` and `CEPINTEN` (R47, R94). -/
inductive CepBit where
  | setupToken | setupPkt | outToken | inToken | ping | txComplete | rxComplete | nakSent | stallSent | error | statusDone
  | bufFull | bufEmpty
  deriving DecidableEq, Repr

/-- The source's list order of the control-endpoint bits, which is the order they are handled in (R136, R191). -/
def CepBit.all : List CepBit :=
  [.setupToken, .setupPkt, .outToken, .inToken, .ping, .txComplete, .rxComplete, .nakSent, .stallSent, .error, .statusDone,
   .bufFull, .bufEmpty]

/-- The names of the 32-bit registers of 10_state.md section 3; `i` is a logical endpoint index, `1 <= i < N_EP`. -/
inductive Reg where
  | gintsts | ginten | busintsts | businten | devaddr | oper | phyctl | dmactl | cepctl | cepinten | cepintsts
  | ceptxcnt | cepdatcnt
  | cepsetup (k : Fin 4)
  | epcfg (i : Nat) | eprspctl (i : Nat) | epmps (i : Nat) | epbufstart (i : Nat) | epbufend (i : Nat)
  | epinten (i : Nat) | epintsts (i : Nat) | epdatcnt (i : Nat)
  deriving DecidableEq, Repr

/-- The byte-wide data registers `CEPDAT` and `EPDAT[i]` (R49, R59). -/
inductive DatReg where
  | cep
  | ep (i : Nat)
  deriving DecidableEq, Repr

/-- A name `REG_OFFSET` gives an address to (R12): no register has both a word-wide and a byte-wide access (R71, R73). -/
inductive RegName where
  | word (r : Reg)
  | data (d : DatReg)
  deriving DecidableEq, Repr

/-- The enumeration values of R100 and R97, which U22 makes parameters. `Control`, `None`, `Idle` are 0 (D27) and stand in no field. The
error codes are not here: R183 states them (log 28). -/
structure EnumMap where
  /-- `transfer_type`, two bits (R33, R100). -/
  typeBulk : BitVec 2
  typeInterrupt : BitVec 2
  typeIsochronous : BitVec 2
  /-- `EPRSPCTL[i].Mode`, two bits (R97). -/
  modeManual : BitVec 2
  modeFly : BitVec 2
  /-- `lce`, and the endpoint callback events, which have "the same numbers" (R100). -/
  lceSetup : Word
  lceDataOut : Word
  lceDataIn : Word
  /-- `ctrl_state` (R31, R100). -/
  stateSetup : Word
  stateDataOut : Word
  stateDataIn : Word
  stateStatus : Word
  /-- Status callback events (R100). -/
  statusReset : Word
  statusSuspend : Word
  statusResume : Word
  deriving DecidableEq, Repr

/-- The spec's default numbers: list order (R100, R97, D27). -/
def EnumMap.default : EnumMap where
  typeBulk := 1
  typeInterrupt := 2
  typeIsochronous := 3
  modeManual := 1
  modeFly := 2
  lceSetup := 1
  lceDataOut := 2
  lceDataIn := 3
  stateSetup := 1
  stateDataOut := 2
  stateDataIn := 3
  stateStatus := 4
  statusReset := 1
  statusSuspend := 2
  statusResume := 3

/-- `BITMAP` (R11): the position of every named bit, each its own; of a field of several bits, the position of each of its bits, the least
significant first. "A model must depend only on the positions being distinct within one register" (log 3). -/
structure BitMap where
  /-- `GINTSTS`, `GINTEN`: `Bus`, `Cep`, and `Ep[1]`, `Ep[2]`, ... in that order (R92). -/
  gBus : Fin 32
  gCep : Fin 32
  gEps : List (Fin 32)
  /-- `BUSINTSTS`, `BUSINTEN` (R93). -/
  busReset : Fin 32
  busResume : Fin 32
  busSuspend : Fin 32
  busHighSpeed : Fin 32
  busDmaDone : Fin 32
  busVbus : Fin 32
  /-- `CEPINTSTS`, `CEPINTEN` (R94). -/
  cepSetupToken : Fin 32
  cepSetupPkt : Fin 32
  cepOutToken : Fin 32
  cepInToken : Fin 32
  cepPing : Fin 32
  cepTxComplete : Fin 32
  cepRxComplete : Fin 32
  cepNakSent : Fin 32
  cepStallSent : Fin 32
  cepError : Fin 32
  cepStatusDone : Fin 32
  cepBufFull : Fin 32
  cepBufEmpty : Fin 32
  /-- `EPINTSTS[i]`, `EPINTEN[i]` (R95). -/
  epRxPkt : Fin 32
  epShortRx : Fin 32
  epTxPkt : Fin 32
  /-- `CEPCTL` (R96). -/
  ctlNakClr : Fin 32
  ctlStall : Fin 32
  ctlFlush : Fin 32
  /-- `EPRSPCTL[i]` (R97); `Mode` is two bits. -/
  rspFlush : Fin 32
  rspMode : List (Fin 32)
  rspHalt : Fin 32
  /-- `EPCFG[i]` (R98); `Type` is two bits, `EpNum` eight. -/
  cfgType : List (Fin 32)
  cfgDir : Fin 32
  cfgEpNum : List (Fin 32)
  /-- `PHYCTL`, `OPER`, `DMACTL` (R99). -/
  phyEn : Fin 32
  phyDpPuEn : Fin 32
  phyClkStb : Fin 32
  phyVbusDet : Fin 32
  operHiSpdEn : Fin 32
  dmaEn : Fin 32
  dmaRd : Fin 32
  /-- The enumeration values (R100, U22). -/
  enums : EnumMap
  deriving DecidableEq, Repr

/-- The spec's default positions (R92 to R99, D5) and numbers (R100). -/
def BitMap.default : BitMap where
  gBus := 0
  gCep := 1
  gEps := [2, 3, 4, 5, 6, 7, 8, 9, 10, 11, 12, 13, 14, 15, 16, 17, 18, 19, 20, 21, 22, 23, 24, 25, 26, 27, 28, 29, 30]
  busReset := 0
  busResume := 1
  busSuspend := 2
  busHighSpeed := 3
  busDmaDone := 4
  busVbus := 5
  cepSetupToken := 0
  cepSetupPkt := 1
  cepOutToken := 2
  cepInToken := 3
  cepPing := 4
  cepTxComplete := 5
  cepRxComplete := 6
  cepNakSent := 7
  cepStallSent := 8
  cepError := 9
  cepStatusDone := 10
  cepBufFull := 11
  cepBufEmpty := 12
  epRxPkt := 0
  epShortRx := 1
  epTxPkt := 2
  ctlNakClr := 0
  ctlStall := 1
  ctlFlush := 2
  rspFlush := 0
  rspMode := [1, 2]
  rspHalt := 3
  cfgType := [0, 1]
  cfgDir := 2
  cfgEpNum := [3, 4, 5, 6, 7, 8, 9, 10]
  phyEn := 0
  phyDpPuEn := 1
  phyClkStb := 2
  phyVbusDet := 3
  operHiSpdEn := 0
  dmaEn := 0
  dmaRd := 1
  enums := EnumMap.default

/-- Position of a named bus bit. -/
def BitMap.busPos (m : BitMap) : BusBit → Fin 32
  | .reset => m.busReset
  | .resume => m.busResume
  | .suspend => m.busSuspend
  | .highSpeed => m.busHighSpeed
  | .dmaDone => m.busDmaDone
  | .vbus => m.busVbus

/-- Position of a named control-endpoint bit. -/
def BitMap.cepPos (m : BitMap) : CepBit → Fin 32
  | .setupToken => m.cepSetupToken
  | .setupPkt => m.cepSetupPkt
  | .outToken => m.cepOutToken
  | .inToken => m.cepInToken
  | .ping => m.cepPing
  | .txComplete => m.cepTxComplete
  | .rxComplete => m.cepRxComplete
  | .nakSent => m.cepNakSent
  | .stallSent => m.cepStallSent
  | .error => m.cepError
  | .statusDone => m.cepStatusDone
  | .bufFull => m.cepBufFull
  | .bufEmpty => m.cepBufEmpty

/-- The configuration record (00_scope.md section 3). It is a field of State that no step changes, so a statement about every state
is a statement about every configuration (log 1). -/
structure Config where
  /-- `N_EP` (R6). -/
  nEp : Nat
  /-- `RAM_SIZE` (R7). -/
  ramSize : Nat
  /-- `BITMAP` (R11). -/
  bitmap : BitMap
  /-- `REG_OFFSET` (R12), log 2. -/
  regOffset : List (RegName × Nat)
  /-- `CEP_FOLLOW_ON` (R13), as a word of `CEPINTEN`. -/
  cepFollowOn : Word
  /-- `BUS_EN_EXTRA` (R14), as a word of `BUSINTEN`. -/
  busEnExtra : Word
  /-- `EP_RX_ARM` (R15), as a word of `EPINTEN[i]`. -/
  epRxArm : Word
  /-- `EP_TX_ARM` (R15), as a word of `EPINTEN[i]`. -/
  epTxArm : Word
  deriving DecidableEq, Repr

/-- `MPS_MAX` (R8). -/
def Config.mpsMax : Nat := 1024
/-- `MPS_CTRL_MAX` (R8). -/
def Config.mpsCtrlMax : Nat := 64
/-- `SETUP_LEN` (R9). -/
def Config.setupLen : Nat := 8
/-- `PHY_TIMEOUT_MS` (R10). -/
def Config.phyTimeoutMs : Nat := 50
/-- `W_ADDR` (R16). -/
abbrev Config.wAddr : Nat := 7
/-- The top of the upper stack's address space, from `W_HADDR = 32` (R18). -/
def Config.hostTop : Nat := 4294967296

/-- Every parameter that has a default at its default; `N_EP` and `RAM_SIZE`, which are OPEN, as in the test configuration T of
95_test_vectors.md; no register address given. DESIGN CHOICE: log 1, log 2. -/
def Config.default : Config where
  nEp := 13
  ramSize := 4096
  bitmap := BitMap.default
  regOffset := []
  cepFollowOn := 0x40C#32
  busEnExtra := 0#32
  epRxArm := 0x3#32
  epTxArm := 0x4#32

/-- Free value (U2, R75): the byte a read of an empty receive FIFO returns; also a SETUP byte past the eighth (log 10, log 11). -/
opaque Config.freeByte : Nat → Byte

/-- Free value (R197): the clock reading that lets a polling ATTACH run out of time when nothing else happens (log 9). -/
opaque Config.freeClock : Nat → BitVec 64

end Sys2Proof
end

