-- ==== Sys2Proof/Syntax.lean ====
section
/-! DEFINITION. The operations of UDC-SEQ as syntax: one constructor of `Instr` per row of spec/opcode_table.json. -/

namespace Sys2Proof

/-- `transfer_type` (R33, R100). -/
inductive XferType where
  | control | bulk | interrupt | isochronous
  deriving DecidableEq, Repr

/-- The six registers the HOST writes before it starts a command, x[0] to x[5] (R36). -/
structure Operands where
  op : Word
  ep : Word
  ptr : Word
  len : Word
  cntptr : Word
  aux : Word
  deriving DecidableEq, Repr

/-- The operations: the commands of the port (R90), its other spellings (R104) and its reserved opcodes (R91); the bits of the global,
bus, control-endpoint and endpoint status words (R92 to R95); the internal allocator (R105). `ep` is an endpoint address (R88). -/
inductive Instr where
  | attach
  | detach
  | reset
  | setAddress (addr : BitVec 7)
  | setStatusCallback (cb : Word)
  | epCheckCap (ep : Byte) (mps : Half) (ty : XferType)
  | epConfigure (ep : Byte) (mps : Half) (ty : XferType)
  | epSetStall (ep : Byte)
  | epClearStall (ep : Byte)
  | epIsStalled (ep : Byte)
  | epEnable (ep : Byte)
  | epDisable (ep : Byte)
  | epFlush (ep : Byte)
  | epWrite (ep : Byte) (ptr : Word) (len : Word) (cntptr : Word)
  | epRead (ep : Byte) (ptr : Word) (len : Word) (cntptr : Word)
  | epReadWait (ep : Byte) (ptr : Word) (len : Word) (cntptr : Word)
  | epReadContinue (ep : Byte)
  | epSetCallback (ep : Byte) (cb : Word)
  | epMps (ep : Byte)
  | readPeek (ep : Byte) (cntptr : Word)
  | statusZlp
  | reservedOpcode (op : Word)
  | gintBus
  | gintCep
  | gintEp (i : Nat)
  | busReset
  | busResume
  | busSuspend
  | busHighSpeed
  | busDmaDone
  | busVbus
  | busUnrecognised (b : Fin 32)
  | cepSetupToken
  | cepSetupPkt
  | cepOutToken
  | cepInToken
  | cepPing
  | cepTxComplete
  | cepRxComplete
  | cepNakSent
  | cepStallSent
  | cepError
  | cepStatusDone
  | cepBufFull
  | cepBufEmpty
  | cepUnrecognised (b : Fin 32)
  | epIn (i : Nat) (bits : Word)
  | epOut (i : Nat) (bits : Word)
  | alloc (size : Half)
  deriving DecidableEq, Repr

/-- The five formats of R86. -/
inductive Format where
  | cmd
  | gint
  | busint
  | cepint
  | epint (i : Nat)
  deriving DecidableEq, Repr

end Sys2Proof
end

