-- ==== Sys2Proof/WellFormed.lean ====
section
/-! DEFINITION. What a well-formed configuration and a well-formed operation are (00_scope.md R6, R7, R11, R12, R15; 30_encoding.md). -/

namespace Sys2Proof

/-- Distinct positions inside a 32-bit register. -/
def distinctBits (l : List Nat) : Bool := decide l.Nodup && l.all (· < 32)

/-- A field of `n` bits that stands in a register beside the bits at `others`. -/
def fieldPlaced (others : List Nat) (n : Nat) (l : List (Fin 32)) : Bool :=
  decide (l.length = n) && distinctBits (others ++ l.map Fin.val)

/-- The values of one enumeration differ, from each other and from the 0 of `Control`, `None` and `Idle` (R100, D27). -/
def EnumMap.wf (e : EnumMap) : Bool :=
  decide [0, e.typeBulk, e.typeInterrupt, e.typeIsochronous].Nodup && decide (e.modeManual ≠ e.modeFly)
    && decide [0, e.lceSetup, e.lceDataOut, e.lceDataIn].Nodup
    && decide [0, e.stateSetup, e.stateDataOut, e.stateDataIn, e.stateStatus].Nodup
    && decide [e.statusReset, e.statusSuspend, e.statusResume].Nodup

/-- R11: "the positions being distinct within one register". -/
def BitMap.wf (m : BitMap) (nEp : Nat) : Bool :=
  decide (nEp - 1 ≤ m.gEps.length) && distinctBits (m.gBus :: m.gCep :: (m.gEps.take (nEp - 1)).map Fin.val)
    && distinctBits (BusBit.all.map fun b => (m.busPos b).val)
    && distinctBits (CepBit.all.map fun b => (m.cepPos b).val)
    && distinctBits [m.epRxPkt, m.epShortRx, m.epTxPkt]
    && distinctBits [m.ctlNakClr, m.ctlStall, m.ctlFlush]
    && fieldPlaced [m.rspFlush, m.rspHalt] 2 m.rspMode
    && fieldPlaced [] 2 m.cfgType && fieldPlaced (m.cfgDir :: m.cfgType.map Fin.val) 8 m.cfgEpNum
    && distinctBits [m.phyEn, m.phyDpPuEn, m.phyClkStb, m.phyVbusDet]
    && distinctBits [m.dmaEn, m.dmaRd]
    && m.enums.wf

/-- R6, R7, R11, R12 (an injective map), R15 (non-empty sets). -/
def Config.wf (c : Config) : Bool :=
  decide (1 ≤ c.nEp) && decide (c.nEp ≤ 30)
    && decide (c.ramSize ≤ 4294966271)
    && c.bitmap.wf c.nEp
    && decide (c.regOffset.map Prod.fst).Nodup && decide (c.regOffset.map Prod.snd).Nodup
    && decide (c.epRxArm ≠ 0#32) && decide (c.epTxArm ≠ 0#32)

/-- An index that has per-endpoint registers: `1 <= i < N_EP` (R53). -/
def Config.isEp (c : Config) (i : Nat) : Bool := decide (1 ≤ i) && decide (i < c.nEp)

/-- The opcodes R90 gives a command. -/
def commandOpcode (op : Word) : Bool := decide (1 ≤ op.toNat) && decide (op.toNat ≤ 0x13)

/-- Which terms of `Instr` the encodings of 30_encoding.md can give, in the configuration `c`. -/
def Instr.wellFormed (c : Config) : Instr → Bool
  | .attach | .detach | .reset => true
  | .setAddress _ | .setStatusCallback _ => true
  | .epCheckCap _ _ _ | .epConfigure _ _ _ => true
  | .epSetStall _ | .epClearStall _ | .epIsStalled _ => true
  | .epEnable _ | .epDisable _ | .epFlush _ => true
  | .epWrite _ _ _ _ | .epRead _ _ _ _ | .epReadWait _ _ _ _ => true
  | .epReadContinue _ | .epSetCallback _ _ | .epMps _ => true
  | .readPeek _ _ | .statusZlp => true
  | .reservedOpcode op => !commandOpcode op
  | .gintBus | .gintCep => true
  | .gintEp i => c.isEp i
  | .busReset | .busResume | .busSuspend | .busHighSpeed | .busDmaDone | .busVbus => true
  | .busUnrecognised b => BusBit.all.all fun n => decide (c.bitmap.busPos n ≠ b)
  | .cepSetupToken | .cepSetupPkt | .cepOutToken | .cepInToken | .cepPing | .cepTxComplete | .cepRxComplete => true
  | .cepNakSent | .cepStallSent | .cepError | .cepStatusDone | .cepBufFull | .cepBufEmpty => true
  | .cepUnrecognised b => CepBit.all.all fun n => decide (c.bitmap.cepPos n ≠ b)
  | .epIn i bits => c.isEp i && decide (i % 2 = 1) && decide (bits ≠ 0#32)
  | .epOut i bits => c.isEp i && decide (i % 2 = 0) && decide (bits ≠ 0#32)
  | .alloc size => decide (1 ≤ size.toNat) && decide (size.toNat ≤ Config.mpsMax)

end Sys2Proof
end

