-- ==== Sys2Proof/Decode.lean ====
section
/-! DEFINITION. Decoding of the command port and of the status words, and the encoder (30_encoding.md R86 to R104, 43_endpoint_events.md). -/

namespace Sys2Proof

/-! Bits of a word (R19). -/

/-- The word with exactly bit `n` set. -/
def bit (n : Nat) : Word := 1#32 <<< n

/-- `w[n]` (R19). -/
def tst (w : Word) (n : Nat) : Bool := w.getLsbD n

/-- `x[5][17:16]` of a configuration word, or any two-bit transfer type (R33, R89, R100); every value names one (R102). -/
def XferType.ofBits (e : EnumMap) (v : BitVec 2) : XferType :=
  if v = e.typeBulk then .bulk else if v = e.typeInterrupt then .interrupt
  else if v = e.typeIsochronous then .isochronous else .control

/-- The encoding of a transfer type (R33, R100); `Control` is 0 (D27). -/
def XferType.toBits (e : EnumMap) : XferType → BitVec 2
  | .control => 0#2
  | .bulk => e.typeBulk
  | .interrupt => e.typeInterrupt
  | .isochronous => e.typeIsochronous

/-- The word that holds the number `v` in the field whose bits stand at the positions of the list, the least significant first (R97, R98). -/
def fieldWord : List (Fin 32) → Nat → Word
  | [], _ => 0
  | p :: r, v => (if v.testBit 0 then bit p else 0) ||| fieldWord r (v / 2)

/-! The command port (R87 to R91). Operands are taken out of the registers here, once (log 6). -/

/-- The endpoint address `x[1][7:0]` (R88). -/
def Operands.epAddr (o : Operands) : Byte := o.ep.setWidth 8
/-- `mps = x[5][15:0]` (R89). -/
def Operands.mps (o : Operands) : Half := o.aux.setWidth 16
/-- `type = x[5][17:16]` (R89). -/
def Operands.xferType (e : EnumMap) (o : Operands) : XferType := XferType.ofBits e (o.aux.extractLsb' 16 2)
/-- `addr = x[5][W_ADDR-1:0]`; the higher bits are dropped (R89). -/
def Operands.devAddr (o : Operands) : BitVec 7 := o.aux.setWidth 7

/-- The command that `x[0]` selects, with its operands (R87, R90); every other value is reserved (R91). Total. -/
def decodeCmd (c : Config) (o : Operands) : Instr :=
  match o.op.toNat with
  | 0x01 => .attach
  | 0x02 => .detach
  | 0x03 => .reset
  | 0x04 => .setAddress o.devAddr
  | 0x05 => .setStatusCallback o.aux
  | 0x06 => .epCheckCap o.epAddr o.mps (o.xferType c.bitmap.enums)
  | 0x07 => .epConfigure o.epAddr o.mps (o.xferType c.bitmap.enums)
  | 0x08 => .epSetStall o.epAddr
  | 0x09 => .epClearStall o.epAddr
  | 0x0A => .epIsStalled o.epAddr
  | 0x0B => .epEnable o.epAddr
  | 0x0C => .epDisable o.epAddr
  | 0x0D => .epFlush o.epAddr
  | 0x0E => .epWrite o.epAddr o.ptr o.len o.cntptr
  | 0x0F => .epRead o.epAddr o.ptr o.len o.cntptr
  | 0x10 => .epReadWait o.epAddr o.ptr o.len o.cntptr
  | 0x11 => .epReadContinue o.epAddr
  | 0x12 => .epSetCallback o.epAddr o.aux
  | 0x13 => .epMps o.epAddr
  | _ => .reservedOpcode o.op

/-! Status words (R92 to R95, R101). A position is either a named bit's or unrecognised. -/

/-- What a position of `BUSINTSTS` is (R93, R101). -/
inductive BusEvent where
  | named (b : BusBit)
  | other (p : Fin 32)
  deriving DecidableEq, Repr

/-- What a position of `CEPINTSTS` is (R94, R101). -/
inductive CepEvent where
  | named (b : CepBit)
  | other (p : Fin 32)
  deriving DecidableEq, Repr

/-- The event of position `p` of the bus word. -/
def BitMap.busEvent (m : BitMap) (p : Fin 32) : BusEvent :=
  match BusBit.all.find? fun b => decide (m.busPos b = p) with
  | some b => .named b
  | none => .other p

/-- The event of position `p` of the control-endpoint word. -/
def BitMap.cepEvent (m : BitMap) (p : Fin 32) : CepEvent :=
  match CepBit.all.find? fun b => decide (m.cepPos b = p) with
  | some b => .named b
  | none => .other p

/-- The order the bus scan follows: the source's list, then the unrecognised positions ascending; ascending bit number under the
default `BITMAP` (R125, R191, C5; log 16). -/
def BitMap.busOrder (m : BitMap) : List (Fin 32) :=
  BusBit.all.map m.busPos ++ (List.finRange 32).filter fun p => !(BusBit.all.map m.busPos).contains p

/-- The order the control-endpoint scan follows (R136, R191; log 16). -/
def BitMap.cepOrder (m : BitMap) : List (Fin 32) :=
  CepBit.all.map m.cepPos ++ (List.finRange 32).filter fun p => !(CepBit.all.map m.cepPos).contains p

/-- The position of `Ep[i]` in the global word (R92); an index that `BITMAP` gives no position has none inside the register. -/
def BitMap.gEp (m : BitMap) : Nat → Nat
  | 0 => 32
  | k + 1 =>
    match m.gEps[k]? with
    | some p => p.val
    | none => 32

/-- The indexes that have per-endpoint registers, ascending: 1 to `N_EP - 1` (R134). -/
def Config.epIndexes (c : Config) : List Nat := (List.range (c.nEp - 1)).map (· + 1)

/-- The operation a bus event is. -/
def BusEvent.instr : BusEvent → Instr
  | .named .reset => .busReset
  | .named .resume => .busResume
  | .named .suspend => .busSuspend
  | .named .highSpeed => .busHighSpeed
  | .named .dmaDone => .busDmaDone
  | .named .vbus => .busVbus
  | .other p => .busUnrecognised p

/-- The operation a control-endpoint event is. -/
def CepEvent.instr : CepEvent → Instr
  | .named .setupToken => .cepSetupToken
  | .named .setupPkt => .cepSetupPkt
  | .named .outToken => .cepOutToken
  | .named .inToken => .cepInToken
  | .named .ping => .cepPing
  | .named .txComplete => .cepTxComplete
  | .named .rxComplete => .cepRxComplete
  | .named .nakSent => .cepNakSent
  | .named .stallSent => .cepStallSent
  | .named .error => .cepError
  | .named .statusDone => .cepStatusDone
  | .named .bufFull => .cepBufFull
  | .named .bufEmpty => .cepBufEmpty
  | .other p => .cepUnrecognised p

/-- Every operation a status word selects, in the order a dispatcher takes them (R134, R125, R136, R148). -/
def eventsOf (c : Config) : Format → Word → List Instr
  | .cmd, _ => []
  | .gint, w =>
    (if tst w c.bitmap.gBus then [.gintBus] else []) ++ (if tst w c.bitmap.gCep then [.gintCep] else [])
      ++ ((c.epIndexes.filter fun i => tst w (c.bitmap.gEp i)).map .gintEp)
  | .busint, w => (c.bitmap.busOrder.filter fun (p : Fin 32) => tst w p).map fun p => (c.bitmap.busEvent p).instr
  | .cepint, w => (c.bitmap.cepOrder.filter fun (p : Fin 32) => tst w p).map fun p => (c.bitmap.cepEvent p).instr
  | .epint i, w =>
    if c.isEp i && decide (w ≠ 0#32) then (if i % 2 = 1 then [.epIn i w] else [.epOut i w]) else []

/-- Why a list of words is no operation. -/
inductive DecodeError where
  /-- The command port is six words (x[0] to x[5]); this many were given. -/
  | portWords (n : Nat)
  /-- A status word is one word; this many were given. -/
  | statusWords (n : Nat)
  /-- The status word selects no operation: no named or scanned bit of it is set. -/
  | noEvent
  deriving DecidableEq, Repr

/-- The operation a list of words is in a format (R86); of a status word, the first one a dispatcher takes. Total. -/
def decode (c : Config) : Format → List Word → Except DecodeError Instr
  | .cmd, [w0, w1, w2, w3, w4, w5] =>
    .ok (decodeCmd c { op := w0, ep := w1, ptr := w2, len := w3, cntptr := w4, aux := w5 })
  | .cmd, ws => .error (.portWords ws.length)
  | f, [w] =>
    match eventsOf c f w with
    | i :: _ => .ok i
    | [] => .error .noEvent
  | _, ws => .error (.statusWords ws.length)

/-- The operand registers from bits numbered as spec/opcode_table.json numbers them: bit 0 is bit 0 of x[0], bit 32 is bit 0 of x[1]. -/
def operandsOfNat (w : Nat) : Operands where
  op := BitVec.ofNat 32 w
  ep := BitVec.ofNat 32 (w / 4294967296)
  ptr := BitVec.ofNat 32 (w / 18446744073709551616)
  len := BitVec.ofNat 32 (w / 79228162514264337593543950336)
  cntptr := BitVec.ofNat 32 (w / 340282366920938463463374607431768211456)
  aux := BitVec.ofNat 32 (w / 1461501637330902918203684832716283019655932542976)

/-- The reading of a bare table word. The table's words of 32 bits are values of x[0]; its shorter ones are bits of a status word, and a
bare word does not say of which: it is read as a control-endpoint status word (log 18). -/
def decodeTableWord (nbits w : Nat) : Option Instr :=
  if 32 ≤ nbits then some (decodeCmd Config.default (operandsOfNat w))
  else
    match decode Config.default .cepint [BitVec.ofNat 32 w] with
    | .ok i => some i
    | .error _ => none

/-! The encoder. -/

/-- A command-port tuple with the operands a command reads; the registers it ignores are 0 (R87, R103 "Omitted operands are 0"). -/
def portWords (op : Nat) (ep : Byte) (ptr len cntptr aux : Word) : List Word :=
  [BitVec.ofNat 32 op, ep.setWidth 32, ptr, len, cntptr, aux]

/-- The configuration word `mps | type << 16` (R89, 95_test_vectors.md section 0). -/
def capWord (e : EnumMap) (mps : Half) (ty : XferType) : Word := mps.setWidth 32 ||| ((ty.toBits e).setWidth 32 <<< 16)

/-- The format and words of an operation; `none` for the internal `ALLOC`, which has no encoding (R105). -/
def encode (c : Config) : Instr → Option (Format × List Word)
  | .attach => some (.cmd, portWords 0x01 0 0 0 0 0)
  | .detach => some (.cmd, portWords 0x02 0 0 0 0 0)
  | .reset => some (.cmd, portWords 0x03 0 0 0 0 0)
  | .setAddress addr => some (.cmd, portWords 0x04 0 0 0 0 (addr.setWidth 32))
  | .setStatusCallback cb => some (.cmd, portWords 0x05 0 0 0 0 cb)
  | .epCheckCap ep mps ty => some (.cmd, portWords 0x06 ep 0 0 0 (capWord c.bitmap.enums mps ty))
  | .epConfigure ep mps ty => some (.cmd, portWords 0x07 ep 0 0 0 (capWord c.bitmap.enums mps ty))
  | .epSetStall ep => some (.cmd, portWords 0x08 ep 0 0 0 0)
  | .epClearStall ep => some (.cmd, portWords 0x09 ep 0 0 0 0)
  | .epIsStalled ep => some (.cmd, portWords 0x0A ep 0 0 0 0)
  | .epEnable ep => some (.cmd, portWords 0x0B ep 0 0 0 0)
  | .epDisable ep => some (.cmd, portWords 0x0C ep 0 0 0 0)
  | .epFlush ep => some (.cmd, portWords 0x0D ep 0 0 0 0)
  | .epWrite ep ptr len cntptr => some (.cmd, portWords 0x0E ep ptr len cntptr 0)
  | .epRead ep ptr len cntptr => some (.cmd, portWords 0x0F ep ptr len cntptr 0)
  | .epReadWait ep ptr len cntptr => some (.cmd, portWords 0x10 ep ptr len cntptr 0)
  | .epReadContinue ep => some (.cmd, portWords 0x11 ep 0 0 0 0)
  | .epSetCallback ep cb => some (.cmd, portWords 0x12 ep 0 0 0 cb)
  | .epMps ep => some (.cmd, portWords 0x13 ep 0 0 0 0)
  | .readPeek ep cntptr => some (.cmd, portWords 0x10 ep 0 0 cntptr 0)
  | .statusZlp => some (.cmd, portWords 0x0E 0x80#8 0 0 0 0)
  | .reservedOpcode op => some (.cmd, [op, 0, 0, 0, 0, 0])
  | .gintBus => some (.gint, [bit c.bitmap.gBus])
  | .gintCep => some (.gint, [bit c.bitmap.gCep])
  | .gintEp i => some (.gint, [bit (c.bitmap.gEp i)])
  | .busReset => some (.busint, [bit c.bitmap.busReset])
  | .busResume => some (.busint, [bit c.bitmap.busResume])
  | .busSuspend => some (.busint, [bit c.bitmap.busSuspend])
  | .busHighSpeed => some (.busint, [bit c.bitmap.busHighSpeed])
  | .busDmaDone => some (.busint, [bit c.bitmap.busDmaDone])
  | .busVbus => some (.busint, [bit c.bitmap.busVbus])
  | .busUnrecognised b => some (.busint, [bit b])
  | .cepSetupToken => some (.cepint, [bit c.bitmap.cepSetupToken])
  | .cepSetupPkt => some (.cepint, [bit c.bitmap.cepSetupPkt])
  | .cepOutToken => some (.cepint, [bit c.bitmap.cepOutToken])
  | .cepInToken => some (.cepint, [bit c.bitmap.cepInToken])
  | .cepPing => some (.cepint, [bit c.bitmap.cepPing])
  | .cepTxComplete => some (.cepint, [bit c.bitmap.cepTxComplete])
  | .cepRxComplete => some (.cepint, [bit c.bitmap.cepRxComplete])
  | .cepNakSent => some (.cepint, [bit c.bitmap.cepNakSent])
  | .cepStallSent => some (.cepint, [bit c.bitmap.cepStallSent])
  | .cepError => some (.cepint, [bit c.bitmap.cepError])
  | .cepStatusDone => some (.cepint, [bit c.bitmap.cepStatusDone])
  | .cepBufFull => some (.cepint, [bit c.bitmap.cepBufFull])
  | .cepBufEmpty => some (.cepint, [bit c.bitmap.cepBufEmpty])
  | .cepUnrecognised b => some (.cepint, [bit b])
  | .epIn i bits => some (.epint i, [bits])
  | .epOut i bits => some (.epint i, [bits])
  | .alloc _ => none

/-- The operation the decoder answers for an operation's own words: `READ_PEEK` and `STATUS_ZLP` have no opcode of their own (R104). -/
def Instr.canonical : Instr → Instr
  | .readPeek ep cntptr => .epReadWait ep 0 0 cntptr
  | .statusZlp => .epWrite 0x80#8 0 0 0
  | i => i

end Sys2Proof
end

