-- ==== Sys2Proof/Machine/State.lean ====
section
/-! DEFINITION. The state of UDC-SEQ (10_state.md), the steps of its environment as data (45_sie_agent.md), its faults and refusals,
and the state after reset. -/

namespace Sys2Proof.Machine

/-! Values. -/

/-- `last_control_event` (R29). -/
inductive Lce where
  | none | setup | dataOut | dataIn
  deriving DecidableEq, Repr

/-- The sequencer's states (R31, R110). -/
inductive CtrlState where
  | idle | setup | dataOut | dataIn | status
  deriving DecidableEq, Repr

/-- The kinds of synchronous error (R183); `OK` is the absence of one. -/
inductive Err where
  | invalidParameter | alreadyBusy | notReady | noDevice | outOfSpace | timeout
  deriving DecidableEq, Repr

/-- The events an endpoint callback receives (R25, R100, R151). -/
inductive EpNotice where
  | setup | dataOut | dataIn
  deriving DecidableEq, Repr

/-- The events the bus-level handler receives (R25, R100). -/
inductive BusNotice where
  | reset | suspend | resume
  deriving DecidableEq, Repr

/-- One callback invocation (R25, U18): the handle, what it was called with, and for the status callback its `context`. -/
inductive Call where
  | endpoint (handle : Word) (addr : Byte) (event : EpNotice)
  | status (handle : Word) (event : BusNotice) (context : Word)
  deriving DecidableEq, Repr

/-- Four of a thing, indexed 0 to 3 (`setup_snap`, `CEPSETUP`; R32, R52). -/
structure Quad (α : Type) where
  q0 : α
  q1 : α
  q2 : α
  q3 : α
  deriving DecidableEq, Repr

/-- One Endpoint Descriptor (R33). -/
structure EpDesc where
  mps : Half
  ramBase : Word
  xferType : XferType
  callbackIn : Word
  callbackOut : Word
  deriving DecidableEq, Repr

/-- The descriptor `RESET` leaves (R154): every field zero. -/
def EpDesc.zero : EpDesc :=
  { mps := 0, ramBase := 0, xferType := .control, callbackIn := 0, callbackOut := 0 }

/-- The registers and hidden state of one non-control endpoint (R53 to R60, R62, R63). -/
structure EpRegs where
  epcfg : Word
  eprspctl : Word
  epmps : Word
  epbufstart : Word
  epbufend : Word
  epinten : Word
  epintsts : Word
  epdatcnt : Word
  txfifo : List Byte
  rxfifo : List Byte
  txPending : Bool
  deriving DecidableEq, Repr

/-- An endpoint's registers with nothing set. -/
def EpRegs.zero : EpRegs :=
  { epcfg := 0, eprspctl := 0, epmps := 0, epbufstart := 0, epbufend := 0, epinten := 0, epintsts := 0, epdatcnt := 0,
    txfifo := [], rxfifo := [], txPending := false }

/-- The controller registers that are not per-endpoint, with the control endpoint's FIFOs (R39 to R52, R62, R63). `GINTSTS` is derived (R38). -/
structure Ctl where
  ginten : Word
  busintsts : Word
  businten : Word
  devaddr : Word
  oper : Word
  phyctl : Word
  dmactl : Word
  cepctl : Word
  cepinten : Word
  cepintsts : Word
  ceptxcnt : Word
  cepdatcnt : Word
  cepsetup : Quad Half
  cepTxfifo : List Byte
  cepRxfifo : List Byte
  cepTxPending : Bool
  deriving DecidableEq, Repr

/-- Controller registers with nothing set. -/
def Ctl.zero : Ctl :=
  { ginten := 0, busintsts := 0, businten := 0, devaddr := 0, oper := 0, phyctl := 0, dmactl := 0, cepctl := 0, cepinten := 0,
    cepintsts := 0, ceptxcnt := 0, cepdatcnt := 0, cepsetup := ⟨0, 0, 0, 0⟩, cepTxfifo := [], cepRxfifo := [],
    cepTxPending := false }

/-- The command port, x[0] to x[7] (R36). -/
structure Port where
  /-- x[0] to x[5]: what the HOST wrote. -/
  operands : Operands
  /-- x[6], `ERR`. -/
  err : Word
  /-- x[7], `VAL`. -/
  val : Word
  deriving DecidableEq, Repr

/-- A range of buffer memory the HOST has handed over (R81, R195(b)): `size` bytes from `base`. -/
structure MemRange where
  base : Nat
  size : Nat
  readable : Bool
  writable : Bool
  deriving DecidableEq, Repr

/-- A packet SIE has sent: from which transmit FIFO, and its bytes (R174, R177). -/
structure Packet where
  source : DatReg
  bytes : List Byte
  deriving DecidableEq, Repr

/-! The environment's steps, as data. -/

/-- A status register whose bits SIE sets (R168). -/
inductive StatusReg where
  | bus
  | cep
  | ep (i : Nat)
  deriving DecidableEq, Repr

/-- A self-clearing bit (R79). -/
inductive SelfClear where
  | nakClr
  | cepFlush
  | epFlush (i : Nat)
  deriving DecidableEq, Repr

/-- A step of the SIE agent. The first group is R168, what SIE may do at any time; the second the named well-behaved steps R171 to R182; the
last is U7, the content of packets moved through overlapping ranges. -/
inductive SieStep where
  /-- R168 "set any bit of BUSINTSTS, CEPINTSTS or EPINTSTS[i] (named or not)". -/
  | raiseBits (g : StatusReg) (mask : Word)
  /-- R168 "change any read-only value": `CEPSETUP[k]`. -/
  | latchWord (k : Fin 4) (v : Half)
  /-- R168 "append to or replace a receive FIFO keeping the count equal to its length". -/
  | replaceRx (f : DatReg) (bytes : List Byte)
  /-- R168 "change any read-only value": `PHYCTL.PhyClkStb`, `PHYCTL.VbusDet`, `DMACTL.DmaRd`. -/
  | phyClkStb (b : Bool)
  | vbusDet (b : Bool)
  | dmaRd (b : Bool)
  /-- R168 "remove sent bytes from a transmit FIFO and clear the matching tx_pending flag". Which bytes count as sent the spec leaves open; DESIGN
  CHOICE (log 30): the first `n`, for any `n` up to the FIFO's length, whatever the pending flag and the count are. -/
  | takeTx (f : DatReg) (n : Nat)
  /-- R168 "clear a self-clearing bit that is set". -/
  | dropBit (b : SelfClear)
  /-- R171 `SETUP b0 .. b7`. -/
  | setup (b0 b1 b2 b3 b4 b5 b6 b7 : Byte)
  /-- R172 `OUT_CEP bytes`. -/
  | outCep (bytes : List Byte)
  /-- R173 `IN_TOKEN_CEP`. -/
  | inTokenCep
  /-- R174 `TX_DONE_CEP`. -/
  | txDoneCep
  /-- R175 `STATUS_DONE`. -/
  | statusDone
  /-- R176 `OUT_EP i bytes`. -/
  | outEp (i : Nat) (bytes : List Byte)
  /-- R177 `TX_DONE_EP i`. -/
  | txDoneEp (i : Nat)
  /-- R178 `NAK_CLEARED`, `FLUSHED_CEP`, `FLUSHED_EP i`. -/
  | nakCleared
  | flushedCep
  | flushedEp (i : Nat)
  /-- R179 `PHY_READY`, `PHY_LOST`. -/
  | phyReady
  | phyLost
  /-- R180 `VBUS level`. -/
  | vbus (level : Bool)
  /-- R181 `BUS_RESET`, `BUS_SUSPEND`, `BUS_RESUME`, `BUS_HS`, `DMA_DONE d`. -/
  | busReset
  | busSuspend
  | busResume
  | busHs
  | dmaDone (d : Bool)
  /-- R182 `DIAG reg bit`. -/
  | diag (g : StatusReg) (p : Fin 32)
  /-- U7: unsent bytes in a range that overlaps another endpoint's are any value; the ranges are `EpTable`'s (log 22). -/
  | overlapTx (f : DatReg) (bytes : List Byte)
  deriving DecidableEq, Repr

/-- One step of an agent outside the block: SIE, CLK (R26), or the HOST on its own memory (R81, R195). -/
inductive EnvStep where
  | sie (e : SieStep)
  /-- `n` milliseconds pass. -/
  | tick (n : Nat)
  /-- The HOST stores a byte in its buffer memory. -/
  | hostStore (addr : Nat) (b : Byte)
  /-- The HOST hands over exactly these ranges from now on. -/
  | hostHand (ranges : List MemRange)
  deriving DecidableEq, Repr

/-! Schedules (log 4): what happens in the gap before each access of an agent, in order. A missing gap is an empty one. -/

/-- What happens between two accesses of a pass, or of a command issued from a callback: no pass can start there (R82(a), (c), (d)). -/
abbrev Gap := List EnvStep

/-- What the HOST and the environment do while a callback runs (R25, R194). -/
inductive CallbackAct where
  | env (e : EnvStep)
  /-- The HOST issues a command; the gaps are those of its accesses. -/
  | cmd (ops : Operands) (gaps : List Gap)
  deriving DecidableEq, Repr

/-- One interrupt pass: the gaps before its own accesses, and what happens in each of its callbacks, in order (R134, R135). -/
structure PassScript where
  gaps : List Gap
  callbacks : List (List CallbackAct)
  deriving DecidableEq, Repr

/-- What happens between two accesses of a task-priority command: SIE, CLK and HOST steps, and passes (R82(a), (b)). -/
inductive TaskAct where
  | env (e : EnvStep)
  | isr (p : PassScript)
  deriving DecidableEq, Repr

/-- What happens while no command runs at task priority. -/
inductive TopAct where
  | env (e : EnvStep)
  | isr (p : PassScript)
  /-- The HOST issues a task-priority command (R195(a)); the gaps are those of its accesses. -/
  | cmd (ops : Operands) (gaps : List (List TaskAct))
  deriving DecidableEq, Repr

/-! The state. -/

/-- The state of UDC-SEQ and of the agents around it. Plain data. -/
structure State where
  /-- The configuration record (00_scope.md section 3); no step changes it. -/
  cfg : Config
  /-- `ram_offset` (R28). -/
  ramOffset : Word
  /-- `last_control_event` (R29). -/
  lce : Lce
  /-- `status_callback` (R30). -/
  statusCallback : Word
  /-- `ctrl_state` (R31). -/
  ctrlState : CtrlState
  /-- `setup_snap` (R32). -/
  setupSnap : Quad Half
  /-- `EpTable[0 .. N_EP-1]` (R33). -/
  epTable : List EpDesc
  /-- `irq_connected` (R35). -/
  irqConnected : Bool
  /-- The command port (R36). -/
  port : Port
  /-- Controller registers (R39 to R52). -/
  ctl : Ctl
  /-- Per-endpoint registers of endpoints 1 to N_EP-1 (R53 to R60); the list's entry `k` is endpoint `k + 1`. -/
  eps : List EpRegs
  /-- `in_isr` (R64). -/
  inIsr : Bool
  /-- The global snapshot `g` (R64, R134). -/
  gSnap : Word
  /-- The current sub-dispatcher's snapshot `s` (R64). -/
  sSnap : Word
  /-- The scan position within it (R64). -/
  scanPos : Nat
  /-- The ghost bits `fifo_busy[0 .. N_EP-1]` (R65). -/
  fifoBusy : List Bool
  /-- The upper stack's buffer memory (R67(3), R81): strictly rising addresses, no entry equal to what an unlisted address reads as. -/
  mem : List Host.Cell
  /-- The ranges the HOST has handed over (R81, R195(b)). -/
  hostRanges : List MemRange
  /-- The CLK agent's milliseconds (R26, R197), below 2^64. -/
  now : Nat
  /-- Model's own: the callbacks made, oldest first (U18, log 21). -/
  calls : List Call
  /-- Model's own: the packets sent, oldest first (log 21). -/
  sent : List Packet
  /-- Model's own: what `ALLOC` last returned (R105, log 20). -/
  allocRet : Word
  /-- Model's own: the schedule at top level (log 4). -/
  script : List TopAct
  /-- Model's own: the gaps left to the task-priority command that is running. -/
  taskGaps : List (List TaskAct)
  /-- Model's own: the gaps and callbacks left to the pass that is running. -/
  passGaps : List Gap
  passCbs : List (List CallbackAct)
  /-- Model's own: the gaps left to the command a callback has issued. -/
  cbGaps : List Gap
  /-- Model's own: how many free values have been taken (log 10). -/
  freeCount : Nat
  deriving DecidableEq, Repr

/-- How the machine can stop. None of these writes x[6] (R188). -/
inductive Fault where
  /-- R188, R206: a transfer command on endpoint `i` while another is between its first and last FIFO access. Raised by the transfer
  commands. Safe: the hardware goes on and interleaves the bytes. -/
  | fifoConflict (i : Nat)
  /-- R188, R205, U8: the control write's hold, with nothing left in the schedule that could end it. Raised by EP_WRITE on index 0. Safe: the
  hardware goes on waiting. -/
  | holdNeverEnds
  /-- R81, R188, U10: an access at `addr`, outside the memory the HOST handed over. Raised by the transfer commands. Safe: the spec gives
  the command no step. -/
  | outsideHandedMemory (addr : Nat)
  /-- R20, U10: `PTR + j` or `CNTPTR + j` leaves the 32-bit address space. Raised by the transfer commands. Safe: as above. -/
  | addressWrap
  deriving DecidableEq, Repr

/-- What the model gives no transition. -/
inductive Refusal where
  /-- No meaning yet. Raised by `exec` alone. Safe. -/
  | notModelled (mnemonic : String)
  /-- R76, U3: a push past the capacity of an endpoint's range, onto bytes an earlier write left unsent (log 12). Raised by the two EP_WRITE
  paths. Safe: "a model refuses such a push". -/
  | fifoOverflow (f : DatReg)
  /-- R119, U4: a write on a non-control IN endpoint whose last packet is unsent. Raised by EP_WRITE. Safe: the spec refuses it. -/
  | txPending (i : Nat)
  /-- U5: a transmit count of 0, which only a command that was preempted by a RESET can come to. Raised by EP_WRITE. Safe: the spec
  refuses it. -/
  | zeroTxCount (f : DatReg)
  /-- 45_sie_agent.md: an environment step whose precondition fails, or that SIE never makes. Raised by environment steps. Safe: the
  spec gives no transition. -/
  | stepForbidden (e : EnvStep)
  /-- A term of `Instr` that no encoding gives (an endpoint index that has no registers, an event where a command is expected). Raised by
  the endpoint events. Safe: no run reaches it. -/
  | illFormed
  /-- R26, R197: ATTACH polls so near the end of the 64-bit clock that the budget cannot pass. Raised by ATTACH. Safe: the spec says the
  clock never wraps in a session. -/
  | clockExhausted
  deriving DecidableEq, Repr

/-- Why a running operation ends before its last line: `raise` (R24), a fault or a refusal. -/
inductive Stop where
  | raise (e : Err)
  | fault (f : Fault)
  | refuse (r : Refusal)
  deriving DecidableEq, Repr

/-- A piece of an operation's pseudocode: it runs on the state and gives a value and the next state, or stops. -/
abbrev Prog := EStateM Stop State

/-- The outcome of one step of this machine. -/
abbrev Out := Host.Outcome State Fault Refusal

/-- What a byte of buffer memory that nothing has written reads as. DESIGN CHOICE, unsafe: log 14. -/
def unlistedByte : Byte := 0

/-- Power-on: the three bits the spec requires to be 0 are (R66, R202); everything else, which it leaves unspecified, is 0 or empty
(DESIGN CHOICE, unsafe: log 7), so the block-owned state is what a RESET command leaves (R154); the configuration is the default one (log 1). -/
def State.reset : State where
  cfg := Config.default
  ramOffset := 0
  lce := .none
  statusCallback := 0
  ctrlState := .idle
  setupSnap := ⟨0, 0, 0, 0⟩
  epTable := List.replicate Config.default.nEp EpDesc.zero
  irqConnected := false
  port := { operands := { op := 0, ep := 0, ptr := 0, len := 0, cntptr := 0, aux := 0 }, err := 0, val := 0 }
  ctl := Ctl.zero
  eps := List.replicate (Config.default.nEp - 1) EpRegs.zero
  inIsr := false
  gSnap := 0
  sSnap := 0
  scanPos := 0
  fifoBusy := List.replicate Config.default.nEp false
  mem := []
  hostRanges := []
  now := 0
  calls := []
  sent := []
  allocRet := 0
  script := []
  taskGaps := []
  passGaps := []
  passCbs := []
  cbGaps := []
  freeCount := 0

end Sys2Proof.Machine
end

