-- ==== Sys2Proof/Machine/Flags.lean ====
section
/-! DEFINITION. The words of named bits (30_encoding.md R92 to R99), which bits of a register a write reaches (10_state.md section 3, R78, R80,
D4), and the interrupt status flags (R38, R61). -/

namespace Sys2Proof.Machine

/-! Numbers of the enumerations (R100, R183). -/

/-- `lce` as a number (R29, R100). -/
def Lce.code (e : EnumMap) : Lce → Word
  | .none => 0
  | .setup => e.lceSetup
  | .dataOut => e.lceDataOut
  | .dataIn => e.lceDataIn

/-- `ctrl_state` as a number (R31, R100). -/
def CtrlState.code (e : EnumMap) : CtrlState → Word
  | .idle => 0
  | .setup => e.stateSetup
  | .dataOut => e.stateDataOut
  | .dataIn => e.stateDataIn
  | .status => e.stateStatus

/-- Error codes (R183); `OK` is 0. -/
def Err.code : Err → Word
  | .invalidParameter => 1
  | .alreadyBusy => 2
  | .notReady => 3
  | .noDevice => 4
  | .outOfSpace => 5
  | .timeout => 6

/-- `OK` (R183). -/
def okCode : Word := 0

/-- Endpoint callback event numbers: "the same numbers as `lce`" (R100). -/
def EpNotice.code (e : EnumMap) : EpNotice → Word
  | .setup => e.lceSetup
  | .dataOut => e.lceDataOut
  | .dataIn => e.lceDataIn

/-- Status callback event numbers (R100). -/
def BusNotice.code (e : EnumMap) : BusNotice → Word
  | .reset => e.statusReset
  | .suspend => e.statusSuspend
  | .resume => e.statusResume

/-! Words of named bits: "a set of named bits denotes the word with exactly those bits set" (R19). -/

/-- A set of named bus bits. -/
def busBits (m : BitMap) : List BusBit → Word
  | [] => 0
  | b :: r => bit (m.busPos b) ||| busBits m r

/-- A set of named control-endpoint bits. -/
def cepBits (m : BitMap) : List CepBit → Word
  | [] => 0
  | b :: r => bit (m.cepPos b) ||| cepBits m r

/-- The named bits of `GINTEN` for endpoints `1 .. n` (R92). -/
def gEpBits (m : BitMap) : Nat → Word
  | 0 => 0
  | n + 1 => gEpBits m n ||| bit (m.gEp (n + 1))

/-- The bits of a field (R97, R98). -/
def fieldMask : List (Fin 32) → Word
  | [] => 0
  | p :: r => bit p ||| fieldMask r

/-- A number of `n` bits at bit 0 of its register, where R99 places `Addr` and `EPMPS`. -/
def lowMask (n : Nat) : Word := BitVec.ofNat 32 (2 ^ n - 1)

/-! Which bits of a register a write reaches: the named writable ones; "unnamed bits read as zero and ignore writes" (10_state.md section 3),
read-only bits "ignore writes" (R80). -/

def gintenMask (c : Config) : Word := bit c.bitmap.gBus ||| bit c.bitmap.gCep ||| gEpBits c.bitmap (c.nEp - 1)
def devaddrMask : Word := lowMask Config.wAddr
def operMask (m : BitMap) : Word := bit m.operHiSpdEn
def phyctlMask (m : BitMap) : Word := bit m.phyEn ||| bit m.phyDpPuEn
def phyctlRoMask (m : BitMap) : Word := bit m.phyClkStb ||| bit m.phyVbusDet
def dmactlMask (m : BitMap) : Word := bit m.dmaEn
def dmactlRoMask (m : BitMap) : Word := bit m.dmaRd
def cepctlMask (m : BitMap) : Word := bit m.ctlNakClr ||| bit m.ctlStall ||| bit m.ctlFlush
def epcfgMask (m : BitMap) : Word := fieldMask m.cfgType ||| bit m.cfgDir ||| fieldMask m.cfgEpNum
def eprspctlMask (m : BitMap) : Word := bit m.rspFlush ||| fieldMask m.rspMode ||| bit m.rspHalt
def epmpsMask : Word := lowMask 11

/-- A write of `v` over `old` that reaches the bits of `mask` only. -/
def writeMasked (mask old v : Word) : Word := (old &&& ~~~mask) ||| (v &&& mask)

/-- A one written to a status bit clears it, a zero leaves it (R78). -/
def w1cValue (old v : Word) : Word := old &&& ~~~v

/-- Bit `p` of `w` made `b`. -/
def putBit (w : Word) (p : Nat) (b : Bool) : Word := if b then w ||| bit p else w &&& ~~~bit p

/-- `EPRSPCTL[i]` as EP_CONFIGURE assigns it: `Mode = Fly` for isochronous, `Manual` otherwise, `Flush = 0`, `Halt = 0` (R97, R158). -/
def rspctlValue (m : BitMap) (ty : XferType) : Word :=
  fieldWord m.rspMode (if ty = .isochronous then m.enums.modeFly else m.enums.modeManual).toNat

/-- `EPCFG[i]` as EP_CONFIGURE assigns it (R98, R158). -/
def epcfgValue (m : BitMap) (ty : XferType) (dirIn : Bool) (i : Nat) : Word :=
  fieldWord m.cfgType (ty.toBits m.enums).toNat ||| (if dirIn then bit m.cfgDir else 0) ||| fieldWord m.cfgEpNum i

/-! Interrupt status flags (R38, R61, R189). -/

/-- The registers of endpoint `i`; index 0 and indexes past the last have none (R53). -/
def State.ep (s : State) : Nat → EpRegs
  | 0 => EpRegs.zero
  | k + 1 => s.eps.getD k EpRegs.zero

/-- The bits `Ep[1 .. n]` of `GINTSTS` (R38). -/
def epStatusBits (s : State) : Nat → Word
  | 0 => 0
  | n + 1 =>
    epStatusBits s n
      ||| (if (s.ep (n + 1)).epintsts &&& (s.ep (n + 1)).epinten ≠ 0 then bit (s.cfg.bitmap.gEp (n + 1)) else 0)

/-- `GINTSTS`: "not storage", each bit the OR of its group's status-and-enable (R38, D7). -/
def gintsts (s : State) : Word :=
  (if s.ctl.busintsts &&& s.ctl.businten ≠ 0 then bit s.cfg.bitmap.gBus else 0)
    ||| (if s.ctl.cepintsts &&& s.ctl.cepinten ≠ 0 then bit s.cfg.bitmap.gCep else 0)
    ||| epStatusBits s (s.cfg.nEp - 1)

/-- The interrupt line: level-sensitive, `(GINTSTS & GINTEN) != 0` (R198). -/
def irqLine (s : State) : Bool := decide (gintsts s &&& s.ctl.ginten ≠ 0)

/-- When the ISR agent has a step (R134). -/
def passEnabled (s : State) : Bool := s.irqConnected && !s.inIsr && irqLine s

end Sys2Proof.Machine
end

