-- ==== Sys2Proof/Machine/Operands.lean ====
section
/-! DEFINITION. Operands: endpoint addresses and the checks on them (30_encoding.md R88, 44_driver_api.md R157), descriptors, SETUP bytes
(20_memory.md R69), buffer addresses (R70, R72), the allocator's sum (R105). -/

namespace Sys2Proof.Machine

/-- `dir(a) = a[7]`, true for IN (R88). -/
def dirIn (a : Byte) : Bool := a.getLsbD 7

/-- `idx(a) = a[6:0]` (R88). -/
def epIdx (a : Byte) : Nat := (a.setWidth 7).toNat

/-- The endpoint address of an IN callback, `0x80 | i` (R149). -/
def inAddr (i : Nat) : Byte := 0x80#8 ||| BitVec.ofNat 8 i

/-- The endpoint address of an OUT callback, `i` (R150). -/
def outAddr (i : Nat) : Byte := BitVec.ofNat 8 i

/-- The direction a non-control index fixes: odd is IN, even is OUT; index 0 takes both (R88, C2). -/
def dirFits (a : Byte) : Bool :=
  epIdx a == 0 || (if epIdx a % 2 = 1 then dirIn a else !dirIn a)

/-- `CheckEp(a)` passes (R88). -/
def epOk (c : Config) (a : Byte) : Bool := decide (epIdx a < c.nEp) && dirFits a

/-- `CheckCap(a, mps, type)` passes (R157, checks 1 to 5). -/
def capOk (c : Config) (a : Byte) (mps : Half) (ty : XferType) : Bool :=
  decide (epIdx a < c.nEp)
    && !(decide (epIdx a = 0) && decide (ty ≠ .control))
    && !(decide (epIdx a ≠ 0) && decide (ty = .control))
    && dirFits a
    && decide (1 ≤ mps.toNat) && decide (mps.toNat ≤ Config.mpsMax)
    && !(decide (ty = .control) && decide (Config.mpsCtrlMax < mps.toNat))

/-- The direction a transfer command needs on a non-zero index: `needIn` for a write, its negation for a read (R117). -/
def needFits (a : Byte) (needIn : Bool) : Bool := epIdx a == 0 || dirIn a == needIn

/-- `EpTable[i]` (R33). -/
def State.desc (s : State) (i : Nat) : EpDesc := s.epTable.getD i EpDesc.zero

/-- A change of `EpTable[i]`. -/
def State.setDesc (s : State) (i : Nat) (f : EpDesc → EpDesc) : State := { s with epTable := s.epTable.modify i f }

/-- A change of endpoint `i`'s registers; index 0 has none. -/
def State.setEp (s : State) (i : Nat) (f : EpRegs → EpRegs) : State :=
  match i with
  | 0 => s
  | k + 1 => { s with eps := s.eps.modify k f }

/-- `fifo_busy[i]` (R65). -/
def State.busy (s : State) (i : Nat) : Bool := s.fifoBusy.getD i false

/-- A change of `fifo_busy[i]`. -/
def State.setBusy (s : State) (i : Nat) (b : Bool) : State := { s with fifoBusy := s.fifoBusy.set i b }

/-- `q[k]`. -/
def Quad.get {α : Type} (q : Quad α) (k : Fin 4) : α :=
  if k.val = 0 then q.q0 else if k.val = 1 then q.q1 else if k.val = 2 then q.q2 else q.q3

/-- `q[k] <- v`. -/
def Quad.set {α : Type} (q : Quad α) (k : Fin 4) (v : α) : Quad α :=
  if k.val = 0 then { q with q0 := v } else if k.val = 1 then { q with q1 := v }
  else if k.val = 2 then { q with q2 := v } else { q with q3 := v }

/-- `SetupByte(j)`, `0 <= j <= 7`: byte `2k` is `setup_snap[k][7:0]`, byte `2k + 1` is `setup_snap[k][15:8]` (R69, R121). -/
def setupByte (q : Quad Half) (j : Fin 8) : Byte :=
  if j.val % 2 = 0 then (q.get ⟨j.val / 2, by omega⟩).setWidth 8 else (q.get ⟨j.val / 2, by omega⟩).extractLsb' 8 8

/-- The SETUP word of bytes `lo`, `hi`: `b[2k+1] ++ b[2k]` (R171). -/
def setupWord (lo hi : Byte) : Half := hi ++ lo

/-- Byte `j` of the count word, least significant first (R70). -/
def countByte (n : Word) (j : Nat) : Byte := n.extractLsb' (8 * j) 8

/-- Whether the HOST has handed over address `a` for reading (R81, R195(b)). -/
def hostReadable (s : State) (a : Nat) : Bool :=
  s.hostRanges.any fun r => r.readable && decide (r.base ≤ a) && decide (a < r.base + r.size)

/-- Whether the HOST has handed over address `a` for writing. -/
def hostWritable (s : State) (a : Nat) : Bool :=
  s.hostRanges.any fun r => r.writable && decide (r.base ≤ a) && decide (a < r.base + r.size)

/-- `ram_offset + size > RAM_SIZE`, "sum taken without wrap" (R105). -/
def allocFails (s : State) (size : Half) : Bool := decide (s.cfg.ramSize < s.ramOffset.toNat + size.toNat)

/-- Whether two endpoints' packet-RAM ranges share a byte (R212, U7): endpoint 0's is `[0, mps)` (R68). The ranges are those of `EpTable`, as R68
and R212 give them; after a RESET, when the registers still hold the old ranges (R209, R219) and `EpTable` none, the spec leaves open which count, and
here a range that only the registers hold does not: DESIGN CHOICE, log 22. -/
def rangesOverlap (s : State) (i j : Nat) : Bool :=
  decide ((s.desc i).ramBase.toNat < (s.desc j).ramBase.toNat + (s.desc j).mps.toNat)
    && decide ((s.desc j).ramBase.toNat < (s.desc i).ramBase.toNat + (s.desc i).mps.toNat)

/-- Whether endpoint `i`'s range shares a byte with some other endpoint's. -/
def overlapsAnother (s : State) (i : Nat) : Bool :=
  (List.range s.cfg.nEp).any fun j => decide (j ≠ i) && rangesOverlap s i j

end Sys2Proof.Machine
end

