-- ==== Sys2Proof/Machine/Ops.lean ====
section
/-! DEFINITION. The named operations over the state: register, data-register and buffer-memory accesses (00_scope.md R22, R23,
20_memory.md), errors (R24), and interrupt entry and return (60_exceptions.md R192, R193). -/

namespace Sys2Proof.Machine

/-! Buffer memory: a canonical list of cells (log 14). -/

/-- The byte at an address. -/
def Memory.read : List Host.Cell → Nat → Byte
  | [], _ => unlistedByte
  | (k, v) :: r, a => if a = k then v else Memory.read r a

/-- A store of one byte; storing what an unlisted address reads as removes the entry. -/
def Memory.write : List Host.Cell → Nat → Byte → List Host.Cell
  | [], a, b => if b = unlistedByte then [] else [(a, b)]
  | (k, v) :: r, a, b =>
    if a < k then (if b = unlistedByte then (k, v) :: r else (a, b) :: (k, v) :: r)
    else if a = k then (if b = unlistedByte then r else (a, b) :: r)
    else (k, v) :: Memory.write r a b

/-- Every address is at least `lo` and below the top, addresses strictly rise, and no entry is what an unlisted address reads as. -/
def Memory.wfFrom : Nat → List Host.Cell → Bool
  | _, [] => true
  | lo, (k, v) :: r => decide (lo ≤ k) && decide (k < Config.hostTop) && decide (v ≠ unlistedByte) && Memory.wfFrom (k + 1) r

/-- The canonical form of a memory. -/
def Memory.wf (m : List Host.Cell) : Bool := Memory.wfFrom 0 m

/-! Controller registers (R22). -/

/-- `RegRead` (R22, R73, R80: no side effect). -/
def regRead (r : Reg) (s : State) : Word :=
  match r with
  | .gintsts => gintsts s
  | .ginten => s.ctl.ginten
  | .busintsts => s.ctl.busintsts
  | .businten => s.ctl.businten
  | .devaddr => s.ctl.devaddr
  | .oper => s.ctl.oper
  | .phyctl => s.ctl.phyctl
  | .dmactl => s.ctl.dmactl
  | .cepctl => s.ctl.cepctl
  | .cepinten => s.ctl.cepinten
  | .cepintsts => s.ctl.cepintsts
  | .ceptxcnt => s.ctl.ceptxcnt
  | .cepdatcnt => s.ctl.cepdatcnt
  | .cepsetup k => (s.ctl.cepsetup.get k).setWidth 32
  | .epcfg i => (s.ep i).epcfg
  | .eprspctl i => (s.ep i).eprspctl
  | .epmps i => (s.ep i).epmps
  | .epbufstart i => (s.ep i).epbufstart
  | .epbufend i => (s.ep i).epbufend
  | .epinten i => (s.ep i).epinten
  | .epintsts i => (s.ep i).epintsts
  | .epdatcnt i => (s.ep i).epdatcnt

/-- `RegWrite` (R22): a status register clears by ones (R78), read-only registers and bits ignore the write (R80), a non-zero transmit
count sets the pending flag (R77). -/
def regWrite (r : Reg) (v : Word) (s : State) : State :=
  match r with
  | .gintsts => s
  | .ginten => { s with ctl.ginten := writeMasked (gintenMask s.cfg) s.ctl.ginten v }
  | .busintsts => { s with ctl.busintsts := w1cValue s.ctl.busintsts v }
  | .businten => { s with ctl.businten := v }
  | .devaddr => { s with ctl.devaddr := writeMasked devaddrMask s.ctl.devaddr v }
  | .oper => { s with ctl.oper := writeMasked (operMask s.cfg.bitmap) s.ctl.oper v }
  | .phyctl => { s with ctl.phyctl := writeMasked (phyctlMask s.cfg.bitmap) s.ctl.phyctl v }
  | .dmactl => { s with ctl.dmactl := writeMasked (dmactlMask s.cfg.bitmap) s.ctl.dmactl v }
  | .cepctl => { s with ctl.cepctl := writeMasked (cepctlMask s.cfg.bitmap) s.ctl.cepctl v }
  | .cepinten => { s with ctl.cepinten := v }
  | .cepintsts => { s with ctl.cepintsts := w1cValue s.ctl.cepintsts v }
  | .ceptxcnt => { s with ctl.ceptxcnt := v, ctl.cepTxPending := s.ctl.cepTxPending || decide (v ≠ 0) }
  | .cepdatcnt => s
  | .cepsetup _ => s
  | .epcfg i => s.setEp i fun e => { e with epcfg := writeMasked (epcfgMask s.cfg.bitmap) e.epcfg v }
  | .eprspctl i => s.setEp i fun e => { e with eprspctl := writeMasked (eprspctlMask s.cfg.bitmap) e.eprspctl v }
  | .epmps i => s.setEp i fun e => { e with epmps := writeMasked epmpsMask e.epmps v }
  | .epbufstart i => s.setEp i fun e => { e with epbufstart := v }
  | .epbufend i => s.setEp i fun e => { e with epbufend := v }
  | .epinten i => s.setEp i fun e => { e with epinten := v }
  | .epintsts i => s.setEp i fun e => { e with epintsts := w1cValue e.epintsts v }
  | .epdatcnt i =>
    if i % 2 = 1 then s.setEp i fun e => { e with epdatcnt := v, txPending := e.txPending || decide (v ≠ 0) } else s

/-- A register read by its memory-mapped address, where `REG_OFFSET` gives one (R12, R67(1); log 2). -/
def regReadAt (addr : Nat) (s : State) : Option Word :=
  match s.cfg.regOffset.find? fun e => decide (e.2 = addr) with
  | some (.word r, _) => some (regRead r s)
  | _ => none

/-! FIFOs (R62, R71, R75 to R77). -/

/-- The endpoint a data register belongs to. -/
def datIndex : DatReg → Nat
  | .cep => 0
  | .ep i => i

/-- The receive FIFO behind a data register. -/
def rxfifo (f : DatReg) (s : State) : List Byte :=
  match f with
  | .cep => s.ctl.cepRxfifo
  | .ep i => (s.ep i).rxfifo

/-- The transmit FIFO behind a data register. -/
def txfifo (f : DatReg) (s : State) : List Byte :=
  match f with
  | .cep => s.ctl.cepTxfifo
  | .ep i => (s.ep i).txfifo

/-- "A count-down stops at zero" (R20). -/
def countDown (c : Word) : Word := if c = 0 then 0 else c - 1

/-- Remove the first byte of a receive FIFO and lower its count (R75). -/
def dropRx (f : DatReg) (s : State) : State :=
  match f with
  | .cep => { s with ctl.cepRxfifo := s.ctl.cepRxfifo.tail, ctl.cepdatcnt := countDown s.ctl.cepdatcnt }
  | .ep i => s.setEp i fun e => { e with rxfifo := e.rxfifo.tail, epdatcnt := countDown e.epdatcnt }

/-- Append a byte to a transmit FIFO (R76). -/
def appendTx (f : DatReg) (b : Byte) (s : State) : State :=
  match f with
  | .cep => { s with ctl.cepTxfifo := s.ctl.cepTxfifo ++ [b] }
  | .ep i => s.setEp i fun e => { e with txfifo := e.txfifo ++ [b] }

/-- The capacity of the range a write command pushes into: the `mps` bytes of the descriptor it read at its start (R68, R76, R118, R119).
The command keeps that number through a preemption (R192): a RESET meanwhile leaves the buffer ranges as they were (R219), log 12. -/
def fifoCapacity (mps : Half) : Nat := mps.toNat

/-- The transmit-count register of a data register (R50, R60). -/
def txCountReg : DatReg → Reg
  | .cep => .ceptxcnt
  | .ep i => .epdatcnt i

/-! Pieces of programs. -/

/-- A change of the state with no gap before it. -/
def upd (f : State → State) : Prog Unit := fun s => .ok () (f s)

/-- A value read from the state with no gap before it. -/
def look {α : Type} (f : State → α) : Prog α := fun s => .ok (f s) s

/-- `raise <Kind>` (R24): ends the running command at once. -/
def raise {α : Type} (e : Err) : Prog α := fun s => .error (.raise e) s

/-- Stop with a fault. -/
def stopFault {α : Type} (f : Fault) : Prog α := fun s => .error (.fault f) s

/-- Stop with a refusal. -/
def refuse {α : Type} (r : Refusal) : Prog α := fun s => .error (.refuse r) s

/-- Nothing more to do. -/
def done : Prog Unit := fun s => .ok () s

/-- An agent as its accesses see it: what may happen in the gap before its next access (R82), and how many gaps its schedule has left. -/
structure Agent where
  point : Prog Unit
  left : State → Nat

/-- `RegRead(NAME)` (R22). -/
def rd (g : Agent) (r : Reg) : Prog Word := do
  g.point
  look (regRead r)

/-- `RegWrite(NAME, v)`, and `W1C(NAME, v)` on a write-one-to-clear register (R22, R78). -/
def wr (g : Agent) (r : Reg) (v : Word) : Prog Unit := do
  g.point
  upd (regWrite r v)

/-- `RegSet(NAME, m)`: "two accesses, a read then a write, between which another agent may act" (R22). -/
def rset (g : Agent) (r : Reg) (m : Word) : Prog Unit := do
  let v ← rd g r
  wr g r (v ||| m)

/-- `RegClr(NAME, m)`: "likewise two accesses" (R22). -/
def rclr (g : Agent) (r : Reg) (m : Word) : Prog Unit := do
  let v ← rd g r
  wr g r (v &&& ~~~m)

/-- A read of block-owned state that a pass can change: it has a gap before it, like an access of R74 (log 5). -/
def own {α : Type} (g : Agent) (f : State → α) : Prog α := do
  g.point
  look f

/-- A write of block-owned state that a pass can change (log 5). -/
def ownUpd (g : Agent) (f : State → State) : Prog Unit := do
  g.point
  upd f

/-- `Now()` (R26). -/
def clock (g : Agent) : Prog Nat := do
  g.point
  look State.now

/-- The next free byte (log 10). -/
def takeFreeByte : Prog Byte := fun s => .ok (Config.freeByte s.freeCount) { s with freeCount := s.freeCount + 1 }

/-- `RegRead8` of a data register (R75): with the FIFO empty, an unspecified byte and no change of FIFO or count. -/
def fifoPop (g : Agent) (f : DatReg) : Prog Byte := do
  g.point
  fun s =>
    match rxfifo f s with
    | [] => takeFreeByte s
    | b :: _ => .ok b (dropRx f s)

/-- `RegWrite8` of a data register, by a write command of max packet size `mps` (R76); a push past the capacity is refused (U3, log 12). -/
def fifoPush (g : Agent) (f : DatReg) (mps : Half) (b : Byte) : Prog Unit := do
  g.point
  fun s => if fifoCapacity mps ≤ (txfifo f s).length then refuse (.fifoOverflow f) s else .ok () (appendTx f b s)

/-- The write of a transmit count (R77); a count of 0 is refused (U5, log 13). -/
def sendCount (g : Agent) (f : DatReg) (n : Nat) : Prog Unit :=
  if n = 0 then refuse (.zeroTxCount f) else wr g (txCountReg f) (BitVec.ofNat 32 n)

/-- `MemRead(a, 1)` (R23, R81, R20). -/
def load (g : Agent) (a : Nat) : Prog Byte := do
  g.point
  fun s =>
    if Config.hostTop ≤ a then stopFault .addressWrap s
    else if hostReadable s a then .ok (Memory.read s.mem a) s
    else stopFault (.outsideHandedMemory a) s

/-- `MemWrite(a, 1, b)` (R23, R81, R20). -/
def store (g : Agent) (a : Nat) (b : Byte) : Prog Unit := do
  g.point
  fun s =>
    if Config.hostTop ≤ a then stopFault .addressWrap s
    else if hostWritable s a then .ok () { s with mem := Memory.write s.mem a b }
    else stopFault (.outsideHandedMemory a) s

/-- `if cptr != 0: MemWrite(cptr, 4, n)`: "four single-byte stores in increasing address order" (R72), least significant first (R70). -/
def storeCount (g : Agent) (cptr : Word) (n : Nat) : Prog Unit :=
  if cptr = 0 then done
  else do
    store g cptr.toNat (countByte (BitVec.ofNat 32 n) 0)
    store g (cptr.toNat + 1) (countByte (BitVec.ofNat 32 n) 1)
    store g (cptr.toNat + 2) (countByte (BitVec.ofNat 32 n) 2)
    store g (cptr.toNat + 3) (countByte (BitVec.ofNat 32 n) 3)

/-! How an operation ends. -/

/-- `x[6] <- v` (R24). -/
def State.setErr (s : State) (v : Word) : State := { s with port.err := v }

/-- `x[7] <- v`. -/
def State.setVal (s : State) (v : Word) : State := { s with port.val := v }

/-- A command's end (R24): a raised error writes its code to x[6] and leaves x[7]; a command that ends without `raise` writes OK. -/
def settle (p : Prog Unit) : Prog Unit := fun s =>
  match p s with
  | .ok _ t => .ok () (t.setErr okCode)
  | .error (.raise e) t => .ok () (t.setErr e.code)
  | .error (.fault f) t => .error (.fault f) t
  | .error (.refuse r) t => .error (.refuse r) t

/-- The outcome of a program as one step: a raised error writes its code to x[6] and the machine goes on (R24). -/
def outcome (p : Prog Unit) (s : State) : Out :=
  match p s with
  | .ok _ t => .next t
  | .error (.raise e) t => .next (t.setErr e.code)
  | .error (.fault f) _ => .fault f
  | .error (.refuse r) _ => .refused r

/-- The state after an outcome, if there is one. -/
def nextOf : Out → Option State
  | .next s => some s
  | .fault _ => none
  | .refused _ => none

/-! Interrupt entry and return. -/

/-- Interrupt entry (R192): `in_isr <- 1`; "nothing is saved in any state of this spec, no mode changes, no enable register is masked".
The pass's schedule is set up with it. -/
def enterPass (p : PassScript) (s : State) : State :=
  { s with inIsr := true, passGaps := p.gaps, passCbs := p.callbacks }

/-- Interrupt return (R193): `in_isr <- 0`; the snapshots and scan position are dead after it (R64, log 24). -/
def leavePass (s : State) : State :=
  { s with inIsr := false, gSnap := 0, sSnap := 0, scanPos := 0, passGaps := [], passCbs := [] }

end Sys2Proof.Machine
end

