-- ==== Sys2Proof/Machine/Sie.lean ====
section
/-! DEFINITION. The SIE agent (45_sie_agent.md) and the other agents outside the block, one atomic step at a time. A step is `none` where its
precondition fails: "the model has no transition for the stimulus" (93_implementation_defined.md, treatment `refuse`; log 15). -/

namespace Sys2Proof.Machine

/-- Set bits of a status register (R168). -/
def raiseStatus (g : StatusReg) (mask : Word) (s : State) : State :=
  match g with
  | .bus => { s with ctl.busintsts := s.ctl.busintsts ||| mask }
  | .cep => { s with ctl.cepintsts := s.ctl.cepintsts ||| mask }
  | .ep i => s.setEp i fun e => { e with epintsts := e.epintsts ||| mask }

/-- `set CEPINTSTS.B`. -/
def raiseCep (b : CepBit) (s : State) : State := raiseStatus .cep (bit (s.cfg.bitmap.cepPos b)) s

/-- `set BUSINTSTS.B`. -/
def raiseBus (b : BusBit) (s : State) : State := raiseStatus .bus (bit (s.cfg.bitmap.busPos b)) s

/-- A receive FIFO replaced, the count kept equal to its length (R168). -/
def setRx (f : DatReg) (bytes : List Byte) (s : State) : State :=
  match f with
  | .cep => { s with ctl.cepRxfifo := bytes, ctl.cepdatcnt := BitVec.ofNat 32 bytes.length }
  | .ep i => s.setEp i fun e => { e with rxfifo := bytes, epdatcnt := BitVec.ofNat 32 bytes.length }

/-- A transmit FIFO replaced. -/
def setTx (f : DatReg) (bytes : List Byte) (s : State) : State :=
  match f with
  | .cep => { s with ctl.cepTxfifo := bytes }
  | .ep i => s.setEp i fun e => { e with txfifo := bytes }

/-- A pending flag cleared (R63). -/
def clearPending (f : DatReg) (s : State) : State :=
  match f with
  | .cep => { s with ctl.cepTxPending := false }
  | .ep i => s.setEp i fun e => { e with txPending := false }

/-- The pending flag of a transmit FIFO (R63). -/
def txPending (f : DatReg) (s : State) : Bool :=
  match f with
  | .cep => s.ctl.cepTxPending
  | .ep i => (s.ep i).txPending

/-- The first `n` bytes of a transmit FIFO leave it as a packet; the pending flag clears. R174 and R177 give `n`: the count last written. For
R168, which leaves open which bytes are 'sent', `n` is any number up to the FIFO's length: DESIGN CHOICE, log 30. A FIFO that holds fewer bytes
than the count, which the spec gives no effect (R77, R174, R177), is sent and emptied whole: DESIGN CHOICE, log 31. The record `sent` is the
model's (log 21). -/
def sendPacket (f : DatReg) (n : Nat) (s : State) : State :=
  let s1 := setTx f ((txfifo f s).drop n) (clearPending f s)
  { s1 with sent := s.sent ++ [{ source := f, bytes := (txfifo f s).take n }] }

/-- Whether a data register exists: the control endpoint's, or that of an index with registers. -/
def hasData (c : Config) : DatReg → Bool
  | .cep => true
  | .ep i => c.isEp i

/-- Whether a status register exists. -/
def hasStatus (c : Config) : StatusReg → Bool
  | .bus => true
  | .cep => true
  | .ep i => c.isEp i

/-- Whether a data register has a receive side whose count SIE keeps: the control endpoint and the OUT endpoints (R60, R62). -/
def receives (c : Config) : DatReg → Bool
  | .cep => true
  | .ep i => c.isEp i && decide (i % 2 = 0)

/-- R182: an inert or unrecognised bit of `CEPINTSTS`, an unrecognised bit of `BUSINTSTS`, any bit of `EPINTSTS[i]`. -/
def diagBit (c : Config) (g : StatusReg) (p : Fin 32) : Bool :=
  match g with
  | .bus => decide (c.bitmap.busEvent p = .other p)
  | .cep =>
    decide (c.bitmap.cepEvent p ≠ .named .setupPkt) && decide (c.bitmap.cepEvent p ≠ .named .outToken)
      && decide (c.bitmap.cepEvent p ≠ .named .inToken) && decide (c.bitmap.cepEvent p ≠ .named .statusDone)
  | .ep i => c.isEp i

/-- A precondition, then the step's effect. -/
def guardStep (ok : Bool) (s : State) : Option State := if ok then some s else none

/-- `CEPCTL.Flush` served (R178): both FIFOs emptied, the count and the pending flag zeroed, the bit cleared. -/
def serveCepFlush (s : State) : State :=
  { s with
    ctl.cepTxfifo := [], ctl.cepRxfifo := [], ctl.cepdatcnt := 0, ctl.cepTxPending := false,
    ctl.cepctl := putBit s.ctl.cepctl s.cfg.bitmap.ctlFlush false }

/-- `EPRSPCTL[i].Flush` served (R178); the count of an OUT endpoint is zeroed. -/
def serveEpFlush (i : Nat) (s : State) : State :=
  s.setEp i fun e =>
    { e with
      txfifo := [], rxfifo := [], epdatcnt := if i % 2 = 0 then 0 else e.epdatcnt, txPending := false,
      eprspctl := putBit e.eprspctl s.cfg.bitmap.rspFlush false }

/-- The effect of a SIE step (R168, R171 to R182, U7). A step whose precondition fails has none (DESIGN CHOICE, log 15); `takeTx` may take any
first part of a transmit FIFO as the bytes R168 calls sent (DESIGN CHOICE, log 30). -/
def sieApply (e : SieStep) (s : State) : Option State :=
  match e with
  | .raiseBits g mask => guardStep (hasStatus s.cfg g) (raiseStatus g mask s)
  | .latchWord k v => some { s with ctl.cepsetup := s.ctl.cepsetup.set k v }
  | .replaceRx f bytes => guardStep (receives s.cfg f && decide (bytes.length < 4294967296)) (setRx f bytes s)
  | .phyClkStb b => some { s with ctl.phyctl := putBit s.ctl.phyctl s.cfg.bitmap.phyClkStb b }
  | .vbusDet b => some { s with ctl.phyctl := putBit s.ctl.phyctl s.cfg.bitmap.phyVbusDet b }
  | .dmaRd b => some { s with ctl.dmactl := putBit s.ctl.dmactl s.cfg.bitmap.dmaRd b }
  | .takeTx f n => guardStep (hasData s.cfg f && decide (n ≤ (txfifo f s).length)) (sendPacket f n s)
  | .dropBit .nakClr =>
    guardStep (tst s.ctl.cepctl s.cfg.bitmap.ctlNakClr)
      { s with ctl.cepctl := putBit s.ctl.cepctl s.cfg.bitmap.ctlNakClr false }
  | .dropBit .cepFlush =>
    guardStep (tst s.ctl.cepctl s.cfg.bitmap.ctlFlush)
      { s with ctl.cepctl := putBit s.ctl.cepctl s.cfg.bitmap.ctlFlush false }
  | .dropBit (.epFlush i) =>
    guardStep (s.cfg.isEp i && tst (s.ep i).eprspctl s.cfg.bitmap.rspFlush)
      (s.setEp i fun e => { e with eprspctl := putBit e.eprspctl s.cfg.bitmap.rspFlush false })
  | .setup b0 b1 b2 b3 b4 b5 b6 b7 =>
    some (raiseCep .setupPkt (raiseCep .setupToken
      { s with ctl.cepsetup := ⟨setupWord b0 b1, setupWord b2 b3, setupWord b4 b5, setupWord b6 b7⟩ }))
  | .outCep bytes =>
    guardStep (decide (s.ctl.cepRxfifo = []) && decide (bytes.length ≤ Config.mpsCtrlMax))
      (raiseCep .rxComplete (raiseCep .outToken (setRx .cep bytes s)))
  | .inTokenCep => some (raiseCep .inToken s)
  | .txDoneCep => guardStep s.ctl.cepTxPending (raiseCep .txComplete (sendPacket .cep s.ctl.ceptxcnt.toNat s))
  | .statusDone => some (raiseCep .statusDone s)
  | .outEp i bytes =>
    guardStep (receives s.cfg (.ep i) && decide ((s.ep i).rxfifo = []) && decide (bytes.length ≤ (s.ep i).epmps.toNat))
      (raiseStatus (.ep i)
        (bit s.cfg.bitmap.epRxPkt ||| (if bytes.length < (s.ep i).epmps.toNat then bit s.cfg.bitmap.epShortRx else 0))
        (setRx (.ep i) bytes s))
  | .txDoneEp i =>
    guardStep (s.cfg.isEp i && decide (i % 2 = 1) && (s.ep i).txPending)
      (raiseStatus (.ep i) (bit s.cfg.bitmap.epTxPkt) (sendPacket (.ep i) (s.ep i).epdatcnt.toNat s))
  | .nakCleared =>
    guardStep (tst s.ctl.cepctl s.cfg.bitmap.ctlNakClr)
      { s with ctl.cepctl := putBit s.ctl.cepctl s.cfg.bitmap.ctlNakClr false }
  | .flushedCep => guardStep (tst s.ctl.cepctl s.cfg.bitmap.ctlFlush) (serveCepFlush s)
  | .flushedEp i => guardStep (s.cfg.isEp i && tst (s.ep i).eprspctl s.cfg.bitmap.rspFlush) (serveEpFlush i s)
  | .phyReady => some { s with ctl.phyctl := putBit s.ctl.phyctl s.cfg.bitmap.phyClkStb true }
  | .phyLost => some { s with ctl.phyctl := putBit s.ctl.phyctl s.cfg.bitmap.phyClkStb false }
  | .vbus level =>
    some (raiseBus .vbus { s with ctl.phyctl := putBit s.ctl.phyctl s.cfg.bitmap.phyVbusDet level })
  | .busReset => some (raiseBus .reset s)
  | .busSuspend => some (raiseBus .suspend s)
  | .busResume => some (raiseBus .resume s)
  | .busHs => some (raiseBus .highSpeed s)
  | .dmaDone d => some (raiseBus .dmaDone { s with ctl.dmactl := putBit s.ctl.dmactl s.cfg.bitmap.dmaRd d })
  | .diag g p => guardStep (diagBit s.cfg g p) (raiseStatus g (bit p) s)
  | .overlapTx f bytes =>
    guardStep (hasData s.cfg f && overlapsAnother s (datIndex f) && decide (bytes.length = (txfifo f s).length))
      (setTx f bytes s)

/-- The top of the 64-bit clock (R197). -/
def clockTop : Nat := 18446744073709551616

/-- The effect of a step outside the block: SIE; CLK, whose count "never decreases" and does not wrap (R26, R197); the HOST on its own
memory and on what it hands over (R81, R195(b)). -/
def envApply (e : EnvStep) (s : State) : Option State :=
  match e with
  | .sie k => sieApply k s
  | .tick n => guardStep (decide (s.now + n < clockTop)) { s with now := s.now + n }
  | .hostStore addr b => guardStep (decide (addr < Config.hostTop)) { s with mem := Memory.write s.mem addr b }
  | .hostHand ranges => guardStep (ranges.all fun r => decide (r.base + r.size ≤ Config.hostTop)) { s with hostRanges := ranges }

/-- An environment step as a program: without a transition it is refused. -/
def envStep (e : EnvStep) : Prog Unit := fun s =>
  match envApply e s with
  | some t => .ok () t
  | none => refuse (.stepForbidden e) s

/-- The steps of a gap, in order. -/
def runGap : Gap → Prog Unit
  | [] => done
  | e :: r => do
    envStep e
    runGap r

end Sys2Proof.Machine
end

