-- ==== Sys2Proof/Machine/Agents.lean ====
section
/-! DEFINITION. The two agents whose accesses no pass can interrupt: the interrupt pass itself and a command issued from a callback
(20_memory.md R82(a), (c), (d); 60_exceptions.md R193, R194; log 4, log 5). -/

namespace Sys2Proof.Machine

/-- Before the pass's next access: the next gap of the pass's schedule happens (R82(a)). -/
def passPoint : Prog Unit := fun s =>
  match s.passGaps with
  | [] => done s
  | p :: r => runGap p { s with passGaps := r }

/-- The ISR agent (R134). -/
def isr : Agent := { point := passPoint, left := fun s => s.passGaps.length }

/-- Before the next access of a command issued from a callback: SIE, CLK and HOST may act, no pass can start (R82(d)). -/
def callbackPoint : Prog Unit := fun s =>
  match s.cbGaps with
  | [] => done s
  | p :: r => runGap p { s with cbGaps := r }

/-- The CMD agent in interrupt context (R3, R194). -/
def callbackCmd : Agent := { point := callbackPoint, left := fun s => s.cbGaps.length }

end Sys2Proof.Machine
end

