-- ==== Sys2Proof/Machine/Alloc.lean ====
section
/-! DEFINITION. The RAM/FIFO allocator (40_ram_allocator.md R105 to R109). -/

namespace Sys2Proof.Machine

/-- `ALLOC(size) -> base` (R105): `OutOfSpace` "raised before any state changes"; else the cursor advances and the old one is returned.
The check and the
advance are one step, as R109's "every returned range is [old cursor, new cursor)" needs (log 5). -/
def allocRam (size : Half) : Prog Word := fun s =>
  if allocFails s size then raise .outOfSpace s
  else .ok s.ramOffset { s with ramOffset := s.ramOffset + size.setWidth 32, allocRet := s.ramOffset }

/-- `ALLOC` on its own (log 20): the returned base stands in `allocRet`. -/
def execAlloc (size : Half) (s : State) : Out :=
  outcome (do
    let _ ← allocRam size
    done) s

end Sys2Proof.Machine
end

