-- ==== Sys2Proof/Machine/Device.lean ====
section
/-! DEFINITION. The device-level commands (44_driver_api.md R152 to R156), the capability check (R157), and the reserved opcodes (30_encoding.md
R91), as programs of the agent that runs them. -/

namespace Sys2Proof.Machine

/-- What ATTACH enables on the bus: `{DmaDone, Resume, Reset, Vbus} | BUS_EN_EXTRA` (R152). -/
def attachEnables (c : Config) : Word := busBits c.bitmap [.dmaDone, .resume, .reset, .vbus] ||| c.busEnExtra

/-- R197: "while ATTACH polls, time eventually passes t0 + 50, so that the loop ends". When the schedule holds nothing more, the clock takes a
free value past the budget and the command raises Timeout (log 9). -/
def clockDuty (t0 : Nat) : Prog Unit := fun s =>
  if clockTop ≤ t0 + Config.phyTimeoutMs + 1 then refuse .clockExhausted s
  else
    raise .timeout
      { s with
        now := max s.now (max (t0 + Config.phyTimeoutMs + 1) (Config.freeClock s.freeCount).toNat),
        freeCount := s.freeCount + 1 }

/-- The poll loop of ATTACH (R152): readiness is tested before the clock. The number counts the gaps left in the schedule: past them
nothing more happens but time. -/
def attachPoll (g : Agent) (t0 : Nat) : Nat → Prog Unit
  | 0 => clockDuty t0
  | n + 1 => do
    let c ← look State.cfg
    let v ← rd g .phyctl
    if tst v c.bitmap.phyClkStb then done
    else do
      let t ← clock g
      if Config.phyTimeoutMs < t - t0 then raise .timeout else attachPoll g t0 n

/-- ATTACH (R152). -/
def attach (g : Agent) : Prog Unit := do
  let c ← look State.cfg
  rset g .phyctl (bit c.bitmap.phyEn)
  let t0 ← clock g
  let k ← look g.left
  attachPoll g t0 (k + 1)
  upd fun s => { s with irqConnected := true }
  wr g .businten (attachEnables c)
  rset g .ginten (bit c.bitmap.gBus)
  wr g .devaddr 0
  rset g .oper (bit c.bitmap.operHiSpdEn)
  rset g .phyctl (bit c.bitmap.phyDpPuEn)

/-- DETACH (R153). -/
def detach (g : Agent) : Prog Unit := do
  let c ← look State.cfg
  upd fun s => { s with irqConnected := false }
  rclr g .phyctl (bit c.bitmap.phyEn)
  rclr g .phyctl (bit c.bitmap.phyDpPuEn)

/-- What RESET zeroes: "all block-owned state of section 1 except irq_connected" (R66, R154). -/
def zeroBlock (s : State) : State :=
  { s with
    ramOffset := 0, lce := .none, statusCallback := 0, ctrlState := .idle, setupSnap := ⟨0, 0, 0, 0⟩,
    epTable := List.replicate s.cfg.nEp EpDesc.zero }

/-- RESET (R154): no register access. -/
def resetBlock : Prog Unit := upd zeroBlock

/-- SET_ADDRESS (R155). -/
def setAddress (g : Agent) (addr : BitVec 7) : Prog Unit := wr g .devaddr (addr.setWidth 32)

/-- SET_STATUS_CALLBACK (R156). -/
def setStatusCallback (cb : Word) : Prog Unit := upd fun s => { s with statusCallback := cb }

/-- EP_CHECK_CAP (R157): "the command is pure". -/
def checkCap (a : Byte) (mps : Half) (ty : XferType) : Prog Unit := fun s =>
  if capOk s.cfg a mps ty then done s else raise .invalidParameter s

/-- A reserved opcode (R91): "answers with `raise InvalidParameter` and changes no other state". -/
def reservedOpcode : Prog Unit := raise .invalidParameter

end Sys2Proof.Machine
end

