-- ==== Sys2Proof/Machine/Endpoint.lean ====
section
/-! DEFINITION. The endpoint configuration, stall, flush, callback and lookup commands (44_driver_api.md R158 to R166), as programs of the agent
that runs them. -/

namespace Sys2Proof.Machine

/-- `CheckEp(a); i = idx(a)`, then the rest of a command (R88). -/
def withEp (a : Byte) (k : Config → Nat → Prog Unit) : Prog Unit := fun s =>
  if epOk s.cfg a then k s.cfg (epIdx a) s else raise .invalidParameter s

/-- The three fields of a descriptor that EP_CONFIGURE writes; the callbacks are kept (R158). -/
def configureDesc (i : Nat) (mps : Half) (base : Word) (ty : XferType) (s : State) : State :=
  s.setDesc i fun d => { d with mps := mps, ramBase := base, xferType := ty }

/-- EP_CONFIGURE of a non-control endpoint after its checks (R158). -/
def configureEndpoint (g : Agent) (a : Byte) (i : Nat) (mps : Half) (ty : XferType) : Prog Unit := do
  let c ← look State.cfg
  g.point
  let base ← allocRam mps
  wr g (.epbufstart i) base
  wr g (.epbufend i) (base + mps.setWidth 32 - 1)
  wr g (.epmps i) (mps.setWidth 32)
  wr g (.eprspctl i) (rspctlValue c.bitmap ty)
  wr g (.epcfg i) (epcfgValue c.bitmap ty (dirIn a) i)
  ownUpd g (configureDesc i mps base ty)

/-- EP_CONFIGURE (R158). -/
def epConfigure (g : Agent) (a : Byte) (mps : Half) (ty : XferType) : Prog Unit := do
  checkCap a mps ty
  if epIdx a = 0 then upd (configureDesc 0 mps 0 .control)
  else do
    let c ← look State.cfg
    let v ← rd g .ginten
    if tst v (c.bitmap.gEp (epIdx a)) then raise .alreadyBusy else configureEndpoint g a (epIdx a) mps ty

/-- EP_ENABLE (R159). -/
def epEnable (g : Agent) (a : Byte) : Prog Unit :=
  withEp a fun c i =>
    if i = 0 then rset g .ginten (bit c.bitmap.gCep)
    else do
      rset g .ginten (bit (c.bitmap.gEp i))
      if i % 2 = 0 then rset g (.epinten i) c.epRxArm else done

/-- EP_DISABLE (R160). -/
def epDisable (g : Agent) (a : Byte) : Prog Unit :=
  withEp a fun c i =>
    if i = 0 then do
      rclr g .ginten (bit c.bitmap.gCep)
      wr g .cepinten 0
      wr g .cepintsts 0xFFFFFFFF#32
    else do
      rclr g .ginten (bit (c.bitmap.gEp i))
      wr g (.epinten i) 0
      wr g (.epintsts i) 0xFFFFFFFF#32

/-- EP_SET_STALL (R161): the index decides which register. -/
def epSetStall (g : Agent) (a : Byte) : Prog Unit :=
  withEp a fun c i =>
    if i = 0 then rset g .cepctl (bit c.bitmap.ctlStall) else rset g (.eprspctl i) (bit c.bitmap.rspHalt)

/-- EP_CLEAR_STALL (R162). -/
def epClearStall (g : Agent) (a : Byte) : Prog Unit :=
  withEp a fun c i =>
    if i = 0 then rclr g .cepctl (bit c.bitmap.ctlStall) else rclr g (.eprspctl i) (bit c.bitmap.rspHalt)

/-- A one-bit value, zero-extended (R163). -/
def bitValue (b : Bool) : Word := if b then 1 else 0

/-- EP_IS_STALLED (R163). -/
def epIsStalled (g : Agent) (a : Byte) : Prog Unit :=
  withEp a fun c i =>
    if i = 0 then do
      let v ← rd g .cepctl
      upd fun s => s.setVal (bitValue (tst v c.bitmap.ctlStall))
    else do
      let v ← rd g (.eprspctl i)
      upd fun s => s.setVal (bitValue (tst v c.bitmap.rspHalt))

/-- EP_FLUSH (R164). -/
def epFlush (g : Agent) (a : Byte) : Prog Unit :=
  withEp a fun c i =>
    if i = 0 then rset g .cepctl (bit c.bitmap.ctlFlush) else rset g (.eprspctl i) (bit c.bitmap.rspFlush)

/-- EP_SET_CALLBACK (R165): one slot, keyed by index and direction. -/
def epSetCallback (a : Byte) (cb : Word) : Prog Unit :=
  withEp a fun _ i =>
    upd fun s =>
      s.setDesc i fun d => if dirIn a then { d with callbackIn := cb } else { d with callbackOut := cb }

/-- EP_MPS (R166): an index out of range answers 0; the direction bit is not checked. -/
def epMps (a : Byte) : Prog Unit :=
  upd fun s => s.setVal (if s.cfg.nEp ≤ epIdx a then 0 else (s.desc (epIdx a)).mps.setWidth 32)

end Sys2Proof.Machine
end

