-- ==== Sys2Proof/Machine/Transfer.lean ====
section
/-! DEFINITION. The four transfer commands (41_control_transfer.md R117 to R123) and their two other spellings (30_encoding.md R104), as
programs of the agent that runs them. -/

namespace Sys2Proof.Machine

/-- `XferCheck` (R117), in its order. `nullPtr` is the null-pointer condition `ptr = 0 and len > 0`. -/
def xferCheck (g : Agent) (a : Byte) (needIn nullPtr : Bool) : Prog Unit :=
  withEp a fun c i =>
    if !needFits a needIn then raise .invalidParameter
    else if nullPtr then raise .invalidParameter
    else do
      let d ← own g fun s => s.desc i
      if d.mps = 0 then raise .notReady
      else do
        let v ← rd g .ginten
        if tst v (if i = 0 then c.bitmap.gCep.val else c.bitmap.gEp i) then done else raise .noDevice

/-- The ghost check and flag of R206: a transfer command enters endpoint `i`'s FIFO (R65). -/
def beginFifo (i : Nat) : Prog Unit := fun s =>
  if s.busy i then stopFault (.fifoConflict i) s else .ok () (s.setBusy i true)

/-- A transfer command leaves endpoint `i`'s FIFO (R65). -/
def endFifo (i : Nat) : Prog Unit := upd fun s => s.setBusy i false

/-- A transfer command in endpoint `i`'s FIFO, from its first access to its last (R65, R206). -/
def inFifo (i : Nat) (body : Prog Unit) : Prog Unit := do
  beginFifo i
  body
  endFifo i

/-- `for j: RegWrite8(DAT, MemRead(ptr + j, 1))` for `n` bytes from byte `j` on (R70, R118); `mps` is the command's own (R192). -/
def pushBytes (g : Agent) (f : DatReg) (mps : Half) (ptr : Word) : Nat → Nat → Prog Unit
  | 0, _ => done
  | n + 1, j => do
    let b ← load g (ptr.toNat + j)
    fifoPush g f mps b
    pushBytes g f mps ptr n (j + 1)

/-- `hold until RegRead(CEPINTSTS).TxComplete = 1`, "no bound" (R118, R26, R205). The number counts the gaps left in the schedule: past
them nothing more can raise the flag and the command is stuck (log 8). -/
def holdTxComplete (g : Agent) : Nat → Prog Unit
  | 0 => stopFault .holdNeverEnds
  | n + 1 => do
    let c ← look State.cfg
    let v ← rd g .cepintsts
    if tst v c.bitmap.cepTxComplete then done else holdTxComplete g n

/-- The three actions that enter the status stage: release the NAK, arm StatusDone, `ctrl_state <- Status` (R118, R122). -/
def ackStatus (g : Agent) : Prog Unit := do
  let c ← look State.cfg
  rset g .cepctl (bit c.bitmap.ctlNakClr)
  rset g .cepinten (bit c.bitmap.cepStatusDone)
  ownUpd g fun s => { s with ctrlState := .status }

/-- One packet into the control endpoint's FIFO, sent, and its sending awaited (R118). -/
def pushAndHold (g : Agent) (mps : Half) (ptr : Word) (n : Nat) : Prog Unit := do
  let c ← look State.cfg
  pushBytes g .cep mps ptr n 0
  sendCount g .cep n
  let k ← look g.left
  holdTxComplete g (k + 1)
  wr g .cepintsts (bit c.bitmap.cepTxComplete)

/-- The packet part of EP_WRITE on the control endpoint: `n` of `len` bytes (R118). -/
def sendControl (g : Agent) (mps : Half) (ptr len : Word) (n : Nat) : Prog Unit := do
  let c ← look State.cfg
  inFifo 0 (pushAndHold g mps ptr n)
  if n < len.toNat then rset g .cepinten (bit c.bitmap.cepInToken)
  else do
    rset g .cepinten (bit c.bitmap.cepStatusDone)
    ownUpd g fun s => { s with ctrlState := .status }

/-- The results of a transfer: the count word, then x[7] (R118, R121, D18). -/
def report (g : Agent) (cptr : Word) (n : Nat) : Prog Unit := do
  storeCount g cptr n
  upd fun s => s.setVal (BitVec.ofNat 32 n)

/-- EP_WRITE on index 0 after its checks (R118). -/
def writeControl (g : Agent) (ptr len cptr : Word) : Prog Unit := do
  let d ← own g fun s => s.desc 0
  if len = 0 then do
    if ptr = 0 ∧ cptr = 0 then ackStatus g else done
    report g cptr 0
  else do
    sendControl g d.mps ptr len (min len.toNat d.mps.toNat)
    report g cptr (min len.toNat d.mps.toNat)

/-- One packet into endpoint `i`'s FIFO, queued (R119). -/
def pushAndQueue (g : Agent) (i : Nat) (mps : Half) (ptr : Word) (n : Nat) : Prog Unit := do
  pushBytes g (.ep i) mps ptr n 0
  sendCount g (.ep i) n

/-- The packet part of EP_WRITE on endpoint `i` (R119); a second write before the first packet is sent is refused (U4, log 13). -/
def sendEndpoint (g : Agent) (i : Nat) (mps : Half) (ptr : Word) (n : Nat) : Prog Unit := do
  let c ← look State.cfg
  let pending ← look fun s => (s.ep i).txPending
  if pending then refuse (.txPending i)
  else do
    inFifo i (pushAndQueue g i mps ptr n)
    rset g (.epinten i) c.epTxArm

/-- EP_WRITE on a non-control index after its checks (R119). -/
def writeEndpoint (g : Agent) (i : Nat) (ptr len cptr : Word) : Prog Unit := do
  let d ← own g fun s => s.desc i
  if len = 0 then report g cptr 0
  else do
    sendEndpoint g i d.mps ptr (min len.toNat d.mps.toNat)
    report g cptr (min len.toNat d.mps.toNat)

/-- EP_WRITE (R118, R119). -/
def epWrite (g : Agent) (a : Byte) (ptr len cptr : Word) : Prog Unit := do
  xferCheck g a true (decide (ptr = 0) && decide (len ≠ 0))
  if epIdx a = 0 then writeControl g ptr len cptr else writeEndpoint g (epIdx a) ptr len cptr

/-- `AvailCount(i)` (R120). -/
def availCount (g : Agent) (i : Nat) : Prog Word :=
  if i = 0 then do
    let l ← own g State.lce
    match l with
    | .setup => look fun _ => BitVec.ofNat 32 Config.setupLen
    | .dataOut => rd g .cepdatcnt
    | .none => look fun _ => 0
    | .dataIn => look fun _ => 0
  else rd g (.epdatcnt i)

/-- Byte `j` of the SETUP packet for the read path (R121); a byte past the eighth is a free value (log 11). -/
def setupByteAt (g : Agent) (j : Nat) : Prog Byte := do
  g.point
  fun s => if h : j < 8 then .ok (setupByte s.setupSnap ⟨j, h⟩) s else takeFreeByte s

/-- `for j: MemWrite(ptr + j, 1, SetupByte(j))` for `n` bytes from byte `j` on (R121). -/
def copySetup (g : Agent) (ptr : Word) : Nat → Nat → Prog Unit
  | 0, _ => done
  | n + 1, j => do
    let b ← setupByteAt g j
    store g (ptr.toNat + j) b
    copySetup g ptr n (j + 1)

/-- `for j: MemWrite(ptr + j, 1, RegRead8(DAT(i)))` for `n` bytes from byte `j` on (R70, R121). -/
def popBytes (g : Agent) (f : DatReg) (ptr : Word) : Nat → Nat → Prog Unit
  | 0, _ => done
  | n + 1, j => do
    let b ← fifoPop g f
    store g (ptr.toNat + j) b
    popBytes g f ptr n (j + 1)

/-- `DAT(0) = CEPDAT`, `DAT(i) = EPDAT[i]` (R121). -/
def dat (i : Nat) : DatReg := if i = 0 then .cep else .ep i

/-- The copy of EP_READ_WAIT (R121): from the SETUP snapshot or from the FIFO. -/
def readBytes (g : Agent) (i : Nat) (ptr : Word) (n : Nat) : Prog Unit := do
  let l ← own g State.lce
  if i = 0 ∧ l = .setup then copySetup g ptr n 0
  else inFifo i (popBytes g (dat i) ptr n 0)

/-- EP_READ_WAIT (R121). -/
def epReadWait (g : Agent) (a : Byte) (ptr max cptr : Word) : Prog Unit := do
  xferCheck g a false (decide (ptr = 0) && decide (max ≠ 0))
  let avail ← availCount g (epIdx a)
  if ptr = 0 ∧ max = 0 then report g cptr avail.toNat
  else do
    readBytes g (epIdx a) ptr (min avail.toNat max.toNat)
    report g cptr (min avail.toNat max.toNat)

/-- EP_READ_CONTINUE (R122). -/
def epReadContinue (g : Agent) (a : Byte) : Prog Unit := do
  xferCheck g a false false
  if epIdx a = 0 then do
    let avail ← availCount g 0
    if avail = 0 then ackStatus g
    else do
      let c ← look State.cfg
      rset g .cepinten (bit c.bitmap.cepOutToken)
  else done

/-- EP_READ (R123): "`read` is `read_wait` followed automatically by `read_continue` unless the call was a peek". -/
def epRead (g : Agent) (a : Byte) (ptr max cptr : Word) : Prog Unit := do
  epReadWait g a ptr max cptr
  if ptr = 0 ∧ max = 0 then done else epReadContinue g a

/-- READ_PEEK (R104(b)): EP_READ_WAIT with `buf = 0`, `max = 0`. -/
def readPeek (g : Agent) (a : Byte) (cptr : Word) : Prog Unit := epReadWait g a 0 0 cptr

/-- STATUS_ZLP (R104(c)): EP_WRITE with `ep = 0x80`, `data = 0`, `len = 0`, `cnt = 0`. -/
def statusZlp (g : Agent) : Prog Unit := epWrite g 0x80#8 0 0 0

end Sys2Proof.Machine
end

