-- ==== Sys2Proof/Machine/Callback.lean ====
section
/-! DEFINITION. The command executor as one program (30_encoding.md R90, R91, R104), and callbacks: what the HOST does while one runs
(00_scope.md R25, 60_exceptions.md R194). -/

namespace Sys2Proof.Machine

/-- The program of a command, for the agent that runs it. The status-word events are not commands: no decoding of the port gives one. -/
def command (g : Agent) : Instr → Prog Unit
  | .attach => attach g
  | .detach => detach g
  | .reset => resetBlock
  | .setAddress addr => setAddress g addr
  | .setStatusCallback cb => setStatusCallback cb
  | .epCheckCap a mps ty => checkCap a mps ty
  | .epConfigure a mps ty => epConfigure g a mps ty
  | .epSetStall a => epSetStall g a
  | .epClearStall a => epClearStall g a
  | .epIsStalled a => epIsStalled g a
  | .epEnable a => epEnable g a
  | .epDisable a => epDisable g a
  | .epFlush a => epFlush g a
  | .epWrite a ptr len cptr => epWrite g a ptr len cptr
  | .epRead a ptr max cptr => epRead g a ptr max cptr
  | .epReadWait a ptr max cptr => epReadWait g a ptr max cptr
  | .epReadContinue a => epReadContinue g a
  | .epSetCallback a cb => epSetCallback a cb
  | .epMps a => epMps a
  | .readPeek a cptr => readPeek g a cptr
  | .statusZlp => statusZlp g
  | .reservedOpcode _ => reservedOpcode
  | .gintBus | .gintCep | .gintEp _ => refuse .illFormed
  | .busReset | .busResume | .busSuspend | .busHighSpeed | .busDmaDone | .busVbus | .busUnrecognised _ => refuse .illFormed
  | .cepSetupToken | .cepSetupPkt | .cepOutToken | .cepInToken | .cepPing | .cepTxComplete | .cepRxComplete => refuse .illFormed
  | .cepNakSent | .cepStallSent | .cepError | .cepStatusDone | .cepBufFull | .cepBufEmpty | .cepUnrecognised _ =>
    refuse .illFormed
  | .epIn _ _ | .epOut _ _ | .alloc _ => refuse .illFormed

/-- The HOST writes x[0] to x[5] (R36) and the command's schedule is set up. -/
def issue (ops : Operands) (gaps : List Gap) (s : State) : State :=
  { s with port.operands := ops, cbGaps := gaps }

/-- A command issued from a callback: it "runs to its end before the callback returns" (R82(d), R194); an error it raises "is returned to
that callback like any other error" (R193). Gaps left over are dropped. -/
def nestedCommand (ops : Operands) (gaps : List Gap) : Prog Unit := do
  let c ← look State.cfg
  upd (issue ops gaps)
  settle (command callbackCmd (decodeCmd c ops))
  upd fun s => { s with cbGaps := [] }

/-- What the HOST and the environment do while a callback runs, in order. -/
def runCallback : List CallbackAct → Prog Unit
  | [] => done
  | .env e :: r => do
    envStep e
    runCallback r
  | .cmd ops gaps :: r => do
    nestedCommand ops gaps
    runCallback r

/-- Control goes to the HOST, which returns when its schedule for this callback is done (R195(c), log 21). -/
def hostTurn : Prog Unit := fun s =>
  match s.passCbs with
  | [] => done s
  | l :: r => runCallback l { s with passCbs := r }

/-- `Callback(h, a, e)` (R25): an empty slot does nothing; otherwise the call is recorded (U18) and the HOST runs. -/
def callback (h : Word) (a : Byte) (e : EpNotice) : Prog Unit := fun s =>
  if h = 0 then done s else hostTurn { s with calls := s.calls ++ [.endpoint h a e] }

/-- `StatusCallback(h, e)` (R25); `context` is 0 (R194, D45). -/
def statusNotify (e : BusNotice) : Prog Unit := fun s =>
  if s.statusCallback = 0 then done s else hostTurn { s with calls := s.calls ++ [.status s.statusCallback e 0] }

end Sys2Proof.Machine
end

