-- ==== Sys2Proof/Machine/Bus.lean ====
section
/-! DEFINITION. The bus events (42_bus_events.md R125 to R133). Each clears its own status bit, then runs its handler (R125, D10; log 23). -/

namespace Sys2Proof.Machine

/-- `W1C(BUSINTSTS, 1 << b)`, "this bit only" (R125). -/
def clearBus (p : Nat) : Prog Unit := wr isr .busintsts (bit p)

/-- `for i = 1 .. N_EP-1, ascending: RegSet(EPRSPCTL[i], {Flush})` (R127). -/
def flushAll (m : BitMap) : List Nat → Prog Unit
  | [] => done
  | i :: r => do
    rset isr (.eprspctl i) (bit m.rspFlush)
    flushAll m r

/-- The Reset handler (R127): quiesce, then call back, then clear the control endpoint's flags. -/
def handleReset : Prog Unit := do
  let c ← look State.cfg
  wr isr .devaddr 0
  rclr isr .dmactl (bit c.bitmap.dmaEn)
  rset isr .dmactl (bit c.bitmap.dmaEn)
  flushAll c.bitmap c.epIndexes
  statusNotify .reset
  wr isr .cepintsts 0xFFFFFFFF#32

/-- The Resume handler (R128): call back, then reprogram the bus enables. -/
def handleResume : Prog Unit := do
  let c ← look State.cfg
  statusNotify .resume
  wr isr .businten (busBits c.bitmap [.reset, .suspend] ||| c.busEnExtra)

/-- The Suspend handler (R129). -/
def handleSuspend : Prog Unit := do
  let c ← look State.cfg
  statusNotify .suspend
  wr isr .businten (busBits c.bitmap [.reset, .resume] ||| c.busEnExtra)

/-- The High-speed handler (R130): arm SETUP detection. -/
def handleHighSpeed : Prog Unit := do
  let c ← look State.cfg
  rset isr .cepinten (bit c.bitmap.cepSetupPkt)

/-- The DMA-complete handler (R131): reads the direction, takes no action on either branch. -/
def handleDmaDone : Prog Unit := do
  let c ← look State.cfg
  let v ← rd isr .dmactl
  if tst v c.bitmap.dmaRd then done else done

/-- The VBUS handler (R132): the level is read at handling time. -/
def handleVbus : Prog Unit := do
  let c ← look State.cfg
  let v ← rd isr .phyctl
  if tst v c.bitmap.phyVbusDet then do
    rset isr .phyctl (bit c.bitmap.phyEn)
    rset isr .phyctl (bit c.bitmap.phyDpPuEn)
  else rclr isr .phyctl (bit c.bitmap.phyDpPuEn)

/-- The handler of a bus event; an unrecognised bit has an empty one (R133). -/
def busHandler : BusEvent → Prog Unit
  | .named .reset => handleReset
  | .named .resume => handleResume
  | .named .suspend => handleSuspend
  | .named .highSpeed => handleHighSpeed
  | .named .dmaDone => handleDmaDone
  | .named .vbus => handleVbus
  | .other _ => done

/-- The position of a bus event. -/
def busPosition (m : BitMap) : BusEvent → Nat
  | .named b => m.busPos b
  | .other p => p

/-- A bus event: "the bit is cleared before its handler runs" (R125). -/
def busEvent (e : BusEvent) : Prog Unit := do
  let c ← look State.cfg
  clearBus (busPosition c.bitmap e)
  busHandler e

def execBusReset (s : State) : Out := outcome (busEvent (.named .reset)) s
def execBusResume (s : State) : Out := outcome (busEvent (.named .resume)) s
def execBusSuspend (s : State) : Out := outcome (busEvent (.named .suspend)) s
def execBusHighSpeed (s : State) : Out := outcome (busEvent (.named .highSpeed)) s
def execBusDmaDone (s : State) : Out := outcome (busEvent (.named .dmaDone)) s
def execBusVbus (s : State) : Out := outcome (busEvent (.named .vbus)) s
def execBusUnrecognised (b : Fin 32) (s : State) : Out := outcome (busEvent (.other b)) s

end Sys2Proof.Machine
end

