-- ==== Sys2Proof/Machine/Cep.lean ====
section
/-! DEFINITION. The control endpoint's events: the four protocol events (41_control_transfer.md R113 to R116), the nine inert ones and the
unrecognised bits (43_endpoint_events.md R136 to R147). Each clears its own status bit, then runs its handler (R136, D10; log 23). -/

namespace Sys2Proof.Machine

/-- `W1C(CEPINTSTS, 1 << b)`, "this bit only" (R136). -/
def clearCep (p : Nat) : Prog Unit := wr isr .cepintsts (bit p)

/-- `setup_snap[k] <- RegRead(CEPSETUP[k])[15:0]` (R113). -/
def snapWord (k : Fin 4) : Prog Unit := do
  let v ← rd isr (.cepsetup k)
  upd fun s => { s with setupSnap := s.setupSnap.set k (v.setWidth 16) }

/-- The Setup-packet handler (R113). -/
def handleSetupPkt : Prog Unit := do
  let c ← look State.cfg
  snapWord 0
  snapWord 1
  snapWord 2
  snapWord 3
  upd fun s => { s with lce := .setup }
  rset isr .cepinten c.cepFollowOn
  upd fun s => { s with ctrlState := .setup }
  let d ← look fun s => s.desc 0
  callback d.callbackOut 0x00#8 .setup

/-- The Out-token handler (R114): nothing when no SETUP has been seen since the last Status-done or RESET. -/
def handleOutToken : Prog Unit := do
  let l ← look State.lce
  if l = .none then done
  else do
    upd fun s => { s with lce := .dataOut, ctrlState := .dataOut }
    let d ← look fun s => s.desc 0
    callback d.callbackOut 0x00#8 .dataOut

/-- The In-token handler (R115): no guard. -/
def handleInToken : Prog Unit := do
  upd fun s => { s with lce := .dataIn, ctrlState := .dataIn }
  let d ← look fun s => s.desc 0
  callback d.callbackIn 0x80#8 .dataIn

/-- The Status-done handler (R116): clear state, re-arm only SETUP detection. -/
def handleStatusDone : Prog Unit := do
  let c ← look State.cfg
  upd fun s => { s with lce := .none, ctrlState := .idle }
  wr isr .cepinten (bit c.bitmap.cepSetupPkt)

/-- The handler of a control-endpoint event; the nine inert bits and the unrecognised ones have an empty one (R137 to R147). -/
def cepHandler : CepEvent → Prog Unit
  | .named .setupToken => done
  | .named .setupPkt => handleSetupPkt
  | .named .outToken => handleOutToken
  | .named .inToken => handleInToken
  | .named .ping => done
  | .named .txComplete => done
  | .named .rxComplete => done
  | .named .nakSent => done
  | .named .stallSent => done
  | .named .error => done
  | .named .statusDone => handleStatusDone
  | .named .bufFull => done
  | .named .bufEmpty => done
  | .other _ => done

/-- The position of a control-endpoint event. -/
def cepPosition (m : BitMap) : CepEvent → Nat
  | .named b => m.cepPos b
  | .other p => p

/-- A control-endpoint event: its bit is cleared, then its handler runs (R136). -/
def cepEvent (e : CepEvent) : Prog Unit := do
  let c ← look State.cfg
  clearCep (cepPosition c.bitmap e)
  cepHandler e

def execCepSetupToken (s : State) : Out := outcome (cepEvent (.named .setupToken)) s
def execCepSetupPkt (s : State) : Out := outcome (cepEvent (.named .setupPkt)) s
def execCepOutToken (s : State) : Out := outcome (cepEvent (.named .outToken)) s
def execCepInToken (s : State) : Out := outcome (cepEvent (.named .inToken)) s
def execCepPing (s : State) : Out := outcome (cepEvent (.named .ping)) s
def execCepTxComplete (s : State) : Out := outcome (cepEvent (.named .txComplete)) s
def execCepRxComplete (s : State) : Out := outcome (cepEvent (.named .rxComplete)) s
def execCepNakSent (s : State) : Out := outcome (cepEvent (.named .nakSent)) s
def execCepStallSent (s : State) : Out := outcome (cepEvent (.named .stallSent)) s
def execCepError (s : State) : Out := outcome (cepEvent (.named .error)) s
def execCepStatusDone (s : State) : Out := outcome (cepEvent (.named .statusDone)) s
def execCepBufFull (s : State) : Out := outcome (cepEvent (.named .bufFull)) s
def execCepBufEmpty (s : State) : Out := outcome (cepEvent (.named .bufEmpty)) s
def execCepUnrecognised (b : Fin 32) (s : State) : Out := outcome (cepEvent (.other b)) s

end Sys2Proof.Machine
end

