-- ==== Sys2Proof/Machine/EndpointEvents.lean ====
section
/-! DEFINITION. The endpoint event multiplexer's two events (43_endpoint_events.md R148 to R151). -/

namespace Sys2Proof.Machine

/-- `EP_IN(i)` (R148, R149): the observed bits are cleared in one write, the endpoint's enables turned off, the IN callback made. -/
def endpointIn (i : Nat) (bits : Word) : Prog Unit := do
  wr isr (.epintsts i) bits
  wr isr (.epinten i) 0
  let d ← look fun s => s.desc i
  callback d.callbackIn (inAddr i) .dataIn

/-- `EP_OUT(i)` (R148, R150): the observed bits are cleared in one write, the OUT callback made, no enable changed. -/
def endpointOut (i : Nat) (bits : Word) : Prog Unit := do
  wr isr (.epintsts i) bits
  let d ← look fun s => s.desc i
  callback d.callbackOut (outAddr i) .dataOut

/-- An endpoint event of a well-formed term; another is refused (log 23). -/
def guardEp (ok : Bool) (p : Prog Unit) : Prog Unit := if ok then p else refuse .illFormed

def execEpIn (i : Nat) (bits : Word) (s : State) : Out :=
  outcome (guardEp (s.cfg.isEp i && decide (i % 2 = 1)) (endpointIn i bits)) s

def execEpOut (i : Nat) (bits : Word) (s : State) : Out :=
  outcome (guardEp (s.cfg.isEp i && decide (i % 2 = 0)) (endpointOut i bits)) s

end Sys2Proof.Machine
end

