-- ==== Sys2Proof/Machine/Pass.lean ====
section
/-! DEFINITION. The interrupt pass and its sub-dispatchers (43_endpoint_events.md R134 to R136, R148; 42_bus_events.md R125), and the CMD agent
at task priority, which a pass may preempt between any two accesses (R82(b), R135, R192). -/

namespace Sys2Proof.Machine

/-- The scan of a dispatcher: "for b, ascending: if s[b] = 1: ..." over the snapshot in `sSnap` (R125, R136, D9). -/
def scan (handle : Fin 32 → Prog Unit) : List (Fin 32) → Prog Unit
  | [] => done
  | p :: r => do
    upd fun s => { s with scanPos := p.val }
    let w ← look State.sSnap
    if tst w p.val then handle p else done
    scan handle r

/-- `BusDispatch` (R125): status, then enable, once; then the scan. -/
def busDispatch : Prog Unit := do
  let c ← look State.cfg
  let st ← rd isr .busintsts
  let en ← rd isr .businten
  upd fun s => { s with sSnap := st &&& en }
  scan (fun p => busEvent (c.bitmap.busEvent p)) c.bitmap.busOrder

/-- `CepDispatch` (R136). -/
def cepDispatch : Prog Unit := do
  let c ← look State.cfg
  let st ← rd isr .cepintsts
  let en ← rd isr .cepinten
  upd fun s => { s with sSnap := st &&& en }
  scan (fun p => cepEvent (c.bitmap.cepEvent p)) c.bitmap.cepOrder

/-- `EpDispatch(i)` (R148): any non-zero snapshot is one event; index parity is the direction. -/
def epDispatch (i : Nat) : Prog Unit := do
  let st ← rd isr (.epintsts i)
  let en ← rd isr (.epinten i)
  upd fun s => { s with sSnap := st &&& en }
  let w ← look State.sSnap
  if w = 0 then done else if i % 2 = 1 then endpointIn i w else endpointOut i w

/-- `for i = 1 .. N_EP-1, ascending: if g.Ep[i] = 1: EpDispatch(i)` (R134). -/
def epLoop (m : BitMap) : List Nat → Prog Unit
  | [] => done
  | i :: r => do
    let g ← look State.gSnap
    if tst g (m.gEp i) then epDispatch i else done
    epLoop m r

/-- The body of a pass after entry (R134): the global snapshot once, then bus, control endpoint, endpoints ascending. -/
def passBody : Prog Unit := do
  let c ← look State.cfg
  let gs ← rd isr .gintsts
  let ge ← rd isr .ginten
  upd fun s => { s with gSnap := gs &&& ge }
  let g ← look State.gSnap
  if tst g c.bitmap.gBus then busDispatch else done
  if tst g c.bitmap.gCep then cepDispatch else done
  epLoop c.bitmap c.epIndexes

/-- `IsrPass` (R134): a step of the ISR agent where it has one; otherwise nothing happens (log 26). -/
def isrPass (p : PassScript) : Prog Unit := fun s =>
  if passEnabled s then
    (do
      upd (enterPass p)
      passBody
      upd leavePass) s
  else done s

def execGintBus (s : State) : Out := outcome busDispatch s
def execGintCep (s : State) : Out := outcome cepDispatch s
def execGintEp (i : Nat) (s : State) : Out := outcome (guardEp (s.cfg.isEp i) (epDispatch i)) s

/-- What happens in a gap of a task-priority command: environment steps and whole passes (R82(a), (b)). -/
def runTaskGap : List TaskAct → Prog Unit
  | [] => done
  | .env e :: r => do
    envStep e
    runTaskGap r
  | .isr p :: r => do
    isrPass p
    runTaskGap r

/-- Before the next access of a task-priority command. -/
def taskPoint : Prog Unit := fun s =>
  match s.taskGaps with
  | [] => done s
  | p :: r => runTaskGap p { s with taskGaps := r }

/-- The CMD agent (R3), in the context the state says (R196): "every command may be issued in either". -/
def cmdAgent : Agent where
  point := fun s => if s.inIsr then callbackPoint s else taskPoint s
  left := fun s => if s.inIsr then s.cbGaps.length else s.taskGaps.length

end Sys2Proof.Machine
end

