-- ==== Sys2Proof/Machine/Commands.lean ====
section
/-! DEFINITION. The meaning of every command of the port: its program, run by the CMD agent to its end, with its result in x[6] (R24). -/

namespace Sys2Proof.Machine

/-- A command run to its end (R24). -/
def run (p : Prog Unit) (s : State) : Out := outcome (settle p) s

/-- R152. -/
def execAttach (s : State) : Out := run (attach cmdAgent) s
/-- R153. -/
def execDetach (s : State) : Out := run (detach cmdAgent) s
/-- R154. -/
def execReset (s : State) : Out := run (resetBlock) s
/-- R155. -/
def execSetAddress (addr : BitVec 7) (s : State) : Out := run (setAddress cmdAgent addr) s
/-- R156. -/
def execSetStatusCallback (cb : Word) (s : State) : Out := run (setStatusCallback cb) s
/-- R157. -/
def execEpCheckCap (a : Byte) (mps : Half) (ty : XferType) (s : State) : Out := run (checkCap a mps ty) s
/-- R158. -/
def execEpConfigure (a : Byte) (mps : Half) (ty : XferType) (s : State) : Out := run (epConfigure cmdAgent a mps ty) s
/-- R161. -/
def execEpSetStall (a : Byte) (s : State) : Out := run (epSetStall cmdAgent a) s
/-- R162. -/
def execEpClearStall (a : Byte) (s : State) : Out := run (epClearStall cmdAgent a) s
/-- R163. -/
def execEpIsStalled (a : Byte) (s : State) : Out := run (epIsStalled cmdAgent a) s
/-- R159. -/
def execEpEnable (a : Byte) (s : State) : Out := run (epEnable cmdAgent a) s
/-- R160. -/
def execEpDisable (a : Byte) (s : State) : Out := run (epDisable cmdAgent a) s
/-- R164. -/
def execEpFlush (a : Byte) (s : State) : Out := run (epFlush cmdAgent a) s
/-- R118, R119. -/
def execEpWrite (a : Byte) (ptr len cptr : Word) (s : State) : Out := run (epWrite cmdAgent a ptr len cptr) s
/-- R123. -/
def execEpRead (a : Byte) (ptr max cptr : Word) (s : State) : Out := run (epRead cmdAgent a ptr max cptr) s
/-- R121. -/
def execEpReadWait (a : Byte) (ptr max cptr : Word) (s : State) : Out := run (epReadWait cmdAgent a ptr max cptr) s
/-- R122. -/
def execEpReadContinue (a : Byte) (s : State) : Out := run (epReadContinue cmdAgent a) s
/-- R165. -/
def execEpSetCallback (a : Byte) (cb : Word) (s : State) : Out := run (epSetCallback a cb) s
/-- R166. -/
def execEpMps (a : Byte) (s : State) : Out := run (epMps a) s
/-- R104(b). -/
def execReadPeek (a : Byte) (cptr : Word) (s : State) : Out := run (readPeek cmdAgent a cptr) s
/-- R104(c). -/
def execStatusZlp (s : State) : Out := run (statusZlp cmdAgent) s
/-- R91. -/
def execReservedOpcode (_op : Word) (s : State) : Out := run (reservedOpcode) s

end Sys2Proof.Machine
end

