-- ==== Sys2Proof/Machine/Dispatch.lean ====
section
/-! DEFINITION. The meaning of every operation: one arm per constructor of `Instr`. -/

namespace Sys2Proof.Machine

def exec (i : Instr) (s : State) : Host.Outcome State Fault Refusal :=
  match i with
  | .attach => Sys2Proof.Machine.execAttach s
  | .detach => Sys2Proof.Machine.execDetach s
  | .reset => Sys2Proof.Machine.execReset s
  | .setAddress addr => Sys2Proof.Machine.execSetAddress addr s
  | .setStatusCallback cb => Sys2Proof.Machine.execSetStatusCallback cb s
  | .epCheckCap a mps ty => Sys2Proof.Machine.execEpCheckCap a mps ty s
  | .epConfigure a mps ty => Sys2Proof.Machine.execEpConfigure a mps ty s
  | .epSetStall a => Sys2Proof.Machine.execEpSetStall a s
  | .epClearStall a => Sys2Proof.Machine.execEpClearStall a s
  | .epIsStalled a => Sys2Proof.Machine.execEpIsStalled a s
  | .epEnable a => Sys2Proof.Machine.execEpEnable a s
  | .epDisable a => Sys2Proof.Machine.execEpDisable a s
  | .epFlush a => Sys2Proof.Machine.execEpFlush a s
  | .epWrite a ptr len cptr => Sys2Proof.Machine.execEpWrite a ptr len cptr s
  | .epRead a ptr max cptr => Sys2Proof.Machine.execEpRead a ptr max cptr s
  | .epReadWait a ptr max cptr => Sys2Proof.Machine.execEpReadWait a ptr max cptr s
  | .epReadContinue a => Sys2Proof.Machine.execEpReadContinue a s
  | .epSetCallback a cb => Sys2Proof.Machine.execEpSetCallback a cb s
  | .epMps a => Sys2Proof.Machine.execEpMps a s
  | .readPeek a cptr => Sys2Proof.Machine.execReadPeek a cptr s
  | .statusZlp => Sys2Proof.Machine.execStatusZlp s
  | .reservedOpcode op => Sys2Proof.Machine.execReservedOpcode op s
  | .gintBus => Sys2Proof.Machine.execGintBus s
  | .gintCep => Sys2Proof.Machine.execGintCep s
  | .gintEp k => Sys2Proof.Machine.execGintEp k s
  | .busReset => Sys2Proof.Machine.execBusReset s
  | .busResume => Sys2Proof.Machine.execBusResume s
  | .busSuspend => Sys2Proof.Machine.execBusSuspend s
  | .busHighSpeed => Sys2Proof.Machine.execBusHighSpeed s
  | .busDmaDone => Sys2Proof.Machine.execBusDmaDone s
  | .busVbus => Sys2Proof.Machine.execBusVbus s
  | .busUnrecognised b => Sys2Proof.Machine.execBusUnrecognised b s
  | .cepSetupToken => Sys2Proof.Machine.execCepSetupToken s
  | .cepSetupPkt => Sys2Proof.Machine.execCepSetupPkt s
  | .cepOutToken => Sys2Proof.Machine.execCepOutToken s
  | .cepInToken => Sys2Proof.Machine.execCepInToken s
  | .cepPing => Sys2Proof.Machine.execCepPing s
  | .cepTxComplete => Sys2Proof.Machine.execCepTxComplete s
  | .cepRxComplete => Sys2Proof.Machine.execCepRxComplete s
  | .cepNakSent => Sys2Proof.Machine.execCepNakSent s
  | .cepStallSent => Sys2Proof.Machine.execCepStallSent s
  | .cepError => Sys2Proof.Machine.execCepError s
  | .cepStatusDone => Sys2Proof.Machine.execCepStatusDone s
  | .cepBufFull => Sys2Proof.Machine.execCepBufFull s
  | .cepBufEmpty => Sys2Proof.Machine.execCepBufEmpty s
  | .cepUnrecognised b => Sys2Proof.Machine.execCepUnrecognised b s
  | .epIn k bits => Sys2Proof.Machine.execEpIn k bits s
  | .epOut k bits => Sys2Proof.Machine.execEpOut k bits s
  | .alloc size => Sys2Proof.Machine.execAlloc size s

end Sys2Proof.Machine
end

