-- ==== Sys2Proof/Machine/Step.lean ====
section
/-! DEFINITION. One step of the machine: the next entry of the schedule (log 4), and the placing of an instruction where the next step takes it. -/

namespace Sys2Proof.Machine

/-- The HOST writes x[0] to x[5] and starts a task-priority command (R36, R195(a)). -/
def startCommand (ops : Operands) (gaps : List (List TaskAct)) (s : State) : State :=
  { s with port.operands := ops, taskGaps := gaps }

/-- The command has ended: gaps left over are dropped. -/
def endCommand (o : Out) : Out :=
  match o with
  | .next t => .next { t with taskGaps := [] }
  | .fault f => .fault f
  | .refused r => .refused r

/-- One step: a task-priority command from its start to its end, with everything that comes in between; an interrupt pass; a step of an agent
outside the block. With nothing scheduled "the block waits" (R202). -/
def step (s : State) : Host.Outcome State Fault Refusal :=
  match s.script with
  | [] => .next s
  | .env e :: r => outcome (envStep e) { s with script := r }
  | .isr p :: r => outcome (isrPass p) { s with script := r }
  | .cmd ops gaps :: r => endCommand (exec (decodeCmd s.cfg ops) (startCommand ops gaps { s with script := r }))

/-- `s` with a control-endpoint status word that the next pass decodes, and that pass next (log 18). -/
def withCepWord (s : State) (w : Word) : State :=
  { s with
    irqConnected := true, inIsr := false,
    ctl.ginten := bit s.cfg.bitmap.gCep, ctl.cepinten := w, ctl.cepintsts := w,
    script := .isr { gaps := [], callbacks := [] } :: s.script }

/-- `s` with a table word where the next step takes its operation from: a 32-bit word is x[0] of a command the HOST issues next, with the
other operand registers as the word's further bits give them; a shorter one is a control-endpoint status word (log 18, log 19). -/
def State.withFetchWord (s : State) (nbits w : Nat) : State :=
  if 32 ≤ nbits then { s with script := .cmd (operandsOfNat w) [] :: s.script }
  else withCepWord s (BitVec.ofNat 32 w)

end Sys2Proof.Machine
end

