-- ==== Sys2Proof/Safety.lean ====
section
/-! DEFINITION. What claims speak of: the invariants of a run, the states in which nothing comes between two accesses, and a stop. -/

namespace Sys2Proof.Machine

/-! Invariants. Each is decidable, so that a witness is checked by evaluation. -/

/-- The lists of endpoints have the sizes R33, R53 and R65 give them. -/
abbrev State.Sized (s : State) : Prop :=
  s.epTable.length = s.cfg.nEp ∧ s.eps.length = s.cfg.nEp - 1 ∧ s.fifoBusy.length = s.cfg.nEp

/-- An endpoint's registers hold named bits only: "unnamed bits read as zero" (10_state.md section 3, R97 to R99). -/
abbrev EpRegs.NamedBits (m : BitMap) (e : EpRegs) : Prop :=
  e.epcfg &&& ~~~epcfgMask m = 0 ∧ e.eprspctl &&& ~~~eprspctlMask m = 0 ∧ e.epmps &&& ~~~epmpsMask = 0

/-- "Unnamed bits read as zero and ignore writes" (10_state.md section 3). -/
abbrev State.NamedBits (s : State) : Prop :=
  s.ctl.ginten &&& ~~~gintenMask s.cfg = 0 ∧ s.ctl.devaddr &&& ~~~devaddrMask = 0
    ∧ s.ctl.oper &&& ~~~operMask s.cfg.bitmap = 0
    ∧ s.ctl.phyctl &&& ~~~(phyctlMask s.cfg.bitmap ||| phyctlRoMask s.cfg.bitmap) = 0
    ∧ s.ctl.dmactl &&& ~~~(dmactlMask s.cfg.bitmap ||| dmactlRoMask s.cfg.bitmap) = 0
    ∧ s.ctl.cepctl &&& ~~~cepctlMask s.cfg.bitmap = 0
    ∧ ∀ e ∈ s.eps, EpRegs.NamedBits s.cfg.bitmap e

/-- R62: `CEPDATCNT = length(cep_rxfifo)` and, for an OUT endpoint, `EPDATCNT[i] = length(ep_rxfifo[i])`. -/
abbrev State.CountsFit (s : State) : Prop :=
  s.ctl.cepdatcnt.toNat = s.ctl.cepRxfifo.length
    ∧ ∀ i < s.cfg.nEp, i ≠ 0 → i % 2 = 0 → (s.ep i).epdatcnt.toNat = (s.ep i).rxfifo.length

/-- R112: (a) `Idle` implies `lce = None`; (b) `Setup`, `DataOut`, `DataIn` imply the `lce` of the same name; (c) `Status` allows any. -/
abbrev State.Sequenced (s : State) : Prop :=
  (s.ctrlState = .idle → s.lce = .none) ∧ (s.ctrlState = .setup → s.lce = .setup)
    ∧ (s.ctrlState = .dataOut → s.lce = .dataOut) ∧ (s.ctrlState = .dataIn → s.lce = .dataIn)

/-- R34(b) and (d), and the packet-size limits of R33; the second half of (b) for configured endpoints (log 25). -/
abbrev State.TableTyped (s : State) : Prop :=
  (s.desc 0).xferType = .control ∧ (s.desc 0).ramBase = 0 ∧ (s.desc 0).mps.toNat ≤ Config.mpsCtrlMax
    ∧ ∀ i < s.cfg.nEp, i ≠ 0 → (s.desc i).mps ≠ 0 →
        (s.desc i).xferType ≠ .control ∧ (s.desc i).mps.toNat ≤ Config.mpsMax

/-- What every step keeps, whatever is scheduled. -/
abbrev State.Good (s : State) : Prop :=
  s.cfg.wf = true ∧ s.Sized ∧ s.NamedBits ∧ s.CountsFit ∧ s.Sequenced ∧ s.TableTyped
    ∧ Memory.wf s.mem = true ∧ s.now < clockTop

/-- Between steps no pass and no command is in progress: `in_isr = 0`, every `fifo_busy[i] = 0` (R64 to R66), and no schedule is half done. -/
abbrev State.AtRest (s : State) : Prop :=
  s.inIsr = false ∧ (∀ b ∈ s.fifoBusy, b = false) ∧ s.gSnap = 0 ∧ s.sSnap = 0 ∧ s.scanPos = 0
    ∧ s.taskGaps = [] ∧ s.passGaps = [] ∧ s.passCbs = [] ∧ s.cbGaps = []

/-- A configured non-control endpoint (R34(c), R33 "0 means never configured"). -/
def State.configured (s : State) (i : Nat) : Bool := decide (i ≠ 0) && decide ((s.desc i).mps ≠ 0)

/-- Two configured non-control endpoints (R34(c)). -/
def State.twoConfigured (s : State) (i j : Nat) : Bool := s.configured i && s.configured j && decide (i ≠ j)

/-- One past the last byte of an endpoint's packet-RAM range, `ram_base + mps` (R34(c)). -/
def State.rangeEnd (s : State) (i : Nat) : Nat := (s.desc i).ramBase.toNat + (s.desc i).mps.toNat

/-- R34(c), R109: `ram_offset <= RAM_SIZE`; every configured non-control range ends at or below the cursor and no two of them share a byte. -/
abbrev State.RamDisjoint (s : State) : Prop :=
  s.ramOffset.toNat ≤ s.cfg.ramSize
    ∧ (∀ i < s.cfg.nEp, s.configured i = true → s.rangeEnd i ≤ s.ramOffset.toNat)
    ∧ ∀ i < s.cfg.nEp, ∀ j < s.cfg.nEp, s.twoConfigured i j = true →
        s.rangeEnd i ≤ (s.desc j).ramBase.toNat ∨ s.rangeEnd j ≤ (s.desc i).ramBase.toNat

/-! Undisturbed operations: no other agent acts between two accesses. -/

/-- Nothing comes between two accesses of a command that runs in this state. -/
abbrev State.CmdAlone (s : State) : Prop := s.taskGaps = [] ∧ s.cbGaps = []

/-- Nothing comes between two accesses of a pass in this state, and a callback returns at once. -/
abbrev State.PassAlone (s : State) : Prop := s.passGaps = [] ∧ s.passCbs = []

/-- A schedule of a command in which no pass starts: only the environment acts (R82(a)). -/
def noPass (gaps : List (List TaskAct)) : Bool :=
  gaps.all fun g => g.all fun a => match a with
    | .env _ => true
    | .isr _ => false

/-- The step stopped: a fault or a refusal. -/
def stopped : Out → Bool
  | .next _ => false
  | .fault _ => true
  | .refused _ => true

/-- A safe step goes on to a next state. -/
def safeStep (s : State) : Bool := !stopped (step s)

/-! Memory as claims speak of it. -/

/-- The `n` bytes at `p`, in increasing address order (R70). -/
def bytesAt (m : List Host.Cell) (p : Word) (n : Nat) : List Byte := (List.range n).map fun j => Memory.read m (p.toNat + j)

/-- Bytes stored at increasing addresses (R70). -/
def putBytes : List Host.Cell → Nat → List Byte → List Host.Cell
  | m, _, [] => m
  | m, a, b :: r => putBytes (Memory.write m a b) (a + 1) r

end Sys2Proof.Machine
end

