-- ==== Sys2Proof/Certificates/Slice0/Obligations.lean ====
section
/-! DEFINITION. The statements for the provers, and the few functions they are written with. -/

namespace Sys2Proof.Claims

open Sys2Proof.Machine

/-! The functions the statements are written with. Each is the spec's own expression for a result. -/

/-- The operands with every bit zeroed that the command does not read (R87, R88, R89). -/
def kept (o : Operands) : Operands :=
  let n := o.op.toNat
  { op := o.op
    ep := if 0x06 ≤ n ∧ n ≤ 0x13 then o.ep &&& 0xFF#32 else 0
    ptr := if n = 0x0E ∨ n = 0x0F ∨ n = 0x10 then o.ptr else 0
    len := if n = 0x0E ∨ n = 0x0F ∨ n = 0x10 then o.len else 0
    cntptr := if n = 0x0E ∨ n = 0x0F ∨ n = 0x10 then o.cntptr else 0
    aux :=
      if n = 0x04 then o.aux &&& 0x7F#32
      else if n = 0x05 ∨ n = 0x12 then o.aux
      else if n = 0x06 ∨ n = 0x07 then o.aux &&& 0x3FFFF#32
      else 0 }

/-- The six operand registers as words, x[0] to x[5]. -/
def words (o : Operands) : List Word := [o.op, o.ep, o.ptr, o.len, o.cntptr, o.aux]

/-- Operations carried out one after another, up to a stop. -/
def inOrder : List Instr → State → Out
  | [], s => .next s
  | i :: r, s =>
    match exec i s with
    | .next t => inOrder r t
    | .fault f => .fault f
    | .refused x => .refused x

/-- The loop of R125 and R136: at each position, in order, the operation of that position where the snapshot's bit is set. -/
def scanRun (op : Fin 32 → Instr) : List (Fin 32) → State → Out
  | [], s => .next s
  | p :: r, s =>
    if tst s.sSnap p.val then
      match exec (op p) { s with scanPos := p.val } with
      | .next t => scanRun op r t
      | .fault f => .fault f
      | .refused x => .refused x
    else scanRun op r { s with scanPos := p.val }

/-- The same outcome with what is left of a pass's transient state cleared (R193, log 24). -/
def leave : Out → Out
  | .next t => .next { t with inIsr := false, gSnap := 0, sSnap := 0, scanPos := 0, passGaps := [], passCbs := [] }
  | .fault f => .fault f
  | .refused x => .refused x

/-- The same outcome with the command's unused schedule dropped (log 4). -/
def dropTaskGaps : Out → Out
  | .next t => .next { t with taskGaps := [] }
  | .fault f => .fault f
  | .refused x => .refused x

/-- `CheckCap` (R157), check by check. -/
def capAccepted (c : Config) (a : Byte) (mps : Half) (ty : XferType) : Prop :=
  epIdx a < c.nEp ∧ (epIdx a = 0 → ty = .control) ∧ (epIdx a ≠ 0 → ty ≠ .control)
    ∧ (epIdx a ≠ 0 → epIdx a % 2 = 1 → dirIn a = true) ∧ (epIdx a ≠ 0 → epIdx a % 2 = 0 → dirIn a = false)
    ∧ 1 ≤ mps.toNat ∧ mps.toNat ≤ 1024 ∧ (ty = .control → mps.toNat ≤ 64)

/-- `CheckEp` (R88). -/
def epAccepted (c : Config) (a : Byte) : Prop :=
  epIdx a < c.nEp ∧ (epIdx a ≠ 0 → epIdx a % 2 = 1 → dirIn a = true) ∧ (epIdx a ≠ 0 → epIdx a % 2 = 0 → dirIn a = false)

/-- The `GINTEN` bit of an index: `Cep` for 0, `Ep[i]` otherwise. -/
def enableBit (c : Config) (i : Nat) : Word := if i = 0 then bit c.bitmap.gCep else bit (c.bitmap.gEp i)

/-- `XferCheck` (R117), in its order: the code of the first error that applies, if one does. -/
def xferError (s : State) (a : Byte) (needIn : Bool) (ptr len : Word) : Option Word :=
  if ¬epIdx a < s.cfg.nEp then some 1
  else if epIdx a ≠ 0 ∧ epIdx a % 2 = 1 ∧ dirIn a = false then some 1
  else if epIdx a ≠ 0 ∧ epIdx a % 2 = 0 ∧ dirIn a = true then some 1
  else if epIdx a ≠ 0 ∧ dirIn a ≠ needIn then some 1
  else if ptr = 0 ∧ len ≠ 0 then some 1
  else if (s.desc (epIdx a)).mps = 0 then some 3
  else if s.ctl.ginten &&& enableBit s.cfg (epIdx a) = 0 then some 4
  else none

/-- Whether the HOST has handed over `n` bytes at `p` for reading. -/
def readable (s : State) (p : Word) (n : Nat) : Prop := p.toNat + n ≤ 4294967296 ∧ ∀ j < n, hostReadable s (p.toNat + j) = true

/-- Whether the HOST has handed over `n` bytes at `p` for writing. -/
def writable (s : State) (p : Word) (n : Nat) : Prop := p.toNat + n ≤ 4294967296 ∧ ∀ j < n, hostWritable s (p.toNat + j) = true

/-- `if cptr != 0: MemWrite(cptr, 4, n)`: four bytes, least significant first (R70, R118). -/
def putCount (m : List Host.Cell) (cptr : Word) (n : Nat) : List Host.Cell :=
  if cptr = 0 then m
  else putBytes m cptr.toNat
    [BitVec.ofNat 8 n, BitVec.ofNat 8 (n / 256), BitVec.ofNat 8 (n / 65536), BitVec.ofNat 8 (n / 16777216)]

/-- The count word, where there is one, may be written (R195(b)). -/
def countFits (s : State) (cptr : Word) : Prop := cptr ≠ 0 → writable s cptr 4

/-- `x[7] <- n`, the count word, `x[6] <- OK`: how a transfer command ends. -/
def reported (s : State) (cptr : Word) (n : Nat) : State :=
  { s with mem := putCount s.mem cptr n, port.val := BitVec.ofNat 32 n, port.err := 0 }

/-- `RegSet(CEPCTL, {NakClr})`, `RegSet(CEPINTEN, {StatusDone})`, `ctrl_state <- Status` (R118, R122). -/
def awaitStatus (s : State) : State :=
  { s with
    ctl.cepctl := s.ctl.cepctl ||| bit s.cfg.bitmap.ctlNakClr
    ctl.cepinten := s.ctl.cepinten ||| bit s.cfg.bitmap.cepStatusDone
    ctrlState := .status }

/-- `AvailCount(i)` (R120). -/
def available (s : State) (i : Nat) : Nat :=
  if i = 0 then
    match s.lce with
    | .setup => 8
    | .dataOut => s.ctl.cepdatcnt.toNat
    | .none => 0
    | .dataIn => 0
  else (s.ep i).epdatcnt.toNat

/-- The receive FIFO of an index (R62). -/
def received (s : State) (i : Nat) : List Byte := if i = 0 then s.ctl.cepRxfifo else (s.ep i).rxfifo

/-- `n` bytes popped from the receive FIFO of an index, its count lowered by as many (R75). -/
def drained (s : State) (i n : Nat) : State :=
  if i = 0 then { s with ctl.cepRxfifo := s.ctl.cepRxfifo.drop n, ctl.cepdatcnt := s.ctl.cepdatcnt - BitVec.ofNat 32 n }
  else s.setEp i fun e => { e with rxfifo := e.rxfifo.drop n, epdatcnt := e.epdatcnt - BitVec.ofNat 32 n }

/-- The eight bytes of the SETUP snapshot, low byte of each word first (R69). -/
def setupBytes (q : Quad Half) : List Byte :=
  [q.q0.setWidth 8, q.q0.extractLsb' 8 8, q.q1.setWidth 8, q.q1.extractLsb' 8 8,
    q.q2.setWidth 8, q.q2.extractLsb' 8 8, q.q3.setWidth 8, q.q3.extractLsb' 8 8]

/-- Whether a read with these operands is a peek (R121). -/
def isPeek (ptr max : Word) : Bool := decide (ptr = 0) && decide (max = 0)

/-- The number of bytes EP_READ_WAIT reports (R121). -/
def readCount (s : State) (a : Byte) (ptr max : Word) : Nat :=
  if isPeek ptr max then available s (epIdx a) else min (available s (epIdx a)) max.toNat

/-- What EP_READ_WAIT leaves (R121): a peek changes nothing but the count; a SETUP read copies the snapshot; any other drains the FIFO. -/
def readWait (s : State) (a : Byte) (ptr max cptr : Word) : State :=
  if isPeek ptr max then reported s cptr (readCount s a ptr max)
  else if epIdx a = 0 ∧ s.lce = .setup then
    reported { s with mem := putBytes s.mem ptr.toNat ((setupBytes s.setupSnap).take (readCount s a ptr max)) } cptr
      (readCount s a ptr max)
  else
    reported
      { drained s (epIdx a) (readCount s a ptr max) with
        mem := putBytes s.mem ptr.toNat ((received s (epIdx a)).take (readCount s a ptr max)) }
      cptr (readCount s a ptr max)

/-- What EP_READ_CONTINUE leaves (R122), but for x[6]. -/
def readContinue (s : State) (a : Byte) : State :=
  if epIdx a ≠ 0 then s
  else if available s 0 = 0 then awaitStatus s
  else { s with ctl.cepinten := s.ctl.cepinten ||| bit s.cfg.bitmap.cepOutToken }

/-- What a read needs of the HOST and of the state (R195(b), R206, R62): memory handed over, the FIFO free and as long as its count. -/
def readReady (s : State) (a : Byte) (ptr max cptr : Word) : Prop :=
  countFits s cptr
    ∧ (isPeek ptr max = false → writable s ptr (readCount s a ptr max))
    ∧ (isPeek ptr max = false → ¬(epIdx a = 0 ∧ s.lce = .setup) →
        s.busy (epIdx a) = false ∧ available s (epIdx a) ≤ (received s (epIdx a)).length)

/-- `Callback(h, a, e)` whose HOST returns at once: the call is made unless the slot is empty (R25). -/
def called (h : Word) (a : Byte) (e : EpNotice) (s : State) : State :=
  if h = 0 then s else { s with calls := s.calls ++ [.endpoint h a e] }

/-- `StatusCallback(status_callback, e)` whose HOST returns at once (R25, R194). -/
def notified (e : BusNotice) (s : State) : State :=
  if s.statusCallback = 0 then s else { s with calls := s.calls ++ [.status s.statusCallback e 0] }

/-- The first four lines of the bus Reset handler (R127), after the clear of its status bit (R125). -/
def quiesced (s : State) : State :=
  { s with
    ctl.busintsts := s.ctl.busintsts &&& ~~~bit s.cfg.bitmap.busReset
    ctl.devaddr := 0
    ctl.dmactl := s.ctl.dmactl ||| bit s.cfg.bitmap.dmaEn
    eps := s.eps.map fun e => { e with eprspctl := e.eprspctl ||| bit s.cfg.bitmap.rspFlush } }

/-- One step whose schedule holds a single SIE step. -/
def sieRun (s : State) (e : SieStep) : Out := step { s with script := .env (.sie e) :: s.script }

/-- How many bytes an EP_WRITE sends: `n = min(len, mps)` (R118, R119). -/
def sendCountOf (s : State) (a : Byte) (len : Word) : Nat := min len.toNat (s.desc (epIdx a)).mps.toNat

/-- What a packet write needs of the HOST and of the state (R195(b), R206, R76): memory handed over, the FIFO free, room for the bytes. -/
def sendReady (s : State) (a : Byte) (ptr len cptr : Word) (fifo : List Byte) : Prop :=
  countFits s cptr ∧ readable s ptr (sendCountOf s a len) ∧ s.busy (epIdx a) = false
    ∧ fifo.length + sendCountOf s a len ≤ (s.desc (epIdx a)).mps.toNat

/-- The end of a control write's packet (R118): more data arms `InToken`; the last packet arms `StatusDone` and enters `Status`. -/
def armNext (s : State) (more : Bool) : State :=
  if more then { s with ctl.cepinten := s.ctl.cepinten ||| bit s.cfg.bitmap.cepInToken }
  else { s with ctl.cepinten := s.ctl.cepinten ||| bit s.cfg.bitmap.cepStatusDone, ctrlState := .status }

/-- The gaps of a task-priority control write of `n` bytes in which nothing happens but one thing just before the hold's first poll. -/
def holdGap (n : Nat) (act : TaskAct) : List (List TaskAct) := List.replicate (2 * n + 4) [] ++ [[act]]

/-- The gaps of a schedule in which nothing happens before the first two accesses. -/
def freshStart (gaps : List Gap) : Prop := ∀ g ∈ gaps.take 2, g = []

/-- The events of the four status words (R92 to R95) and the dispatchers, as against the commands and `ALLOC`. -/
def isEvent : Instr → Bool
  | .gintBus | .gintCep | .gintEp _ => true
  | .busReset | .busResume | .busSuspend | .busHighSpeed | .busDmaDone | .busVbus | .busUnrecognised _ => true
  | .cepSetupToken | .cepSetupPkt | .cepOutToken | .cepInToken | .cepPing | .cepTxComplete | .cepRxComplete => true
  | .cepNakSent | .cepStallSent | .cepError | .cepStatusDone | .cepBufFull | .cepBufEmpty | .cepUnrecognised _ => true
  | .epIn _ _ | .epOut _ _ => true
  | .attach | .detach | .reset | .setAddress _ | .setStatusCallback _ => false
  | .epCheckCap _ _ _ | .epConfigure _ _ _ => false
  | .epSetStall _ | .epClearStall _ | .epIsStalled _ | .epEnable _ | .epDisable _ | .epFlush _ => false
  | .epWrite _ _ _ _ | .epRead _ _ _ _ | .epReadWait _ _ _ _ | .epReadContinue _ => false
  | .epSetCallback _ _ | .epMps _ | .readPeek _ _ | .statusZlp | .reservedOpcode _ | .alloc _ => false

/-- R111's table for a write on index 0: whether it enters `Status`. -/
def writeEnters (s : State) (ptr len cptr : Word) : Bool :=
  if len = 0 then decide (ptr = 0 ∧ cptr = 0) else decide (len.toNat ≤ (s.desc 0).mps.toNat)

/-- R111's table: `ctrl_state` and `lce` after an operation that ended without an error. `t` is the state after it: the second half of
EP_READ looks at what its first half left (R123). -/
def sequencerAfter (i : Instr) (s t : State) : CtrlState × Lce :=
  match i with
  | .reset => (.idle, .none)
  | .cepSetupPkt => (.setup, .setup)
  | .cepOutToken => if s.lce = .none then (s.ctrlState, s.lce) else (.dataOut, .dataOut)
  | .cepInToken => (.dataIn, .dataIn)
  | .cepStatusDone => (.idle, .none)
  | .epWrite a ptr len cptr =>
    (if epIdx a = 0 ∧ writeEnters s ptr len cptr = true then .status else s.ctrlState, s.lce)
  | .statusZlp => (.status, s.lce)
  | .epReadContinue a => (if epIdx a = 0 ∧ available s 0 = 0 then .status else s.ctrlState, s.lce)
  | .epRead a ptr max _ =>
    (if epIdx a = 0 ∧ isPeek ptr max = false ∧ available t 0 = 0 then .status else s.ctrlState, s.lce)
  | .attach | .detach | .setAddress _ | .setStatusCallback _ | .epCheckCap _ _ _ | .epConfigure _ _ _ => (s.ctrlState, s.lce)
  | .epSetStall _ | .epClearStall _ | .epIsStalled _ | .epEnable _ | .epDisable _ | .epFlush _ => (s.ctrlState, s.lce)
  | .epReadWait _ _ _ _ | .epSetCallback _ _ | .epMps _ | .readPeek _ _ | .reservedOpcode _ | .alloc _ => (s.ctrlState, s.lce)
  | .gintBus | .gintCep | .gintEp _ | .epIn _ _ | .epOut _ _ => (s.ctrlState, s.lce)
  | .busReset | .busResume | .busSuspend | .busHighSpeed | .busDmaDone | .busVbus | .busUnrecognised _ => (s.ctrlState, s.lce)
  | .cepSetupToken | .cepPing | .cepTxComplete | .cepRxComplete | .cepNakSent | .cepStallSent | .cepError => (s.ctrlState, s.lce)
  | .cepBufFull | .cepBufEmpty | .cepUnrecognised _ => (s.ctrlState, s.lce)

/-- Whether byte `b` of memory is one an operation may store to: the count word of a transfer command, where it has one, and the bytes a read
copies (R70, R121). Nothing else stores. -/
def storesAt (i : Instr) (s : State) (b : Nat) : Prop :=
  let inCount (c : Word) : Prop := c ≠ 0 ∧ c.toNat ≤ b ∧ b < c.toNat + 4
  let inBuffer (a : Byte) (p max : Word) : Prop := isPeek p max = false ∧ p.toNat ≤ b ∧ b < p.toNat + readCount s a p max
  match i with
  | .epWrite _ _ _ c | .readPeek _ c => inCount c
  | .epRead a p max c | .epReadWait a p max c => inBuffer a p max ∨ inCount c
  | .attach | .detach | .reset | .setAddress _ | .setStatusCallback _ | .epCheckCap _ _ _ | .epConfigure _ _ _ => False
  | .epSetStall _ | .epClearStall _ | .epIsStalled _ | .epEnable _ | .epDisable _ | .epFlush _ => False
  | .epReadContinue _ | .epSetCallback _ _ | .epMps _ | .statusZlp | .reservedOpcode _ | .alloc _ => False
  | .gintBus | .gintCep | .gintEp _ | .epIn _ _ | .epOut _ _ => False
  | .busReset | .busResume | .busSuspend | .busHighSpeed | .busDmaDone | .busVbus | .busUnrecognised _ => False
  | .cepSetupToken | .cepSetupPkt | .cepOutToken | .cepInToken | .cepPing | .cepTxComplete | .cepRxComplete => False
  | .cepNakSent | .cepStallSent | .cepError | .cepStatusDone | .cepBufFull | .cepBufEmpty | .cepUnrecognised _ => False

end Sys2Proof.Claims

section

open Sys2Proof Sys2Proof.Machine Sys2Proof.Claims

/-! Encodings. -/

/-- R86 to R95, R104: the words of every well-formed operation decode to it; `READ_PEEK` and `STATUS_ZLP` "have no opcode of their own" and
decode to their core form. `ALLOC` has no encoding. -/
def Obligations.EncodedInstructionDecodesToItself : Prop :=
  ∀ (c : Config) (i : Instr), c.wf = true → i.wellFormed c = true → (∀ n, i ≠ .alloc n) →
    ∃ f ws, encode c i = some (f, ws) ∧ decode c f ws = .ok i.canonical

/-- R87 to R89: a command's decoding depends on exactly the bits it reads, and encoding what was decoded gives those bits back, whatever
distinct numbers the transfer types have (R100, U22). -/
def Obligations.CommandReadsExactlyItsOperandBits : Prop :=
  ∀ (c : Config) (o : Operands), c.bitmap.enums.wf = true → commandOpcode o.op = true →
    encode c (decodeCmd c o) = some (.cmd, words (kept o)) ∧ decodeCmd c (kept o) = decodeCmd c o

/-- Words written out from R87 to R95 and what they are. -/
def Obligations.WrittenOutWordsDecode : Prop :=
  (decode Config.default .cmd [0x07, 0x81, 0, 0, 0, 0x10200]).toOption = some (.epConfigure 0x81 512 .bulk)
    ∧ (decode Config.default .cmd [0x04, 0, 0, 0, 0, 0x185]).toOption = some (.setAddress 0x05)
    ∧ (decode Config.default .cmd [0x0E, 0x80, 0x4000, 150, 0x3000, 0]).toOption = some (.epWrite 0x80 0x4000 150 0x3000)
    ∧ (decode Config.default .cmd [0x10, 0x00, 0x2000, 8, 0, 0]).toOption = some (.epReadWait 0x00 0x2000 8 0)
    ∧ (decode Config.default .cmd [0x12, 0x80, 0, 0, 0, 0x11]).toOption = some (.epSetCallback 0x80 0x11)
    ∧ (decode Config.default .gint [0x8]).toOption = some (.gintEp 2)
    ∧ (decode Config.default .busint [0x20]).toOption = some .busVbus
    ∧ (decode Config.default .cepint [0x2]).toOption = some .cepSetupPkt
    ∧ (decode Config.default .cepint [0x400]).toOption = some .cepStatusDone
    ∧ (decode Config.default (.epint 3) [0x5]).toOption = some (.epIn 3 0x5)

/-- R91. -/
def Obligations.ReservedOpcodeRaisesInvalidParameter : Prop :=
  ∀ (c : Config) (o : Operands) (s : State),
    (o.op.extractLsb' 8 24 ≠ 0 ∨ o.op.extractLsb' 0 8 = 0x00#8 ∨ 0x14 ≤ (o.op.extractLsb' 0 8).toNat) →
      decodeCmd c o = .reservedOpcode o.op ∧ exec (.reservedOpcode o.op) s = .next { s with port.err := 1 }

/-! A step, a pass, a dispatcher. -/

/-- A step runs what is scheduled next: the operation the six port words decode to, a step of the environment, or nothing. The model's choice,
no rule of the spec: that which agent acts is data (log 4), what an entry that cannot run and an empty schedule do (log 26), and the clause that
ends in `stepForbidden`, an environment step whose precondition fails (log 15). -/
def Obligations.StepRunsTheDecodedCommand : Prop :=
  ∀ (s : State) (r : List TopAct),
    (∀ (ops : Operands) (gaps : List (List TaskAct)) (i : Instr), s.script = .cmd ops gaps :: r →
        decode s.cfg .cmd (words ops) = .ok i →
          step s = dropTaskGaps (exec i { s with script := r, port.operands := ops, taskGaps := gaps }))
      ∧ (∀ (e : EnvStep) (t : State), s.script = .env e :: r → envApply e { s with script := r } = some t → step s = .next t)
      ∧ (∀ e : EnvStep, s.script = .env e :: r → envApply e { s with script := r } = none → step s = .refused (.stepForbidden e))
      ∧ (∀ p : PassScript, s.script = .isr p :: r → passEnabled s = false → step s = .next { s with script := r })
      ∧ (s.script = [] → step s = .next s)

/-- R134: an enabled pass takes one snapshot, `GINTSTS & GINTEN`, runs its operations bus, control endpoint, endpoints ascending, and ends
with `in_isr = 0`. -/
def Obligations.PassRunsItsSnapshotInOrder : Prop :=
  ∀ (s : State) (r : List TopAct) (p : PassScript), s.script = .isr p :: r → passEnabled s = true → freshStart p.gaps →
    step s = leave (inOrder (eventsOf s.cfg .gint (gintsts s &&& s.ctl.ginten))
      { s with
        script := r, inIsr := true, gSnap := gintsts s &&& s.ctl.ginten, passGaps := p.gaps.drop 2, passCbs := p.callbacks })

/-- R125, R136, R148: a sub-dispatcher takes its snapshot once, status and enable, and runs the operations of its set bits in order; an
endpoint's is one operation however many bits are set, and none where the snapshot is zero. -/
def Obligations.DispatcherRunsItsSnapshotInOrder : Prop :=
  ∀ s : State, freshStart s.passGaps →
    exec .gintBus s = scanRun (fun p => (s.cfg.bitmap.busEvent p).instr) s.cfg.bitmap.busOrder
        { s with sSnap := s.ctl.busintsts &&& s.ctl.businten, passGaps := s.passGaps.drop 2 }
      ∧ exec .gintCep s = scanRun (fun p => (s.cfg.bitmap.cepEvent p).instr) s.cfg.bitmap.cepOrder
        { s with sSnap := s.ctl.cepintsts &&& s.ctl.cepinten, passGaps := s.passGaps.drop 2 }
      ∧ ∀ (i : Nat) (w : Word), s.cfg.isEp i = true → w = (s.ep i).epintsts &&& (s.ep i).epinten →
        exec (.gintEp i) s
          = if w = 0 then .next { s with sSnap := w, passGaps := s.passGaps.drop 2 }
            else exec (if i % 2 = 1 then .epIn i w else .epOut i w) { s with sSnap := w, passGaps := s.passGaps.drop 2 }

/-- R125, R136, R148: an undisturbed sub-dispatcher completes; it clears its snapshot's status bits and, of its group's, no others. -/
def Obligations.DispatcherCompletesAndClearsItsSnapshot : Prop :=
  ∀ s : State, s.PassAlone →
    (∃ t, exec .gintBus s = .next t ∧ t.ctl.busintsts = s.ctl.busintsts &&& ~~~(s.ctl.busintsts &&& s.ctl.businten)
        ∧ t.epTable = s.epTable ∧ t.ramOffset = s.ramOffset ∧ t.lce = s.lce ∧ t.ctrlState = s.ctrlState
        ∧ t.setupSnap = s.setupSnap ∧ t.mem = s.mem ∧ t.port = s.port ∧ t.ctl.ginten = s.ctl.ginten)
      ∧ (∃ t, exec .gintCep s = .next t ∧ t.ctl.cepintsts = s.ctl.cepintsts &&& ~~~(s.ctl.cepintsts &&& s.ctl.cepinten)
        ∧ t.epTable = s.epTable ∧ t.ramOffset = s.ramOffset ∧ t.eps = s.eps ∧ t.mem = s.mem ∧ t.port = s.port
        ∧ t.ctl.ginten = s.ctl.ginten ∧ t.ctl.businten = s.ctl.businten ∧ t.ctl.busintsts = s.ctl.busintsts)
      ∧ ∀ i : Nat, s.cfg.isEp i = true → i ≤ s.eps.length →
        ∃ t, exec (.gintEp i) s = .next t
          ∧ (t.ep i).epintsts = (s.ep i).epintsts &&& ~~~((s.ep i).epintsts &&& (s.ep i).epinten)
          ∧ (∀ j, j ≠ i → t.ep j = s.ep j) ∧ t.epTable = s.epTable ∧ t.ramOffset = s.ramOffset ∧ t.mem = s.mem
          ∧ t.port = s.port ∧ t.ctl = s.ctl

/-! Device-level commands. -/

/-- R155: "programs the device address register directly"; bits of `x[5]` above the width are dropped. -/
def Obligations.SetAddressWritesTheAddress : Prop :=
  (∀ (c : Config) (o : Operands), o.op = 0x04 → decodeCmd c o = .setAddress (o.aux.extractLsb' 0 7))
    ∧ ∀ (s : State) (addr : BitVec 7), s.CmdAlone → s.NamedBits →
      exec (.setAddress addr) s = .next { s with ctl.devaddr := addr.setWidth 32, port.err := 0 }

/-- R156. -/
def Obligations.SetStatusCallbackStoresTheHandle : Prop :=
  (∀ (c : Config) (o : Operands), o.op = 0x05 → decodeCmd c o = .setStatusCallback o.aux)
    ∧ ∀ (s : State) (cb : Word), exec (.setStatusCallback cb) s = .next { s with statusCallback := cb, port.err := 0 }

/-- R154, R203: the command zeroes all block-owned state but `irq_connected`, touches no register, and is idempotent. -/
def Obligations.ResetZeroesBlockState : Prop :=
  ∀ s : State, ∃ t,
    t = { s with
      ramOffset := 0, lce := .none, statusCallback := 0, ctrlState := .idle, setupSnap := ⟨0, 0, 0, 0⟩
      epTable := List.replicate s.cfg.nEp
        { mps := 0, ramBase := 0, xferType := .control, callbackIn := 0, callbackOut := 0 }
      port.err := 0 }
      ∧ exec .reset s = .next t ∧ exec .reset t = .next t

/-- R152: ready at the first poll; ready after `k <= 50` ms; a budget of more than 50 ms run out. A PHY that is ready when polled wins whatever the
clock says. -/
def Obligations.AttachWaitsForThePhy : Prop :=
  ∀ s : State, s.cfg.wf = true → s.NamedBits →
    let attached (t : State) : State :=
      { t with
        irqConnected := true
        ctl.businten := bit s.cfg.bitmap.busDmaDone ||| bit s.cfg.bitmap.busResume ||| bit s.cfg.bitmap.busReset
          ||| bit s.cfg.bitmap.busVbus ||| s.cfg.busEnExtra
        ctl.ginten := s.ctl.ginten ||| bit s.cfg.bitmap.gBus
        ctl.devaddr := 0
        ctl.oper := s.ctl.oper ||| bit s.cfg.bitmap.operHiSpdEn
        ctl.phyctl := t.ctl.phyctl ||| bit s.cfg.bitmap.phyEn ||| bit s.cfg.bitmap.phyDpPuEn
        taskGaps := []
        port.err := 0 }
    (s.CmdAlone → tst s.ctl.phyctl s.cfg.bitmap.phyClkStb = true → exec .attach s = .next (attached s))
      ∧ ∀ k : Nat, s.inIsr = false → s.now + k < 18446744073709551616 → tst s.ctl.phyctl s.cfg.bitmap.phyClkStb = false →
        (50 < k → s.taskGaps = [[], [], [], [], [.env (.tick k)]] →
          exec .attach s = .next { s with
            ctl.phyctl := s.ctl.phyctl ||| bit s.cfg.bitmap.phyEn, now := s.now + k, taskGaps := [], port.err := 6 })
        ∧ (k ≤ 50 → s.taskGaps = [[], [], [], [], [.env (.tick k)], [.env (.sie .phyReady)]] →
          exec .attach s = .next (attached { s with
            now := s.now + k, ctl.phyctl := s.ctl.phyctl ||| bit s.cfg.bitmap.phyClkStb }))
        ∧ (s.taskGaps = [[], [], [], [.env (.tick k), .env (.sie .phyReady)]] →
          exec .attach s = .next (attached { s with
            now := s.now + k, ctl.phyctl := s.ctl.phyctl ||| bit s.cfg.bitmap.phyClkStb }))

/-- R197, the model's choice of log 9: with nothing else scheduled the clock passes the budget at a free value and the command raises Timeout. -/
def Obligations.AttachTimesOutWhenNothingElseHappens : Prop :=
  ∀ s : State, s.cfg.wf = true → s.CmdAlone → tst s.ctl.phyctl s.cfg.bitmap.phyClkStb = false →
    (s.now + 51 < 18446744073709551616 →
      ∃ n, s.now + 50 < n ∧ n < 18446744073709551616 ∧
        exec .attach s = .next { s with
          ctl.phyctl := s.ctl.phyctl ||| bit s.cfg.bitmap.phyEn, now := n, freeCount := s.freeCount + 1, port.err := 6 })
      ∧ (18446744073709551616 ≤ s.now + 51 → exec .attach s = .refused .clockExhausted)

/-- R153. -/
def Obligations.DetachDisconnects : Prop :=
  ∀ s : State, s.CmdAlone →
    exec .detach s = .next { s with
      irqConnected := false
      ctl.phyctl := s.ctl.phyctl &&& ~~~bit s.cfg.bitmap.phyEn &&& ~~~bit s.cfg.bitmap.phyDpPuEn
      port.err := 0 }

/-! Endpoint configuration. -/

/-- R157: "the command is pure". -/
def Obligations.CheckCapAnswersByTheTable : Prop :=
  ∀ (s : State) (a : Byte) (mps : Half) (ty : XferType),
    (capAccepted s.cfg a mps ty → exec (.epCheckCap a mps ty) s = .next { s with port.err := 0 })
      ∧ (¬capAccepted s.cfg a mps ty → exec (.epCheckCap a mps ty) s = .next { s with port.err := 1 })

/-- R158: the five outcomes, in the order of its checks. `Mode`, `Type` and `EpNum` stand where the `BITMAP` places their bits (R11, R97, R98)
and `Mode` and `Type` have the numbers it gives them (R100). -/
def Obligations.ConfigureProgramsTheEndpoint : Prop :=
  ∀ (s : State) (a : Byte) (mps : Half) (ty : XferType), s.CmdAlone → s.NamedBits →
    (¬capAccepted s.cfg a mps ty → exec (.epConfigure a mps ty) s = .next { s with port.err := 1 })
      ∧ (capAccepted s.cfg a mps ty → epIdx a = 0 →
        exec (.epConfigure a mps ty) s = .next
          { s.setDesc 0 fun d => { d with mps := mps, ramBase := 0, xferType := .control } with port.err := 0 })
      ∧ (capAccepted s.cfg a mps ty → epIdx a ≠ 0 → s.ctl.ginten &&& enableBit s.cfg (epIdx a) ≠ 0 →
        exec (.epConfigure a mps ty) s = .next { s with port.err := 2 })
      ∧ (capAccepted s.cfg a mps ty → epIdx a ≠ 0 → s.ctl.ginten &&& enableBit s.cfg (epIdx a) = 0 →
        s.cfg.ramSize < s.ramOffset.toNat + mps.toNat → exec (.epConfigure a mps ty) s = .next { s with port.err := 5 })
      ∧ (capAccepted s.cfg a mps ty → epIdx a ≠ 0 → s.ctl.ginten &&& enableBit s.cfg (epIdx a) = 0 →
        s.ramOffset.toNat + mps.toNat ≤ s.cfg.ramSize →
        exec (.epConfigure a mps ty) s = .next
          { (s.setEp (epIdx a) fun e => { e with
                epbufstart := s.ramOffset
                epbufend := s.ramOffset + mps.setWidth 32 - 1
                epmps := mps.setWidth 32
                eprspctl := fieldWord s.cfg.bitmap.rspMode
                  (if ty = .isochronous then s.cfg.bitmap.enums.modeFly else s.cfg.bitmap.enums.modeManual).toNat
                epcfg := fieldWord s.cfg.bitmap.cfgType (ty.toBits s.cfg.bitmap.enums).toNat
                  ||| (if dirIn a = true then bit s.cfg.bitmap.cfgDir else 0)
                  ||| fieldWord s.cfg.bitmap.cfgEpNum (epIdx a) }).setDesc (epIdx a)
              fun d => { d with mps := mps, ramBase := s.ramOffset, xferType := ty } with
            ramOffset := s.ramOffset + mps.setWidth 32
            allocRet := s.ramOffset
            port.err := 0 })

/-- R105: `allocRet` is where the model holds the value returned (log 20). -/
def Obligations.AllocAdvancesOrFails : Prop :=
  ∀ (s : State) (size : Half), s.cfg.wf = true →
    (s.cfg.ramSize < s.ramOffset.toNat + size.toNat → exec (.alloc size) s = .next { s with port.err := 5 })
      ∧ (s.ramOffset.toNat + size.toNat ≤ s.cfg.ramSize →
        exec (.alloc size) s = .next { s with ramOffset := s.ramOffset + size.setWidth 32, allocRet := s.ramOffset }
          ∧ (s.ramOffset + size.setWidth 32).toNat = s.ramOffset.toNat + size.toNat)

/-- R159. -/
def Obligations.EnableSetsTheGlobalBit : Prop :=
  ∀ (s : State) (a : Byte), s.CmdAlone →
    (¬epAccepted s.cfg a → exec (.epEnable a) s = .next { s with port.err := 1 })
      ∧ (epAccepted s.cfg a → (epIdx a = 0 ∨ epIdx a % 2 = 1) →
        exec (.epEnable a) s = .next { s with ctl.ginten := s.ctl.ginten ||| enableBit s.cfg (epIdx a), port.err := 0 })
      ∧ (epAccepted s.cfg a → epIdx a ≠ 0 → epIdx a % 2 = 0 →
        exec (.epEnable a) s = .next
          { s.setEp (epIdx a) fun e => { e with epinten := e.epinten ||| s.cfg.epRxArm } with
            ctl.ginten := s.ctl.ginten ||| enableBit s.cfg (epIdx a), port.err := 0 })

/-- R160: "disable clears and zeroes the endpoint's own interrupt-enable/status registers". -/
def Obligations.DisableZeroesEnableAndStatus : Prop :=
  ∀ (s : State) (a : Byte), s.CmdAlone →
    (¬epAccepted s.cfg a → exec (.epDisable a) s = .next { s with port.err := 1 })
      ∧ (epAccepted s.cfg a → epIdx a = 0 →
        exec (.epDisable a) s = .next { s with
          ctl.ginten := s.ctl.ginten &&& ~~~enableBit s.cfg 0, ctl.cepinten := 0, ctl.cepintsts := 0, port.err := 0 })
      ∧ (epAccepted s.cfg a → epIdx a ≠ 0 →
        exec (.epDisable a) s = .next
          { s.setEp (epIdx a) fun e => { e with epinten := 0, epintsts := 0 } with
            ctl.ginten := s.ctl.ginten &&& ~~~enableBit s.cfg (epIdx a), port.err := 0 })

/-- R161, R162, R164: one bit of `CEPCTL` for index 0, of `EPRSPCTL[i]` for the others. -/
def Obligations.StallAndFlushChangeOneBit : Prop :=
  ∀ (s : State) (a : Byte), s.CmdAlone →
    (¬epAccepted s.cfg a → ∀ i ∈ [Instr.epSetStall a, .epClearStall a, .epFlush a], exec i s = .next { s with port.err := 1 })
      ∧ (epAccepted s.cfg a → epIdx a = 0 →
        exec (.epSetStall a) s = .next { s with ctl.cepctl := s.ctl.cepctl ||| bit s.cfg.bitmap.ctlStall, port.err := 0 }
          ∧ exec (.epClearStall a) s
            = .next { s with ctl.cepctl := s.ctl.cepctl &&& ~~~bit s.cfg.bitmap.ctlStall, port.err := 0 }
          ∧ exec (.epFlush a) s = .next { s with ctl.cepctl := s.ctl.cepctl ||| bit s.cfg.bitmap.ctlFlush, port.err := 0 })
      ∧ (epAccepted s.cfg a → epIdx a ≠ 0 →
        exec (.epSetStall a) s = .next
            { s.setEp (epIdx a) fun e => { e with eprspctl := e.eprspctl ||| bit s.cfg.bitmap.rspHalt } with port.err := 0 }
          ∧ exec (.epClearStall a) s = .next
            { s.setEp (epIdx a) fun e => { e with eprspctl := e.eprspctl &&& ~~~bit s.cfg.bitmap.rspHalt } with port.err := 0 }
          ∧ exec (.epFlush a) s = .next
            { s.setEp (epIdx a) fun e => { e with eprspctl := e.eprspctl ||| bit s.cfg.bitmap.rspFlush } with port.err := 0 })

/-- R163: the stall bit in `x[7]`; an error leaves `x[7]`. -/
def Obligations.IsStalledReportsTheBit : Prop :=
  ∀ (s : State) (a : Byte), s.CmdAlone →
    (¬epAccepted s.cfg a → exec (.epIsStalled a) s = .next { s with port.err := 1 })
      ∧ (epAccepted s.cfg a → epIdx a = 0 →
        exec (.epIsStalled a) s
          = .next { s with port.val := if tst s.ctl.cepctl s.cfg.bitmap.ctlStall then 1 else 0, port.err := 0 })
      ∧ (epAccepted s.cfg a → epIdx a ≠ 0 →
        exec (.epIsStalled a) s
          = .next { s with
            port.val := if tst (s.ep (epIdx a)).eprspctl s.cfg.bitmap.rspHalt then 1 else 0, port.err := 0 })

/-- R163's property: set then query gives 1, clear then query gives 0, for the control endpoint and for the others, whatever SIE does in
between (R169). -/
def Obligations.StallRoundTrip : Prop :=
  ∀ (s : State) (a : Byte), s.cfg.wf = true → s.Sized → s.CmdAlone → epAccepted s.cfg a →
    (∃ t, exec (.epSetStall a) s = .next t ∧ ∀ (e : SieStep) (u : State), sieApply e t = some u →
        ∃ v, exec (.epIsStalled a) u = .next v ∧ v.port.val = 1 ∧ v.port.err = 0)
      ∧ ∃ t, exec (.epClearStall a) s = .next t ∧ ∀ (e : SieStep) (u : State), sieApply e t = some u →
        ∃ v, exec (.epIsStalled a) u = .next v ∧ v.port.val = 0 ∧ v.port.err = 0

/-- R165: one slot, keyed by index and direction. -/
def Obligations.SetCallbackWritesOneSlot : Prop :=
  ∀ (s : State) (a : Byte) (cb : Word),
    (¬epAccepted s.cfg a → exec (.epSetCallback a cb) s = .next { s with port.err := 1 })
      ∧ (epAccepted s.cfg a →
        exec (.epSetCallback a cb) s = .next
          { s.setDesc (epIdx a) fun d => if dirIn a = true then { d with callbackIn := cb } else { d with callbackOut := cb } with
            port.err := 0 })

/-- R166: "the command has no error result, so an index out of range answers 0". -/
def Obligations.MpsLooksUpTheTable : Prop :=
  ∀ (s : State) (a : Byte),
    (epIdx a < s.cfg.nEp →
      exec (.epMps a) s = .next { s with port.val := (s.desc (epIdx a)).mps.setWidth 32, port.err := 0 })
      ∧ (s.cfg.nEp ≤ epIdx a → exec (.epMps a) s = .next { s with port.val := 0, port.err := 0 })

/-! Transfers. -/

/-- R117: the first check that fails ends the command, with its code in `x[6]` and nothing else changed. -/
def Obligations.TransferChecksInOrder : Prop :=
  ∀ (s : State) (a : Byte) (ptr len cptr e : Word), s.CmdAlone →
    (xferError s a true ptr len = some e → exec (.epWrite a ptr len cptr) s = .next { s with port.err := e })
      ∧ (xferError s a false ptr len = some e →
        exec (.epRead a ptr len cptr) s = .next { s with port.err := e }
          ∧ exec (.epReadWait a ptr len cptr) s = .next { s with port.err := e })
      ∧ (xferError s a false 0 0 = some e →
        exec (.epReadContinue a) s = .next { s with port.err := e } ∧ exec (.readPeek a cptr) s = .next { s with port.err := e })
      ∧ (xferError s 0x80 true 0 0 = some e → exec .statusZlp s = .next { s with port.err := e })

/-- R118 with `len = 0`: the status ZLP, and the other zero-length writes, which only report 0. -/
def Obligations.EmptyControlWrite : Prop :=
  ∀ (s : State) (a : Byte) (ptr cptr : Word), s.CmdAlone → epIdx a = 0 → xferError s a true ptr 0 = none → countFits s cptr →
    exec (.epWrite a ptr 0 cptr) s
      = .next (if ptr = 0 ∧ cptr = 0 then reported (awaitStatus s) 0 0 else reported s cptr 0)

/-- R118 with `len > 0`, the packet sent by SIE just before the hold's first poll (R174): `min(len, mps)` bytes leave, the flag is cleared again. -/
def Obligations.ControlWriteSendsOnePacket : Prop :=
  ∀ (s : State) (a : Byte) (ptr len cptr : Word) (n : Nat), s.inIsr = false → epIdx a = 0 →
    xferError s a true ptr len = none → len ≠ 0 → sendReady s a ptr len cptr s.ctl.cepTxfifo → n = sendCountOf s a len →
    s.taskGaps = holdGap n (.env (.sie .txDoneCep)) →
      exec (.epWrite a ptr len cptr) s = .next (reported (armNext
        { s with
          ctl.cepTxfifo := (s.ctl.cepTxfifo ++ bytesAt s.mem ptr n).drop n
          ctl.ceptxcnt := BitVec.ofNat 32 n
          ctl.cepTxPending := false
          ctl.cepintsts := s.ctl.cepintsts &&& ~~~bit s.cfg.bitmap.cepTxComplete
          sent := s.sent ++ [{ source := .cep, bytes := (s.ctl.cepTxfifo ++ bytesAt s.mem ptr n).take n }]
          taskGaps := [] } (decide (n < len.toNat))) cptr n)

/-- R118's stale flag: with `TxComplete` already set the hold ends at once, the packet still unsent, and the clear removes the flag. -/
def Obligations.StaleFlagEndsTheHold : Prop :=
  ∀ (s : State) (a : Byte) (ptr len cptr : Word) (n : Nat), s.CmdAlone → epIdx a = 0 →
    xferError s a true ptr len = none → len ≠ 0 → sendReady s a ptr len cptr s.ctl.cepTxfifo → n = sendCountOf s a len →
    tst s.ctl.cepintsts s.cfg.bitmap.cepTxComplete = true →
      exec (.epWrite a ptr len cptr) s = .next (reported (armNext
        { s with
          ctl.cepTxfifo := s.ctl.cepTxfifo ++ bytesAt s.mem ptr n
          ctl.ceptxcnt := BitVec.ofNat 32 n
          ctl.cepTxPending := true
          ctl.cepintsts := s.ctl.cepintsts &&& ~~~bit s.cfg.bitmap.cepTxComplete } (decide (n < len.toNat))) cptr n)

/-- R205: "a stalled controller hangs the calling thread": with the flag clear and nothing scheduled the command has no end (log 8). -/
def Obligations.StalledControllerHangsTheWrite : Prop :=
  ∀ (s : State) (a : Byte) (ptr len cptr : Word), s.CmdAlone → epIdx a = 0 → xferError s a true ptr len = none → len ≠ 0 →
    sendReady s a ptr len cptr s.ctl.cepTxfifo → tst s.ctl.cepintsts s.cfg.bitmap.cepTxComplete = false →
      exec (.epWrite a ptr len cptr) s = .fault .holdNeverEnds

/-- R119: no access for `len = 0`; a write while the last packet is unsent is refused; else one packet is queued and `EP_TX_ARM` armed. -/
def Obligations.EndpointWriteQueuesOnePacket : Prop :=
  ∀ (s : State) (a : Byte) (ptr len cptr : Word) (n : Nat), s.CmdAlone → epIdx a ≠ 0 → xferError s a true ptr len = none →
    (len = 0 → countFits s cptr → exec (.epWrite a ptr len cptr) s = .next (reported s cptr 0))
      ∧ (len ≠ 0 → (s.ep (epIdx a)).txPending = true → exec (.epWrite a ptr len cptr) s = .refused (.txPending (epIdx a)))
      ∧ (len ≠ 0 → (s.ep (epIdx a)).txPending = false → sendReady s a ptr len cptr (s.ep (epIdx a)).txfifo →
        n = sendCountOf s a len →
        exec (.epWrite a ptr len cptr) s = .next (reported
          (s.setEp (epIdx a) fun e => { e with
            txfifo := e.txfifo ++ bytesAt s.mem ptr n
            epdatcnt := BitVec.ofNat 32 n
            txPending := true
            epinten := e.epinten ||| s.cfg.epTxArm }) cptr n))

/-- R121, R120: the peek, the SETUP read and the FIFO read. -/
def Obligations.ReadWaitCopiesWhatIsAvailable : Prop :=
  ∀ (s : State) (a : Byte) (ptr max cptr : Word), s.CmdAlone → xferError s a false ptr max = none → readReady s a ptr max cptr →
    exec (.epReadWait a ptr max cptr) s = .next (readWait s a ptr max cptr)

/-- R122: on the control endpoint, count 0 releases the NAK and awaits status, any other arms `OutToken`; elsewhere nothing. -/
def Obligations.ReadContinueAwaitsOrRearms : Prop :=
  ∀ (s : State) (a : Byte), s.CmdAlone → xferError s a false 0 0 = none →
    exec (.epReadContinue a) s = .next { readContinue s a with port.err := 0 }

/-- R123: `read` is `read_wait` followed by `read_continue` unless the call was a peek. -/
def Obligations.ReadIsWaitThenContinue : Prop :=
  ∀ (s : State) (a : Byte) (ptr max cptr : Word), s.CmdAlone → xferError s a false ptr max = none → readReady s a ptr max cptr →
    exec (.epRead a ptr max cptr) s
      = .next (if isPeek ptr max = true then readWait s a ptr max cptr
          else { readContinue (readWait s a ptr max cptr) a with port.err := 0 })

/-- R104(b), (c): the two abbreviations mean their core forms, and what they leave. -/
def Obligations.AbbreviationsMeanTheirCoreForms : Prop :=
  ∀ (s : State) (a : Byte) (cptr : Word),
    exec (.readPeek a cptr) s = exec (.epReadWait a 0 0 cptr) s
      ∧ exec .statusZlp s = exec (.epWrite 0x80 0 0 0) s
      ∧ (s.CmdAlone → xferError s a false 0 0 = none → countFits s cptr →
        exec (.readPeek a cptr) s = .next (reported s cptr (available s (epIdx a))))
      ∧ (s.CmdAlone → xferError s 0x80 true 0 0 = none → exec .statusZlp s = .next (reported (awaitStatus s) 0 0))

/-- R206: a transfer command that would enter an endpoint's FIFO while another is in it faults. -/
def Obligations.BusyFifoFaults : Prop :=
  ∀ (s : State) (a : Byte) (ptr n cptr : Word), s.CmdAlone → s.busy (epIdx a) = true →
    (xferError s a true ptr n = none → n ≠ 0 → (epIdx a ≠ 0 → (s.ep (epIdx a)).txPending = false) →
      exec (.epWrite a ptr n cptr) s = .fault (.fifoConflict (epIdx a)))
      ∧ (xferError s a false ptr n = none → isPeek ptr n = false → ¬(epIdx a = 0 ∧ s.lce = .setup) →
        exec (.epReadWait a ptr n cptr) s = .fault (.fifoConflict (epIdx a))
          ∧ exec (.epRead a ptr n cptr) s = .fault (.fifoConflict (epIdx a)))

/-- R81, R20, R76, the model's stops of log 12 and log 14: memory not handed over, an address past the top, a push past the range. -/
def Obligations.TransferStopsOutsideItsBounds : Prop :=
  ∀ (s : State) (a : Byte) (ptr len cptr : Word), s.CmdAlone → epIdx a = 0 → s.busy 0 = false →
    (xferError s a true ptr len = none → len ≠ 0 → hostReadable s ptr.toNat = false →
      exec (.epWrite a ptr len cptr) s = .fault (.outsideHandedMemory ptr.toNat))
      ∧ (xferError s a true ptr len = none → len ≠ 0 → hostReadable s ptr.toNat = true →
        (s.desc 0).mps.toNat ≤ s.ctl.cepTxfifo.length → exec (.epWrite a ptr len cptr) s = .refused (.fifoOverflow .cep))
      ∧ (xferError s a true ptr len = none → ptr = 0xFFFFFFFF → 2 ≤ sendCountOf s a len → hostReadable s ptr.toNat = true →
        s.ctl.cepTxfifo.length < (s.desc 0).mps.toNat → exec (.epWrite a ptr len cptr) s = .fault .addressWrap)
      ∧ (xferError s a false ptr len = none → isPeek ptr len = false → s.lce = .setup → 0 < readCount s a ptr len →
        hostWritable s ptr.toNat = false → exec (.epReadWait a ptr len cptr) s = .fault (.outsideHandedMemory ptr.toNat))

/-- R70, R121: an undisturbed operation, a command or an event, changes no byte of memory but those it stores to. -/
def Obligations.OperationsStoreOnlyTheirBytes : Prop :=
  ∀ (i : Instr) (s t : State), s.CmdAlone → s.PassAlone → exec i s = .next t →
    ∀ b, ¬storesAt i s b → Memory.read t.mem b = Memory.read s.mem b

/-- R186: an undisturbed command that raises has changed no state but `x[6]`, but for ATTACH, which has set `PhyEn` (and waited). -/
def Obligations.ErrorsArePrecise : Prop :=
  ∀ (i : Instr) (s t : State), isEvent i = false → s.CmdAlone → exec i s = .next t → (∀ n, i ≠ .alloc n) → t.port.err ≠ 0 →
    if i = .attach then
      t = { s with
        ctl.phyctl := s.ctl.phyctl ||| bit s.cfg.bitmap.phyEn, now := t.now, freeCount := t.freeCount, port.err := 6 }
    else t = { s with port.err := t.port.err }

/-! Events. -/

/-- R113: every field it writes, from any state. -/
def Obligations.SetupPktSnapshotsAndCallsBack : Prop :=
  ∀ s : State, s.PassAlone →
    exec .cepSetupPkt s = .next (called (s.desc 0).callbackOut 0x00 .setup
      { s with
        ctl.cepintsts := s.ctl.cepintsts &&& ~~~bit s.cfg.bitmap.cepSetupPkt
        setupSnap := s.ctl.cepsetup
        lce := .setup
        ctl.cepinten := s.ctl.cepinten ||| s.cfg.cepFollowOn
        ctrlState := .setup })

/-- R114, R115: `OutToken` acts only where a SETUP has been seen; `InToken` acts always. -/
def Obligations.TokensMoveTheSequencer : Prop :=
  ∀ s : State, s.PassAlone →
    (s.lce = .none →
      exec .cepOutToken s = .next { s with ctl.cepintsts := s.ctl.cepintsts &&& ~~~bit s.cfg.bitmap.cepOutToken })
      ∧ (s.lce ≠ .none →
        exec .cepOutToken s = .next (called (s.desc 0).callbackOut 0x00 .dataOut
          { s with
            ctl.cepintsts := s.ctl.cepintsts &&& ~~~bit s.cfg.bitmap.cepOutToken, lce := .dataOut, ctrlState := .dataOut }))
      ∧ exec .cepInToken s = .next (called (s.desc 0).callbackIn 0x80 .dataIn
          { s with
            ctl.cepintsts := s.ctl.cepintsts &&& ~~~bit s.cfg.bitmap.cepInToken, lce := .dataIn, ctrlState := .dataIn })

/-- R116: "clear state, re-arm only the SETUP-detection interrupt, returning to Idle"; `setup_snap` is kept and no callback made. -/
def Obligations.StatusDoneReturnsToIdle : Prop :=
  ∀ s : State, s.PassAlone →
    exec .cepStatusDone s = .next { s with
      ctl.cepintsts := s.ctl.cepintsts &&& ~~~bit s.cfg.bitmap.cepStatusDone
      lce := .none
      ctrlState := .idle
      ctl.cepinten := bit s.cfg.bitmap.cepSetupPkt }

/-- R137 to R146: nine named bits and the unrecognised ones are cleared and do nothing else. -/
def Obligations.InertControlEventsOnlyClearTheirBit : Prop :=
  ∀ s : State, s.PassAlone →
    (∀ p ∈ [(Instr.cepSetupToken, s.cfg.bitmap.cepSetupToken), (.cepPing, s.cfg.bitmap.cepPing),
        (.cepTxComplete, s.cfg.bitmap.cepTxComplete), (.cepRxComplete, s.cfg.bitmap.cepRxComplete),
        (.cepNakSent, s.cfg.bitmap.cepNakSent), (.cepStallSent, s.cfg.bitmap.cepStallSent), (.cepError, s.cfg.bitmap.cepError),
        (.cepBufFull, s.cfg.bitmap.cepBufFull), (.cepBufEmpty, s.cfg.bitmap.cepBufEmpty)],
      exec p.1 s = .next { s with ctl.cepintsts := s.ctl.cepintsts &&& ~~~bit p.2 })
      ∧ ∀ b : Fin 32, exec (.cepUnrecognised b) s = .next { s with ctl.cepintsts := s.ctl.cepintsts &&& ~~~bit b }

/-- R127: quiesce, call back, then clear every control-endpoint flag. -/
def Obligations.BusResetQuiescesAndClears : Prop :=
  ∀ s : State, s.PassAlone → s.NamedBits → s.Sized →
    exec .busReset s = .next { notified .reset (quiesced s) with ctl.cepintsts := 0 }

/-- R211, R216: the callback of a bus Reset runs in the quiesced state, whatever the HOST does in it, and every control-endpoint flag raised
meanwhile is cleared after it. -/
def Obligations.BusResetCallbackRunsQuiesced : Prop :=
  ∀ (s u : State) (acts : List CallbackAct) (r : List (List CallbackAct)), s.passGaps = [] → s.NamedBits → s.Sized →
    s.statusCallback ≠ 0 → s.passCbs = acts :: r →
    runCallback acts { notified .reset (quiesced s) with passCbs := r } = .ok () u →
      exec .busReset s = .next { u with ctl.cepintsts := 0 }

/-- R128, R129: call back, then assign the whole of `BUSINTEN`. -/
def Obligations.ResumeAndSuspendReprogramTheEnables : Prop :=
  ∀ s : State, s.PassAlone →
    exec .busResume s = .next { notified .resume
        { s with ctl.busintsts := s.ctl.busintsts &&& ~~~bit s.cfg.bitmap.busResume } with
        ctl.businten := bit s.cfg.bitmap.busReset ||| bit s.cfg.bitmap.busSuspend ||| s.cfg.busEnExtra }
      ∧ exec .busSuspend s = .next { notified .suspend
        { s with ctl.busintsts := s.ctl.busintsts &&& ~~~bit s.cfg.bitmap.busSuspend } with
        ctl.businten := bit s.cfg.bitmap.busReset ||| bit s.cfg.bitmap.busResume ||| s.cfg.busEnExtra }

/-- R130 to R133: High-speed arms SETUP detection; DMA-complete and unrecognised bits do nothing; VBUS drives the PHY and the pull-up. -/
def Obligations.OtherBusEvents : Prop :=
  ∀ s : State, s.PassAlone →
    exec .busHighSpeed s = .next { s with
        ctl.busintsts := s.ctl.busintsts &&& ~~~bit s.cfg.bitmap.busHighSpeed
        ctl.cepinten := s.ctl.cepinten ||| bit s.cfg.bitmap.cepSetupPkt }
      ∧ exec .busDmaDone s = .next { s with ctl.busintsts := s.ctl.busintsts &&& ~~~bit s.cfg.bitmap.busDmaDone }
      ∧ (∀ b : Fin 32, exec (.busUnrecognised b) s = .next { s with ctl.busintsts := s.ctl.busintsts &&& ~~~bit b })
      ∧ exec .busVbus s = .next { s with
        ctl.busintsts := s.ctl.busintsts &&& ~~~bit s.cfg.bitmap.busVbus
        ctl.phyctl :=
          if tst s.ctl.phyctl s.cfg.bitmap.phyVbusDet then
            s.ctl.phyctl ||| bit s.cfg.bitmap.phyEn ||| bit s.cfg.bitmap.phyDpPuEn
          else s.ctl.phyctl &&& ~~~bit s.cfg.bitmap.phyDpPuEn }

/-- R148: the observed bits are cleared in one write. R149, R150: IN turns its enables off and calls back, OUT only calls back. The two clauses
that end in `illFormed`, a term no encoding gives, are the model's choice (log 23), no rule of the spec. -/
def Obligations.EndpointEventsCallBack : Prop :=
  ∀ (s : State) (i : Nat) (bits : Word), s.PassAlone →
    (s.cfg.isEp i = true → i % 2 = 1 →
      exec (.epIn i bits) s = .next (called (s.desc i).callbackIn (0x80 ||| BitVec.ofNat 8 i) .dataIn
        (s.setEp i fun e => { e with epintsts := e.epintsts &&& ~~~bits, epinten := 0 })))
      ∧ (s.cfg.isEp i = true → i % 2 = 0 →
        exec (.epOut i bits) s = .next (called (s.desc i).callbackOut (BitVec.ofNat 8 i) .dataOut
          (s.setEp i fun e => { e with epintsts := e.epintsts &&& ~~~bits })))
      ∧ ((s.cfg.isEp i = false ∨ i % 2 = 0) → exec (.epIn i bits) s = .refused .illFormed)
      ∧ ((s.cfg.isEp i = false ∨ i % 2 = 1) → exec (.epOut i bits) s = .refused .illFormed)

/-- R187: "No event writes `x[6]`", nor any other register of the port, as long as no callback issues a command. -/
def Obligations.EventsLeaveThePortAlone : Prop :=
  ∀ (i : Instr) (s t : State), isEvent i = true → s.PassAlone → exec i s = .next t →
    t.port = s.port ∧ t.mem = s.mem ∧ t.epTable = s.epTable ∧ t.ramOffset = s.ramOffset
      ∧ t.irqConnected = s.irqConnected ∧ t.ctl.ginten = s.ctl.ginten

/-- R220: a pass with a Status-done between the read and the write of `RegSet(CEPINTEN, {OutToken})` has its enables written back on. -/
def Obligations.LostUpdateRestoresTheEnables : Prop :=
  ∀ (s : State) (a : Byte), s.cfg.wf = true → s.inIsr = false → s.irqConnected = true → s.cbGaps = [] → epIdx a = 0 →
    xferError s a false 0 0 = none → s.lce = .dataOut → s.ctl.cepdatcnt ≠ 0 →
    s.ctl.cepintsts &&& s.ctl.cepinten = bit s.cfg.bitmap.cepStatusDone →
    gintsts s &&& s.ctl.ginten = bit s.cfg.bitmap.gCep →
    s.taskGaps = [[], [], [], [], [], [.isr { gaps := [], callbacks := [] }]] →
      ∃ t, exec (.epReadContinue a) s = .next t ∧ t.lce = .none ∧ t.ctrlState = .idle ∧ t.port.err = 0
        ∧ t.ctl.cepinten = s.ctl.cepinten ||| bit s.cfg.bitmap.cepOutToken

/-! The controller as environment. -/

/-- R169: what no SIE step does. -/
def Obligations.SieStepsKeepWhatIsNotTheirs : Prop :=
  ∀ (e : SieStep) (s t : State), s.cfg.wf = true → sieApply e s = some t →
    (∀ p, tst s.ctl.busintsts p = true → tst t.ctl.busintsts p = true)
      ∧ (∀ p, tst s.ctl.cepintsts p = true → tst t.ctl.cepintsts p = true)
      ∧ (∀ i p, tst (s.ep i).epintsts p = true → tst (t.ep i).epintsts p = true)
      ∧ t.ctl.ginten = s.ctl.ginten ∧ t.ctl.businten = s.ctl.businten ∧ t.ctl.cepinten = s.ctl.cepinten
      ∧ t.ctl.devaddr = s.ctl.devaddr ∧ t.ctl.oper = s.ctl.oper
      ∧ tst t.ctl.phyctl s.cfg.bitmap.phyEn = tst s.ctl.phyctl s.cfg.bitmap.phyEn
      ∧ tst t.ctl.phyctl s.cfg.bitmap.phyDpPuEn = tst s.ctl.phyctl s.cfg.bitmap.phyDpPuEn
      ∧ tst t.ctl.dmactl s.cfg.bitmap.dmaEn = tst s.ctl.dmactl s.cfg.bitmap.dmaEn
      ∧ tst t.ctl.cepctl s.cfg.bitmap.ctlStall = tst s.ctl.cepctl s.cfg.bitmap.ctlStall
      ∧ (tst t.ctl.cepctl s.cfg.bitmap.ctlNakClr = true → tst s.ctl.cepctl s.cfg.bitmap.ctlNakClr = true)
      ∧ (tst t.ctl.cepctl s.cfg.bitmap.ctlFlush = true → tst s.ctl.cepctl s.cfg.bitmap.ctlFlush = true)
      ∧ (∀ i, (t.ep i).epinten = (s.ep i).epinten ∧ (t.ep i).epcfg = (s.ep i).epcfg ∧ (t.ep i).epmps = (s.ep i).epmps
        ∧ (t.ep i).epbufstart = (s.ep i).epbufstart ∧ (t.ep i).epbufend = (s.ep i).epbufend
        ∧ (t.ep i).eprspctl &&& ~~~bit s.cfg.bitmap.rspFlush = (s.ep i).eprspctl &&& ~~~bit s.cfg.bitmap.rspFlush
        ∧ (tst (t.ep i).eprspctl s.cfg.bitmap.rspFlush = true → tst (s.ep i).eprspctl s.cfg.bitmap.rspFlush = true))
      ∧ t.ramOffset = s.ramOffset ∧ t.lce = s.lce ∧ t.statusCallback = s.statusCallback ∧ t.ctrlState = s.ctrlState
      ∧ t.setupSnap = s.setupSnap ∧ t.epTable = s.epTable ∧ t.irqConnected = s.irqConnected ∧ t.port = s.port ∧ t.mem = s.mem

/-- R171 to R175: a SETUP packet, an OUT packet, an IN token, a packet sent, a status stage completed. The model's choice, no rule of the spec:
the two clauses that end in `stepForbidden`, a step whose precondition fails (log 15), the packet recorded in `sent` (log 21), and what TX_DONE
does where the FIFO holds fewer bytes than the count (log 31). -/
def Obligations.SieControlSteps : Prop :=
  ∀ (s : State) (b0 b1 b2 b3 b4 b5 b6 b7 : Byte) (bytes : List Byte),
    sieRun s (.setup b0 b1 b2 b3 b4 b5 b6 b7) = .next { s with
        ctl.cepsetup := ⟨b1 ++ b0, b3 ++ b2, b5 ++ b4, b7 ++ b6⟩
        ctl.cepintsts := s.ctl.cepintsts ||| bit s.cfg.bitmap.cepSetupToken ||| bit s.cfg.bitmap.cepSetupPkt }
      ∧ (s.ctl.cepRxfifo = [] → bytes.length ≤ 64 →
        sieRun s (.outCep bytes) = .next { s with
          ctl.cepRxfifo := bytes, ctl.cepdatcnt := BitVec.ofNat 32 bytes.length
          ctl.cepintsts := s.ctl.cepintsts ||| bit s.cfg.bitmap.cepOutToken ||| bit s.cfg.bitmap.cepRxComplete })
      ∧ ((s.ctl.cepRxfifo ≠ [] ∨ 64 < bytes.length) → sieRun s (.outCep bytes) = .refused (.stepForbidden (.sie (.outCep bytes))))
      ∧ sieRun s .inTokenCep = .next { s with ctl.cepintsts := s.ctl.cepintsts ||| bit s.cfg.bitmap.cepInToken }
      ∧ (s.ctl.cepTxPending = true →
        sieRun s .txDoneCep = .next { s with
          ctl.cepTxfifo := s.ctl.cepTxfifo.drop s.ctl.ceptxcnt.toNat
          ctl.cepTxPending := false
          ctl.cepintsts := s.ctl.cepintsts ||| bit s.cfg.bitmap.cepTxComplete
          sent := s.sent ++ [{ source := .cep, bytes := s.ctl.cepTxfifo.take s.ctl.ceptxcnt.toNat }] })
      ∧ (s.ctl.cepTxPending = false → sieRun s .txDoneCep = .refused (.stepForbidden (.sie .txDoneCep)))
      ∧ sieRun s .statusDone = .next { s with ctl.cepintsts := s.ctl.cepintsts ||| bit s.cfg.bitmap.cepStatusDone }

/-- R176 to R178: an OUT packet, a packet sent, the self-clearing bits. The model's choice, no rule of the spec: the five clauses that end in
`stepForbidden`, a step whose precondition fails (log 15), the packet recorded in `sent` (log 21), and what TX_DONE does where the FIFO holds
fewer bytes than the count (log 31). -/
def Obligations.SieEndpointSteps : Prop :=
  ∀ (s : State) (i : Nat) (bytes : List Byte), s.cfg.isEp i = true →
    (i % 2 = 0 → (s.ep i).rxfifo = [] → bytes.length ≤ (s.ep i).epmps.toNat →
      sieRun s (.outEp i bytes) = .next (s.setEp i fun e => { e with
        rxfifo := bytes, epdatcnt := BitVec.ofNat 32 bytes.length
        epintsts := e.epintsts ||| bit s.cfg.bitmap.epRxPkt
          ||| (if bytes.length < (s.ep i).epmps.toNat then bit s.cfg.bitmap.epShortRx else 0) }))
      ∧ ((i % 2 = 1 ∨ (s.ep i).rxfifo ≠ [] ∨ (s.ep i).epmps.toNat < bytes.length) →
        sieRun s (.outEp i bytes) = .refused (.stepForbidden (.sie (.outEp i bytes))))
      ∧ (i % 2 = 1 → (s.ep i).txPending = true →
        sieRun s (.txDoneEp i) = .next
          { s.setEp i fun e => { e with
              txfifo := e.txfifo.drop (s.ep i).epdatcnt.toNat, txPending := false
              epintsts := e.epintsts ||| bit s.cfg.bitmap.epTxPkt } with
            sent := s.sent ++ [{ source := .ep i, bytes := (s.ep i).txfifo.take (s.ep i).epdatcnt.toNat }] })
      ∧ ((i % 2 = 0 ∨ (s.ep i).txPending = false) → sieRun s (.txDoneEp i) = .refused (.stepForbidden (.sie (.txDoneEp i))))
      ∧ (tst s.ctl.cepctl s.cfg.bitmap.ctlNakClr = true →
        sieRun s .nakCleared = .next { s with ctl.cepctl := s.ctl.cepctl &&& ~~~bit s.cfg.bitmap.ctlNakClr })
      ∧ (tst s.ctl.cepctl s.cfg.bitmap.ctlFlush = true →
        sieRun s .flushedCep = .next { s with
          ctl.cepTxfifo := [], ctl.cepRxfifo := [], ctl.cepdatcnt := 0, ctl.cepTxPending := false
          ctl.cepctl := s.ctl.cepctl &&& ~~~bit s.cfg.bitmap.ctlFlush })
      ∧ (tst (s.ep i).eprspctl s.cfg.bitmap.rspFlush = true →
        sieRun s (.flushedEp i) = .next (s.setEp i fun e => { e with
          txfifo := [], rxfifo := [], epdatcnt := if i % 2 = 0 then 0 else e.epdatcnt, txPending := false
          eprspctl := e.eprspctl &&& ~~~bit s.cfg.bitmap.rspFlush }))
      ∧ (tst s.ctl.cepctl s.cfg.bitmap.ctlNakClr = false → sieRun s .nakCleared = .refused (.stepForbidden (.sie .nakCleared)))
      ∧ (tst s.ctl.cepctl s.cfg.bitmap.ctlFlush = false → sieRun s .flushedCep = .refused (.stepForbidden (.sie .flushedCep)))
      ∧ (tst (s.ep i).eprspctl s.cfg.bitmap.rspFlush = false →
        sieRun s (.flushedEp i) = .refused (.stepForbidden (.sie (.flushedEp i))))

/-- R179 to R182: PHY readiness, VBUS, the bus conditions, the diagnostic bits. The two `DIAG` clauses that end in `stepForbidden`, a bit that is
not `DIAG`'s to raise, are the model's choice (log 15), no rule of the spec. -/
def Obligations.SieBusSteps : Prop :=
  ∀ (s : State) (level : Bool) (p : Fin 32),
    sieRun s .phyReady = .next { s with ctl.phyctl := s.ctl.phyctl ||| bit s.cfg.bitmap.phyClkStb }
      ∧ sieRun s .phyLost = .next { s with ctl.phyctl := s.ctl.phyctl &&& ~~~bit s.cfg.bitmap.phyClkStb }
      ∧ sieRun s (.vbus level) = .next { s with
        ctl.phyctl := if level then s.ctl.phyctl ||| bit s.cfg.bitmap.phyVbusDet else s.ctl.phyctl &&& ~~~bit s.cfg.bitmap.phyVbusDet
        ctl.busintsts := s.ctl.busintsts ||| bit s.cfg.bitmap.busVbus }
      ∧ sieRun s .busReset = .next { s with ctl.busintsts := s.ctl.busintsts ||| bit s.cfg.bitmap.busReset }
      ∧ sieRun s .busSuspend = .next { s with ctl.busintsts := s.ctl.busintsts ||| bit s.cfg.bitmap.busSuspend }
      ∧ sieRun s .busResume = .next { s with ctl.busintsts := s.ctl.busintsts ||| bit s.cfg.bitmap.busResume }
      ∧ sieRun s .busHs = .next { s with ctl.busintsts := s.ctl.busintsts ||| bit s.cfg.bitmap.busHighSpeed }
      ∧ sieRun s (.dmaDone level) = .next { s with
        ctl.dmactl := if level then s.ctl.dmactl ||| bit s.cfg.bitmap.dmaRd else s.ctl.dmactl &&& ~~~bit s.cfg.bitmap.dmaRd
        ctl.busintsts := s.ctl.busintsts ||| bit s.cfg.bitmap.busDmaDone }
      ∧ (s.cfg.bitmap.cepEvent p ∈ [.named .setupPkt, .named .outToken, .named .inToken, .named .statusDone] →
        sieRun s (.diag .cep p) = .refused (.stepForbidden (.sie (.diag .cep p))))
      ∧ (s.cfg.bitmap.cepEvent p ∉ [.named .setupPkt, .named .outToken, .named .inToken, .named .statusDone] →
        sieRun s (.diag .cep p) = .next { s with ctl.cepintsts := s.ctl.cepintsts ||| bit p })
      ∧ ((∀ b, s.cfg.bitmap.busPos b ≠ p) → sieRun s (.diag .bus p) = .next { s with ctl.busintsts := s.ctl.busintsts ||| bit p })
      ∧ ((∃ b, s.cfg.bitmap.busPos b = p) → sieRun s (.diag .bus p) = .refused (.stepForbidden (.sie (.diag .bus p))))
      ∧ ∀ i, s.cfg.isEp i = true →
        sieRun s (.diag (.ep i) p) = .next (s.setEp i fun e => { e with epintsts := e.epintsts ||| bit p })

/-- R69, R171, R113, R121: the eight bytes SIE delivers are the eight bytes the HOST reads, in order. -/
def Obligations.SetupBytesReachTheHost : Prop :=
  ∀ (s t u : State) (b0 b1 b2 b3 b4 b5 b6 b7 : Byte) (a : Byte) (ptr : Word), s.CmdAlone → s.PassAlone →
    Memory.wf s.mem = true → epIdx a = 0 → xferError s a false ptr 8 = none → writable s ptr 8 →
    sieRun s (.setup b0 b1 b2 b3 b4 b5 b6 b7) = .next t → exec .cepSetupPkt t = .next u →
      ∃ v, exec (.epReadWait a ptr 8 0) u = .next v ∧ v.port.err = 0 ∧ v.port.val = 8
        ∧ bytesAt v.mem ptr 8 = [b0, b1, b2, b3, b4, b5, b6, b7]

/-! Rules of the whole machine. -/

/-- R111: every write to `ctrl_state` and `lce`: an operation leaves them as its row of the table says, and one that raised leaves them alone.
`GINT.Cep` runs the operations of the table and has no row. -/
def Obligations.OnlyTheTableWritesTheSequencer : Prop :=
  ∀ (i : Instr) (s t : State), s.CmdAlone → s.PassAlone → i ≠ .gintCep → exec i s = .next t →
    (t.ctrlState, t.lce)
      = if isEvent i = false ∧ t.port.err ≠ 0 ∧ (∀ n, i ≠ .alloc n) then (s.ctrlState, s.lce) else sequencerAfter i s t

/-- R28, R106: no operation but RESET lowers the cursor. -/
def Obligations.OnlyResetLowersTheCursor : Prop :=
  ∀ (i : Instr) (s t : State), s.cfg.wf = true → s.CmdAlone → s.PassAlone → i ≠ .reset → exec i s = .next t →
    s.ramOffset.toNat ≤ t.ramOffset.toNat

/-- The state after reset meets every invariant below. -/
def Obligations.ResetStateMeetsTheInvariants : Prop :=
  State.reset.Good ∧ State.reset.AtRest ∧ State.reset.RamDisjoint

/-- Every step, whatever is scheduled in it, keeps the sizes of the tables, the unnamed bits at zero, `CEPDATCNT` and the OUT counts equal to
their FIFOs' lengths (R62), R112, R34(b), (d), the memory's canonical form and the clock's range; and no step changes the configuration. -/
def Obligations.EveryStepKeepsTheInvariants : Prop :=
  ∀ s t : State, s.Good → step s = .next t → t.Good ∧ t.cfg = s.cfg

/-- R64, R65, R193: between steps no pass and no command is half done: `in_isr = 0`, every `fifo_busy[i] = 0`, the snapshots dead. -/
def Obligations.EveryStepEndsAtRest : Prop :=
  ∀ s t : State, s.Good → s.AtRest → step s = .next t → t.AtRest

/-- R34(c), R109: the ranges of configured non-control endpoints stay disjoint and the cursor stays inside the arena, over every step whose
task-priority command, if any, is not preempted by a pass (R207's condition; a pass may configure in its callbacks). -/
def Obligations.StepsKeepTheRangesDisjoint : Prop :=
  ∀ s t : State, s.Good → s.AtRest → s.RamDisjoint →
    (∀ ops gaps r, s.script = .cmd ops gaps :: r → noPass gaps = true) → step s = .next t → t.RamDisjoint

end
end

