-- ==== Sys2Proof/Laws/Bits.lean ====
section
/-! SUPPORT. Bits and masks: one bit of a word, writes under a mask, write-one-to-clear, and the named bits of each register. -/

set_option Elab.async false

namespace Sys2Proof

theorem tst_bit (n p : Nat) : tst (bit n) p = (decide (n < 32) && decide (p = n)) := by
  unfold tst bit
  simp only [BitVec.getLsbD_shiftLeft, BitVec.getLsbD_one]
  by_cases h : p = n
  · subst h; by_cases h2 : p < 32 <;> simp [h2]
  · by_cases h2 : n < 32 <;> by_cases h3 : p < 32 <;> simp [h, h2, h3] <;> omega

@[simp] theorem tst_and (a b : Word) (p : Nat) : tst (a &&& b) p = (tst a p && tst b p) := BitVec.getLsbD_and ..
@[simp] theorem tst_or (a b : Word) (p : Nat) : tst (a ||| b) p = (tst a p || tst b p) := BitVec.getLsbD_or ..
@[simp] theorem tst_zero (p : Nat) : tst 0 p = false := by simp [tst]

@[simp] theorem tst_zero_lit (p : Nat) : tst 0#32 p = false := by simp [tst]

theorem tst_not (a : Word) (p : Nat) : tst (~~~a) p = (decide (p < 32) && !tst a p) := BitVec.getLsbD_not ..

theorem word_ext {a b : Word} (h : ∀ p < 32, tst a p = tst b p) : a = b :=
  BitVec.eq_of_getLsbD_eq h

namespace Machine

/-! Writes under a mask. -/

/-- `RegSet` through a mask: the mask's part of `m` is set, nothing else changes. -/
theorem writeMasked_or (mask old m : Word) : writeMasked mask old (old ||| m) = old ||| (m &&& mask) := by
  apply word_ext; intro p hp
  simp only [writeMasked, tst_and, tst_or, tst_not, hp, decide_true, Bool.true_and]
  cases tst mask p <;> cases tst old p <;> cases tst m p <;> rfl

/-- `RegClr` through a mask. -/
theorem writeMasked_andNot (mask old m : Word) : writeMasked mask old (old &&& ~~~m) = old &&& ~~~(m &&& mask) := by
  apply word_ext; intro p hp
  simp only [writeMasked, tst_and, tst_or, tst_not, hp, decide_true, Bool.true_and]
  cases tst mask p <;> cases tst old p <;> cases tst m p <;> rfl

/-- An assignment through a mask, over a register that holds named bits only. -/
theorem writeMasked_of_named {mask old v : Word} (ho : old &&& ~~~mask = 0) (hv : v &&& mask = v) :
    writeMasked mask old v = v := by simp [writeMasked, ho, hv]

/-- A register written through a mask holds no bit outside it that it did not hold. -/
theorem writeMasked_named {mask all old v : Word} (ho : old &&& ~~~all = 0) (hm : mask &&& ~~~all = 0) :
    writeMasked mask old v &&& ~~~all = 0 := by
  apply word_ext; intro p hp
  have h1 := congrArg (fun w => tst w p) ho
  have h2 := congrArg (fun w => tst w p) hm
  simp only [writeMasked, tst_and, tst_or, tst_not, hp, decide_true, Bool.true_and, tst_zero] at *
  revert h1 h2
  cases tst mask p <;> cases tst old p <;> cases tst v p <;> cases tst all p <;> simp

/-- A status bit is set after a write exactly if it was set and not written with a one (R78). -/
theorem tst_w1cValue (old v : Word) {p : Nat} (hp : p < 32) : tst (w1cValue old v) p = (tst old p && !tst v p) := by
  simp [w1cValue, tst_not, hp]

theorem w1cValue_ones (old : Word) : w1cValue old 0xFFFFFFFF#32 = 0 := by
  have : (~~~(0xFFFFFFFF#32) : Word) = 0 := by decide
  simp [w1cValue, this]

theorem tst_putBit (w : Word) (n p : Nat) (b : Bool) (hp : p < 32) :
    tst (putBit w n b) p = if p = n then b else tst w p := by
  unfold putBit
  by_cases h : p = n
  · subst h; cases b <;> simp [tst_bit, tst_not, hp]
  · cases b <;> simp [tst_bit, tst_not, hp, h]

theorem putBit_named {w all : Word} {n : Nat} (b : Bool) (hw : w &&& ~~~all = 0) (hn : bit n &&& ~~~all = 0) :
    putBit w n b &&& ~~~all = 0 := by
  apply word_ext; intro p hp
  have h1 := congrArg (fun x => tst x p) hw
  have h2 := congrArg (fun x => tst x p) hn
  cases b <;>
  simp only [putBit, tst_and, tst_or, tst_not, hp, decide_true, Bool.true_and, tst_zero, if_true, Bool.false_eq_true, if_false] at * <;>
  revert h1 h2 <;>
  cases tst (bit n) p <;> cases tst w p <;> cases tst all p <;> simp

/-! Which named bits a register's mask holds. -/

theorem and_mask_iff {m mask : Word} : m &&& mask = m ↔ ∀ p < 32, tst m p = true → tst mask p = true := by
  constructor
  · intro h p _ hm
    have := congrArg (fun x => tst x p) h
    simpa [hm] using this
  · intro h
    apply word_ext; intro p hp
    have := h p hp
    cases hm : tst m p <;> simp_all

theorem bit_and_mask {n : Nat} {mask : Word} (h : n < 32 → tst mask n = true) : bit n &&& mask = bit n := by
  rw [and_mask_iff]
  intro p _ hp
  simp only [tst_bit, Bool.and_eq_true, decide_eq_true_eq] at hp
  obtain ⟨h1, rfl⟩ := hp
  exact h h1

@[simp] theorem gBus_in_mask (c : Config) : bit c.bitmap.gBus &&& gintenMask c = bit c.bitmap.gBus :=
  bit_and_mask fun h => by simp [gintenMask, tst_bit, h]
@[simp] theorem gCep_in_mask (c : Config) : bit c.bitmap.gCep &&& gintenMask c = bit c.bitmap.gCep :=
  bit_and_mask fun h => by simp [gintenMask, tst_bit, h]
@[simp] theorem operHiSpdEn_in_mask (m : BitMap) : bit m.operHiSpdEn &&& operMask m = bit m.operHiSpdEn :=
  bit_and_mask fun h => by simp [operMask, tst_bit, h]
@[simp] theorem phyEn_in_mask (m : BitMap) : bit m.phyEn &&& phyctlMask m = bit m.phyEn :=
  bit_and_mask fun h => by simp [phyctlMask, tst_bit, h]
@[simp] theorem phyDpPuEn_in_mask (m : BitMap) : bit m.phyDpPuEn &&& phyctlMask m = bit m.phyDpPuEn :=
  bit_and_mask fun h => by simp [phyctlMask, tst_bit, h]
@[simp] theorem dmaEn_in_mask (m : BitMap) : bit m.dmaEn &&& dmactlMask m = bit m.dmaEn :=
  bit_and_mask fun h => by simp [dmactlMask, tst_bit, h]
@[simp] theorem ctlNakClr_in_mask (m : BitMap) : bit m.ctlNakClr &&& cepctlMask m = bit m.ctlNakClr :=
  bit_and_mask fun h => by simp [cepctlMask, tst_bit, h]
@[simp] theorem ctlStall_in_mask (m : BitMap) : bit m.ctlStall &&& cepctlMask m = bit m.ctlStall :=
  bit_and_mask fun h => by simp [cepctlMask, tst_bit, h]
@[simp] theorem ctlFlush_in_mask (m : BitMap) : bit m.ctlFlush &&& cepctlMask m = bit m.ctlFlush :=
  bit_and_mask fun h => by simp [cepctlMask, tst_bit, h]
@[simp] theorem rspFlush_in_mask (m : BitMap) : bit m.rspFlush &&& eprspctlMask m = bit m.rspFlush :=
  bit_and_mask fun h => by simp [eprspctlMask, tst_bit, h]
@[simp] theorem rspHalt_in_mask (m : BitMap) : bit m.rspHalt &&& eprspctlMask m = bit m.rspHalt :=
  bit_and_mask fun h => by simp [eprspctlMask, tst_bit, h]

theorem tst_gEpBits (m : BitMap) (n i : Nat) (h1 : 1 ≤ i) (h2 : i ≤ n) (h3 : m.gEp i < 32) :
    tst (gEpBits m n) (m.gEp i) = true := by
  induction n with
  | zero => omega
  | succ n ih =>
    simp only [gEpBits, tst_or, Bool.or_eq_true]
    by_cases h : i ≤ n
    · exact .inl (ih h)
    · have : i = n + 1 := by omega
      subst this
      exact .inr (by simp [tst_bit, h3])

theorem gEp_in_mask {c : Config} {i : Nat} (h : c.isEp i = true) :
    bit (c.bitmap.gEp i) &&& gintenMask c = bit (c.bitmap.gEp i) := by
  simp only [Config.isEp, Bool.and_eq_true, decide_eq_true_eq] at h
  exact bit_and_mask fun h3 => by
    simp [gintenMask, tst_gEpBits _ (c.nEp - 1) i h.1 (by omega) h3]

theorem isEp_of_ne_zero {c : Config} {i : Nat} (h : i < c.nEp) (h0 : i ≠ 0) : c.isEp i = true := by
  simp [Config.isEp, h]; omega


/-- A single-bit test, as a mask or as a bit. -/
theorem and_bit_eq_zero (w : Word) (p : Nat) : w &&& bit p = 0 ↔ tst w p = false := by
  constructor
  · intro h
    by_cases hp : p < 32
    · have := congrArg (fun w => tst w p) h
      simpa [tst_bit, hp] using this
    · simp [tst, BitVec.getLsbD_of_ge, show 32 ≤ p by omega]
  · intro h
    apply word_ext
    intro q hq
    by_cases e : q = p
    · simp [e, h]
    · simp [tst_bit, e]

/-! Fields of several bits (R97, R98), whose bits may stand anywhere in the register. -/

/-- A field's value sets bits of the field only. -/
theorem fieldWord_in_mask (l : List (Fin 32)) : ∀ v, fieldWord l v &&& fieldMask l = fieldWord l v := by
  induction l with
  | nil => intro v; simp [fieldWord]
  | cons q r ih =>
    intro v
    rw [and_mask_iff]
    intro p hp h
    simp only [fieldWord, tst_or, Bool.or_eq_true] at h
    simp only [fieldMask, tst_or, Bool.or_eq_true]
    rcases h with h | h
    · left
      split at h
      · exact h
      · simp at h
    · exact .inr (and_mask_iff.1 (ih (v / 2)) p hp h)

theorem tst_fieldWord_other {l : List (Fin 32)} {p : Fin 32} (h : p ∉ l) : ∀ v, tst (fieldWord l v) p = false := by
  induction l with
  | nil => intro v; simp [fieldWord]
  | cons q r ih =>
    intro v
    simp only [List.mem_cons, not_or] at h
    have hq : ¬ p.val = q.val := fun e => h.1 (Fin.ext e)
    simp only [fieldWord, tst_or, ih h.2, Bool.or_false]
    split <;> simp [tst_bit, hq]

/-- The bit at a field's `k`-th position is bit `k` of the value, whatever the positions are (R11). -/
theorem tst_fieldWord {l : List (Fin 32)} (h : l.Nodup) : ∀ (v k : Nat) (hk : k < l.length), tst (fieldWord l v) l[k] = v.testBit k := by
  induction l with
  | nil => intro v k hk; simp at hk
  | cons q r ih =>
    intro v k hk
    rw [List.nodup_cons] at h
    cases k with
    | zero =>
      simp only [fieldWord, tst_or, List.getElem_cons_zero, tst_fieldWord_other h.1, Bool.or_false]
      cases v.testBit 0 <;> simp [tst_bit]
    | succ k =>
      have hk' : k < r.length := by simpa using hk
      have hm : r[k] ∈ r := List.getElem_mem hk'
      have hq : ¬ r[k].val = q.val := fun e => h.1 (Fin.ext e ▸ hm)
      have hd : tst (if v.testBit 0 then bit q else 0) r[k] = false := by split <;> simp [tst_bit, hq]
      simp only [fieldWord, tst_or, List.getElem_cons_succ, hd, Bool.false_or, ih h.2 _ _ hk', Nat.testBit_succ]

theorem rspctlValue_in_mask (m : BitMap) (ty : XferType) : rspctlValue m ty &&& eprspctlMask m = rspctlValue m ty := by
  rw [and_mask_iff]
  intro p hp h
  simp [eprspctlMask, and_mask_iff.1 (fieldWord_in_mask m.rspMode _) p hp h]

theorem epcfgValue_in_mask (m : BitMap) (ty : XferType) (d : Bool) (i : Nat) : epcfgValue m ty d i &&& epcfgMask m = epcfgValue m ty d i := by
  rw [and_mask_iff]
  intro p hp h
  simp only [epcfgValue, tst_or, Bool.or_eq_true] at h
  rcases h with (h | h) | h
  · simp [epcfgMask, and_mask_iff.1 (fieldWord_in_mask m.cfgType _) p hp h]
  · cases d <;> simp_all [epcfgMask]
  · simp [epcfgMask, and_mask_iff.1 (fieldWord_in_mask m.cfgEpNum _) p hp h]

/-- A value of `n` bits stays inside the low `n` bits. -/
theorem value_in_lowMask {v : Word} {n : Nat} (h : v.toNat < 2 ^ n) : v &&& lowMask n = v := by
  rw [and_mask_iff]
  intro p hp ht
  have hn : p < n := by
    refine Nat.lt_of_not_le fun hc => ?_
    rw [tst, ← BitVec.testBit_toNat, Nat.testBit_lt_two_pow (Nat.lt_of_lt_of_le h (Nat.pow_le_pow_right (by omega) hc))] at ht
    cases ht
  simp [tst, lowMask, BitVec.getLsbD_ofNat, Nat.testBit_two_pow_sub_one, hn, hp]

theorem mps_in_mask {mps : Half} (h : mps.toNat ≤ 1024) : mps.setWidth 32 &&& epmpsMask = mps.setWidth 32 :=
  value_in_lowMask (n := 11) (by simp; omega)

theorem address_in_mask (addr : BitVec 7) : addr.setWidth 32 &&& devaddrMask = addr.setWidth 32 :=
  value_in_lowMask (n := 7) (by have := addr.isLt; simp; omega)

end Machine

end Sys2Proof
end

