-- ==== Sys2Proof/Laws/State.lean ====
section
/-! SUPPORT. One lemma per field per update: what each change of the state leaves alone, and what it makes of the field it changes. -/

set_option Elab.async false

namespace Sys2Proof.Machine

/-! Endpoint registers. -/

theorem State.setEp_zero (s : State) (f : EpRegs → EpRegs) : s.setEp 0 f = s := rfl

@[simp] theorem State.setEp_cfg (s : State) (i : Nat) (f : EpRegs → EpRegs) : (s.setEp i f).cfg = s.cfg := by cases i <;> rfl
@[simp] theorem State.setEp_ramOffset (s : State) (i : Nat) (f : EpRegs → EpRegs) : (s.setEp i f).ramOffset = s.ramOffset := by cases i <;> rfl
@[simp] theorem State.setEp_lce (s : State) (i : Nat) (f : EpRegs → EpRegs) : (s.setEp i f).lce = s.lce := by cases i <;> rfl
@[simp] theorem State.setEp_statusCallback (s : State) (i : Nat) (f : EpRegs → EpRegs) : (s.setEp i f).statusCallback = s.statusCallback := by cases i <;> rfl
@[simp] theorem State.setEp_ctrlState (s : State) (i : Nat) (f : EpRegs → EpRegs) : (s.setEp i f).ctrlState = s.ctrlState := by cases i <;> rfl
@[simp] theorem State.setEp_setupSnap (s : State) (i : Nat) (f : EpRegs → EpRegs) : (s.setEp i f).setupSnap = s.setupSnap := by cases i <;> rfl
@[simp] theorem State.setEp_epTable (s : State) (i : Nat) (f : EpRegs → EpRegs) : (s.setEp i f).epTable = s.epTable := by cases i <;> rfl
@[simp] theorem State.setEp_irqConnected (s : State) (i : Nat) (f : EpRegs → EpRegs) : (s.setEp i f).irqConnected = s.irqConnected := by cases i <;> rfl
@[simp] theorem State.setEp_port (s : State) (i : Nat) (f : EpRegs → EpRegs) : (s.setEp i f).port = s.port := by cases i <;> rfl
@[simp] theorem State.setEp_ctl (s : State) (i : Nat) (f : EpRegs → EpRegs) : (s.setEp i f).ctl = s.ctl := by cases i <;> rfl
@[simp] theorem State.setEp_inIsr (s : State) (i : Nat) (f : EpRegs → EpRegs) : (s.setEp i f).inIsr = s.inIsr := by cases i <;> rfl
@[simp] theorem State.setEp_gSnap (s : State) (i : Nat) (f : EpRegs → EpRegs) : (s.setEp i f).gSnap = s.gSnap := by cases i <;> rfl
@[simp] theorem State.setEp_sSnap (s : State) (i : Nat) (f : EpRegs → EpRegs) : (s.setEp i f).sSnap = s.sSnap := by cases i <;> rfl
@[simp] theorem State.setEp_scanPos (s : State) (i : Nat) (f : EpRegs → EpRegs) : (s.setEp i f).scanPos = s.scanPos := by cases i <;> rfl
@[simp] theorem State.setEp_fifoBusy (s : State) (i : Nat) (f : EpRegs → EpRegs) : (s.setEp i f).fifoBusy = s.fifoBusy := by cases i <;> rfl
@[simp] theorem State.setEp_mem (s : State) (i : Nat) (f : EpRegs → EpRegs) : (s.setEp i f).mem = s.mem := by cases i <;> rfl
@[simp] theorem State.setEp_hostRanges (s : State) (i : Nat) (f : EpRegs → EpRegs) : (s.setEp i f).hostRanges = s.hostRanges := by cases i <;> rfl
@[simp] theorem State.setEp_now (s : State) (i : Nat) (f : EpRegs → EpRegs) : (s.setEp i f).now = s.now := by cases i <;> rfl
@[simp] theorem State.setEp_calls (s : State) (i : Nat) (f : EpRegs → EpRegs) : (s.setEp i f).calls = s.calls := by cases i <;> rfl
@[simp] theorem State.setEp_sent (s : State) (i : Nat) (f : EpRegs → EpRegs) : (s.setEp i f).sent = s.sent := by cases i <;> rfl
@[simp] theorem State.setEp_allocRet (s : State) (i : Nat) (f : EpRegs → EpRegs) : (s.setEp i f).allocRet = s.allocRet := by cases i <;> rfl
@[simp] theorem State.setEp_script (s : State) (i : Nat) (f : EpRegs → EpRegs) : (s.setEp i f).script = s.script := by cases i <;> rfl
@[simp] theorem State.setEp_taskGaps (s : State) (i : Nat) (f : EpRegs → EpRegs) : (s.setEp i f).taskGaps = s.taskGaps := by cases i <;> rfl
@[simp] theorem State.setEp_passGaps (s : State) (i : Nat) (f : EpRegs → EpRegs) : (s.setEp i f).passGaps = s.passGaps := by cases i <;> rfl
@[simp] theorem State.setEp_passCbs (s : State) (i : Nat) (f : EpRegs → EpRegs) : (s.setEp i f).passCbs = s.passCbs := by cases i <;> rfl
@[simp] theorem State.setEp_cbGaps (s : State) (i : Nat) (f : EpRegs → EpRegs) : (s.setEp i f).cbGaps = s.cbGaps := by cases i <;> rfl
@[simp] theorem State.setEp_freeCount (s : State) (i : Nat) (f : EpRegs → EpRegs) : (s.setEp i f).freeCount = s.freeCount := by cases i <;> rfl
@[simp] theorem State.setEp_eps_length (s : State) (i : Nat) (f : EpRegs → EpRegs) : (s.setEp i f).eps.length = s.eps.length := by
  cases i <;> simp [State.setEp]

/-! The other updates. -/

@[simp] theorem State.setDesc_cfg (s : State) (i : Nat) (f : EpDesc → EpDesc) : (s.setDesc i f).cfg = s.cfg := rfl
@[simp] theorem State.setDesc_ramOffset (s : State) (i : Nat) (f : EpDesc → EpDesc) : (s.setDesc i f).ramOffset = s.ramOffset := rfl
@[simp] theorem State.setDesc_lce (s : State) (i : Nat) (f : EpDesc → EpDesc) : (s.setDesc i f).lce = s.lce := rfl
@[simp] theorem State.setDesc_statusCallback (s : State) (i : Nat) (f : EpDesc → EpDesc) : (s.setDesc i f).statusCallback = s.statusCallback := rfl
@[simp] theorem State.setDesc_ctrlState (s : State) (i : Nat) (f : EpDesc → EpDesc) : (s.setDesc i f).ctrlState = s.ctrlState := rfl
@[simp] theorem State.setDesc_setupSnap (s : State) (i : Nat) (f : EpDesc → EpDesc) : (s.setDesc i f).setupSnap = s.setupSnap := rfl
@[simp] theorem State.setDesc_irqConnected (s : State) (i : Nat) (f : EpDesc → EpDesc) : (s.setDesc i f).irqConnected = s.irqConnected := rfl
@[simp] theorem State.setDesc_port (s : State) (i : Nat) (f : EpDesc → EpDesc) : (s.setDesc i f).port = s.port := rfl
@[simp] theorem State.setDesc_ctl (s : State) (i : Nat) (f : EpDesc → EpDesc) : (s.setDesc i f).ctl = s.ctl := rfl
@[simp] theorem State.setDesc_eps (s : State) (i : Nat) (f : EpDesc → EpDesc) : (s.setDesc i f).eps = s.eps := rfl
@[simp] theorem State.setDesc_inIsr (s : State) (i : Nat) (f : EpDesc → EpDesc) : (s.setDesc i f).inIsr = s.inIsr := rfl
@[simp] theorem State.setDesc_gSnap (s : State) (i : Nat) (f : EpDesc → EpDesc) : (s.setDesc i f).gSnap = s.gSnap := rfl
@[simp] theorem State.setDesc_sSnap (s : State) (i : Nat) (f : EpDesc → EpDesc) : (s.setDesc i f).sSnap = s.sSnap := rfl
@[simp] theorem State.setDesc_scanPos (s : State) (i : Nat) (f : EpDesc → EpDesc) : (s.setDesc i f).scanPos = s.scanPos := rfl
@[simp] theorem State.setDesc_fifoBusy (s : State) (i : Nat) (f : EpDesc → EpDesc) : (s.setDesc i f).fifoBusy = s.fifoBusy := rfl
@[simp] theorem State.setDesc_mem (s : State) (i : Nat) (f : EpDesc → EpDesc) : (s.setDesc i f).mem = s.mem := rfl
@[simp] theorem State.setDesc_hostRanges (s : State) (i : Nat) (f : EpDesc → EpDesc) : (s.setDesc i f).hostRanges = s.hostRanges := rfl
@[simp] theorem State.setDesc_now (s : State) (i : Nat) (f : EpDesc → EpDesc) : (s.setDesc i f).now = s.now := rfl
@[simp] theorem State.setDesc_calls (s : State) (i : Nat) (f : EpDesc → EpDesc) : (s.setDesc i f).calls = s.calls := rfl
@[simp] theorem State.setDesc_sent (s : State) (i : Nat) (f : EpDesc → EpDesc) : (s.setDesc i f).sent = s.sent := rfl
@[simp] theorem State.setDesc_allocRet (s : State) (i : Nat) (f : EpDesc → EpDesc) : (s.setDesc i f).allocRet = s.allocRet := rfl
@[simp] theorem State.setDesc_script (s : State) (i : Nat) (f : EpDesc → EpDesc) : (s.setDesc i f).script = s.script := rfl
@[simp] theorem State.setDesc_taskGaps (s : State) (i : Nat) (f : EpDesc → EpDesc) : (s.setDesc i f).taskGaps = s.taskGaps := rfl
@[simp] theorem State.setDesc_passGaps (s : State) (i : Nat) (f : EpDesc → EpDesc) : (s.setDesc i f).passGaps = s.passGaps := rfl
@[simp] theorem State.setDesc_passCbs (s : State) (i : Nat) (f : EpDesc → EpDesc) : (s.setDesc i f).passCbs = s.passCbs := rfl
@[simp] theorem State.setDesc_cbGaps (s : State) (i : Nat) (f : EpDesc → EpDesc) : (s.setDesc i f).cbGaps = s.cbGaps := rfl
@[simp] theorem State.setDesc_freeCount (s : State) (i : Nat) (f : EpDesc → EpDesc) : (s.setDesc i f).freeCount = s.freeCount := rfl
@[simp] theorem State.setDesc_epTable_length (s : State) (i : Nat) (f : EpDesc → EpDesc) : (s.setDesc i f).epTable.length = s.epTable.length := by
  simp [State.setDesc]
@[simp] theorem State.setBusy_cfg (s : State) (i : Nat) (b : Bool) : (s.setBusy i b).cfg = s.cfg := rfl
@[simp] theorem State.setBusy_ramOffset (s : State) (i : Nat) (b : Bool) : (s.setBusy i b).ramOffset = s.ramOffset := rfl
@[simp] theorem State.setBusy_lce (s : State) (i : Nat) (b : Bool) : (s.setBusy i b).lce = s.lce := rfl
@[simp] theorem State.setBusy_statusCallback (s : State) (i : Nat) (b : Bool) : (s.setBusy i b).statusCallback = s.statusCallback := rfl
@[simp] theorem State.setBusy_ctrlState (s : State) (i : Nat) (b : Bool) : (s.setBusy i b).ctrlState = s.ctrlState := rfl
@[simp] theorem State.setBusy_setupSnap (s : State) (i : Nat) (b : Bool) : (s.setBusy i b).setupSnap = s.setupSnap := rfl
@[simp] theorem State.setBusy_epTable (s : State) (i : Nat) (b : Bool) : (s.setBusy i b).epTable = s.epTable := rfl
@[simp] theorem State.setBusy_irqConnected (s : State) (i : Nat) (b : Bool) : (s.setBusy i b).irqConnected = s.irqConnected := rfl
@[simp] theorem State.setBusy_port (s : State) (i : Nat) (b : Bool) : (s.setBusy i b).port = s.port := rfl
@[simp] theorem State.setBusy_ctl (s : State) (i : Nat) (b : Bool) : (s.setBusy i b).ctl = s.ctl := rfl
@[simp] theorem State.setBusy_eps (s : State) (i : Nat) (b : Bool) : (s.setBusy i b).eps = s.eps := rfl
@[simp] theorem State.setBusy_inIsr (s : State) (i : Nat) (b : Bool) : (s.setBusy i b).inIsr = s.inIsr := rfl
@[simp] theorem State.setBusy_gSnap (s : State) (i : Nat) (b : Bool) : (s.setBusy i b).gSnap = s.gSnap := rfl
@[simp] theorem State.setBusy_sSnap (s : State) (i : Nat) (b : Bool) : (s.setBusy i b).sSnap = s.sSnap := rfl
@[simp] theorem State.setBusy_scanPos (s : State) (i : Nat) (b : Bool) : (s.setBusy i b).scanPos = s.scanPos := rfl
@[simp] theorem State.setBusy_mem (s : State) (i : Nat) (b : Bool) : (s.setBusy i b).mem = s.mem := rfl
@[simp] theorem State.setBusy_hostRanges (s : State) (i : Nat) (b : Bool) : (s.setBusy i b).hostRanges = s.hostRanges := rfl
@[simp] theorem State.setBusy_now (s : State) (i : Nat) (b : Bool) : (s.setBusy i b).now = s.now := rfl
@[simp] theorem State.setBusy_calls (s : State) (i : Nat) (b : Bool) : (s.setBusy i b).calls = s.calls := rfl
@[simp] theorem State.setBusy_sent (s : State) (i : Nat) (b : Bool) : (s.setBusy i b).sent = s.sent := rfl
@[simp] theorem State.setBusy_allocRet (s : State) (i : Nat) (b : Bool) : (s.setBusy i b).allocRet = s.allocRet := rfl
@[simp] theorem State.setBusy_script (s : State) (i : Nat) (b : Bool) : (s.setBusy i b).script = s.script := rfl
@[simp] theorem State.setBusy_taskGaps (s : State) (i : Nat) (b : Bool) : (s.setBusy i b).taskGaps = s.taskGaps := rfl
@[simp] theorem State.setBusy_passGaps (s : State) (i : Nat) (b : Bool) : (s.setBusy i b).passGaps = s.passGaps := rfl
@[simp] theorem State.setBusy_passCbs (s : State) (i : Nat) (b : Bool) : (s.setBusy i b).passCbs = s.passCbs := rfl
@[simp] theorem State.setBusy_cbGaps (s : State) (i : Nat) (b : Bool) : (s.setBusy i b).cbGaps = s.cbGaps := rfl
@[simp] theorem State.setBusy_freeCount (s : State) (i : Nat) (b : Bool) : (s.setBusy i b).freeCount = s.freeCount := rfl
@[simp] theorem State.setBusy_fifoBusy_length (s : State) (i : Nat) (b : Bool) : (s.setBusy i b).fifoBusy.length = s.fifoBusy.length := by
  simp [State.setBusy]
@[simp] theorem State.setErr_cfg (s : State) (v : Word) : (s.setErr v).cfg = s.cfg := rfl
@[simp] theorem State.setErr_ramOffset (s : State) (v : Word) : (s.setErr v).ramOffset = s.ramOffset := rfl
@[simp] theorem State.setErr_lce (s : State) (v : Word) : (s.setErr v).lce = s.lce := rfl
@[simp] theorem State.setErr_statusCallback (s : State) (v : Word) : (s.setErr v).statusCallback = s.statusCallback := rfl
@[simp] theorem State.setErr_ctrlState (s : State) (v : Word) : (s.setErr v).ctrlState = s.ctrlState := rfl
@[simp] theorem State.setErr_setupSnap (s : State) (v : Word) : (s.setErr v).setupSnap = s.setupSnap := rfl
@[simp] theorem State.setErr_epTable (s : State) (v : Word) : (s.setErr v).epTable = s.epTable := rfl
@[simp] theorem State.setErr_irqConnected (s : State) (v : Word) : (s.setErr v).irqConnected = s.irqConnected := rfl
@[simp] theorem State.setErr_ctl (s : State) (v : Word) : (s.setErr v).ctl = s.ctl := rfl
@[simp] theorem State.setErr_eps (s : State) (v : Word) : (s.setErr v).eps = s.eps := rfl
@[simp] theorem State.setErr_inIsr (s : State) (v : Word) : (s.setErr v).inIsr = s.inIsr := rfl
@[simp] theorem State.setErr_gSnap (s : State) (v : Word) : (s.setErr v).gSnap = s.gSnap := rfl
@[simp] theorem State.setErr_sSnap (s : State) (v : Word) : (s.setErr v).sSnap = s.sSnap := rfl
@[simp] theorem State.setErr_scanPos (s : State) (v : Word) : (s.setErr v).scanPos = s.scanPos := rfl
@[simp] theorem State.setErr_fifoBusy (s : State) (v : Word) : (s.setErr v).fifoBusy = s.fifoBusy := rfl
@[simp] theorem State.setErr_mem (s : State) (v : Word) : (s.setErr v).mem = s.mem := rfl
@[simp] theorem State.setErr_hostRanges (s : State) (v : Word) : (s.setErr v).hostRanges = s.hostRanges := rfl
@[simp] theorem State.setErr_now (s : State) (v : Word) : (s.setErr v).now = s.now := rfl
@[simp] theorem State.setErr_calls (s : State) (v : Word) : (s.setErr v).calls = s.calls := rfl
@[simp] theorem State.setErr_sent (s : State) (v : Word) : (s.setErr v).sent = s.sent := rfl
@[simp] theorem State.setErr_allocRet (s : State) (v : Word) : (s.setErr v).allocRet = s.allocRet := rfl
@[simp] theorem State.setErr_script (s : State) (v : Word) : (s.setErr v).script = s.script := rfl
@[simp] theorem State.setErr_taskGaps (s : State) (v : Word) : (s.setErr v).taskGaps = s.taskGaps := rfl
@[simp] theorem State.setErr_passGaps (s : State) (v : Word) : (s.setErr v).passGaps = s.passGaps := rfl
@[simp] theorem State.setErr_passCbs (s : State) (v : Word) : (s.setErr v).passCbs = s.passCbs := rfl
@[simp] theorem State.setErr_cbGaps (s : State) (v : Word) : (s.setErr v).cbGaps = s.cbGaps := rfl
@[simp] theorem State.setErr_freeCount (s : State) (v : Word) : (s.setErr v).freeCount = s.freeCount := rfl
@[simp] theorem State.setErr_port (s : State) (v : Word) : (s.setErr v).port = { s.port with err := v } := rfl
@[simp] theorem State.setVal_cfg (s : State) (v : Word) : (s.setVal v).cfg = s.cfg := rfl
@[simp] theorem State.setVal_ramOffset (s : State) (v : Word) : (s.setVal v).ramOffset = s.ramOffset := rfl
@[simp] theorem State.setVal_lce (s : State) (v : Word) : (s.setVal v).lce = s.lce := rfl
@[simp] theorem State.setVal_statusCallback (s : State) (v : Word) : (s.setVal v).statusCallback = s.statusCallback := rfl
@[simp] theorem State.setVal_ctrlState (s : State) (v : Word) : (s.setVal v).ctrlState = s.ctrlState := rfl
@[simp] theorem State.setVal_setupSnap (s : State) (v : Word) : (s.setVal v).setupSnap = s.setupSnap := rfl
@[simp] theorem State.setVal_epTable (s : State) (v : Word) : (s.setVal v).epTable = s.epTable := rfl
@[simp] theorem State.setVal_irqConnected (s : State) (v : Word) : (s.setVal v).irqConnected = s.irqConnected := rfl
@[simp] theorem State.setVal_ctl (s : State) (v : Word) : (s.setVal v).ctl = s.ctl := rfl
@[simp] theorem State.setVal_eps (s : State) (v : Word) : (s.setVal v).eps = s.eps := rfl
@[simp] theorem State.setVal_inIsr (s : State) (v : Word) : (s.setVal v).inIsr = s.inIsr := rfl
@[simp] theorem State.setVal_gSnap (s : State) (v : Word) : (s.setVal v).gSnap = s.gSnap := rfl
@[simp] theorem State.setVal_sSnap (s : State) (v : Word) : (s.setVal v).sSnap = s.sSnap := rfl
@[simp] theorem State.setVal_scanPos (s : State) (v : Word) : (s.setVal v).scanPos = s.scanPos := rfl
@[simp] theorem State.setVal_fifoBusy (s : State) (v : Word) : (s.setVal v).fifoBusy = s.fifoBusy := rfl
@[simp] theorem State.setVal_mem (s : State) (v : Word) : (s.setVal v).mem = s.mem := rfl
@[simp] theorem State.setVal_hostRanges (s : State) (v : Word) : (s.setVal v).hostRanges = s.hostRanges := rfl
@[simp] theorem State.setVal_now (s : State) (v : Word) : (s.setVal v).now = s.now := rfl
@[simp] theorem State.setVal_calls (s : State) (v : Word) : (s.setVal v).calls = s.calls := rfl
@[simp] theorem State.setVal_sent (s : State) (v : Word) : (s.setVal v).sent = s.sent := rfl
@[simp] theorem State.setVal_allocRet (s : State) (v : Word) : (s.setVal v).allocRet = s.allocRet := rfl
@[simp] theorem State.setVal_script (s : State) (v : Word) : (s.setVal v).script = s.script := rfl
@[simp] theorem State.setVal_taskGaps (s : State) (v : Word) : (s.setVal v).taskGaps = s.taskGaps := rfl
@[simp] theorem State.setVal_passGaps (s : State) (v : Word) : (s.setVal v).passGaps = s.passGaps := rfl
@[simp] theorem State.setVal_passCbs (s : State) (v : Word) : (s.setVal v).passCbs = s.passCbs := rfl
@[simp] theorem State.setVal_cbGaps (s : State) (v : Word) : (s.setVal v).cbGaps = s.cbGaps := rfl
@[simp] theorem State.setVal_freeCount (s : State) (v : Word) : (s.setVal v).freeCount = s.freeCount := rfl
@[simp] theorem State.setVal_port (s : State) (v : Word) : (s.setVal v).port = { s.port with val := v } := rfl

/-! Reading an endpoint's registers and descriptor after an update. -/

theorem State.ep_setEp_same (s : State) {i : Nat} (f : EpRegs → EpRegs) (h : i ≠ 0) (hi : i ≤ s.eps.length) :
    (s.setEp i f).ep i = f (s.ep i) := by
  cases i with
  | zero => exact absurd rfl h
  | succ k => simp [State.setEp, State.ep, List.getD_eq_getElem?_getD, show k < s.eps.length by omega]

theorem State.ep_setEp_other (s : State) {i j : Nat} (f : EpRegs → EpRegs) (h : j ≠ i) : (s.setEp i f).ep j = s.ep j := by
  cases j with
  | zero => cases i <;> rfl
  | succ k =>
    cases i with
    | zero => rfl
    | succ n =>
      have : n ≠ k := by omega
      simp [State.setEp, State.ep, List.getD_eq_getElem?_getD, this]

theorem State.desc_setDesc_same (s : State) {i : Nat} (f : EpDesc → EpDesc) (hi : i < s.epTable.length) :
    (s.setDesc i f).desc i = f (s.desc i) := by
  simp [State.setDesc, State.desc, List.getD_eq_getElem?_getD, hi]

theorem State.desc_setDesc_other (s : State) {i j : Nat} (f : EpDesc → EpDesc) (h : j ≠ i) : (s.setDesc i f).desc j = s.desc j := by
  have : i ≠ j := fun e => h e.symm
  simp [State.setDesc, State.desc, List.getD_eq_getElem?_getD, this]

/-- A change of an endpoint's registers may use what they read as before it. -/
theorem State.setEp_read (s : State) (i : Nat) (f : EpRegs → EpRegs → EpRegs) :
    s.setEp i (f (s.ep i)) = s.setEp i fun e => f e e := by
  cases i with
  | zero => rfl
  | succ k =>
    simp only [State.setEp, State.ep]
    congr 1
    apply List.ext_getElem?
    intro j
    simp only [List.getElem?_modify]
    by_cases h : k = j
    · subst h
      simp only [if_true]
      cases h2 : s.eps[k]? <;> simp [List.getD_eq_getElem?_getD, h2]
    · simp [h]

/-- Two changes of an endpoint's registers that agree on what it holds. -/
theorem State.setEp_congr (s : State) (i : Nat) (f g : EpRegs → EpRegs) (h : f (s.ep i) = g (s.ep i)) : s.setEp i f = s.setEp i g := by
  cases i with
  | zero => rfl
  | succ k =>
    simp only [State.setEp]
    congr 1
    simp only [State.ep, List.getD_eq_getElem?_getD] at h
    apply List.ext_getElem?
    intro n
    simp only [List.getElem?_modify]
    by_cases e : k = n
    · subst e
      cases hk : s.eps[k]? with
      | none => rfl
      | some x => simp [hk] at h; simp [h]
    · simp [e]

/-- Two changes of one endpoint's registers are one. -/
theorem State.setEp_setEp (s : State) (i : Nat) (f g : EpRegs → EpRegs) : (s.setEp i f).setEp i g = s.setEp i fun e => g (f e) := by
  cases i with
  | zero => rfl
  | succ k =>
    simp only [State.setEp]
    congr 1
    apply List.ext_getElem?
    intro j
    simp only [List.getElem?_modify]
    by_cases h : k = j
    · subst h; cases s.eps[k]? <;> simp
    · simp [h]

theorem State.setEp_id (s : State) (i : Nat) : (s.setEp i fun e => e) = s := by
  cases i with
  | zero => rfl
  | succ k =>
    have : s.eps.modify k (fun e => e) = s.eps := by
      apply List.ext_getElem?; intro j; simp only [List.getElem?_modify]; split <;> simp
    simp [State.setEp, this]

theorem State.setBusy_setBusy (s : State) (i : Nat) (b c : Bool) : (s.setBusy i b).setBusy i c = s.setBusy i c := by
  simp [State.setBusy]

/-- A transfer that leaves a FIFO it found free leaves `fifo_busy` as it was. -/
theorem State.setBusy_self (s : State) (i : Nat) (b : Bool) (h : s.busy i = b) : s.setBusy i b = s ∨ s.fifoBusy.length ≤ i := by
  by_cases hi : i < s.fifoBusy.length
  · left
    have h' : s.fifoBusy[i] = b := by simpa [State.busy, List.getD_eq_getElem?_getD, hi] using h
    simp only [State.setBusy]
    rw [← h', List.set_getElem_self]
  · exact .inr (by omega)

theorem State.setBusy_false (s : State) (i : Nat) (h : s.busy i = false) : s.setBusy i false = s := by
  rcases State.setBusy_self s i false h with e | e
  · exact e
  · simp [State.setBusy, List.set_eq_of_length_le e]

/-! Register accesses and SIE's changes: everything outside the controller is left alone. -/

@[simp] theorem regWrite_cfg (r : Reg) (v : Word) (s : State) : (regWrite r v s).cfg = s.cfg := by cases r <;> simp [regWrite] <;> split <;> simp
@[simp] theorem regWrite_ramOffset (r : Reg) (v : Word) (s : State) : (regWrite r v s).ramOffset = s.ramOffset := by cases r <;> simp [regWrite] <;> split <;> simp
@[simp] theorem regWrite_lce (r : Reg) (v : Word) (s : State) : (regWrite r v s).lce = s.lce := by cases r <;> simp [regWrite] <;> split <;> simp
@[simp] theorem regWrite_statusCallback (r : Reg) (v : Word) (s : State) : (regWrite r v s).statusCallback = s.statusCallback := by cases r <;> simp [regWrite] <;> split <;> simp
@[simp] theorem regWrite_ctrlState (r : Reg) (v : Word) (s : State) : (regWrite r v s).ctrlState = s.ctrlState := by cases r <;> simp [regWrite] <;> split <;> simp
@[simp] theorem regWrite_setupSnap (r : Reg) (v : Word) (s : State) : (regWrite r v s).setupSnap = s.setupSnap := by cases r <;> simp [regWrite] <;> split <;> simp
@[simp] theorem regWrite_epTable (r : Reg) (v : Word) (s : State) : (regWrite r v s).epTable = s.epTable := by cases r <;> simp [regWrite] <;> split <;> simp
@[simp] theorem regWrite_irqConnected (r : Reg) (v : Word) (s : State) : (regWrite r v s).irqConnected = s.irqConnected := by cases r <;> simp [regWrite] <;> split <;> simp
@[simp] theorem regWrite_port (r : Reg) (v : Word) (s : State) : (regWrite r v s).port = s.port := by cases r <;> simp [regWrite] <;> split <;> simp
@[simp] theorem regWrite_inIsr (r : Reg) (v : Word) (s : State) : (regWrite r v s).inIsr = s.inIsr := by cases r <;> simp [regWrite] <;> split <;> simp
@[simp] theorem regWrite_gSnap (r : Reg) (v : Word) (s : State) : (regWrite r v s).gSnap = s.gSnap := by cases r <;> simp [regWrite] <;> split <;> simp
@[simp] theorem regWrite_sSnap (r : Reg) (v : Word) (s : State) : (regWrite r v s).sSnap = s.sSnap := by cases r <;> simp [regWrite] <;> split <;> simp
@[simp] theorem regWrite_scanPos (r : Reg) (v : Word) (s : State) : (regWrite r v s).scanPos = s.scanPos := by cases r <;> simp [regWrite] <;> split <;> simp
@[simp] theorem regWrite_fifoBusy (r : Reg) (v : Word) (s : State) : (regWrite r v s).fifoBusy = s.fifoBusy := by cases r <;> simp [regWrite] <;> split <;> simp
@[simp] theorem regWrite_mem (r : Reg) (v : Word) (s : State) : (regWrite r v s).mem = s.mem := by cases r <;> simp [regWrite] <;> split <;> simp
@[simp] theorem regWrite_hostRanges (r : Reg) (v : Word) (s : State) : (regWrite r v s).hostRanges = s.hostRanges := by cases r <;> simp [regWrite] <;> split <;> simp
@[simp] theorem regWrite_now (r : Reg) (v : Word) (s : State) : (regWrite r v s).now = s.now := by cases r <;> simp [regWrite] <;> split <;> simp
@[simp] theorem regWrite_calls (r : Reg) (v : Word) (s : State) : (regWrite r v s).calls = s.calls := by cases r <;> simp [regWrite] <;> split <;> simp
@[simp] theorem regWrite_sent (r : Reg) (v : Word) (s : State) : (regWrite r v s).sent = s.sent := by cases r <;> simp [regWrite] <;> split <;> simp
@[simp] theorem regWrite_allocRet (r : Reg) (v : Word) (s : State) : (regWrite r v s).allocRet = s.allocRet := by cases r <;> simp [regWrite] <;> split <;> simp
@[simp] theorem regWrite_script (r : Reg) (v : Word) (s : State) : (regWrite r v s).script = s.script := by cases r <;> simp [regWrite] <;> split <;> simp
@[simp] theorem regWrite_taskGaps (r : Reg) (v : Word) (s : State) : (regWrite r v s).taskGaps = s.taskGaps := by cases r <;> simp [regWrite] <;> split <;> simp
@[simp] theorem regWrite_passGaps (r : Reg) (v : Word) (s : State) : (regWrite r v s).passGaps = s.passGaps := by cases r <;> simp [regWrite] <;> split <;> simp
@[simp] theorem regWrite_passCbs (r : Reg) (v : Word) (s : State) : (regWrite r v s).passCbs = s.passCbs := by cases r <;> simp [regWrite] <;> split <;> simp
@[simp] theorem regWrite_cbGaps (r : Reg) (v : Word) (s : State) : (regWrite r v s).cbGaps = s.cbGaps := by cases r <;> simp [regWrite] <;> split <;> simp
@[simp] theorem regWrite_freeCount (r : Reg) (v : Word) (s : State) : (regWrite r v s).freeCount = s.freeCount := by cases r <;> simp [regWrite] <;> split <;> simp
@[simp] theorem regWrite_eps_length (r : Reg) (v : Word) (s : State) : (regWrite r v s).eps.length = s.eps.length := by cases r <;> simp [regWrite] <;> split <;> simp
@[simp] theorem dropRx_cfg (f : DatReg) (s : State) : (dropRx f s).cfg = s.cfg := by cases f <;> simp [dropRx]
@[simp] theorem dropRx_ramOffset (f : DatReg) (s : State) : (dropRx f s).ramOffset = s.ramOffset := by cases f <;> simp [dropRx]
@[simp] theorem dropRx_lce (f : DatReg) (s : State) : (dropRx f s).lce = s.lce := by cases f <;> simp [dropRx]
@[simp] theorem dropRx_statusCallback (f : DatReg) (s : State) : (dropRx f s).statusCallback = s.statusCallback := by cases f <;> simp [dropRx]
@[simp] theorem dropRx_ctrlState (f : DatReg) (s : State) : (dropRx f s).ctrlState = s.ctrlState := by cases f <;> simp [dropRx]
@[simp] theorem dropRx_setupSnap (f : DatReg) (s : State) : (dropRx f s).setupSnap = s.setupSnap := by cases f <;> simp [dropRx]
@[simp] theorem dropRx_epTable (f : DatReg) (s : State) : (dropRx f s).epTable = s.epTable := by cases f <;> simp [dropRx]
@[simp] theorem dropRx_irqConnected (f : DatReg) (s : State) : (dropRx f s).irqConnected = s.irqConnected := by cases f <;> simp [dropRx]
@[simp] theorem dropRx_port (f : DatReg) (s : State) : (dropRx f s).port = s.port := by cases f <;> simp [dropRx]
@[simp] theorem dropRx_inIsr (f : DatReg) (s : State) : (dropRx f s).inIsr = s.inIsr := by cases f <;> simp [dropRx]
@[simp] theorem dropRx_gSnap (f : DatReg) (s : State) : (dropRx f s).gSnap = s.gSnap := by cases f <;> simp [dropRx]
@[simp] theorem dropRx_sSnap (f : DatReg) (s : State) : (dropRx f s).sSnap = s.sSnap := by cases f <;> simp [dropRx]
@[simp] theorem dropRx_scanPos (f : DatReg) (s : State) : (dropRx f s).scanPos = s.scanPos := by cases f <;> simp [dropRx]
@[simp] theorem dropRx_fifoBusy (f : DatReg) (s : State) : (dropRx f s).fifoBusy = s.fifoBusy := by cases f <;> simp [dropRx]
@[simp] theorem dropRx_mem (f : DatReg) (s : State) : (dropRx f s).mem = s.mem := by cases f <;> simp [dropRx]
@[simp] theorem dropRx_hostRanges (f : DatReg) (s : State) : (dropRx f s).hostRanges = s.hostRanges := by cases f <;> simp [dropRx]
@[simp] theorem dropRx_now (f : DatReg) (s : State) : (dropRx f s).now = s.now := by cases f <;> simp [dropRx]
@[simp] theorem dropRx_calls (f : DatReg) (s : State) : (dropRx f s).calls = s.calls := by cases f <;> simp [dropRx]
@[simp] theorem dropRx_sent (f : DatReg) (s : State) : (dropRx f s).sent = s.sent := by cases f <;> simp [dropRx]
@[simp] theorem dropRx_allocRet (f : DatReg) (s : State) : (dropRx f s).allocRet = s.allocRet := by cases f <;> simp [dropRx]
@[simp] theorem dropRx_script (f : DatReg) (s : State) : (dropRx f s).script = s.script := by cases f <;> simp [dropRx]
@[simp] theorem dropRx_taskGaps (f : DatReg) (s : State) : (dropRx f s).taskGaps = s.taskGaps := by cases f <;> simp [dropRx]
@[simp] theorem dropRx_passGaps (f : DatReg) (s : State) : (dropRx f s).passGaps = s.passGaps := by cases f <;> simp [dropRx]
@[simp] theorem dropRx_passCbs (f : DatReg) (s : State) : (dropRx f s).passCbs = s.passCbs := by cases f <;> simp [dropRx]
@[simp] theorem dropRx_cbGaps (f : DatReg) (s : State) : (dropRx f s).cbGaps = s.cbGaps := by cases f <;> simp [dropRx]
@[simp] theorem dropRx_freeCount (f : DatReg) (s : State) : (dropRx f s).freeCount = s.freeCount := by cases f <;> simp [dropRx]
@[simp] theorem dropRx_eps_length (f : DatReg) (s : State) : (dropRx f s).eps.length = s.eps.length := by cases f <;> simp [dropRx]
@[simp] theorem appendTx_cfg (f : DatReg) (b : Byte) (s : State) : (appendTx f b s).cfg = s.cfg := by cases f <;> simp [appendTx]
@[simp] theorem appendTx_ramOffset (f : DatReg) (b : Byte) (s : State) : (appendTx f b s).ramOffset = s.ramOffset := by cases f <;> simp [appendTx]
@[simp] theorem appendTx_lce (f : DatReg) (b : Byte) (s : State) : (appendTx f b s).lce = s.lce := by cases f <;> simp [appendTx]
@[simp] theorem appendTx_statusCallback (f : DatReg) (b : Byte) (s : State) : (appendTx f b s).statusCallback = s.statusCallback := by cases f <;> simp [appendTx]
@[simp] theorem appendTx_ctrlState (f : DatReg) (b : Byte) (s : State) : (appendTx f b s).ctrlState = s.ctrlState := by cases f <;> simp [appendTx]
@[simp] theorem appendTx_setupSnap (f : DatReg) (b : Byte) (s : State) : (appendTx f b s).setupSnap = s.setupSnap := by cases f <;> simp [appendTx]
@[simp] theorem appendTx_epTable (f : DatReg) (b : Byte) (s : State) : (appendTx f b s).epTable = s.epTable := by cases f <;> simp [appendTx]
@[simp] theorem appendTx_irqConnected (f : DatReg) (b : Byte) (s : State) : (appendTx f b s).irqConnected = s.irqConnected := by cases f <;> simp [appendTx]
@[simp] theorem appendTx_port (f : DatReg) (b : Byte) (s : State) : (appendTx f b s).port = s.port := by cases f <;> simp [appendTx]
@[simp] theorem appendTx_inIsr (f : DatReg) (b : Byte) (s : State) : (appendTx f b s).inIsr = s.inIsr := by cases f <;> simp [appendTx]
@[simp] theorem appendTx_gSnap (f : DatReg) (b : Byte) (s : State) : (appendTx f b s).gSnap = s.gSnap := by cases f <;> simp [appendTx]
@[simp] theorem appendTx_sSnap (f : DatReg) (b : Byte) (s : State) : (appendTx f b s).sSnap = s.sSnap := by cases f <;> simp [appendTx]
@[simp] theorem appendTx_scanPos (f : DatReg) (b : Byte) (s : State) : (appendTx f b s).scanPos = s.scanPos := by cases f <;> simp [appendTx]
@[simp] theorem appendTx_fifoBusy (f : DatReg) (b : Byte) (s : State) : (appendTx f b s).fifoBusy = s.fifoBusy := by cases f <;> simp [appendTx]
@[simp] theorem appendTx_mem (f : DatReg) (b : Byte) (s : State) : (appendTx f b s).mem = s.mem := by cases f <;> simp [appendTx]
@[simp] theorem appendTx_hostRanges (f : DatReg) (b : Byte) (s : State) : (appendTx f b s).hostRanges = s.hostRanges := by cases f <;> simp [appendTx]
@[simp] theorem appendTx_now (f : DatReg) (b : Byte) (s : State) : (appendTx f b s).now = s.now := by cases f <;> simp [appendTx]
@[simp] theorem appendTx_calls (f : DatReg) (b : Byte) (s : State) : (appendTx f b s).calls = s.calls := by cases f <;> simp [appendTx]
@[simp] theorem appendTx_sent (f : DatReg) (b : Byte) (s : State) : (appendTx f b s).sent = s.sent := by cases f <;> simp [appendTx]
@[simp] theorem appendTx_allocRet (f : DatReg) (b : Byte) (s : State) : (appendTx f b s).allocRet = s.allocRet := by cases f <;> simp [appendTx]
@[simp] theorem appendTx_script (f : DatReg) (b : Byte) (s : State) : (appendTx f b s).script = s.script := by cases f <;> simp [appendTx]
@[simp] theorem appendTx_taskGaps (f : DatReg) (b : Byte) (s : State) : (appendTx f b s).taskGaps = s.taskGaps := by cases f <;> simp [appendTx]
@[simp] theorem appendTx_passGaps (f : DatReg) (b : Byte) (s : State) : (appendTx f b s).passGaps = s.passGaps := by cases f <;> simp [appendTx]
@[simp] theorem appendTx_passCbs (f : DatReg) (b : Byte) (s : State) : (appendTx f b s).passCbs = s.passCbs := by cases f <;> simp [appendTx]
@[simp] theorem appendTx_cbGaps (f : DatReg) (b : Byte) (s : State) : (appendTx f b s).cbGaps = s.cbGaps := by cases f <;> simp [appendTx]
@[simp] theorem appendTx_freeCount (f : DatReg) (b : Byte) (s : State) : (appendTx f b s).freeCount = s.freeCount := by cases f <;> simp [appendTx]
@[simp] theorem appendTx_eps_length (f : DatReg) (b : Byte) (s : State) : (appendTx f b s).eps.length = s.eps.length := by cases f <;> simp [appendTx]
@[simp] theorem raiseStatus_cfg (g : StatusReg) (m : Word) (s : State) : (raiseStatus g m s).cfg = s.cfg := by cases g <;> simp [raiseStatus]
@[simp] theorem raiseStatus_ramOffset (g : StatusReg) (m : Word) (s : State) : (raiseStatus g m s).ramOffset = s.ramOffset := by cases g <;> simp [raiseStatus]
@[simp] theorem raiseStatus_lce (g : StatusReg) (m : Word) (s : State) : (raiseStatus g m s).lce = s.lce := by cases g <;> simp [raiseStatus]
@[simp] theorem raiseStatus_statusCallback (g : StatusReg) (m : Word) (s : State) : (raiseStatus g m s).statusCallback = s.statusCallback := by cases g <;> simp [raiseStatus]
@[simp] theorem raiseStatus_ctrlState (g : StatusReg) (m : Word) (s : State) : (raiseStatus g m s).ctrlState = s.ctrlState := by cases g <;> simp [raiseStatus]
@[simp] theorem raiseStatus_setupSnap (g : StatusReg) (m : Word) (s : State) : (raiseStatus g m s).setupSnap = s.setupSnap := by cases g <;> simp [raiseStatus]
@[simp] theorem raiseStatus_epTable (g : StatusReg) (m : Word) (s : State) : (raiseStatus g m s).epTable = s.epTable := by cases g <;> simp [raiseStatus]
@[simp] theorem raiseStatus_irqConnected (g : StatusReg) (m : Word) (s : State) : (raiseStatus g m s).irqConnected = s.irqConnected := by cases g <;> simp [raiseStatus]
@[simp] theorem raiseStatus_port (g : StatusReg) (m : Word) (s : State) : (raiseStatus g m s).port = s.port := by cases g <;> simp [raiseStatus]
@[simp] theorem raiseStatus_inIsr (g : StatusReg) (m : Word) (s : State) : (raiseStatus g m s).inIsr = s.inIsr := by cases g <;> simp [raiseStatus]
@[simp] theorem raiseStatus_gSnap (g : StatusReg) (m : Word) (s : State) : (raiseStatus g m s).gSnap = s.gSnap := by cases g <;> simp [raiseStatus]
@[simp] theorem raiseStatus_sSnap (g : StatusReg) (m : Word) (s : State) : (raiseStatus g m s).sSnap = s.sSnap := by cases g <;> simp [raiseStatus]
@[simp] theorem raiseStatus_scanPos (g : StatusReg) (m : Word) (s : State) : (raiseStatus g m s).scanPos = s.scanPos := by cases g <;> simp [raiseStatus]
@[simp] theorem raiseStatus_fifoBusy (g : StatusReg) (m : Word) (s : State) : (raiseStatus g m s).fifoBusy = s.fifoBusy := by cases g <;> simp [raiseStatus]
@[simp] theorem raiseStatus_mem (g : StatusReg) (m : Word) (s : State) : (raiseStatus g m s).mem = s.mem := by cases g <;> simp [raiseStatus]
@[simp] theorem raiseStatus_hostRanges (g : StatusReg) (m : Word) (s : State) : (raiseStatus g m s).hostRanges = s.hostRanges := by cases g <;> simp [raiseStatus]
@[simp] theorem raiseStatus_now (g : StatusReg) (m : Word) (s : State) : (raiseStatus g m s).now = s.now := by cases g <;> simp [raiseStatus]
@[simp] theorem raiseStatus_calls (g : StatusReg) (m : Word) (s : State) : (raiseStatus g m s).calls = s.calls := by cases g <;> simp [raiseStatus]
@[simp] theorem raiseStatus_sent (g : StatusReg) (m : Word) (s : State) : (raiseStatus g m s).sent = s.sent := by cases g <;> simp [raiseStatus]
@[simp] theorem raiseStatus_allocRet (g : StatusReg) (m : Word) (s : State) : (raiseStatus g m s).allocRet = s.allocRet := by cases g <;> simp [raiseStatus]
@[simp] theorem raiseStatus_script (g : StatusReg) (m : Word) (s : State) : (raiseStatus g m s).script = s.script := by cases g <;> simp [raiseStatus]
@[simp] theorem raiseStatus_taskGaps (g : StatusReg) (m : Word) (s : State) : (raiseStatus g m s).taskGaps = s.taskGaps := by cases g <;> simp [raiseStatus]
@[simp] theorem raiseStatus_passGaps (g : StatusReg) (m : Word) (s : State) : (raiseStatus g m s).passGaps = s.passGaps := by cases g <;> simp [raiseStatus]
@[simp] theorem raiseStatus_passCbs (g : StatusReg) (m : Word) (s : State) : (raiseStatus g m s).passCbs = s.passCbs := by cases g <;> simp [raiseStatus]
@[simp] theorem raiseStatus_cbGaps (g : StatusReg) (m : Word) (s : State) : (raiseStatus g m s).cbGaps = s.cbGaps := by cases g <;> simp [raiseStatus]
@[simp] theorem raiseStatus_freeCount (g : StatusReg) (m : Word) (s : State) : (raiseStatus g m s).freeCount = s.freeCount := by cases g <;> simp [raiseStatus]
@[simp] theorem raiseStatus_eps_length (g : StatusReg) (m : Word) (s : State) : (raiseStatus g m s).eps.length = s.eps.length := by cases g <;> simp [raiseStatus]
@[simp] theorem setRx_cfg (f : DatReg) (l : List Byte) (s : State) : (setRx f l s).cfg = s.cfg := by cases f <;> simp [setRx]
@[simp] theorem setRx_ramOffset (f : DatReg) (l : List Byte) (s : State) : (setRx f l s).ramOffset = s.ramOffset := by cases f <;> simp [setRx]
@[simp] theorem setRx_lce (f : DatReg) (l : List Byte) (s : State) : (setRx f l s).lce = s.lce := by cases f <;> simp [setRx]
@[simp] theorem setRx_statusCallback (f : DatReg) (l : List Byte) (s : State) : (setRx f l s).statusCallback = s.statusCallback := by cases f <;> simp [setRx]
@[simp] theorem setRx_ctrlState (f : DatReg) (l : List Byte) (s : State) : (setRx f l s).ctrlState = s.ctrlState := by cases f <;> simp [setRx]
@[simp] theorem setRx_setupSnap (f : DatReg) (l : List Byte) (s : State) : (setRx f l s).setupSnap = s.setupSnap := by cases f <;> simp [setRx]
@[simp] theorem setRx_epTable (f : DatReg) (l : List Byte) (s : State) : (setRx f l s).epTable = s.epTable := by cases f <;> simp [setRx]
@[simp] theorem setRx_irqConnected (f : DatReg) (l : List Byte) (s : State) : (setRx f l s).irqConnected = s.irqConnected := by cases f <;> simp [setRx]
@[simp] theorem setRx_port (f : DatReg) (l : List Byte) (s : State) : (setRx f l s).port = s.port := by cases f <;> simp [setRx]
@[simp] theorem setRx_inIsr (f : DatReg) (l : List Byte) (s : State) : (setRx f l s).inIsr = s.inIsr := by cases f <;> simp [setRx]
@[simp] theorem setRx_gSnap (f : DatReg) (l : List Byte) (s : State) : (setRx f l s).gSnap = s.gSnap := by cases f <;> simp [setRx]
@[simp] theorem setRx_sSnap (f : DatReg) (l : List Byte) (s : State) : (setRx f l s).sSnap = s.sSnap := by cases f <;> simp [setRx]
@[simp] theorem setRx_scanPos (f : DatReg) (l : List Byte) (s : State) : (setRx f l s).scanPos = s.scanPos := by cases f <;> simp [setRx]
@[simp] theorem setRx_fifoBusy (f : DatReg) (l : List Byte) (s : State) : (setRx f l s).fifoBusy = s.fifoBusy := by cases f <;> simp [setRx]
@[simp] theorem setRx_mem (f : DatReg) (l : List Byte) (s : State) : (setRx f l s).mem = s.mem := by cases f <;> simp [setRx]
@[simp] theorem setRx_hostRanges (f : DatReg) (l : List Byte) (s : State) : (setRx f l s).hostRanges = s.hostRanges := by cases f <;> simp [setRx]
@[simp] theorem setRx_now (f : DatReg) (l : List Byte) (s : State) : (setRx f l s).now = s.now := by cases f <;> simp [setRx]
@[simp] theorem setRx_calls (f : DatReg) (l : List Byte) (s : State) : (setRx f l s).calls = s.calls := by cases f <;> simp [setRx]
@[simp] theorem setRx_sent (f : DatReg) (l : List Byte) (s : State) : (setRx f l s).sent = s.sent := by cases f <;> simp [setRx]
@[simp] theorem setRx_allocRet (f : DatReg) (l : List Byte) (s : State) : (setRx f l s).allocRet = s.allocRet := by cases f <;> simp [setRx]
@[simp] theorem setRx_script (f : DatReg) (l : List Byte) (s : State) : (setRx f l s).script = s.script := by cases f <;> simp [setRx]
@[simp] theorem setRx_taskGaps (f : DatReg) (l : List Byte) (s : State) : (setRx f l s).taskGaps = s.taskGaps := by cases f <;> simp [setRx]
@[simp] theorem setRx_passGaps (f : DatReg) (l : List Byte) (s : State) : (setRx f l s).passGaps = s.passGaps := by cases f <;> simp [setRx]
@[simp] theorem setRx_passCbs (f : DatReg) (l : List Byte) (s : State) : (setRx f l s).passCbs = s.passCbs := by cases f <;> simp [setRx]
@[simp] theorem setRx_cbGaps (f : DatReg) (l : List Byte) (s : State) : (setRx f l s).cbGaps = s.cbGaps := by cases f <;> simp [setRx]
@[simp] theorem setRx_freeCount (f : DatReg) (l : List Byte) (s : State) : (setRx f l s).freeCount = s.freeCount := by cases f <;> simp [setRx]
@[simp] theorem setRx_eps_length (f : DatReg) (l : List Byte) (s : State) : (setRx f l s).eps.length = s.eps.length := by cases f <;> simp [setRx]
@[simp] theorem setTx_cfg (f : DatReg) (l : List Byte) (s : State) : (setTx f l s).cfg = s.cfg := by cases f <;> simp [setTx]
@[simp] theorem setTx_ramOffset (f : DatReg) (l : List Byte) (s : State) : (setTx f l s).ramOffset = s.ramOffset := by cases f <;> simp [setTx]
@[simp] theorem setTx_lce (f : DatReg) (l : List Byte) (s : State) : (setTx f l s).lce = s.lce := by cases f <;> simp [setTx]
@[simp] theorem setTx_statusCallback (f : DatReg) (l : List Byte) (s : State) : (setTx f l s).statusCallback = s.statusCallback := by cases f <;> simp [setTx]
@[simp] theorem setTx_ctrlState (f : DatReg) (l : List Byte) (s : State) : (setTx f l s).ctrlState = s.ctrlState := by cases f <;> simp [setTx]
@[simp] theorem setTx_setupSnap (f : DatReg) (l : List Byte) (s : State) : (setTx f l s).setupSnap = s.setupSnap := by cases f <;> simp [setTx]
@[simp] theorem setTx_epTable (f : DatReg) (l : List Byte) (s : State) : (setTx f l s).epTable = s.epTable := by cases f <;> simp [setTx]
@[simp] theorem setTx_irqConnected (f : DatReg) (l : List Byte) (s : State) : (setTx f l s).irqConnected = s.irqConnected := by cases f <;> simp [setTx]
@[simp] theorem setTx_port (f : DatReg) (l : List Byte) (s : State) : (setTx f l s).port = s.port := by cases f <;> simp [setTx]
@[simp] theorem setTx_inIsr (f : DatReg) (l : List Byte) (s : State) : (setTx f l s).inIsr = s.inIsr := by cases f <;> simp [setTx]
@[simp] theorem setTx_gSnap (f : DatReg) (l : List Byte) (s : State) : (setTx f l s).gSnap = s.gSnap := by cases f <;> simp [setTx]
@[simp] theorem setTx_sSnap (f : DatReg) (l : List Byte) (s : State) : (setTx f l s).sSnap = s.sSnap := by cases f <;> simp [setTx]
@[simp] theorem setTx_scanPos (f : DatReg) (l : List Byte) (s : State) : (setTx f l s).scanPos = s.scanPos := by cases f <;> simp [setTx]
@[simp] theorem setTx_fifoBusy (f : DatReg) (l : List Byte) (s : State) : (setTx f l s).fifoBusy = s.fifoBusy := by cases f <;> simp [setTx]
@[simp] theorem setTx_mem (f : DatReg) (l : List Byte) (s : State) : (setTx f l s).mem = s.mem := by cases f <;> simp [setTx]
@[simp] theorem setTx_hostRanges (f : DatReg) (l : List Byte) (s : State) : (setTx f l s).hostRanges = s.hostRanges := by cases f <;> simp [setTx]
@[simp] theorem setTx_now (f : DatReg) (l : List Byte) (s : State) : (setTx f l s).now = s.now := by cases f <;> simp [setTx]
@[simp] theorem setTx_calls (f : DatReg) (l : List Byte) (s : State) : (setTx f l s).calls = s.calls := by cases f <;> simp [setTx]
@[simp] theorem setTx_sent (f : DatReg) (l : List Byte) (s : State) : (setTx f l s).sent = s.sent := by cases f <;> simp [setTx]
@[simp] theorem setTx_allocRet (f : DatReg) (l : List Byte) (s : State) : (setTx f l s).allocRet = s.allocRet := by cases f <;> simp [setTx]
@[simp] theorem setTx_script (f : DatReg) (l : List Byte) (s : State) : (setTx f l s).script = s.script := by cases f <;> simp [setTx]
@[simp] theorem setTx_taskGaps (f : DatReg) (l : List Byte) (s : State) : (setTx f l s).taskGaps = s.taskGaps := by cases f <;> simp [setTx]
@[simp] theorem setTx_passGaps (f : DatReg) (l : List Byte) (s : State) : (setTx f l s).passGaps = s.passGaps := by cases f <;> simp [setTx]
@[simp] theorem setTx_passCbs (f : DatReg) (l : List Byte) (s : State) : (setTx f l s).passCbs = s.passCbs := by cases f <;> simp [setTx]
@[simp] theorem setTx_cbGaps (f : DatReg) (l : List Byte) (s : State) : (setTx f l s).cbGaps = s.cbGaps := by cases f <;> simp [setTx]
@[simp] theorem setTx_freeCount (f : DatReg) (l : List Byte) (s : State) : (setTx f l s).freeCount = s.freeCount := by cases f <;> simp [setTx]
@[simp] theorem setTx_eps_length (f : DatReg) (l : List Byte) (s : State) : (setTx f l s).eps.length = s.eps.length := by cases f <;> simp [setTx]
@[simp] theorem clearPending_cfg (f : DatReg) (s : State) : (clearPending f s).cfg = s.cfg := by cases f <;> simp [clearPending]
@[simp] theorem clearPending_ramOffset (f : DatReg) (s : State) : (clearPending f s).ramOffset = s.ramOffset := by cases f <;> simp [clearPending]
@[simp] theorem clearPending_lce (f : DatReg) (s : State) : (clearPending f s).lce = s.lce := by cases f <;> simp [clearPending]
@[simp] theorem clearPending_statusCallback (f : DatReg) (s : State) : (clearPending f s).statusCallback = s.statusCallback := by cases f <;> simp [clearPending]
@[simp] theorem clearPending_ctrlState (f : DatReg) (s : State) : (clearPending f s).ctrlState = s.ctrlState := by cases f <;> simp [clearPending]
@[simp] theorem clearPending_setupSnap (f : DatReg) (s : State) : (clearPending f s).setupSnap = s.setupSnap := by cases f <;> simp [clearPending]
@[simp] theorem clearPending_epTable (f : DatReg) (s : State) : (clearPending f s).epTable = s.epTable := by cases f <;> simp [clearPending]
@[simp] theorem clearPending_irqConnected (f : DatReg) (s : State) : (clearPending f s).irqConnected = s.irqConnected := by cases f <;> simp [clearPending]
@[simp] theorem clearPending_port (f : DatReg) (s : State) : (clearPending f s).port = s.port := by cases f <;> simp [clearPending]
@[simp] theorem clearPending_inIsr (f : DatReg) (s : State) : (clearPending f s).inIsr = s.inIsr := by cases f <;> simp [clearPending]
@[simp] theorem clearPending_gSnap (f : DatReg) (s : State) : (clearPending f s).gSnap = s.gSnap := by cases f <;> simp [clearPending]
@[simp] theorem clearPending_sSnap (f : DatReg) (s : State) : (clearPending f s).sSnap = s.sSnap := by cases f <;> simp [clearPending]
@[simp] theorem clearPending_scanPos (f : DatReg) (s : State) : (clearPending f s).scanPos = s.scanPos := by cases f <;> simp [clearPending]
@[simp] theorem clearPending_fifoBusy (f : DatReg) (s : State) : (clearPending f s).fifoBusy = s.fifoBusy := by cases f <;> simp [clearPending]
@[simp] theorem clearPending_mem (f : DatReg) (s : State) : (clearPending f s).mem = s.mem := by cases f <;> simp [clearPending]
@[simp] theorem clearPending_hostRanges (f : DatReg) (s : State) : (clearPending f s).hostRanges = s.hostRanges := by cases f <;> simp [clearPending]
@[simp] theorem clearPending_now (f : DatReg) (s : State) : (clearPending f s).now = s.now := by cases f <;> simp [clearPending]
@[simp] theorem clearPending_calls (f : DatReg) (s : State) : (clearPending f s).calls = s.calls := by cases f <;> simp [clearPending]
@[simp] theorem clearPending_sent (f : DatReg) (s : State) : (clearPending f s).sent = s.sent := by cases f <;> simp [clearPending]
@[simp] theorem clearPending_allocRet (f : DatReg) (s : State) : (clearPending f s).allocRet = s.allocRet := by cases f <;> simp [clearPending]
@[simp] theorem clearPending_script (f : DatReg) (s : State) : (clearPending f s).script = s.script := by cases f <;> simp [clearPending]
@[simp] theorem clearPending_taskGaps (f : DatReg) (s : State) : (clearPending f s).taskGaps = s.taskGaps := by cases f <;> simp [clearPending]
@[simp] theorem clearPending_passGaps (f : DatReg) (s : State) : (clearPending f s).passGaps = s.passGaps := by cases f <;> simp [clearPending]
@[simp] theorem clearPending_passCbs (f : DatReg) (s : State) : (clearPending f s).passCbs = s.passCbs := by cases f <;> simp [clearPending]
@[simp] theorem clearPending_cbGaps (f : DatReg) (s : State) : (clearPending f s).cbGaps = s.cbGaps := by cases f <;> simp [clearPending]
@[simp] theorem clearPending_freeCount (f : DatReg) (s : State) : (clearPending f s).freeCount = s.freeCount := by cases f <;> simp [clearPending]
@[simp] theorem clearPending_eps_length (f : DatReg) (s : State) : (clearPending f s).eps.length = s.eps.length := by cases f <;> simp [clearPending]

/-! The derived status word depends on the registers alone (R38). -/

theorem epStatusBits_congr {s t : State} (hc : t.cfg = s.cfg) (he : t.eps = s.eps) (n : Nat) : epStatusBits t n = epStatusBits s n := by
  have e : ∀ i, t.ep i = s.ep i := by intro i; cases i <;> simp [State.ep, he]
  induction n with
  | zero => rfl
  | succ n ih => simp only [epStatusBits, ih, e, hc]

theorem gintsts_congr {s t : State} (hc : t.cfg = s.cfg) (hr : t.ctl = s.ctl) (he : t.eps = s.eps) : gintsts t = gintsts s := by
  simp only [gintsts, epStatusBits_congr hc he, hc, hr]

theorem passEnabled_congr {s t : State} (hc : t.cfg = s.cfg) (hr : t.ctl = s.ctl) (he : t.eps = s.eps)
    (hq : t.irqConnected = s.irqConnected) (hi : t.inIsr = s.inIsr) : passEnabled t = passEnabled s := by
  simp only [passEnabled, irqLine, gintsts_congr hc hr he, hr, hq, hi]

end Sys2Proof.Machine
end

