-- ==== Sys2Proof/Laws/Prog.lean ====
section
/-! SUPPORT. Programs: how a sequence of pieces runs, and what each piece does in a state where nothing comes between two accesses. A proof
about a command cites these and never unfolds an access. -/

set_option Elab.async false

namespace Sys2Proof.Machine

/-! Sequencing. -/

theorem bind_ok {α β : Type} {p : Prog α} {f : α → Prog β} {s t : State} {a : α} (h : p s = .ok a t) :
    (p >>= f) s = f a t := by
  show EStateM.bind p f s = _
  simp [EStateM.bind, h]

/-- The same with the rest of the sequence: a proof walks a program piece by piece with it. -/
theorem bind_seq {α β : Type} {p : Prog α} {f : α → Prog β} {s t : State} {a : α} {r : EStateM.Result Stop State β}
    (h : p s = .ok a t) (hf : f a t = r) : (p >>= f) s = r := (bind_ok h).trans hf

theorem bind_error {α β : Type} {p : Prog α} {f : α → Prog β} {s t : State} {e : Stop} (h : p s = .error e t) :
    (p >>= f) s = .error e t := by
  show EStateM.bind p f s = _
  simp [EStateM.bind, h]

/-- What a sequence answers, by what its first piece answers. -/
theorem bind_run {α β : Type} (p : Prog α) (f : α → Prog β) (s : State) :
    (p >>= f) s = match p s with
      | .ok a t => f a t
      | .error e t => .error e t := by
  show EStateM.bind p f s = _
  unfold EStateM.bind
  cases p s <;> rfl

/-- A branch that is taken. -/
theorem ite_run {α : Type} {c : Prop} [Decidable c] {p q : Prog α} {s : State} {r : EStateM.Result Stop State α} (h : c) (hp : p s = r) :
    (if c then p else q) s = r := by rw [if_pos h, hp]

/-- A branch that is not. -/
theorem else_run {α : Type} {c : Prop} [Decidable c] {p q : Prog α} {s : State} {r : EStateM.Result Stop State α} (h : ¬c)
    (hq : q s = r) : (if c then p else q) s = r := by rw [if_neg h, hq]

@[simp] theorem done_run (s : State) : done s = .ok () s := rfl
@[simp] theorem upd_run (f : State → State) (s : State) : upd f s = .ok () (f s) := rfl
@[simp] theorem look_run {α : Type} (f : State → α) (s : State) : look f s = .ok (f s) s := rfl
@[simp] theorem raise_run {α : Type} (e : Err) (s : State) : (raise e : Prog α) s = .error (.raise e) s := rfl
@[simp] theorem stopFault_run {α : Type} (f : Fault) (s : State) : (stopFault f : Prog α) s = .error (.fault f) s := rfl
@[simp] theorem refuse_run {α : Type} (r : Refusal) (s : State) : (refuse r : Prog α) s = .error (.refuse r) s := rfl

@[simp] theorem bind_upd {β : Type} (g : State → State) (f : Unit → Prog β) (s : State) : (upd g >>= f) s = f () (g s) := rfl
@[simp] theorem bind_look {α β : Type} (g : State → α) (f : α → Prog β) (s : State) : (look g >>= f) s = f (g s) s := rfl
@[simp] theorem bind_done {β : Type} (f : Unit → Prog β) (s : State) : (done >>= f) s = f () s := rfl
@[simp] theorem bind_raise {α β : Type} (e : Err) (f : α → Prog β) (s : State) :
    ((raise e : Prog α) >>= f) s = .error (.raise e) s := rfl

/-! How an operation ends. -/

theorem outcome_ok {p : Prog Unit} {s t : State} (h : p s = .ok () t) : outcome p s = .next t := by simp [outcome, h]

theorem outcome_raise {p : Prog Unit} {s t : State} {e : Err} (h : p s = .error (.raise e) t) :
    outcome p s = .next (t.setErr e.code) := by simp [outcome, h]

/-- A command that ends without an error writes OK (R24). -/
theorem run_ok {p : Prog Unit} {s t : State} (h : p s = .ok () t) : run p s = .next (t.setErr okCode) := by
  simp [run, outcome, settle, h]

/-- A command that raises an error writes its code (R24). -/
theorem run_raise {p : Prog Unit} {s t : State} {e : Err} (h : p s = .error (.raise e) t) :
    run p s = .next (t.setErr e.code) := by simp [run, outcome, settle, h]

theorem run_fault {p : Prog Unit} {s t : State} {f : Fault} (h : p s = .error (.fault f) t) : run p s = .fault f := by
  simp [run, outcome, settle, h]

theorem run_refuse {p : Prog Unit} {s t : State} {r : Refusal} (h : p s = .error (.refuse r) t) : run p s = .refused r := by
  simp [run, outcome, settle, h]

/-! An agent at rest: nothing is scheduled before its next access. -/

/-- Nothing happens before the agent's next access in `s`. -/
def Agent.Quiet (g : Agent) (s : State) : Prop := g.point s = .ok () s

theorem cmdAgent_quiet {s : State} (ht : s.taskGaps = []) (hc : s.cbGaps = []) : cmdAgent.Quiet s := by
  simp only [Agent.Quiet, cmdAgent, callbackPoint, taskPoint, ht, hc]
  split <;> rfl

theorem callbackCmd_quiet {s : State} (hc : s.cbGaps = []) : callbackCmd.Quiet s := by
  simp [Agent.Quiet, callbackCmd, callbackPoint, hc]

theorem isr_quiet {s : State} (hp : s.passGaps = []) : isr.Quiet s := by
  simp [Agent.Quiet, isr, passPoint, hp]

/-! The accesses of an agent at rest. -/

theorem point_quiet {β : Type} {g : Agent} {s : State} (h : g.Quiet s) (f : Unit → Prog β) : (g.point >>= f) s = f () s := bind_ok h

theorem rd_quiet {g : Agent} {s : State} (h : g.Quiet s) (r : Reg) : rd g r s = .ok (regRead r s) s := bind_ok h

theorem wr_quiet {g : Agent} {s : State} (h : g.Quiet s) (r : Reg) (v : Word) : wr g r v s = .ok () (regWrite r v s) := bind_ok h

theorem rset_quiet {g : Agent} {s : State} (h : g.Quiet s) (r : Reg) (m : Word) :
    rset g r m s = .ok () (regWrite r (regRead r s ||| m) s) := by
  rw [rset, bind_ok (rd_quiet h r), wr_quiet h]

theorem rclr_quiet {g : Agent} {s : State} (h : g.Quiet s) (r : Reg) (m : Word) :
    rclr g r m s = .ok () (regWrite r (regRead r s &&& ~~~m) s) := by
  rw [rclr, bind_ok (rd_quiet h r), wr_quiet h]

theorem own_quiet {α : Type} {g : Agent} {s : State} (h : g.Quiet s) (f : State → α) : own g f s = .ok (f s) s := bind_ok h

theorem ownUpd_quiet {g : Agent} {s : State} (h : g.Quiet s) (f : State → State) : ownUpd g f s = .ok () (f s) := bind_ok h

theorem clock_quiet {g : Agent} {s : State} (h : g.Quiet s) : clock g s = .ok s.now s := bind_ok h

theorem load_quiet {g : Agent} {s : State} (h : g.Quiet s) {a : Nat} (ha : a < Config.hostTop) (hr : hostReadable s a = true) :
    load g a s = .ok (Memory.read s.mem a) s := by
  refine (bind_ok h).trans ?_
  simp [show ¬ Config.hostTop ≤ a by omega, hr]

theorem store_quiet {g : Agent} {s : State} (h : g.Quiet s) {a : Nat} (ha : a < Config.hostTop) (hw : hostWritable s a = true) (b : Byte) :
    store g a b s = .ok () { s with mem := Memory.write s.mem a b } := by
  refine (bind_ok h).trans ?_
  simp [show ¬ Config.hostTop ≤ a by omega, hw]

/-- A read of a data register whose FIFO holds a byte (R75). -/
theorem fifoPop_quiet {g : Agent} {s : State} (h : g.Quiet s) {f : DatReg} {b : Byte} {l : List Byte} (hf : rxfifo f s = b :: l) :
    fifoPop g f s = .ok b (dropRx f s) := by
  refine (bind_ok h).trans ?_
  simp [hf]

/-- A read of a data register whose FIFO is empty: some byte, and FIFO and count as they were (R75). -/
theorem fifoPop_empty {g : Agent} {s : State} (h : g.Quiet s) {f : DatReg} (hf : rxfifo f s = []) :
    fifoPop g f s = .ok (Config.freeByte s.freeCount) { s with freeCount := s.freeCount + 1 } := by
  refine (bind_ok h).trans ?_
  show (match rxfifo f s with
    | [] => takeFreeByte s
    | b :: _ => .ok b (dropRx f s)) = _
  rw [hf]
  rfl

/-- A push below the capacity (R76). -/
theorem fifoPush_quiet {g : Agent} {s : State} (h : g.Quiet s) {f : DatReg} {mps : Half} (b : Byte)
    (hc : (txfifo f s).length < fifoCapacity mps) :
    fifoPush g f mps b s = .ok () (appendTx f b s) := by
  refine (bind_ok h).trans ?_
  simp [show ¬ fifoCapacity mps ≤ (txfifo f s).length by omega]

/-- A write of a non-zero transmit count (R77). -/
theorem sendCount_quiet {g : Agent} {s : State} (h : g.Quiet s) (f : DatReg) {n : Nat} (hn : n ≠ 0) :
    sendCount g f n s = .ok () (regWrite (txCountReg f) (BitVec.ofNat 32 n) s) := by
  rw [sendCount, if_neg hn, wr_quiet h]

/-! What a register write does, register by register, with the masks resolved. -/

theorem rset_ginten (m : Word) (s : State) :
    regWrite .ginten (regRead .ginten s ||| m) s = { s with ctl.ginten := s.ctl.ginten ||| (m &&& gintenMask s.cfg) } := by
  simp [regWrite, regRead, writeMasked_or]

theorem rclr_ginten (m : Word) (s : State) :
    regWrite .ginten (regRead .ginten s &&& ~~~m) s = { s with ctl.ginten := s.ctl.ginten &&& ~~~(m &&& gintenMask s.cfg) } := by
  simp [regWrite, regRead, writeMasked_andNot]

theorem rset_phyctl (m : Word) (s : State) :
    regWrite .phyctl (regRead .phyctl s ||| m) s = { s with ctl.phyctl := s.ctl.phyctl ||| (m &&& phyctlMask s.cfg.bitmap) } := by
  simp [regWrite, regRead, writeMasked_or]

theorem rclr_phyctl (m : Word) (s : State) :
    regWrite .phyctl (regRead .phyctl s &&& ~~~m) s = { s with ctl.phyctl := s.ctl.phyctl &&& ~~~(m &&& phyctlMask s.cfg.bitmap) } := by
  simp [regWrite, regRead, writeMasked_andNot]

theorem rset_oper (m : Word) (s : State) :
    regWrite .oper (regRead .oper s ||| m) s = { s with ctl.oper := s.ctl.oper ||| (m &&& operMask s.cfg.bitmap) } := by
  simp [regWrite, regRead, writeMasked_or]

theorem rset_dmactl (m : Word) (s : State) :
    regWrite .dmactl (regRead .dmactl s ||| m) s = { s with ctl.dmactl := s.ctl.dmactl ||| (m &&& dmactlMask s.cfg.bitmap) } := by
  simp [regWrite, regRead, writeMasked_or]

theorem rclr_dmactl (m : Word) (s : State) :
    regWrite .dmactl (regRead .dmactl s &&& ~~~m) s = { s with ctl.dmactl := s.ctl.dmactl &&& ~~~(m &&& dmactlMask s.cfg.bitmap) } := by
  simp [regWrite, regRead, writeMasked_andNot]

theorem rset_cepctl (m : Word) (s : State) :
    regWrite .cepctl (regRead .cepctl s ||| m) s = { s with ctl.cepctl := s.ctl.cepctl ||| (m &&& cepctlMask s.cfg.bitmap) } := by
  simp [regWrite, regRead, writeMasked_or]

theorem rclr_cepctl (m : Word) (s : State) :
    regWrite .cepctl (regRead .cepctl s &&& ~~~m) s = { s with ctl.cepctl := s.ctl.cepctl &&& ~~~(m &&& cepctlMask s.cfg.bitmap) } := by
  simp [regWrite, regRead, writeMasked_andNot]

theorem rset_cepinten (m : Word) (s : State) :
    regWrite .cepinten (regRead .cepinten s ||| m) s = { s with ctl.cepinten := s.ctl.cepinten ||| m } := rfl

theorem rset_epinten (i : Nat) (m : Word) (s : State) :
    regWrite (.epinten i) (regRead (.epinten i) s ||| m) s = s.setEp i fun e => { e with epinten := e.epinten ||| m } :=
  State.setEp_read s i fun r e => { e with epinten := r.epinten ||| m }

theorem rset_eprspctl (i : Nat) (m : Word) (s : State) :
    regWrite (.eprspctl i) (regRead (.eprspctl i) s ||| m) s
      = s.setEp i fun e => { e with eprspctl := e.eprspctl ||| (m &&& eprspctlMask s.cfg.bitmap) } := by
  have := State.setEp_read s i fun r e => { e with eprspctl := writeMasked (eprspctlMask s.cfg.bitmap) e.eprspctl (r.eprspctl ||| m) }
  simpa only [regWrite, regRead, writeMasked_or] using this

theorem rclr_eprspctl (i : Nat) (m : Word) (s : State) :
    regWrite (.eprspctl i) (regRead (.eprspctl i) s &&& ~~~m) s
      = s.setEp i fun e => { e with eprspctl := e.eprspctl &&& ~~~(m &&& eprspctlMask s.cfg.bitmap) } := by
  have := State.setEp_read s i fun r e => { e with eprspctl := writeMasked (eprspctlMask s.cfg.bitmap) e.eprspctl (r.eprspctl &&& ~~~m) }
  simpa only [regWrite, regRead, writeMasked_andNot] using this

/-! Checks. -/

theorem withEp_ok {a : Byte} {k : Config → Nat → Prog Unit} {s : State} (h : epOk s.cfg a = true) :
    withEp a k s = k s.cfg (epIdx a) s := by simp [withEp, h]

theorem withEp_bad {a : Byte} {k : Config → Nat → Prog Unit} {s : State} (h : epOk s.cfg a = false) :
    withEp a k s = .error (.raise .invalidParameter) s := by simp [withEp, h]

theorem checkCap_ok {a : Byte} {mps : Half} {ty : XferType} {s : State} (h : capOk s.cfg a mps ty = true) :
    checkCap a mps ty s = .ok () s := by simp [checkCap, h]

theorem checkCap_bad {a : Byte} {mps : Half} {ty : XferType} {s : State} (h : capOk s.cfg a mps ty = false) :
    checkCap a mps ty s = .error (.raise .invalidParameter) s := by simp [checkCap, h]

theorem epIdx_lt_of_epOk {c : Config} {a : Byte} (h : epOk c a = true) : epIdx a < c.nEp := by
  simp only [epOk, Bool.and_eq_true, decide_eq_true_eq] at h
  exact h.1

theorem isEp_of_epOk {c : Config} {a : Byte} (h : epOk c a = true) (h0 : epIdx a ≠ 0) : c.isEp (epIdx a) = true :=
  isEp_of_ne_zero (epIdx_lt_of_epOk h) h0

end Sys2Proof.Machine
end

