-- ==== Sys2Proof/Laws/Alone.lean ====
section
/-! SUPPORT. Undisturbed states: which updates keep them, and what an undisturbed agent is. -/

set_option Elab.async false

namespace Sys2Proof.Machine

theorem State.CmdAlone.quiet {s : State} (h : s.CmdAlone) : cmdAgent.Quiet s := cmdAgent_quiet h.1 h.2

theorem State.PassAlone.quiet {s : State} (h : s.PassAlone) : isr.Quiet s := isr_quiet h.1

@[simp] theorem CmdAlone_regWrite (r : Reg) (v : Word) (s : State) : State.CmdAlone (regWrite r v s) ↔ s.CmdAlone := by simp [State.CmdAlone]
@[simp] theorem CmdAlone_setEp (i : Nat) (f : EpRegs → EpRegs) (s : State) : State.CmdAlone (s.setEp i f) ↔ s.CmdAlone := by simp [State.CmdAlone]
@[simp] theorem CmdAlone_setDesc (i : Nat) (f : EpDesc → EpDesc) (s : State) : State.CmdAlone (s.setDesc i f) ↔ s.CmdAlone := by simp [State.CmdAlone]
@[simp] theorem CmdAlone_setBusy (i : Nat) (b : Bool) (s : State) : State.CmdAlone (s.setBusy i b) ↔ s.CmdAlone := by simp [State.CmdAlone]
@[simp] theorem CmdAlone_setErr (v : Word) (s : State) : State.CmdAlone (s.setErr v) ↔ s.CmdAlone := by simp [State.CmdAlone]
@[simp] theorem CmdAlone_setVal (v : Word) (s : State) : State.CmdAlone (s.setVal v) ↔ s.CmdAlone := by simp [State.CmdAlone]
@[simp] theorem CmdAlone_dropRx (f : DatReg) (s : State) : State.CmdAlone (dropRx f s) ↔ s.CmdAlone := by simp [State.CmdAlone]
@[simp] theorem CmdAlone_appendTx (f : DatReg) (b : Byte) (s : State) : State.CmdAlone (appendTx f b s) ↔ s.CmdAlone := by simp [State.CmdAlone]
@[simp] theorem CmdAlone_raiseStatus (g : StatusReg) (m : Word) (s : State) : State.CmdAlone (raiseStatus g m s) ↔ s.CmdAlone := by simp [State.CmdAlone]

@[simp] theorem PassAlone_regWrite (r : Reg) (v : Word) (s : State) : State.PassAlone (regWrite r v s) ↔ s.PassAlone := by simp [State.PassAlone]
@[simp] theorem PassAlone_setEp (i : Nat) (f : EpRegs → EpRegs) (s : State) : State.PassAlone (s.setEp i f) ↔ s.PassAlone := by simp [State.PassAlone]
@[simp] theorem PassAlone_setDesc (i : Nat) (f : EpDesc → EpDesc) (s : State) : State.PassAlone (s.setDesc i f) ↔ s.PassAlone := by simp [State.PassAlone]
@[simp] theorem PassAlone_setBusy (i : Nat) (b : Bool) (s : State) : State.PassAlone (s.setBusy i b) ↔ s.PassAlone := by simp [State.PassAlone]
@[simp] theorem PassAlone_setErr (v : Word) (s : State) : State.PassAlone (s.setErr v) ↔ s.PassAlone := by simp [State.PassAlone]
@[simp] theorem PassAlone_setVal (v : Word) (s : State) : State.PassAlone (s.setVal v) ↔ s.PassAlone := by simp [State.PassAlone]
@[simp] theorem PassAlone_dropRx (f : DatReg) (s : State) : State.PassAlone (dropRx f s) ↔ s.PassAlone := by simp [State.PassAlone]
@[simp] theorem PassAlone_appendTx (f : DatReg) (b : Byte) (s : State) : State.PassAlone (appendTx f b s) ↔ s.PassAlone := by simp [State.PassAlone]
@[simp] theorem PassAlone_raiseStatus (g : StatusReg) (m : Word) (s : State) : State.PassAlone (raiseStatus g m s) ↔ s.PassAlone := by simp [State.PassAlone]

/-- Every endpoint's registers hold named bits only. -/
theorem State.NamedBits.ep {s : State} (h : s.NamedBits) (i : Nat) : EpRegs.NamedBits s.cfg.bitmap (s.ep i) := by
  have := h.2.2.2.2.2.2
  cases i with
  | zero => exact ⟨BitVec.zero_and, BitVec.zero_and, BitVec.zero_and⟩
  | succ k =>
    show EpRegs.NamedBits _ (s.eps.getD k EpRegs.zero)
    rw [List.getD_eq_getElem?_getD]
    cases hk : s.eps[k]? with
    | none => exact ⟨BitVec.zero_and, BitVec.zero_and, BitVec.zero_and⟩
    | some e => exact this e (List.mem_of_getElem? hk)

end Sys2Proof.Machine
end

