-- ==== Sys2Proof/Laws/Calm.lean ====
section
/-! SUPPORT. A command whose next accesses come with nothing in between: what each access does, the schedule being the only other thing that
moves. A task-priority command uses up `taskGaps`, one issued from a callback `cbGaps`. -/

set_option Elab.async false

namespace Sys2Proof.Machine

/-- The state with the next `k` gaps of the running command's schedule used up. -/
def State.skip (k : Nat) (s : State) : State :=
  { s with
    taskGaps := s.taskGaps.drop (if s.inIsr then 0 else k)
    cbGaps := s.cbGaps.drop (if s.inIsr then k else 0) }

/-- The next `k` gaps of the running command's schedule are empty. -/
def State.Calm (k : Nat) (s : State) : Prop :=
  (s.inIsr = true → ∀ p ∈ s.cbGaps.take k, p = []) ∧ (s.inIsr = false → ∀ p ∈ s.taskGaps.take k, p = [])

@[simp] theorem skip_cfg (k : Nat) (s : State) : (s.skip k).cfg = s.cfg := rfl
@[simp] theorem skip_ramOffset (k : Nat) (s : State) : (s.skip k).ramOffset = s.ramOffset := rfl
@[simp] theorem skip_lce (k : Nat) (s : State) : (s.skip k).lce = s.lce := rfl
@[simp] theorem skip_statusCallback (k : Nat) (s : State) : (s.skip k).statusCallback = s.statusCallback := rfl
@[simp] theorem skip_ctrlState (k : Nat) (s : State) : (s.skip k).ctrlState = s.ctrlState := rfl
@[simp] theorem skip_setupSnap (k : Nat) (s : State) : (s.skip k).setupSnap = s.setupSnap := rfl
@[simp] theorem skip_epTable (k : Nat) (s : State) : (s.skip k).epTable = s.epTable := rfl
@[simp] theorem skip_irqConnected (k : Nat) (s : State) : (s.skip k).irqConnected = s.irqConnected := rfl
@[simp] theorem skip_port (k : Nat) (s : State) : (s.skip k).port = s.port := rfl
@[simp] theorem skip_ctl (k : Nat) (s : State) : (s.skip k).ctl = s.ctl := rfl
@[simp] theorem skip_eps (k : Nat) (s : State) : (s.skip k).eps = s.eps := rfl
@[simp] theorem skip_inIsr (k : Nat) (s : State) : (s.skip k).inIsr = s.inIsr := rfl
@[simp] theorem skip_gSnap (k : Nat) (s : State) : (s.skip k).gSnap = s.gSnap := rfl
@[simp] theorem skip_sSnap (k : Nat) (s : State) : (s.skip k).sSnap = s.sSnap := rfl
@[simp] theorem skip_scanPos (k : Nat) (s : State) : (s.skip k).scanPos = s.scanPos := rfl
@[simp] theorem skip_fifoBusy (k : Nat) (s : State) : (s.skip k).fifoBusy = s.fifoBusy := rfl
@[simp] theorem skip_mem (k : Nat) (s : State) : (s.skip k).mem = s.mem := rfl
@[simp] theorem skip_hostRanges (k : Nat) (s : State) : (s.skip k).hostRanges = s.hostRanges := rfl
@[simp] theorem skip_now (k : Nat) (s : State) : (s.skip k).now = s.now := rfl
@[simp] theorem skip_calls (k : Nat) (s : State) : (s.skip k).calls = s.calls := rfl
@[simp] theorem skip_sent (k : Nat) (s : State) : (s.skip k).sent = s.sent := rfl
@[simp] theorem skip_allocRet (k : Nat) (s : State) : (s.skip k).allocRet = s.allocRet := rfl
@[simp] theorem skip_script (k : Nat) (s : State) : (s.skip k).script = s.script := rfl
@[simp] theorem skip_passGaps (k : Nat) (s : State) : (s.skip k).passGaps = s.passGaps := rfl
@[simp] theorem skip_passCbs (k : Nat) (s : State) : (s.skip k).passCbs = s.passCbs := rfl
@[simp] theorem skip_freeCount (k : Nat) (s : State) : (s.skip k).freeCount = s.freeCount := rfl
@[simp] theorem skip_ep (k : Nat) (s : State) (i : Nat) : (s.skip k).ep i = s.ep i := by cases i <;> rfl
@[simp] theorem skip_desc (k : Nat) (s : State) (i : Nat) : (s.skip k).desc i = s.desc i := rfl
@[simp] theorem skip_busy (k : Nat) (s : State) (i : Nat) : (s.skip k).busy i = s.busy i := rfl
@[simp] theorem skip_txfifo (k : Nat) (s : State) (f : DatReg) : txfifo f (s.skip k) = txfifo f s := by cases f <;> simp [txfifo]
@[simp] theorem skip_rxfifo (k : Nat) (s : State) (f : DatReg) : rxfifo f (s.skip k) = rxfifo f s := by cases f <;> simp [rxfifo]
@[simp] theorem skip_hostReadable (k : Nat) (s : State) (a : Nat) : hostReadable (s.skip k) a = hostReadable s a := rfl
@[simp] theorem skip_hostWritable (k : Nat) (s : State) (a : Nat) : hostWritable (s.skip k) a = hostWritable s a := rfl

theorem epStatusBits_skip (k : Nat) (s : State) (n : Nat) : epStatusBits (s.skip k) n = epStatusBits s n := by
  induction n with
  | zero => rfl
  | succ n ih => simp only [epStatusBits, ih, skip_ep, skip_cfg]

@[simp] theorem skip_regRead (k : Nat) (s : State) (r : Reg) : regRead r (s.skip k) = regRead r s := by
  cases r <;> simp only [regRead, gintsts, epStatusBits_skip, skip_cfg, skip_ctl, skip_ep]
  rfl

theorem skip_zero (s : State) : s.skip 0 = s := by
  cases h : s.inIsr <;> simp [State.skip]

theorem skip_skip (a b : Nat) (s : State) : (s.skip a).skip b = s.skip (a + b) := by
  cases h : s.inIsr <;> simp [State.skip, h, List.drop_drop]

/-! The updates do not touch the schedule. -/

theorem setEp_skip (k : Nat) (s : State) (i : Nat) (f : EpRegs → EpRegs) : (s.skip k).setEp i f = (s.setEp i f).skip k := by
  cases i <;> rfl
theorem setDesc_skip (k : Nat) (s : State) (i : Nat) (f : EpDesc → EpDesc) : (s.skip k).setDesc i f = (s.setDesc i f).skip k := rfl
theorem setBusy_skip (k : Nat) (s : State) (i : Nat) (b : Bool) : (s.skip k).setBusy i b = (s.setBusy i b).skip k := rfl
theorem setErr_skip (k : Nat) (s : State) (v : Word) : (s.skip k).setErr v = (s.setErr v).skip k := rfl
theorem setVal_skip (k : Nat) (s : State) (v : Word) : (s.skip k).setVal v = (s.setVal v).skip k := rfl
theorem regWrite_skip (k : Nat) (s : State) (r : Reg) (v : Word) : regWrite r v (s.skip k) = (regWrite r v s).skip k := by
  cases r <;> first | rfl | (simp only [regWrite, setEp_skip, skip_cfg]; try (split <;> rfl))
theorem dropRx_skip (k : Nat) (s : State) (f : DatReg) : dropRx f (s.skip k) = (dropRx f s).skip k := by
  cases f <;> first | rfl | simp only [dropRx, setEp_skip]
theorem appendTx_skip (k : Nat) (s : State) (f : DatReg) (b : Byte) : appendTx f b (s.skip k) = (appendTx f b s).skip k := by
  cases f <;> first | rfl | simp only [appendTx, setEp_skip]

/-! Calm schedules. -/

theorem State.Calm.head {k : Nat} {s : State} (h : s.Calm (k + 1)) : s.Calm 1 :=
  ⟨fun e p hp => h.1 e p (List.mem_of_mem_take (i := 1) (by rwa [List.take_take, Nat.min_eq_left (by omega)])),
    fun e p hp => h.2 e p (List.mem_of_mem_take (i := 1) (by rwa [List.take_take, Nat.min_eq_left (by omega)]))⟩

theorem State.Calm.mono {k m : Nat} {s : State} (h : s.Calm m) (hk : k ≤ m) : s.Calm k :=
  ⟨fun e p hp => h.1 e p (List.mem_of_mem_take (i := k) (by rwa [List.take_take, Nat.min_eq_left hk])),
    fun e p hp => h.2 e p (List.mem_of_mem_take (i := k) (by rwa [List.take_take, Nat.min_eq_left hk]))⟩

theorem State.Calm.skip {j k : Nat} {s : State} (h : s.Calm (j + k)) : (s.skip j).Calm k := by
  constructor
  · intro e p hp
    refine h.1 e p ?_
    have e' : s.inIsr = true := e
    simp only [State.skip, e', if_true, List.take_drop] at hp
    exact List.mem_of_mem_drop hp
  · intro e p hp
    refine h.2 e p ?_
    have e' : s.inIsr = false := e
    simp only [State.skip, e', Bool.false_eq_true, if_false, List.take_drop] at hp
    exact List.mem_of_mem_drop hp

theorem State.CmdAlone.calm {s : State} (h : s.CmdAlone) (k : Nat) : s.Calm k := by
  constructor <;> intro _ p hp
  · simp [h.2] at hp
  · simp [h.1] at hp

theorem State.CmdAlone.skip {s : State} (h : s.CmdAlone) (k : Nat) : s.skip k = s := by
  obtain ⟨h1, h2⟩ := h
  cases s
  simp only at h1 h2
  subst h1 h2
  simp [State.skip]

@[simp] theorem Calm_regWrite (r : Reg) (v : Word) (s : State) (k : Nat) : State.Calm k (regWrite r v s) ↔ s.Calm k := by simp [State.Calm]
@[simp] theorem Calm_setEp (i : Nat) (f : EpRegs → EpRegs) (s : State) (k : Nat) : State.Calm k (s.setEp i f) ↔ s.Calm k := by simp [State.Calm]
@[simp] theorem Calm_setDesc (i : Nat) (f : EpDesc → EpDesc) (s : State) (k : Nat) : State.Calm k (s.setDesc i f) ↔ s.Calm k := by simp [State.Calm]
@[simp] theorem Calm_setBusy (i : Nat) (b : Bool) (s : State) (k : Nat) : State.Calm k (s.setBusy i b) ↔ s.Calm k := by simp [State.Calm]
@[simp] theorem Calm_setErr (v : Word) (s : State) (k : Nat) : State.Calm k (s.setErr v) ↔ s.Calm k := by simp [State.Calm]
@[simp] theorem Calm_setVal (v : Word) (s : State) (k : Nat) : State.Calm k (s.setVal v) ↔ s.Calm k := by simp [State.Calm]
@[simp] theorem Calm_dropRx (f : DatReg) (s : State) (k : Nat) : State.Calm k (dropRx f s) ↔ s.Calm k := by simp [State.Calm]
@[simp] theorem Calm_appendTx (f : DatReg) (b : Byte) (s : State) (k : Nat) : State.Calm k (appendTx f b s) ↔ s.Calm k := by simp [State.Calm]

/-! Accesses. -/

theorem point_calm {s : State} (h : s.Calm 1) : cmdAgent.point s = .ok () (s.skip 1) := by
  cases hi : s.inIsr with
  | true =>
    simp only [cmdAgent, hi, if_true, callbackPoint]
    cases hg : s.cbGaps with
    | nil => cases s; simp_all [State.skip]
    | cons p r =>
      have : p = [] := h.1 hi p (by simp [hg])
      subst this
      cases s; simp_all [State.skip, runGap]
  | false =>
    simp only [cmdAgent, hi, Bool.false_eq_true, if_false, taskPoint]
    cases hg : s.taskGaps with
    | nil => cases s; simp_all [State.skip]
    | cons p r =>
      have : p = [] := h.2 hi p (by simp [hg])
      subst this
      cases s; simp_all [State.skip, runTaskGap]

theorem rd_calm {s : State} (h : s.Calm 1) (r : Reg) : rd cmdAgent r s = .ok (regRead r s) (s.skip 1) := by
  refine bind_seq (point_calm h) ?_
  simp

theorem wr_calm {s : State} (h : s.Calm 1) (r : Reg) (v : Word) : wr cmdAgent r v s = .ok () ((regWrite r v s).skip 1) := by
  refine bind_seq (point_calm h) ?_
  simp [regWrite_skip]

theorem rset_calm {s : State} (h : s.Calm 2) (r : Reg) (m : Word) :
    rset cmdAgent r m s = .ok () ((regWrite r (regRead r s ||| m) s).skip 2) := by
  refine bind_seq (rd_calm (h.mono (by omega)) r) ?_
  rw [wr_calm (State.Calm.skip (j := 1) h), regWrite_skip, skip_skip]

theorem rclr_calm {s : State} (h : s.Calm 2) (r : Reg) (m : Word) :
    rclr cmdAgent r m s = .ok () ((regWrite r (regRead r s &&& ~~~m) s).skip 2) := by
  refine bind_seq (rd_calm (h.mono (by omega)) r) ?_
  rw [wr_calm (State.Calm.skip (j := 1) h), regWrite_skip, skip_skip]

theorem own_calm {α : Type} {s : State} (h : s.Calm 1) (f : State → α) : own cmdAgent f s = .ok (f (s.skip 1)) (s.skip 1) :=
  bind_seq (point_calm h) rfl

theorem ownUpd_calm {s : State} (h : s.Calm 1) (f : State → State) : ownUpd cmdAgent f s = .ok () (f (s.skip 1)) :=
  bind_seq (point_calm h) rfl

theorem clock_calm {s : State} (h : s.Calm 1) : clock cmdAgent s = .ok s.now (s.skip 1) :=
  bind_seq (point_calm h) rfl

theorem load_calm {s : State} (h : s.Calm 1) {a : Nat} (ha : a < Config.hostTop) (hr : hostReadable s a = true) :
    load cmdAgent a s = .ok (Memory.read s.mem a) (s.skip 1) := by
  refine bind_seq (point_calm h) ?_
  simp [show ¬ Config.hostTop ≤ a by omega, hr]

theorem store_calm {s : State} (h : s.Calm 1) {a : Nat} (ha : a < Config.hostTop) (hw : hostWritable s a = true) (b : Byte) :
    store cmdAgent a b s = .ok () (State.skip 1 { s with mem := Memory.write s.mem a b }) := by
  refine bind_seq (point_calm h) ?_
  simp [show ¬ Config.hostTop ≤ a by omega, hw]
  rfl

theorem fifoPush_calm {s : State} (h : s.Calm 1) {f : DatReg} {mps : Half} (b : Byte)
    (hc : (txfifo f s).length < fifoCapacity mps) :
    fifoPush cmdAgent f mps b s = .ok () ((appendTx f b s).skip 1) := by
  refine bind_seq (point_calm h) ?_
  simp [show ¬ fifoCapacity mps ≤ (txfifo f s).length by omega, appendTx_skip]

theorem fifoPop_calm {s : State} (h : s.Calm 1) {f : DatReg} {b : Byte} {l : List Byte} (hf : rxfifo f s = b :: l) :
    fifoPop cmdAgent f s = .ok b ((dropRx f s).skip 1) := by
  refine bind_seq (point_calm h) ?_
  simp [hf, dropRx_skip]

theorem sendCount_calm {s : State} (h : s.Calm 1) (f : DatReg) {n : Nat} (hn : n ≠ 0) :
    sendCount cmdAgent f n s = .ok () ((regWrite (txCountReg f) (BitVec.ofNat 32 n) s).skip 1) := by
  rw [sendCount, if_neg hn, wr_calm h]

end Sys2Proof.Machine
end

