-- ==== Sys2Proof/Laws/Decode.lean ====
section
/-! SUPPORT. Decoding: each opcode, each status bit, and the pieces of the encoder read back. -/

set_option Elab.async false

namespace Sys2Proof

open Sys2Proof.Machine

theorem BusBit.mem_all (b : BusBit) : b ∈ BusBit.all := by cases b <;> decide
theorem CepBit.mem_all (b : CepBit) : b ∈ CepBit.all := by cases b <;> decide
theorem mem_busOrder (m : BitMap) (p : Fin 32) : p ∈ m.busOrder := by
  unfold BitMap.busOrder
  simp only [List.mem_append, List.mem_filter, List.mem_finRange, true_and]
  by_cases h : p ∈ BusBit.all.map m.busPos <;> simp [h]
theorem mem_cepOrder (m : BitMap) (p : Fin 32) : p ∈ m.cepOrder := by
  unfold BitMap.cepOrder
  simp only [List.mem_append, List.mem_filter, List.mem_finRange, true_and]
  by_cases h : p ∈ CepBit.all.map m.cepPos <;> simp [h]

theorem filter_bit (l : List (Fin 32)) (p : Fin 32) (h : p ∈ l) :
    ∃ r, (l.filter fun (q : Fin 32) => tst (bit p) q) = p :: r := by
  cases hl : l.filter (fun (q : Fin 32) => tst (bit p) q) with
  | nil =>
    have : p ∈ l.filter (fun (q : Fin 32) => tst (bit p) q) := by
      simp [List.mem_filter, h, tst_bit]
    rw [hl] at this; simp at this
  | cons q r =>
    have : q ∈ l.filter (fun (q : Fin 32) => tst (bit p) q) := by rw [hl]; simp
    simp [List.mem_filter, tst_bit] at this
    exact ⟨r, by rw [show q = p from Fin.ext this.2]⟩

theorem gEps_positions {m : BitMap} {n : Nat} (h : n ≤ m.gEps.length) :
    (m.gEps.take n).map Fin.val = (List.range n).map fun k => m.gEp (k + 1) := by
  apply List.ext_getElem
  · simp [h]
  · intro k h1 h2
    simp only [List.length_map, List.length_take] at h1
    have hk : k < m.gEps.length := by omega
    simp [BitMap.gEp, List.getElem?_eq_getElem hk]

/-- What R11 and R100 give decoding: the bits of each status word are distinct, and so are the numbers of each enumeration. -/
theorem BitMap.wf_parts {m : BitMap} {n : Nat} (h : m.wf n = true) :
    distinctBits (m.gBus :: m.gCep :: (List.range (n - 1)).map fun k => m.gEp (k + 1)) = true
      ∧ distinctBits (BusBit.all.map fun b => (m.busPos b).val) = true
      ∧ distinctBits (CepBit.all.map fun b => (m.cepPos b).val) = true ∧ m.enums.wf = true := by
  simp only [BitMap.wf, Bool.and_eq_true, and_assoc] at h
  obtain ⟨l, a, b, c, _, _, _, _, _, _, _, d⟩ := h
  exact ⟨gEps_positions (of_decide_eq_true l) ▸ a, b, c, d⟩

/-- What R11 gives the control registers: the bits of `PHYCTL`, `DMACTL`, `CEPCTL` and the two single bits of `EPRSPCTL[i]` are distinct. -/
theorem BitMap.wf_controls {m : BitMap} {n : Nat} (h : m.wf n = true) :
    [m.phyEn, m.phyDpPuEn, m.phyClkStb, m.phyVbusDet].Nodup ∧ [m.dmaEn, m.dmaRd].Nodup ∧ [m.ctlNakClr, m.ctlStall, m.ctlFlush].Nodup
      ∧ [m.rspFlush, m.rspHalt].Nodup := by
  have fin : ∀ {l : List (Fin 32)} {r : List Nat}, (l.map Fin.val ++ r).Nodup → l.Nodup := fun h => (List.nodup_append.1 h).1.of_map _
  simp only [BitMap.wf, fieldPlaced, distinctBits, Bool.and_eq_true, decide_eq_true_eq, and_assoc] at h
  obtain ⟨_, _, _, _, _, _, _, _, _, c, _, _, r, _, _, _, _, _, _, _, p, _, d, _⟩ := h
  exact ⟨fin (r := []) (by simpa using p), fin (r := []) (by simpa using d), fin (r := []) (by simpa using c), fin r⟩

theorem busEvent_pos (m : BitMap) (n : Nat) (h : m.wf n = true) (b : BusBit) : m.busEvent (m.busPos b) = .named b := by
  have h2 := (BitMap.wf_parts h).2.1
  simp only [distinctBits, Bool.and_eq_true, BusBit.all, List.map] at h2
  have := h2.1
  simp [List.nodup_cons, ← Fin.ext_iff] at this
  obtain ⟨⟨a1,a2,a3,a4,a5⟩,⟨b1,b2,b3,b4⟩,⟨c1,c2,c3⟩,⟨d1,d2⟩,e1⟩ := this
  cases b <;> simp [BitMap.busEvent, BusBit.all, List.find?, *]

theorem cepEvent_pos (m : BitMap) (n : Nat) (h : m.wf n = true) (b : CepBit) : m.cepEvent (m.cepPos b) = .named b := by
  have h2 := (BitMap.wf_parts h).2.2.1
  simp only [distinctBits, Bool.and_eq_true, decide_eq_true_eq] at h2
  have := h2.1
  have inj : ∀ x y : CepBit, m.cepPos x = m.cepPos y → x = y := by
    intro x y hxy
    have hx := CepBit.mem_all x
    have hy := CepBit.mem_all y
    have := List.inj_on_of_nodup_map this
    exact this hx hy (by simp [hxy])
  unfold BitMap.cepEvent
  cases hf : CepBit.all.find? fun b' => decide (m.cepPos b' = m.cepPos b) with
  | none => simp at hf; exact absurd rfl (hf b (CepBit.mem_all b))
  | some b' => have := List.find?_some hf; simp at this; rw [inj _ _ this]

theorem busEvent_other (m : BitMap) (p : Fin 32) (h : ∀ b, m.busPos b ≠ p) : m.busEvent p = .other p := by
  unfold BitMap.busEvent
  rw [List.find?_eq_none.2]; intro x _; simpa using h x
theorem cepEvent_other (m : BitMap) (p : Fin 32) (h : ∀ b, m.cepPos b ≠ p) : m.cepEvent p = .other p := by
  unfold BitMap.cepEvent
  rw [List.find?_eq_none.2]; intro x _; simpa using h x

theorem decode_bus_bit (c : Config) (p : Fin 32) : decode c .busint [bit p] = .ok (c.bitmap.busEvent p).instr := by
  obtain ⟨r, hr⟩ := filter_bit _ p (mem_busOrder c.bitmap p)
  simp [decode, eventsOf, hr]
theorem decode_cep_bit (c : Config) (p : Fin 32) : decode c .cepint [bit p] = .ok (c.bitmap.cepEvent p).instr := by
  obtain ⟨r, hr⟩ := filter_bit _ p (mem_cepOrder c.bitmap p)
  simp [decode, eventsOf, hr]

theorem decodeCmd_reserved (c : Config) (o : Operands) (h : ¬(1 ≤ o.op.toNat ∧ o.op.toNat ≤ 19)) : decodeCmd c o = .reservedOpcode o.op := by
  unfold decodeCmd
  split <;> first | rfl | (exfalso; omega)
theorem decode_portWords (c : Config) (n : Nat) (a : Byte) (p l k x : Word) : decode c .cmd (portWords n a p l k x) =
  .ok (decodeCmd c ⟨BitVec.ofNat 32 n, a.setWidth 32, p, l, k, x⟩) := rfl
theorem EnumMap.types_distinct {e : EnumMap} (h : e.wf = true) :
    e.typeBulk ≠ 0 ∧ e.typeInterrupt ≠ 0 ∧ e.typeIsochronous ≠ 0 ∧ e.typeBulk ≠ e.typeInterrupt ∧ e.typeBulk ≠ e.typeIsochronous
      ∧ e.typeInterrupt ≠ e.typeIsochronous := by
  simp only [EnumMap.wf, Bool.and_eq_true, decide_eq_true_eq] at h
  have := h.1.1.1.1
  simp only [List.nodup_cons, List.mem_cons, List.not_mem_nil, or_false, not_or] at this
  obtain ⟨⟨a, b, c⟩, ⟨d, f⟩, g, _⟩ := this
  exact ⟨Ne.symm a, Ne.symm b, Ne.symm c, d, f, g⟩
theorem XferType.ofBits_toBits {e : EnumMap} (h : e.wf = true) (t : XferType) : XferType.ofBits e (t.toBits e) = t := by
  obtain ⟨a, b, c, d, f, g⟩ := EnumMap.types_distinct h
  cases t
  · exact (if_neg (Ne.symm a)).trans ((if_neg (Ne.symm b)).trans (if_neg (Ne.symm c)))
  · simp only [XferType.toBits, XferType.ofBits, if_true]
  · simp only [XferType.toBits, XferType.ofBits, if_neg (Ne.symm d), if_true]
  · simp only [XferType.toBits, XferType.ofBits, if_neg (Ne.symm f), if_neg (Ne.symm g), if_true]
/-- Four numbers of two bits leave none without a name (R102). -/
theorem XferType.toBits_ofBits {e : EnumMap} (h : e.wf = true) (v : BitVec 2) : (XferType.ofBits e v).toBits e = v := by
  obtain ⟨a, b, c, d, f, g⟩ := EnumMap.types_distinct h
  have four : ∀ x y z w : BitVec 2, x ≠ 0 → y ≠ 0 → z ≠ 0 → x ≠ y → x ≠ z → y ≠ z → w ≠ x → w ≠ y → w ≠ z →
      w = 0 := by
    bv_omega
  unfold XferType.ofBits
  split
  · exact Eq.symm ‹_›
  · split
    · exact Eq.symm ‹_›
    · split
      · exact Eq.symm ‹_›
      · exact (four _ _ _ v a b c d f g ‹_› ‹_› ‹_›).symm
theorem capWord_mps (e : EnumMap) (m : Half) (t : XferType) : (capWord e m t).setWidth 16 = m := by
  unfold capWord; ext i hi
  simp
theorem capWord_type (e : EnumMap) (m : Half) (t : XferType) : (capWord e m t).extractLsb' 16 2 = t.toBits e := by
  unfold capWord; ext i hi
  simp [show 16 + i < 32 by omega, BitVec.getLsbD_eq_getElem, hi]
theorem byte_roundTrip (e : Byte) : (e.setWidth 32).setWidth 8 = e := by ext i hi; simp
theorem address_roundTrip (e : BitVec 7) : (e.setWidth 32).setWidth 7 = e := by ext i hi; simp

theorem Config.bitmap_wf {c : Config} (h : c.wf = true) : c.bitmap.wf c.nEp = true := by
  simp only [Config.wf, Bool.and_eq_true] at h; exact h.1.1.1.1.2
theorem Config.enums_wf {c : Config} (h : c.wf = true) : c.bitmap.enums.wf = true := by
  exact (BitMap.wf_parts (Config.bitmap_wf h)).2.2.2

theorem gint_distinct {m : BitMap} {n : Nat} (h : m.wf n = true) :
    m.gBus ≠ m.gCep ∧ ∀ i, 1 ≤ i → i < n → m.gEp i < 32 ∧ m.gEp i ≠ m.gBus ∧ m.gEp i ≠ m.gCep := by
  have h2 := (BitMap.wf_parts h).1
  simp only [distinctBits, Bool.and_eq_true, decide_eq_true_eq, List.nodup_cons, List.all_eq_true] at h2
  obtain ⟨⟨a, b, _⟩, d⟩ := h2
  refine ⟨fun h => a (by simp [h]), fun i h1 h3 => ?_⟩
  have hm : m.gEp i ∈ (List.range (n - 1)).map fun k => m.gEp (k + 1) :=
    List.mem_map.2 ⟨i - 1, List.mem_range.2 (by omega), by simp only [show i - 1 + 1 = i by omega]⟩
  refine ⟨d _ (by simp [hm]), ?_, ?_⟩
  · intro e; apply a; rw [← e]; exact List.mem_cons_of_mem _ hm
  · intro e; apply b; rw [← e]; exact hm

/-- R92: by default `Ep[i]` is bit `1 + i`. -/
theorem gEp_default {i : Nat} (h1 : 1 ≤ i) (h2 : i ≤ 29) : BitMap.default.gEp i = 1 + i :=
  (show ∀ i < 30, 1 ≤ i → BitMap.default.gEp i = 1 + i by decide) i (by omega) h1

theorem gEp_inj {m : BitMap} {n : Nat} (h : m.wf n = true) {i j : Nat} (hi : 1 ≤ i ∧ i < n) (hj : 1 ≤ j ∧ j < n)
    (e : m.gEp i = m.gEp j) : i = j := by
  have h2 := (BitMap.wf_parts h).1
  simp only [distinctBits, Bool.and_eq_true, decide_eq_true_eq, List.nodup_cons] at h2
  have := List.inj_on_of_nodup_map h2.1.2.2 (List.mem_range.2 (show i - 1 < n - 1 by omega))
    (List.mem_range.2 (show j - 1 < n - 1 by omega))
    (by simpa only [show i - 1 + 1 = i by omega, show j - 1 + 1 = j by omega] using e)
  omega

theorem decode_gBus (c : Config) : decode c .gint [bit c.bitmap.gBus] = .ok .gintBus := by
  simp [decode, eventsOf, tst_bit]
theorem decode_gCep (c : Config) (h : c.wf = true) : decode c .gint [bit c.bitmap.gCep] = .ok .gintCep := by
  have := (gint_distinct (Config.bitmap_wf h)).1
  have h' : ¬ c.bitmap.gBus.val = c.bitmap.gCep.val := fun e => this (Fin.ext e)
  simp [decode, eventsOf, tst_bit, h']
theorem decode_gEp (c : Config) (h : c.wf = true) (i : Nat) (hi : c.isEp i = true) : decode c .gint [bit (c.bitmap.gEp i)] = .ok (.gintEp i) := by
  simp [Config.isEp] at hi
  obtain ⟨a, b, d⟩ := (gint_distinct (Config.bitmap_wf h)).2 i hi.1 hi.2
  have : ∃ r, c.epIndexes.filter (fun j => tst (bit (c.bitmap.gEp i)) (c.bitmap.gEp j)) = i :: r := by
    cases hl : c.epIndexes.filter (fun j => tst (bit (c.bitmap.gEp i)) (c.bitmap.gEp j)) with
    | nil =>
      have : i ∈ c.epIndexes.filter (fun j => tst (bit (c.bitmap.gEp i)) (c.bitmap.gEp j)) := by
        simp [List.mem_filter, tst_bit, a, Config.epIndexes]; exact ⟨i-1, by omega, by omega⟩
      rw [hl] at this; simp at this
    | cons q r =>
      have : q ∈ c.epIndexes.filter (fun j => tst (bit (c.bitmap.gEp i)) (c.bitmap.gEp j)) := by rw [hl]; simp
      simp only [List.mem_filter, Config.epIndexes, List.mem_map, List.mem_range, tst_bit, Bool.and_eq_true, decide_eq_true_eq] at this
      obtain ⟨⟨k, hk, rfl⟩, _, e⟩ := this
      exact ⟨r, by rw [gEp_inj (Config.bitmap_wf h) ⟨by omega, by omega⟩ hi e]⟩
  obtain ⟨r, hr⟩ := this
  have e1 : tst (bit (c.bitmap.gEp i)) c.bitmap.gBus = false := by simp [tst_bit, Ne.symm b]
  have e2 : tst (bit (c.bitmap.gEp i)) c.bitmap.gCep = false := by simp [tst_bit, Ne.symm d]
  simp only [decode, eventsOf, hr, e1, e2]; rfl

/-! Each opcode (R90). -/

@[simp] theorem decodeCmd_attach (c : Config) (e p l k x : Word) :
    decodeCmd c { op := BitVec.ofNat 32 1, ep := e, ptr := p, len := l, cntptr := k, aux := x } = .attach := rfl
@[simp] theorem decodeCmd_detach (c : Config) (e p l k x : Word) :
    decodeCmd c { op := BitVec.ofNat 32 2, ep := e, ptr := p, len := l, cntptr := k, aux := x } = .detach := rfl
@[simp] theorem decodeCmd_reset (c : Config) (e p l k x : Word) :
    decodeCmd c { op := BitVec.ofNat 32 3, ep := e, ptr := p, len := l, cntptr := k, aux := x } = .reset := rfl
@[simp] theorem decodeCmd_setAddress (c : Config) (e p l k x : Word) :
    decodeCmd c { op := BitVec.ofNat 32 4, ep := e, ptr := p, len := l, cntptr := k, aux := x } = .setAddress (x.setWidth 7) := rfl
@[simp] theorem decodeCmd_setStatusCallback (c : Config) (e p l k x : Word) :
    decodeCmd c { op := BitVec.ofNat 32 5, ep := e, ptr := p, len := l, cntptr := k, aux := x } = .setStatusCallback x := rfl
@[simp] theorem decodeCmd_checkCap (c : Config) (e p l k x : Word) :
    decodeCmd c { op := BitVec.ofNat 32 6, ep := e, ptr := p, len := l, cntptr := k, aux := x } = .epCheckCap (e.setWidth 8) (x.setWidth 16) (XferType.ofBits c.bitmap.enums (x.extractLsb' 16 2)) := rfl
@[simp] theorem decodeCmd_configure (c : Config) (e p l k x : Word) :
    decodeCmd c { op := BitVec.ofNat 32 7, ep := e, ptr := p, len := l, cntptr := k, aux := x } = .epConfigure (e.setWidth 8) (x.setWidth 16) (XferType.ofBits c.bitmap.enums (x.extractLsb' 16 2)) := rfl
@[simp] theorem decodeCmd_setStall (c : Config) (e p l k x : Word) :
    decodeCmd c { op := BitVec.ofNat 32 8, ep := e, ptr := p, len := l, cntptr := k, aux := x } = .epSetStall (e.setWidth 8) := rfl
@[simp] theorem decodeCmd_clearStall (c : Config) (e p l k x : Word) :
    decodeCmd c { op := BitVec.ofNat 32 9, ep := e, ptr := p, len := l, cntptr := k, aux := x } = .epClearStall (e.setWidth 8) := rfl
@[simp] theorem decodeCmd_isStalled (c : Config) (e p l k x : Word) :
    decodeCmd c { op := BitVec.ofNat 32 10, ep := e, ptr := p, len := l, cntptr := k, aux := x } = .epIsStalled (e.setWidth 8) := rfl
@[simp] theorem decodeCmd_enable (c : Config) (e p l k x : Word) :
    decodeCmd c { op := BitVec.ofNat 32 11, ep := e, ptr := p, len := l, cntptr := k, aux := x } = .epEnable (e.setWidth 8) := rfl
@[simp] theorem decodeCmd_disable (c : Config) (e p l k x : Word) :
    decodeCmd c { op := BitVec.ofNat 32 12, ep := e, ptr := p, len := l, cntptr := k, aux := x } = .epDisable (e.setWidth 8) := rfl
@[simp] theorem decodeCmd_flush (c : Config) (e p l k x : Word) :
    decodeCmd c { op := BitVec.ofNat 32 13, ep := e, ptr := p, len := l, cntptr := k, aux := x } = .epFlush (e.setWidth 8) := rfl
@[simp] theorem decodeCmd_write (c : Config) (e p l k x : Word) :
    decodeCmd c { op := BitVec.ofNat 32 14, ep := e, ptr := p, len := l, cntptr := k, aux := x } = .epWrite (e.setWidth 8) p l k := rfl
@[simp] theorem decodeCmd_read (c : Config) (e p l k x : Word) :
    decodeCmd c { op := BitVec.ofNat 32 15, ep := e, ptr := p, len := l, cntptr := k, aux := x } = .epRead (e.setWidth 8) p l k := rfl
@[simp] theorem decodeCmd_readWait (c : Config) (e p l k x : Word) :
    decodeCmd c { op := BitVec.ofNat 32 16, ep := e, ptr := p, len := l, cntptr := k, aux := x } = .epReadWait (e.setWidth 8) p l k := rfl
@[simp] theorem decodeCmd_readContinue (c : Config) (e p l k x : Word) :
    decodeCmd c { op := BitVec.ofNat 32 17, ep := e, ptr := p, len := l, cntptr := k, aux := x } = .epReadContinue (e.setWidth 8) := rfl
@[simp] theorem decodeCmd_setCallback (c : Config) (e p l k x : Word) :
    decodeCmd c { op := BitVec.ofNat 32 18, ep := e, ptr := p, len := l, cntptr := k, aux := x } = .epSetCallback (e.setWidth 8) x := rfl
@[simp] theorem decodeCmd_mps (c : Config) (e p l k x : Word) :
    decodeCmd c { op := BitVec.ofNat 32 19, ep := e, ptr := p, len := l, cntptr := k, aux := x } = .epMps (e.setWidth 8) := rfl

end Sys2Proof
end

