-- ==== Sys2Proof/Laws/Keeps.lean ====
section
/-! SUPPORT. What a whole operation keeps, from what its pieces keep. A relation between the state before and the state after that holds of every
piece (`CmdRules`, `EventRules`) holds of every command, callback, event, pass and step, whatever is scheduled between the accesses. -/

set_option Elab.async false

namespace Sys2Proof.Machine

/-- What an answer leaves, related to where the program started; nothing is said of a fault or a refusal. -/
def Rel.at (R : State → State → Prop) (s : State) {α : Type} : EStateM.Result Stop State α → Prop
  | .ok _ t => R s t
  | .error (.raise _) t => R s t
  | .error (.fault _) _ => True
  | .error (.refuse _) _ => True

/-- The same, and the answer is no error. -/
def Run.at (R : State → State → Prop) (s : State) {α : Type} : EStateM.Result Stop State α → Prop
  | .ok _ t => R s t
  | .error (.raise _) _ => False
  | .error (.fault _) _ => True
  | .error (.refuse _) _ => True

/-- Where the program goes on, or raises an error, the state it leaves is related to the one it started in. -/
def Rel (R : State → State → Prop) {α : Type} (p : Prog α) : Prop := ∀ s, Rel.at R s (p s)

/-- The same, and the program raises no error. -/
def Run (R : State → State → Prop) {α : Type} (p : Prog α) : Prop := ∀ s, Run.at R s (p s)

/-- Reflexive and transitive. -/
structure Order (R : State → State → Prop) : Prop where
  refl : ∀ s, R s s
  trans : ∀ {s t u}, R s t → R t u → R s u

theorem Run.rel {R : State → State → Prop} {α : Type} {p : Prog α} (h : Run R p) : Rel R p := by
  intro s
  have := h s
  revert this
  cases p s with
  | ok a t => exact id
  | error e t => cases e <;> first | exact id | exact False.elim

theorem Rel.ok {R : State → State → Prop} {α : Type} {p : Prog α} {s t : State} {a : α} (h : Rel R p) (hp : p s = .ok a t) : R s t := by
  have := h s
  rwa [hp] at this

theorem Rel.raised {R : State → State → Prop} {α : Type} {p : Prog α} {s t : State} {e : Err} (h : Rel R p)
    (hp : p s = .error (.raise e) t) : R s t := by
  have := h s
  rwa [hp] at this

theorem Run.ok {R : State → State → Prop} {α : Type} {p : Prog α} {s t : State} {a : α} (h : Run R p) (hp : p s = .ok a t) : R s t :=
  h.rel.ok hp

theorem Run.not_raised {R : State → State → Prop} {α : Type} {p : Prog α} {s t : State} {e : Err} (h : Run R p)
    (hp : p s = .error (.raise e) t) : False := by
  have := h s
  rwa [hp] at this

/-- By what the program answers, case by case. -/
theorem Run.of {R : State → State → Prop} {α : Type} {p : Prog α} (hok : ∀ {s t a}, p s = .ok a t → R s t)
    (hr : ∀ {s t e}, p s = .error (.raise e) t → False) : Run R p := by
  intro s
  cases h : p s with
  | ok a t => exact hok h
  | error e t =>
    cases e with
    | raise e => exact hr h
    | fault f => trivial
    | refuse r => trivial

theorem Rel.of {R : State → State → Prop} {α : Type} {p : Prog α} (hok : ∀ {s t a}, p s = .ok a t → R s t)
    (hr : ∀ {s t e}, p s = .error (.raise e) t → R s t) : Rel R p := by
  intro s
  cases h : p s with
  | ok a t => exact hok h
  | error e t =>
    cases e with
    | raise e => exact hr h
    | fault f => trivial
    | refuse r => trivial

section Pieces

variable {R : State → State → Prop} {α β : Type}

theorem Rel.bind (o : Order R) {p : Prog α} {f : α → Prog β} (hp : Rel R p) (hf : ∀ a, Rel R (f a)) : Rel R (p >>= f) := by
  intro s
  rw [bind_run]
  cases h : p s with
  | ok a t =>
    have h1 := hp.ok h
    have h2 := hf a t
    revert h2
    dsimp only
    cases f a t with
    | ok b u => exact o.trans h1
    | error e u => cases e <;> first | exact o.trans h1 | exact id
  | error e t =>
    cases e with
    | raise e => exact hp.raised h
    | fault f => trivial
    | refuse r => trivial

theorem Run.bind (o : Order R) {p : Prog α} {f : α → Prog β} (hp : Run R p) (hf : ∀ a, Run R (f a)) : Run R (p >>= f) := by
  intro s
  rw [bind_run]
  cases h : p s with
  | ok a t =>
    have h1 := hp.ok h
    have h2 := hf a t
    revert h2
    dsimp only
    cases f a t with
    | ok b u => exact o.trans h1
    | error e u => cases e <;> exact id
  | error e t =>
    cases e with
    | raise e => exact (hp.not_raised h).elim
    | fault f => trivial
    | refuse r => trivial

theorem Run.look (o : Order R) (f : State → α) : Run R (look f) := fun s => o.refl s
theorem Run.done (o : Order R) : Run R done := fun s => o.refl s
theorem Run.upd {f : State → State} (h : ∀ s, R s (f s)) : Run R (upd f) := h
theorem Run.stopFault (f : Fault) : Run R (stopFault f : Prog α) := fun _ => trivial
theorem Run.refuse (r : Refusal) : Run R (refuse r : Prog α) := fun _ => trivial
theorem Rel.raise (o : Order R) (e : Err) : Rel R (raise e : Prog α) := fun s => o.refl s

theorem Rel.ite {c : Prop} [Decidable c] {p q : Prog α} (hp : Rel R p) (hq : Rel R q) : Rel R (if c then p else q) := by
  split <;> assumption

theorem Run.ite {c : Prop} [Decidable c] {p q : Prog α} (hp : Run R p) (hq : Run R q) : Run R (if c then p else q) := by
  split <;> assumption

end Pieces

/-! Commands. -/

/-- A relation that the changes of a read respect, with the addresses `M` it may store to. -/
structure StoreRules (M : Nat → Prop) (R : State → State → Prop) : Prop extends Order R where
  rx : ∀ f s, R s (dropRx f s)
  mem : ∀ a b s, a < Config.hostTop → M a → R s { s with mem := Memory.write s.mem a b }
  port : ∀ p s, R s { s with port := p }
  free : ∀ n s, R s { s with freeCount := n }
  busy : ∀ i s t, s.busy i = false → R (s.setBusy i true) t → R s (t.setBusy i false)

/-- A relation that the changes of every command respect, but for those of RESET, of EP_CONFIGURE and of the entry into `Status`. -/
structure PieceRules (M : Nat → Prop) (R : State → State → Prop) : Prop extends StoreRules M R where
  reg : ∀ r v s, R s (regWrite r v s)
  tx : ∀ f b s, R s (appendTx f b s)
  clock : ∀ n s, n < clockTop → R s { s with now := max s.now n, freeCount := s.freeCount + 1 }
  handle : ∀ cb s, R s { s with statusCallback := cb }
  irq : ∀ b s, R s { s with irqConnected := b }
  slot : ∀ i (b : Bool) cb s, R s (s.setDesc i fun d => if b then { d with callbackIn := cb } else { d with callbackOut := cb })

/-- The same with the entry into `Status` (R118, R122). -/
structure StatusRules (M : Nat → Prop) (R : State → State → Prop) : Prop extends PieceRules M R where
  status : ∀ s, R s { s with ctrlState := .status }

/-- A relation that every change a command can make respects, but for those of EP_CONFIGURE (R158) and of the allocator. -/
structure CmdRules (R : State → State → Prop) : Prop extends StatusRules (fun _ => True) R where
  zero : ∀ s, R s (zeroBlock s)

section Accesses

variable {R : State → State → Prop} {M : Nat → Prop} {g : Agent}

theorem Run.rd (o : Order R) (hg : Run R g.point) (r : Reg) : Run R (rd g r) := hg.bind o fun _ => .look o _

theorem Run.wr (h : PieceRules M R) (hg : Run R g.point) (r : Reg) (v : Word) : Run R (wr g r v) :=
  hg.bind h.toOrder fun _ => .upd (h.reg r v)

theorem Run.setVal (h : StoreRules M R) (f : State → Word) : Run R (Machine.upd fun s => s.setVal (f s)) :=
  fun s => h.port { s.port with val := f s } s

theorem Run.rset (h : PieceRules M R) (hg : Run R g.point) (r : Reg) (m : Word) : Run R (rset g r m) :=
  (Run.rd h.toOrder hg r).bind h.toOrder fun _ => .wr h hg _ _

theorem Run.rclr (h : PieceRules M R) (hg : Run R g.point) (r : Reg) (m : Word) : Run R (rclr g r m) :=
  (Run.rd h.toOrder hg r).bind h.toOrder fun _ => .wr h hg _ _

theorem Run.own {α : Type} (o : Order R) (hg : Run R g.point) (f : State → α) : Run R (own g f) := hg.bind o fun _ => .look o _

theorem Run.ownUpd (o : Order R) (hg : Run R g.point) {f : State → State} (hf : ∀ s, R s (f s)) : Run R (ownUpd g f) :=
  hg.bind o fun _ => .upd hf

theorem Run.clock (o : Order R) (hg : Run R g.point) : Run R (clock g) := hg.bind o fun _ => .look o _

theorem Run.takeFreeByte (h : StoreRules M R) : Run R takeFreeByte := fun s => h.free _ s

theorem Run.fifoPop (h : StoreRules M R) (hg : Run R g.point) (f : DatReg) : Run R (fifoPop g f) := by
  refine hg.bind h.toOrder fun _ s => ?_
  show Run.at R s (match rxfifo f s with
    | [] => Machine.takeFreeByte s
    | b :: _ => .ok b (dropRx f s))
  cases rxfifo f s with
  | nil => exact h.free _ s
  | cons b l => exact h.rx f s

theorem Run.fifoPush (h : PieceRules M R) (hg : Run R g.point) (f : DatReg) (m : Half) (b : Byte) : Run R (fifoPush g f m b) := by
  refine hg.bind h.toOrder fun _ s => ?_
  show Run.at R s (if _ then _ else _)
  split
  · trivial
  · exact h.tx f b s

theorem Run.sendCount (h : PieceRules M R) (hg : Run R g.point) (f : DatReg) (n : Nat) : Run R (sendCount g f n) :=
  .ite (.refuse _) (.wr h hg _ _)

theorem Run.load (h : Order R) (hg : Run R g.point) (a : Nat) : Run R (load g a) := by
  refine hg.bind h fun _ s => ?_
  show Run.at R s (if _ then _ else if _ then _ else _)
  split
  · trivial
  split
  · exact h.refl s
  · trivial

theorem Run.store (h : StoreRules M R) (hg : Run R g.point) (a : Nat) (b : Byte) (hm : M a) : Run R (store g a b) := by
  refine hg.bind h.toOrder fun _ s => ?_
  show Run.at R s (if _ then _ else if _ then _ else _)
  split
  · trivial
  split
  · exact h.mem a b s (by omega) hm
  · trivial

theorem Run.storeCount (h : StoreRules M R) (hg : Run R g.point) (c : Word) (n : Nat) (hm : c ≠ 0 → ∀ k < 4, M (c.toNat + k)) :
    Run R (storeCount g c n) := by
  unfold Machine.storeCount
  split
  · exact .done h.toOrder
  · rename_i hc
    exact (Run.store h hg _ _ (hm hc 0 (by omega))).bind h.toOrder fun _ =>
      (Run.store h hg _ _ (hm hc 1 (by omega))).bind h.toOrder fun _ => (Run.store h hg _ _ (hm hc 2 (by omega))).bind h.toOrder fun _ =>
        .store h hg _ _ (hm hc 3 (by omega))

end Accesses

section Commands

variable {R : State → State → Prop} {M : Nat → Prop} {g : Agent}

theorem Rel.withEp (o : Order R) {a : Byte} {k : Config → Nat → Prog Unit} (hk : ∀ c i, Rel R (k c i)) : Rel R (withEp a k) := by
  intro s
  unfold Machine.withEp
  split
  · exact hk _ _ s
  · exact o.refl s

theorem Rel.attachPoll (h : PieceRules M R) (hg : Run R g.point) (t0 n : Nat) : Rel R (attachPoll g t0 n) := by
  induction n with
  | zero =>
    intro s
    simp only [Machine.attachPoll, clockDuty]
    split
    · trivial
    · refine h.clock _ s ?_
      have := (Config.freeClock s.freeCount).isLt
      simp only [clockTop] at *
      omega
  | succ n ih =>
    refine (Run.look h.toOrder _).rel.bind h.toOrder fun c => (Run.rd h.toOrder hg _).rel.bind h.toOrder fun v => ?_
    refine .ite (Run.done h.toOrder).rel ((Run.clock h.toOrder hg).rel.bind h.toOrder fun t => ?_)
    exact .ite (.raise h.toOrder _) ih

theorem Rel.attach (h : PieceRules M R) (hg : Run R g.point) : Rel R (attach g) := by
  have o := h.toOrder
  refine (Run.look o _).rel.bind o fun c => (Run.rset h hg _ _).rel.bind o fun _ => (Run.clock o hg).rel.bind o fun t0 => ?_
  refine (Run.look o _).rel.bind o fun k => (Rel.attachPoll h hg _ _).bind o fun _ => (Run.upd fun s => h.irq _ s).rel.bind o fun _ => ?_
  refine (Run.wr h hg _ _).rel.bind o fun _ => (Run.rset h hg _ _).rel.bind o fun _ => (Run.wr h hg _ _).rel.bind o fun _ => ?_
  exact (Run.rset h hg _ _).rel.bind o fun _ => (Run.rset h hg _ _).rel

theorem Run.detach (h : PieceRules M R) (hg : Run R g.point) : Run R (detach g) :=
  (Run.look h.toOrder _).bind h.toOrder fun _ => (Run.upd fun s => h.irq _ s).bind h.toOrder fun _ =>
    (Run.rclr h hg _ _).bind h.toOrder fun _ => .rclr h hg _ _

theorem Rel.checkCap (o : Order R) (a : Byte) (mps : Half) (ty : XferType) : Rel R (checkCap a mps ty) := by
  intro s
  unfold Machine.checkCap
  split <;> exact o.refl s

theorem Rel.xferCheck (o : Order R) (hg : Run R g.point) (a : Byte) (i p : Bool) : Rel R (xferCheck g a i p) := by
  refine .withEp o fun c k => .ite (.raise o _) (.ite (.raise o _) ((Run.own o hg _).rel.bind o fun d => ?_))
  exact .ite (.raise o _) ((Run.rd o hg _).rel.bind o fun v => .ite (Run.done o).rel (.raise o _))

/-- A section of a transfer in a FIFO: what its body respects from the flag on. -/
theorem Run.inFifo (h : StoreRules M R) {i : Nat} {body : Prog Unit} (hb : Run R body) : Run R (inFifo i body) := by
  intro s
  simp only [Machine.inFifo, bind_run]
  cases hi : s.busy i with
  | true =>
    simp only [beginFifo, hi, if_true]
    trivial
  | false =>
    simp only [beginFifo, hi, Bool.false_eq_true, if_false]
    cases hp : body (s.setBusy i true) with
    | ok a t => exact h.busy i s t hi (hb.ok hp)
    | error e t =>
      cases e with
      | raise e => exact (hb.not_raised hp).elim
      | fault f => trivial
      | refuse r => trivial

theorem Run.pushBytes (h : PieceRules M R) (hg : Run R g.point) (f : DatReg) (m : Half) (p : Word) (n : Nat) :
    ∀ j, Run R (pushBytes g f m p n j) := by
  induction n with
  | zero => exact fun _ => .done h.toOrder
  | succ n ih =>
    exact fun j => (Run.load h.toOrder hg _).bind h.toOrder fun _ => (Run.fifoPush h hg _ _ _).bind h.toOrder fun _ => ih _

theorem Run.popBytes (h : StoreRules M R) (hg : Run R g.point) (f : DatReg) (p : Word) (n : Nat) :
    ∀ j, (∀ k < n, M (p.toNat + (j + k))) → Run R (popBytes g f p n j) := by
  induction n with
  | zero => exact fun _ _ => .done h.toOrder
  | succ n ih =>
    exact fun j hm => (Run.fifoPop h hg _).bind h.toOrder fun _ => (Run.store h hg _ _ (hm 0 (by omega))).bind h.toOrder fun _ =>
      ih _ fun k hk => by have := hm (1 + k) (by omega); rwa [show j + (1 + k) = j + 1 + k by omega] at this

theorem Run.copySetup (h : StoreRules M R) (hg : Run R g.point) (p : Word) (n : Nat) :
    ∀ j, (∀ k < n, M (p.toNat + (j + k))) → Run R (copySetup g p n j) := by
  induction n with
  | zero => exact fun _ _ => .done h.toOrder
  | succ n ih =>
    refine fun j hm => Run.bind h.toOrder (hg.bind h.toOrder fun _ s => ?_) fun _ =>
      (Run.store h hg _ _ (hm 0 (by omega))).bind h.toOrder fun _ =>
        ih _ fun k hk => by have := hm (1 + k) (by omega); rwa [show j + (1 + k) = j + 1 + k by omega] at this
    show Run.at R s (if h : j < 8 then _ else _)
    split
    · exact h.refl s
    · exact h.free _ s

theorem Run.holdTxComplete (o : Order R) (hg : Run R g.point) (n : Nat) : Run R (holdTxComplete g n) := by
  induction n with
  | zero => exact .stopFault _
  | succ n ih => exact (Run.look o _).bind o fun c => (Run.rd o hg _).bind o fun v => .ite (.done o) ih

theorem Run.ackStatus (h : StatusRules M R) (hg : Run R g.point) : Run R (ackStatus g) :=
  (Run.look h.toOrder _).bind h.toOrder fun _ => (Run.rset h.toPieceRules hg _ _).bind h.toOrder fun _ =>
    (Run.rset h.toPieceRules hg _ _).bind h.toOrder fun _ => .ownUpd h.toOrder hg h.status

theorem Run.report (h : StoreRules M R) (hg : Run R g.point) (c : Word) (n : Nat) (hm : c ≠ 0 → ∀ k < 4, M (c.toNat + k)) :
    Run R (report g c n) := (Run.storeCount h hg _ _ hm).bind h.toOrder fun _ => .setVal h _

/-- The part of a control write in the FIFO (R118). -/
theorem Run.pushAndHold (h : PieceRules M R) (hg : Run R g.point) (m : Half) (p : Word) (n : Nat) : Run R (pushAndHold g m p n) := by
  have o := h.toOrder
  refine (Run.look o _).bind o fun _ => (Run.pushBytes h hg _ _ _ _ _).bind o fun _ => (Run.sendCount h hg _ _).bind o fun _ => ?_
  exact (Run.look o _).bind o fun _ => (Run.holdTxComplete o hg _).bind o fun _ => .wr h hg _ _

theorem Run.sendControl (h : StatusRules M R) (hg : Run R g.point) (m : Half) (p len : Word) (n : Nat) :
    Run R (sendControl g m p len n) := by
  have o := h.toOrder
  have hp := h.toPieceRules
  refine (Run.look o _).bind o fun c => Run.bind o (.inFifo hp.toStoreRules (.pushAndHold hp hg _ _ _)) fun _ => ?_
  exact .ite (.rset hp hg _ _) ((Run.rset hp hg _ _).bind o fun _ => .ownUpd o hg h.status)

theorem Run.sendEndpoint (h : PieceRules M R) (hg : Run R g.point) (i : Nat) (m : Half) (p : Word) (n : Nat) :
    Run R (sendEndpoint g i m p n) := by
  have o := h.toOrder
  refine (Run.look o _).bind o fun c => (Run.look o _).bind o fun b => .ite (.refuse _) ?_
  refine Run.bind o (.inFifo h.toStoreRules ?_) fun _ => .rset h hg _ _
  exact (Run.pushBytes h hg _ _ _ _ _).bind o fun _ => .sendCount h hg _ _

theorem Run.writeEndpoint (h : PieceRules M R) (hg : Run R g.point) (i : Nat) (p len c : Word) (hm : c ≠ 0 → ∀ k < 4, M (c.toNat + k)) :
    Run R (writeEndpoint g i p len c) := by
  have o := h.toOrder
  refine (Run.own o hg _).bind o fun d => .ite (.report h.toStoreRules hg _ _ hm) ?_
  exact (Run.sendEndpoint h hg _ _ _ _).bind o fun _ => .report h.toStoreRules hg _ _ hm

theorem Run.writeControl (h : StatusRules M R) (hg : Run R g.point) (p len c : Word) (hm : c ≠ 0 → ∀ k < 4, M (c.toNat + k)) :
    Run R (writeControl g p len c) := by
  have o := h.toOrder
  have rep : ∀ n, Run R (Machine.report g c n) := fun n => .report h.toStoreRules hg _ _ hm
  refine (Run.own o hg _).bind o fun d => .ite ?_ ((Run.sendControl h hg _ _ _ _).bind o fun _ => rep _)
  exact .ite ((Run.ackStatus h hg).bind o fun _ => rep _) ((Run.done o).bind o fun _ => rep _)

theorem Rel.epWrite (h : StatusRules M R) (hg : Run R g.point) (a : Byte) (p len c : Word) (hm : c ≠ 0 → ∀ k < 4, M (c.toNat + k)) :
    Rel R (epWrite g a p len c) := by
  have o := h.toOrder
  refine (Rel.xferCheck o hg _ _ _).bind o fun _ => .ite (Run.writeControl h hg _ _ _ hm).rel (Run.rel ?_)
  exact .writeEndpoint h.toPieceRules hg _ _ _ _ hm

theorem Run.availCount (o : Order R) (hg : Run R g.point) (i : Nat) : Run R (availCount g i) := by
  refine .ite ((Run.own o hg _).bind o fun l => ?_) (.rd o hg _)
  cases l
  · exact .look o _
  · exact .look o _
  · exact .rd o hg _
  · exact .look o _

/-- The copy of a read (R121). -/
theorem Run.readBytes (h : StoreRules M R) (hg : Run R g.point) (i : Nat) (p : Word) (n : Nat) (hm : ∀ k < n, M (p.toNat + k)) :
    Run R (readBytes g i p n) := by
  have hm' : ∀ k < n, M (p.toNat + (0 + k)) := fun k hk => by rw [Nat.zero_add]; exact hm k hk
  exact (Run.own h.toOrder hg _).bind h.toOrder fun l => .ite (.copySetup h hg _ _ _ hm') (.inFifo h (.popBytes h hg _ _ _ _ hm'))

theorem Rel.epReadWait (h : StoreRules (fun _ => True) R) (hg : Run R g.point) (a : Byte) (p m c : Word) : Rel R (epReadWait g a p m c) := by
  have o := h.toOrder
  have rep : ∀ n, Run R (Machine.report g c n) := fun n => .report h hg _ _ fun _ _ _ => trivial
  refine (Rel.xferCheck o hg _ _ _).bind o fun _ => (Run.availCount o hg _).rel.bind o fun n => ?_
  exact .ite (rep _).rel (Run.rel ((Run.readBytes h hg _ _ _ fun _ _ => trivial).bind o fun _ => rep _))

theorem Rel.epReadContinue (h : StatusRules M R) (hg : Run R g.point) (a : Byte) : Rel R (epReadContinue g a) := by
  have o := h.toOrder
  refine (Rel.xferCheck o hg _ _ _).bind o fun _ => .ite ((Run.availCount o hg _).rel.bind o fun n => ?_) (Run.done o).rel
  exact .ite (Run.ackStatus h hg).rel ((Run.look o _).rel.bind o fun c => (Run.rset h.toPieceRules hg _ _).rel)

/-- What a passed capability check says of a descriptor (R157). -/
def DescFits (i : Nat) (mps : Half) (base : Word) (ty : XferType) : Prop :=
  mps.toNat ≤ Config.mpsMax ∧ (i = 0 → ty = .control ∧ base = 0 ∧ mps.toNat ≤ Config.mpsCtrlMax) ∧ (i ≠ 0 → ty ≠ .control)

theorem capOk_fits {c : Config} {a : Byte} {mps : Half} {ty : XferType} (h : capOk c a mps ty = true) :
    mps.toNat ≤ Config.mpsMax ∧ (epIdx a = 0 → ty = .control ∧ mps.toNat ≤ Config.mpsCtrlMax) ∧ (epIdx a ≠ 0 → ty ≠ .control) := by
  simp only [capOk, Bool.and_eq_true, Bool.not_eq_true', Bool.and_eq_false_iff, decide_eq_true_eq, decide_eq_false_iff_not] at h
  obtain ⟨⟨⟨⟨⟨⟨-, h1⟩, h2⟩, -⟩, -⟩, h3⟩, h4⟩ := h
  have hc : epIdx a = 0 → ty = .control := fun h0 => by
    rcases h1 with h | h
    · exact absurd h0 h
    · exact Decidable.not_not.1 h
  refine ⟨h3, fun h0 => ⟨hc h0, ?_⟩, fun h0 => ?_⟩
  · rcases h4 with h | h
    · exact absurd (hc h0) h
    · omega
  · rcases h2 with h | h
    · exact absurd h0 h
    · exact h

/-- EP_CONFIGURE, for a relation that the allocation and the write of a checked descriptor respect each on its own. -/
theorem Rel.epConfigure (h : PieceRules M R) (hg : Run R g.point)
    (ha : ∀ size s, allocFails s size = false →
      R s { s with ramOffset := s.ramOffset + size.setWidth 32, allocRet := s.ramOffset })
    (hc : ∀ i mps base ty s, DescFits i mps base ty → R s (configureDesc i mps base ty s)) (a : Byte) (mps : Half) (ty : XferType) :
    Rel R (epConfigure g a mps ty) := by
  have o := h.toOrder
  intro s
  unfold Machine.epConfigure
  rw [bind_run]
  cases hk : capOk s.cfg a mps ty with
  | false =>
    rw [checkCap_bad hk]
    exact o.refl s
  | true =>
    rw [checkCap_ok hk]
    obtain ⟨h1, h2, h3⟩ := capOk_fits hk
    by_cases h0 : epIdx a = 0
    · rw [if_pos h0]
      exact hc 0 mps 0 .control s ⟨h1, fun _ => ⟨rfl, rfl, (h2 h0).2⟩, fun h => absurd rfl h⟩
    · rw [if_neg h0]
      have alloc : Rel R (allocRam mps) := by
        intro u
        unfold allocRam
        cases hf : allocFails u mps with
        | false => exact ha mps u hf
        | true => exact o.refl u
      have all : Rel R (configureEndpoint g a (epIdx a) mps ty) := by
        unfold configureEndpoint
        refine (Run.look o _).rel.bind o fun c => hg.rel.bind o fun _ => alloc.bind o fun base => (Run.wr h hg _ _).rel.bind o fun _ => ?_
        refine (Run.wr h hg _ _).rel.bind o fun _ => (Run.wr h hg _ _).rel.bind o fun _ => (Run.wr h hg _ _).rel.bind o fun _ => ?_
        refine (Run.wr h hg _ _).rel.bind o fun _ => (Run.ownUpd o hg fun u => hc _ _ _ _ u ?_).rel
        exact ⟨h1, fun h => absurd h h0, fun _ => h3 h0⟩
      have rest : Rel R (look State.cfg >>= fun c => Machine.rd g .ginten >>= fun v =>
          if tst v (c.bitmap.gEp (epIdx a)) then Machine.raise .alreadyBusy else configureEndpoint g a (epIdx a) mps ty) :=
        (Run.look o _).rel.bind o fun c => (Run.rd o hg _).rel.bind o fun v => .ite (.raise o _) all
      exact rest s

/-- A command respects what its pieces respect, whatever the agent's gaps hold, if the gaps do, and EP_CONFIGURE, RESET, the reads and the
commands that may enter `Status`, where it is one of these. -/
theorem Rel.command_of (h : PieceRules M R) (hg : Run R g.point) (i : Instr)
    (hc : ∀ a mps ty, Rel R (Machine.epConfigure g a mps ty)) (hz : i = .reset → Rel R resetBlock)
    (hw : (∃ a p l c, i = .epWrite a p l c) ∨ i = .statusZlp → ∀ a p l c, Rel R (Machine.epWrite g a p l c))
    (hd : (∃ a p m c, i = .epReadWait a p m c) ∨ (∃ a p m c, i = .epRead a p m c) ∨ (∃ a c, i = .readPeek a c) →
      ∀ a p m c, Rel R (Machine.epReadWait g a p m c))
    (hr : (∃ a, i = .epReadContinue a) ∨ (∃ a p m c, i = .epRead a p m c) → ∀ a, Rel R (Machine.epReadContinue g a)) :
    Rel R (command g i) := by
  have o := h.toOrder
  have u : ∀ {p : Prog Unit}, Run R p → Rel R p := fun h => h.rel
  cases i
  case attach => exact .attach h hg
  case detach => exact u (.detach h hg)
  case reset => exact hz rfl
  case setAddress => exact u (.wr h hg _ _)
  case setStatusCallback => exact u (.upd fun s => h.handle _ s)
  case epCheckCap => exact .checkCap o _ _ _
  case epConfigure => exact hc _ _ _
  case epSetStall =>
    show Rel R (Machine.epSetStall g _)
    unfold Machine.epSetStall
    refine Rel.withEp o fun c i => u ?_
    exact .ite (.rset h hg _ _) (.rset h hg _ _)
  case epClearStall =>
    show Rel R (Machine.epClearStall g _)
    unfold Machine.epClearStall
    refine Rel.withEp o fun c i => u ?_
    exact .ite (.rclr h hg _ _) (.rclr h hg _ _)
  case epIsStalled =>
    show Rel R (Machine.epIsStalled g _)
    unfold Machine.epIsStalled
    refine Rel.withEp o fun c i => u ?_
    refine .ite ?_ ?_
    · exact (Run.rd o hg _).bind o fun _ => .setVal h.toStoreRules _
    · exact (Run.rd o hg _).bind o fun _ => .setVal h.toStoreRules _
  case epEnable =>
    show Rel R (Machine.epEnable g _)
    unfold Machine.epEnable
    refine Rel.withEp o fun c i => u ?_
    refine .ite (.rset h hg _ _) ?_
    refine (Run.rset h hg _ _).bind o fun _ => ?_
    exact .ite (.rset h hg _ _) (.done o)
  case epDisable =>
    show Rel R (Machine.epDisable g _)
    unfold Machine.epDisable
    refine Rel.withEp o fun c i => u ?_
    refine .ite ?_ ?_
    · exact (Run.rclr h hg _ _).bind o fun _ => (Run.wr h hg _ _).bind o fun _ => .wr h hg _ _
    · exact (Run.rclr h hg _ _).bind o fun _ => (Run.wr h hg _ _).bind o fun _ => .wr h hg _ _
  case epFlush =>
    show Rel R (Machine.epFlush g _)
    unfold Machine.epFlush
    refine Rel.withEp o fun c i => u ?_
    exact .ite (.rset h hg _ _) (.rset h hg _ _)
  case epWrite => exact hw (.inl ⟨_, _, _, _, rfl⟩) _ _ _ _
  case epRead =>
    refine (hd (.inr (.inl ⟨_, _, _, _, rfl⟩)) _ _ _ _).bind o fun _ => ?_
    exact .ite (u (.done o)) (hr (.inr ⟨_, _, _, _, rfl⟩) _)
  case epReadWait => exact hd (.inl ⟨_, _, _, _, rfl⟩) _ _ _ _
  case epReadContinue => exact hr (.inl ⟨_, rfl⟩) _
  case epSetCallback =>
    show Rel R (Machine.epSetCallback _ _)
    unfold Machine.epSetCallback
    refine Rel.withEp o fun c i => u ?_
    exact .upd fun s => h.slot _ _ _ s
  case epMps => exact u (.setVal h.toStoreRules _)
  case readPeek => exact hd (.inr (.inr ⟨_, _, rfl⟩)) _ _ _ _
  case statusZlp => exact hw (.inr rfl) _ _ _ _
  case reservedOpcode => exact .raise o _
  all_goals exact u (.refuse _)

/-- Every command but RESET respects what its pieces respect. -/
theorem Rel.command_other (h : StatusRules (fun _ => True) R) (hg : Run R g.point) (hc : ∀ a mps ty, Rel R (Machine.epConfigure g a mps ty)) (i : Instr)
    (hi : i ≠ .reset) : Rel R (command g i) :=
  .command_of h.toPieceRules hg i hc (fun e => absurd e hi) (fun _ a p l c => .epWrite h hg a p l c fun _ _ _ => trivial)
    (fun _ => .epReadWait h.toStoreRules hg) (fun _ => .epReadContinue h hg)

/-- Every command respects what its pieces respect. -/
theorem Rel.command (h : CmdRules R) (hg : Run R g.point) (hc : ∀ a mps ty, Rel R (Machine.epConfigure g a mps ty)) (i : Instr) :
    Rel R (command g i) := by
  by_cases hi : i = .reset
  · subst hi
    exact (Run.upd h.zero).rel
  · exact .command_other h.toStatusRules hg hc i hi

/-- A command that has ended has written its result: it raises nothing any more (R24). -/
theorem Run.settle (h : StoreRules M R) {p : Prog Unit} (hp : Rel R p) : Run R (settle p) := by
  intro s
  unfold Machine.settle
  cases hs : p s with
  | ok a t => exact h.trans (hp.ok hs) (h.port _ t)
  | error e t =>
    cases e with
    | raise e => exact h.trans (hp.raised hs) (h.port _ t)
    | fault f => trivial
    | refuse r => trivial

/-- The outcome of a program. -/
theorem outcome_next {p : Prog Unit} {s t : State} (h : outcome p s = .next t) :
    p s = .ok () t ∨ ∃ e u, p s = .error (.raise e) u ∧ t = u.setErr e.code := by
  unfold outcome at h
  cases hp : p s with
  | ok a u =>
    rw [hp] at h
    cases h
    exact .inl rfl
  | error e u =>
    rw [hp] at h
    cases e with
    | raise e =>
      cases h
      exact .inr ⟨e, u, rfl, rfl⟩
    | fault f => cases h
    | refuse r => cases h

theorem Run.outcome {p : Prog Unit} {s t : State} (hp : Run R p) (h : outcome p s = .next t) : R s t := by
  rcases outcome_next h with h | ⟨e, u, h, -⟩
  · exact hp.ok h
  · exact (hp.not_raised h).elim

end Commands

/-! Callbacks and what comes in gaps. -/

section Gaps

variable {R : State → State → Prop}

theorem Run.envStep (h : ∀ e s t, envApply e s = some t → R s t) (e : EnvStep) : Run R (envStep e) := by
  intro s
  unfold Machine.envStep
  cases he : envApply e s with
  | none => trivial
  | some t => exact h e s t he

theorem Run.runGap (o : Order R) (h : ∀ e s t, envApply e s = some t → R s t) (l : Gap) : Run R (runGap l) := by
  induction l with
  | nil => exact .done o
  | cons e r ih => exact (Run.envStep h e).bind o fun _ => ih

theorem Run.callbackPoint (o : Order R) (h : ∀ e s t, envApply e s = some t → R s t) (hg : ∀ r s, R s { s with cbGaps := r }) :
    Run R callbackPoint := by
  refine .of (fun {s t a} hp => ?_) (fun {s t e} hp => ?_)
  all_goals
    unfold Machine.callbackPoint at hp
    split at hp
  · cases hp; exact o.refl s
  · exact o.trans (hg _ s) ((Run.runGap o h _).ok hp)
  · cases hp
  · exact (Run.runGap o h _).not_raised hp

theorem Run.passPoint (o : Order R) (h : ∀ e s t, envApply e s = some t → R s t) (hg : ∀ r s, R s { s with passGaps := r }) :
    Run R passPoint := by
  refine .of (fun {s t a} hp => ?_) (fun {s t e} hp => ?_)
  all_goals
    unfold Machine.passPoint at hp
    split at hp
  · cases hp; exact o.refl s
  · exact o.trans (hg _ s) ((Run.runGap o h _).ok hp)
  · cases hp
  · exact (Run.runGap o h _).not_raised hp

/-- A command issued from a callback. -/
theorem Run.nestedCommand (h : CmdRules R) (he : ∀ e s t, envApply e s = some t → R s t) (hg : ∀ r s, R s { s with cbGaps := r })
    (hc : ∀ a mps ty, Rel R (epConfigure callbackCmd a mps ty)) (ops : Operands) (gaps : List Gap) : Run R (Machine.nestedCommand ops gaps) := by
  have o := h.toOrder
  refine (Run.look o _).bind o fun c => Run.bind o (.upd fun s => ?_) fun _ =>
    Run.bind o (.settle h.toStoreRules (.command h (.callbackPoint o he hg) hc _)) fun _ => .upd fun s => hg _ s
  exact o.trans (h.port { s.port with operands := ops } s) (hg gaps { s with port := { s.port with operands := ops } })

theorem Run.runCallback (o : Order R) (he : ∀ e s t, envApply e s = some t → R s t) (hn : ∀ ops gaps, Run R (Machine.nestedCommand ops gaps))
    (l : List CallbackAct) : Run R (Machine.runCallback l) := by
  induction l with
  | nil => exact .done o
  | cons a r ih =>
    cases a with
    | env e => exact (Run.envStep he e).bind o fun _ => ih
    | cmd ops gaps => exact (hn ops gaps).bind o fun _ => ih

theorem Run.hostTurn (o : Order R) (hr : ∀ l, Run R (Machine.runCallback l)) (hp : ∀ r s, R s { s with passCbs := r }) : Run R Machine.hostTurn := by
  refine .of (fun {s t a} h => ?_) (fun {s t e} h => ?_)
  all_goals
    unfold Machine.hostTurn at h
    split at h
  · cases h; exact o.refl s
  · exact o.trans (hp _ s) ((hr _).ok h)
  · cases h
  · exact (hr _).not_raised h

theorem Run.callback (o : Order R) (ht : Run R Machine.hostTurn) (hc : ∀ c s, R s { s with calls := c }) (w : Word) (a : Byte) (e : EpNotice) :
    Run R (Machine.callback w a e) := by
  refine .of (fun {s t b} h => ?_) (fun {s t b} h => ?_)
  all_goals
    unfold Machine.callback at h
    split at h
  · cases h; exact o.refl s
  · exact o.trans (hc _ s) (ht.ok h)
  · cases h
  · exact ht.not_raised h

theorem Run.statusNotify (o : Order R) (ht : Run R Machine.hostTurn) (hc : ∀ c s, R s { s with calls := c }) (e : BusNotice) :
    Run R (statusNotify e) := by
  refine .of (fun {s t b} h => ?_) (fun {s t b} h => ?_)
  all_goals
    unfold Machine.statusNotify at h
    split at h
  · cases h; exact o.refl s
  · exact o.trans (hc _ s) (ht.ok h)
  · cases h
  · exact ht.not_raised h

end Gaps

/-! Events, dispatchers, passes. -/

/-- A relation that the register writes and the callbacks of the events respect. No event writes `GINTEN`. -/
structure NoticeRules (R : State → State → Prop) : Prop extends Order R where
  reg : ∀ r v s, r ≠ .ginten → R s (regWrite r v s)
  point : Run R isr.point
  call : ∀ w a e, Run R (Machine.callback w a e)
  notify : ∀ e, Run R (statusNotify e)

/-- The same with the changes of the control-endpoint events (R113 to R116). -/
structure EventRules (R : State → State → Prop) : Prop extends NoticeRules R where
  setup : Run R handleSetupPkt
  out : ∀ s, R s { s with lce := .dataOut, ctrlState := .dataOut }
  inn : ∀ s, R s { s with lce := .dataIn, ctrlState := .dataIn }
  idle : ∀ s, R s { s with lce := .none, ctrlState := .idle }

section Events

variable {R : State → State → Prop}

theorem Run.isrRd (h : NoticeRules R) (r : Reg) : Run R (Machine.rd isr r) := .rd h.toOrder h.point r

theorem Run.isrWr (h : NoticeRules R) (r : Reg) (v : Word) (hr : r ≠ .ginten) : Run R (Machine.wr isr r v) :=
  h.point.bind h.toOrder fun _ => .upd fun s => h.reg r v s hr

theorem Run.isrSet (h : NoticeRules R) (r : Reg) (m : Word) (hr : r ≠ .ginten) : Run R (Machine.rset isr r m) :=
  (Run.isrRd h r).bind h.toOrder fun _ => .isrWr h _ _ hr

theorem Run.isrClr (h : NoticeRules R) (r : Reg) (m : Word) (hr : r ≠ .ginten) : Run R (Machine.rclr isr r m) :=
  (Run.isrRd h r).bind h.toOrder fun _ => .isrWr h _ _ hr

theorem Run.flushAll (h : NoticeRules R) (m : BitMap) (l : List Nat) : Run R (flushAll m l) := by
  induction l with
  | nil => exact .done h.toOrder
  | cons i r ih => exact (Run.isrSet h _ _ (by simp)).bind h.toOrder fun _ => ih

theorem Run.busEvent (h : NoticeRules R) (e : BusEvent) : Run R (busEvent e) := by
  have o := h.toOrder
  refine (Run.look o _).bind o fun c => (Run.isrWr h _ _ (by simp)).bind o fun _ => ?_
  cases e with
  | other p => exact .done o
  | named b =>
    cases b
    case reset =>
      refine (Run.look o _).bind o fun c => (Run.isrWr h _ _ (by simp)).bind o fun _ => (Run.isrClr h _ _ (by simp)).bind o fun _ => ?_
      refine (Run.isrSet h _ _ (by simp)).bind o fun _ => (Run.flushAll h _ _).bind o fun _ => (h.notify _).bind o fun _ => ?_
      exact .isrWr h _ _ (by simp)
    case resume => exact (Run.look o _).bind o fun c => (h.notify _).bind o fun _ => .isrWr h _ _ (by simp)
    case suspend => exact (Run.look o _).bind o fun c => (h.notify _).bind o fun _ => .isrWr h _ _ (by simp)
    case highSpeed => exact (Run.look o _).bind o fun c => .isrSet h _ _ (by simp)
    case dmaDone => exact (Run.look o _).bind o fun c => (Run.isrRd h _).bind o fun v => .ite (.done o) (.done o)
    case vbus =>
      refine (Run.look o _).bind o fun c => (Run.isrRd h _).bind o fun v => .ite ?_ (.isrClr h _ _ (by simp))
      exact (Run.isrSet h _ _ (by simp)).bind o fun _ => .isrSet h _ _ (by simp)

theorem Run.cepEvent (h : EventRules R) (e : CepEvent) : Run R (cepEvent e) := by
  have o := h.toOrder
  refine (Run.look o _).bind o fun c => (Run.isrWr h.toNoticeRules _ _ (by simp)).bind o fun _ => ?_
  cases e with
  | other p => exact .done o
  | named b =>
    cases b
    case setupPkt => exact h.setup
    case outToken =>
      refine (Run.look o _).bind o fun l => .ite (.done o) ((Run.upd fun s => h.out s).bind o fun _ => ?_)
      exact (Run.look o _).bind o fun d => h.call _ _ _
    case inToken => exact (Run.upd fun s => h.inn s).bind o fun _ => (Run.look o _).bind o fun d => h.call _ _ _
    case statusDone => exact (Run.look o _).bind o fun c => (Run.upd fun s => h.idle s).bind o fun _ => .isrWr h.toNoticeRules _ _ (by simp)
    all_goals exact .done o

theorem Run.endpointIn (h : NoticeRules R) (i : Nat) (w : Word) : Run R (endpointIn i w) :=
  (Run.isrWr h _ _ (by simp)).bind h.toOrder fun _ => (Run.isrWr h _ _ (by simp)).bind h.toOrder fun _ =>
    (Run.look h.toOrder _).bind h.toOrder fun _ => h.call _ _ _

theorem Run.endpointOut (h : NoticeRules R) (i : Nat) (w : Word) : Run R (endpointOut i w) :=
  (Run.isrWr h _ _ (by simp)).bind h.toOrder fun _ => (Run.look h.toOrder _).bind h.toOrder fun _ => h.call _ _ _

/-- The Setup-packet handler respects what its pieces respect. -/
theorem Run.handleSetupPkt (o : Order R) (hr : ∀ r v s, r ≠ .ginten → R s (regWrite r v s)) (hp : Run R isr.point)
    (hc : ∀ w a e, Run R (Machine.callback w a e)) (hs : ∀ q s, R s { s with setupSnap := q }) (hl : ∀ s, R s { s with lce := .setup })
    (ht : ∀ s, R s { s with ctrlState := .setup }) : Run R handleSetupPkt := by
  have snap : ∀ k, Run R (snapWord k) := fun k => (Run.rd o hp _).bind o fun _ => .upd fun s => hs _ s
  refine (Run.look o _).bind o fun c => (snap 0).bind o fun _ => (snap 1).bind o fun _ => (snap 2).bind o fun _ => (snap 3).bind o fun _ => ?_
  refine (Run.upd fun s => hl s).bind o fun _ => Run.bind o ?_ fun _ => (Run.upd fun s => ht s).bind o fun _ => ?_
  · exact (Run.rd o hp _).bind o fun _ => hp.bind o fun _ => .upd fun s => hr _ _ s (by simp)
  · exact (Run.look o _).bind o fun d => hc _ _ _

/-- The scan positions and snapshots are the dispatchers' own. -/
structure ScanRules (R : State → State → Prop) : Prop extends NoticeRules R where
  snap : ∀ w s, R s { s with sSnap := w }
  pos : ∀ n s, R s { s with scanPos := n }

/-- What a relation must have for every dispatcher to keep it. -/
structure DispatchRules (R : State → State → Prop) : Prop extends EventRules R, ScanRules R

/-- What a relation must have for every pass to keep it. -/
structure PassRules (R : State → State → Prop) : Prop extends DispatchRules R where
  gsnap : ∀ w s, R s { s with gSnap := w }

theorem Run.scan (h : ScanRules R) {f : Fin 32 → Prog Unit} (hf : ∀ p, Run R (f p)) (l : List (Fin 32)) : Run R (scan f l) := by
  have o := h.toOrder
  induction l with
  | nil => exact .done o
  | cons p r ih =>
    exact (Run.upd fun s => h.pos _ s).bind o fun _ => (Run.look o _).bind o fun w =>
      .ite ((hf p).bind o fun _ => ih) ((Run.done o).bind o fun _ => ih)

theorem Run.busDispatch (h : ScanRules R) : Run R busDispatch := by
  have o := h.toOrder
  refine (Run.look o _).bind o fun c => (Run.isrRd h.toNoticeRules _).bind o fun a => (Run.isrRd h.toNoticeRules _).bind o fun b => ?_
  exact (Run.upd fun s => h.snap _ s).bind o fun _ => .scan h (fun p => .busEvent h.toNoticeRules _) _

theorem Run.cepDispatch (h : DispatchRules R) : Run R cepDispatch := by
  have o := h.toOrder
  refine (Run.look o _).bind o fun c => (Run.isrRd h.toNoticeRules _).bind o fun a => (Run.isrRd h.toNoticeRules _).bind o fun b => ?_
  exact (Run.upd fun s => h.snap _ s).bind o fun _ =>   .scan h.toScanRules (fun p => .cepEvent h.toEventRules _) _

theorem Run.epDispatch (h : ScanRules R) (i : Nat) : Run R (epDispatch i) := by
  have o := h.toOrder
  refine (Run.isrRd h.toNoticeRules _).bind o fun a => (Run.isrRd h.toNoticeRules _).bind o fun b => (Run.upd fun s => h.snap _ s).bind o fun _ => ?_
  exact (Run.look o _).bind o fun w => .ite (.done o) (.ite (.endpointIn h.toNoticeRules _ _) (.endpointOut h.toNoticeRules _ _))

theorem Run.epLoop (h : ScanRules R) (m : BitMap) (l : List Nat) : Run R (epLoop m l) := by
  have o := h.toOrder
  induction l with
  | nil => exact .done o
  | cons i r ih => exact (Run.look o _).bind o fun w => .ite ((Run.epDispatch h i).bind o fun _ => ih) ((Run.done o).bind o fun _ => ih)

theorem Run.passBody (h : PassRules R) : Run R passBody := by
  have o := h.toOrder
  refine (Run.look o _).bind o fun c' => (Run.isrRd h.toNoticeRules _).bind o fun a => (Run.isrRd h.toNoticeRules _).bind o fun b => ?_
  refine (Run.upd fun s => h.gsnap _ s).bind o fun _ => (Run.look o _).bind o fun w => ?_
  have tail : ∀ p q : Prog Unit, Run R p → Run R q → ∀ (c : Prop) [Decidable c],
      Run R (if c then (p >>= fun _ => Machine.epLoop c'.bitmap c'.epIndexes) else (q >>= fun _ => Machine.epLoop c'.bitmap c'.epIndexes)) :=
    fun p q hp hq c _ => .ite (hp.bind o fun _ => .epLoop h.toScanRules _ _) (hq.bind o fun _ => .epLoop h.toScanRules _ _)
  exact .ite ((Run.busDispatch h.toScanRules).bind o fun _ => tail _ _ (.cepDispatch h.toDispatchRules) (.done o) _)
    ((Run.done o).bind o fun _ => tail _ _ (.cepDispatch h.toDispatchRules) (.done o) _)

/-- A pass: nothing where it is not enabled; else entry, body, return (R134, R192, R193). -/
theorem Run.isrPass {S : State → State → Prop} (h : PassRules S) (o : Order R)
    (hp : ∀ p s u, passEnabled s = true → S (enterPass p s) u → R s (leavePass u)) (p : PassScript) : Run R (Machine.isrPass p) := by
  intro s
  unfold Machine.isrPass
  cases he : passEnabled s with
  | false => exact o.refl s
  | true =>
    simp only [if_true, bind_upd]
    rw [bind_run]
    cases hb : Machine.passBody (enterPass p s) with
    | ok a u => exact hp p s u he ((Run.passBody h).ok hb)
    | error e u =>
      cases e with
      | raise e => exact ((Run.passBody h).not_raised hb).elim
      | fault f => trivial
      | refuse r => trivial

theorem Run.runTaskGap (o : Order R) (he : ∀ e s t, envApply e s = some t → R s t) (hp : ∀ p, Run R (Machine.isrPass p)) (l : List TaskAct) :
    Run R (Machine.runTaskGap l) := by
  induction l with
  | nil => exact .done o
  | cons a r ih =>
    cases a with
    | env e => exact (Run.envStep he e).bind o fun _ => ih
    | isr p => exact (hp p).bind o fun _ => ih

theorem Run.taskPoint (o : Order R) (hg : ∀ l, Run R (Machine.runTaskGap l)) (ht : ∀ r s, R s { s with taskGaps := r }) : Run R taskPoint := by
  refine .of (fun {s t a} hp => ?_) (fun {s t e} hp => ?_)
  all_goals
    unfold Machine.taskPoint at hp
    split at hp
  · cases hp; exact o.refl s
  · exact o.trans (ht _ s) ((hg _).ok hp)
  · cases hp
  · exact (hg _).not_raised hp

end Events

/-! A command of the port, at the top level: its meaning is its program, settled. -/

theorem exec_command (c : Config) (ops : Operands) (s : State) :
    exec (decodeCmd c ops) s = run (command cmdAgent (decodeCmd c ops)) s := by
  unfold decodeCmd
  split <;> rfl

theorem Run.command_run {R : State → State → Prop} (h : CmdRules R) (hg : Run R cmdAgent.point)
    (hc : ∀ a mps ty, Rel R (epConfigure cmdAgent a mps ty)) {i : Instr} {s t : State}
    (ht : run (command cmdAgent i) s = .next t) : R s t :=
  (Run.settle h.toStoreRules (.command h hg hc i)).outcome ht

end Sys2Proof.Machine
end

