-- ==== Sys2Proof/Laws/Environment.lean ====
section
/-! SUPPORT. What a step of the environment can change (45_sie_agent.md R168, R169). -/

set_option Elab.async false

namespace Sys2Proof.Machine

theorem guardStep_some {ok : Bool} {s t : State} (h : guardStep ok s = some t) : ok = true ∧ t = s := by
  unfold guardStep at h
  split at h
  · cases h; exact ⟨‹_›, rfl⟩
  · cases h

/-- The state with its controller registers, endpoint registers and sent packets replaced: all that SIE touches. -/
def State.outside (s : State) (c : Ctl) (l : List EpRegs) (k : List Packet) : State := { s with ctl := c, eps := l, sent := k }

/-- A state that differs from `s` in those only, with as many endpoints. -/
def State.Outside (s t : State) : Prop := ∃ c l k, l.length = s.eps.length ∧ t = s.outside c l k

theorem setEp_outside (s : State) (i : Nat) (f : EpRegs → EpRegs) : s.Outside (s.setEp i f) := by
  cases i with
  | zero => exact ⟨s.ctl, s.eps, s.sent, rfl, rfl⟩
  | succ n => exact ⟨s.ctl, s.eps.modify n f, s.sent, by simp, rfl⟩

theorem ctl_outside (s : State) (c : Ctl) : s.Outside { s with ctl := c } := ⟨c, s.eps, s.sent, rfl, rfl⟩

theorem raiseStatus_outside {s u : State} (g : StatusReg) (m : Word) (h : s.Outside u) :
    s.Outside (raiseStatus g m u) := by
  obtain ⟨c, l, k, hl, rfl⟩ := h
  cases g with
  | bus => exact ⟨_, l, k, hl, rfl⟩
  | cep => exact ⟨_, l, k, hl, rfl⟩
  | ep i =>
    obtain ⟨c', l', k', hl', h⟩ := setEp_outside (s.outside c l k) i fun e => { e with epintsts := e.epintsts ||| m }
    exact ⟨c', l', k', hl'.trans hl, h⟩

theorem setRx_outside (s : State) (f : DatReg) (b : List Byte) : s.Outside (setRx f b s) := by
  cases f with
  | cep => exact ctl_outside s _
  | ep i => exact setEp_outside s i _

theorem setTx_outside (s : State) (f : DatReg) (b : List Byte) : s.Outside (setTx f b s) := by
  cases f with
  | cep => exact ctl_outside s _
  | ep i => exact setEp_outside s i _

theorem sendPacket_outside (s : State) (f : DatReg) (n : Nat) : s.Outside (sendPacket f n s) := by
  cases f with
  | cep => exact ⟨_, s.eps, _, rfl, rfl⟩
  | ep i =>
    cases i with
    | zero => exact ⟨s.ctl, s.eps, _, rfl, rfl⟩
    | succ j => exact ⟨s.ctl, _, _, by simp, rfl⟩

/-- A SIE step changes controller registers, endpoint registers and the packets sent, and nothing else (R169). -/
theorem sieApply_outside {e : SieStep} {s t : State} (h : sieApply e s = some t) : s.Outside t := by
  have g : ∀ {ok : Bool} {u : State}, s.Outside u → guardStep ok u = some t → s.Outside t := by
    intro ok u hu hg
    obtain ⟨-, rfl⟩ := guardStep_some hg
    exact hu
  have p : ∀ {u : State}, s.Outside u → some u = some t → s.Outside t := by
    intro u hu hg
    cases hg
    exact hu
  cases e
  case raiseBits => exact g (raiseStatus_outside _ _ (ctl_outside s s.ctl)) h
  case latchWord => exact p (ctl_outside s _) h
  case replaceRx => exact g (setRx_outside s _ _) h
  case phyClkStb => exact p (ctl_outside s _) h
  case vbusDet => exact p (ctl_outside s _) h
  case dmaRd => exact p (ctl_outside s _) h
  case takeTx => exact g (sendPacket_outside s _ _) h
  case dropBit b =>
    cases b
    case nakClr => exact g (ctl_outside s _) h
    case cepFlush => exact g (ctl_outside s _) h
    case epFlush => exact g (setEp_outside s _ _) h
  case setup => exact p (raiseStatus_outside _ _ (raiseStatus_outside _ _ (ctl_outside s _))) h
  case outCep => exact g (raiseStatus_outside _ _ (raiseStatus_outside _ _ (setRx_outside s _ _))) h
  case inTokenCep => exact p (raiseStatus_outside _ _ (ctl_outside s s.ctl)) h
  case txDoneCep => exact g (raiseStatus_outside _ _ (sendPacket_outside s _ _)) h
  case statusDone => exact p (raiseStatus_outside _ _ (ctl_outside s s.ctl)) h
  case outEp => exact g (raiseStatus_outside _ _ (setRx_outside s _ _)) h
  case txDoneEp => exact g (raiseStatus_outside _ _ (sendPacket_outside s _ _)) h
  case nakCleared => exact g (ctl_outside s _) h
  case flushedCep => exact g (ctl_outside s _) h
  case flushedEp => exact g (setEp_outside s _ _) h
  case phyReady => exact p (ctl_outside s _) h
  case phyLost => exact p (ctl_outside s _) h
  case vbus => exact p (raiseStatus_outside _ _ (ctl_outside s _)) h
  case busReset => exact p (raiseStatus_outside _ _ (ctl_outside s s.ctl)) h
  case busSuspend => exact p (raiseStatus_outside _ _ (ctl_outside s s.ctl)) h
  case busResume => exact p (raiseStatus_outside _ _ (ctl_outside s s.ctl)) h
  case busHs => exact p (raiseStatus_outside _ _ (ctl_outside s s.ctl)) h
  case dmaDone => exact p (raiseStatus_outside _ _ (ctl_outside s _)) h
  case diag => exact g (raiseStatus_outside _ _ (ctl_outside s s.ctl)) h
  case overlapTx => exact g (setTx_outside s _ _) h

/-- Any step outside the block leaves all block-owned state, the command port and the schedule alone. -/
theorem envApply_outside {e : EnvStep} {s t : State} (h : envApply e s = some t) :
    ∃ c l k m r n, l.length = s.eps.length ∧ t = { s.outside c l k with mem := m, hostRanges := r, now := n } := by
  cases e with
  | sie k =>
    obtain ⟨c, l, k, hl, rfl⟩ := sieApply_outside h
    exact ⟨c, l, k, s.mem, s.hostRanges, s.now, hl, rfl⟩
  | tick n =>
    obtain ⟨-, rfl⟩ := guardStep_some h
    exact ⟨s.ctl, s.eps, s.sent, s.mem, s.hostRanges, _, rfl, rfl⟩
  | hostStore a b =>
    obtain ⟨-, rfl⟩ := guardStep_some h
    exact ⟨s.ctl, s.eps, s.sent, _, s.hostRanges, s.now, rfl, rfl⟩
  | hostHand r =>
    obtain ⟨-, rfl⟩ := guardStep_some h
    exact ⟨s.ctl, s.eps, s.sent, s.mem, _, s.now, rfl, rfl⟩

end Sys2Proof.Machine
end

