-- ==== Sys2Proof/Laws/Passes.lean ====
section
/-! SUPPORT. Passes and dispatchers: no event raises, no event changes the global snapshot, and what an undisturbed event keeps. -/

set_option Elab.async false

namespace Sys2Proof.Machine

/-! Whatever happens between its accesses, an event ends without a raise and keeps the global snapshot (R134, R187). -/

/-- The global snapshot is the same. -/
def SameSnap (s t : State) : Prop := t.gSnap = s.gSnap ∧ t.cfg = s.cfg

theorem SameSnap.order : Order SameSnap := ⟨fun _ => ⟨rfl, rfl⟩, fun a b => ⟨b.1.trans a.1, b.2.trans a.2⟩⟩

theorem SameSnap.cmd : CmdRules SameSnap where
  toOrder := SameSnap.order
  reg _ _ _ := ⟨by simp, by simp⟩
  tx _ _ _ := ⟨by simp, by simp⟩
  rx _ _ := ⟨by simp, by simp⟩
  mem _ _ _ _ _ := ⟨rfl, rfl⟩
  port _ _ := ⟨rfl, rfl⟩
  free _ _ := ⟨rfl, rfl⟩
  clock _ _ _ := ⟨rfl, rfl⟩
  busy _ _ _ _ h := h
  zero _ := ⟨rfl, rfl⟩
  handle _ _ := ⟨rfl, rfl⟩
  irq _ _ := ⟨rfl, rfl⟩
  slot _ _ _ _ := ⟨rfl, rfl⟩
  status _ := ⟨rfl, rfl⟩

theorem SameSnap.env (e : EnvStep) (s t : State) (h : envApply e s = some t) : SameSnap s t := by
  obtain ⟨c, l, k, m, r, n, _, rfl⟩ := envApply_outside h
  exact ⟨rfl, rfl⟩

theorem SameSnap.turn : Run SameSnap hostTurn := by
  refine .hostTurn SameSnap.order (fun l => .runCallback SameSnap.order SameSnap.env (fun ops gaps => ?_) l) (fun _ _ => ⟨rfl, rfl⟩)
  exact .nestedCommand SameSnap.cmd SameSnap.env (fun _ _ => ⟨rfl, rfl⟩)
    (Rel.epConfigure SameSnap.cmd.toPieceRules (.callbackPoint SameSnap.order SameSnap.env fun _ _ => ⟨rfl, rfl⟩) (fun _ _ _ => ⟨rfl, rfl⟩)
      (fun _ _ _ _ _ _ => ⟨rfl, rfl⟩)) ops gaps

theorem SameSnap.dispatch : DispatchRules SameSnap where
  toOrder := SameSnap.order
  reg _ _ _ _ := ⟨by simp, by simp⟩
  point := .passPoint SameSnap.order SameSnap.env (fun _ _ => ⟨rfl, rfl⟩)
  call := .callback SameSnap.order SameSnap.turn (fun _ _ => ⟨rfl, rfl⟩)
  notify := .statusNotify SameSnap.order SameSnap.turn (fun _ _ => ⟨rfl, rfl⟩)
  setup := .handleSetupPkt SameSnap.order (fun _ _ _ _ => ⟨by simp, by simp⟩)
    (.passPoint SameSnap.order SameSnap.env (fun _ _ => ⟨rfl, rfl⟩))
    (.callback SameSnap.order SameSnap.turn (fun _ _ => ⟨rfl, rfl⟩)) (fun _ _ => ⟨rfl, rfl⟩) (fun _ => ⟨rfl, rfl⟩) (fun _ => ⟨rfl, rfl⟩)
  out _ := ⟨rfl, rfl⟩
  inn _ := ⟨rfl, rfl⟩
  idle _ := ⟨rfl, rfl⟩
  snap _ _ := ⟨rfl, rfl⟩
  pos _ _ := ⟨rfl, rfl⟩

/-! An undisturbed event: its callbacks are recorded and return at once. -/

/-- From an undisturbed state to an undisturbed one, related by `P`. -/
def Under (P : State → State → Prop) (s t : State) : Prop := s.PassAlone → t.PassAlone ∧ P s t

theorem Under.order {P : State → State → Prop} (o : Order P) : Order (Under P) :=
  ⟨fun s h => ⟨h, o.refl s⟩, fun a b h => ⟨(b (a h).1).1, o.trans (a h).2 (b (a h).1).2⟩⟩

theorem Run.passPoint_under {P : State → State → Prop} (o : Order P) : Run (Under P) isr.point := by
  have hr : Run SameSnap isr.point := SameSnap.dispatch.point
  refine .of (fun {s t a} h hq => ?_) (fun {s t e} h => hr.not_raised h)
  have h' : isr.point s = .ok () s := hq.quiet
  rw [h'] at h
  cases h
  exact ⟨hq, o.refl s⟩

theorem Run.hostTurn_under {P : State → State → Prop} (o : Order P) : Run (Under P) Machine.hostTurn := by
  refine .of (fun {s t a} h hq => ?_) (fun {s t e} h => SameSnap.turn.not_raised h)
  unfold Machine.hostTurn at h
  rw [hq.2] at h
  cases h
  exact ⟨hq, o.refl s⟩

/-- What an undisturbed bus or endpoint event keeps, from what its changes keep. -/
theorem NoticeRules.under {P : State → State → Prop} (o : Order P) (hr : ∀ r v s, r ≠ .ginten → P s (regWrite r v s))
    (hc : ∀ c s, P s { s with calls := c }) : NoticeRules (Under P) where
  toOrder := Under.order o
  reg r v s h q := ⟨by simpa using q, hr r v s h⟩
  point := .passPoint_under o
  call := .callback (Under.order o) (.hostTurn_under o) (fun c s q => ⟨q, hc c s⟩)
  notify := .statusNotify (Under.order o) (.hostTurn_under o) (fun c s q => ⟨q, hc c s⟩)

/-- What an undisturbed event keeps, from what its changes keep. -/
theorem EventRules.under {P : State → State → Prop} (o : Order P) (hr : ∀ r v s, r ≠ .ginten → P s (regWrite r v s))
    (hc : ∀ c s, P s { s with calls := c }) (hq : ∀ q s, P s { s with setupSnap := q }) (hl : ∀ l s, P s { s with lce := l })
    (ht : ∀ c s, P s { s with ctrlState := c }) : EventRules (Under P) where
  toNoticeRules := .under o hr hc
  setup := .handleSetupPkt (Under.order o) (fun r v s h q => ⟨by simpa using q, hr r v s h⟩) (.passPoint_under o)
    (.callback (Under.order o) (.hostTurn_under o) (fun c s q => ⟨q, hc c s⟩)) (fun q s h => ⟨h, hq q s⟩) (fun s h => ⟨h, hl _ s⟩)
    (fun s h => ⟨h, ht _ s⟩)
  out s h := ⟨h, o.trans (hl .dataOut s) (ht .dataOut _)⟩
  inn s h := ⟨h, o.trans (hl .dataIn s) (ht .dataIn _)⟩
  idle s h := ⟨h, o.trans (hl .none s) (ht .idle _)⟩

/-- The same for the dispatchers. -/
theorem DispatchRules.under {P : State → State → Prop} (h : EventRules (Under P)) (hs : ∀ w s, P s { s with sSnap := w })
    (hp : ∀ n s, P s { s with scanPos := n }) : DispatchRules (Under P) where
  toEventRules := h
  snap w s q := ⟨q, hs w s⟩
  pos n s q := ⟨q, hp n s⟩

/-! An undisturbed command. -/

/-- From an undisturbed state to an undisturbed one, related by `P`. -/
def Along (P : State → State → Prop) (s t : State) : Prop := s.CmdAlone → t.CmdAlone ∧ P s t

theorem Along.order {P : State → State → Prop} (o : Order P) : Order (Along P) :=
  ⟨fun s h => ⟨h, o.refl s⟩, fun a b h => ⟨(b (a h).1).1, o.trans (a h).2 (b (a h).1).2⟩⟩

/-! The relation that holds of any two states: what a piece keeps of it is that it does not raise. -/

/-- Any two states. -/
def Any (_ _ : State) : Prop := True

theorem Any.order : Order Any := ⟨fun _ => trivial, fun _ _ => trivial⟩

theorem Run.any {R : State → State → Prop} {α : Type} {p : Prog α} (h : Run R p) : Run Any p :=
  .of (fun _ => trivial) fun e => h.not_raised e

theorem Any.cmd : CmdRules Any where
  toOrder := Any.order
  reg _ _ _ := trivial
  tx _ _ _ := trivial
  rx _ _ := trivial
  mem _ _ _ _ _ := trivial
  port _ _ := trivial
  free _ _ := trivial
  clock _ _ _ := trivial
  busy _ _ _ _ _ := trivial
  zero _ := trivial
  handle _ _ := trivial
  irq _ _ := trivial
  slot _ _ _ _ := trivial
  status _ := trivial

theorem Any.pass : PassRules Any where
  toOrder := Any.order
  reg _ _ _ _ := trivial
  point := SameSnap.dispatch.point.any
  call w a e := (SameSnap.dispatch.call w a e).any
  notify e := (SameSnap.dispatch.notify e).any
  setup := SameSnap.dispatch.setup.any
  out _ := trivial
  inn _ := trivial
  idle _ := trivial
  snap _ _ := trivial
  pos _ _ := trivial
  gsnap _ _ := trivial

/-- Nothing in a gap of a command raises. -/
theorem Run.cmdPoint_any : Run Any cmdAgent.point := by
  have e : ∀ e s t, envApply e s = some t → Any s t := fun _ _ _ _ => trivial
  have r : Run Any Machine.taskPoint :=
    .taskPoint Any.order (fun l => .runTaskGap Any.order e (fun p => .isrPass Any.pass Any.order (fun _ _ _ _ _ => trivial) p) l)
      fun _ _ => trivial
  intro s
  show Run.at _ s (if s.inIsr then Machine.callbackPoint s else Machine.taskPoint s)
  split
  · exact Run.callbackPoint Any.order e (fun _ _ => trivial) s
  · exact r s

theorem Run.cmdPoint_along {P : State → State → Prop} (o : Order P) : Run (Along P) cmdAgent.point := by
  refine .of (fun {s t a} h hq => ?_) (fun {s t e} h => Run.cmdPoint_any.not_raised h)
  have h' : cmdAgent.point s = .ok () s := hq.quiet
  rw [h'] at h
  cases h
  exact ⟨hq, o.refl s⟩

/-! A status word's event, as an operation of `exec`. -/

theorem exec_busEvent (e : BusEvent) (s : State) : exec e.instr s = outcome (busEvent e) s := by
  cases e with
  | named b => cases b <;> rfl
  | other p => rfl

theorem exec_cepEvent (e : CepEvent) (s : State) : exec e.instr s = outcome (cepEvent e) s := by
  cases e with
  | named b => cases b <;> rfl
  | other p => rfl

theorem exec_gintEp {i : Nat} {s : State} (h : s.cfg.isEp i = true) : exec (.gintEp i) s = outcome (epDispatch i) s := by
  show outcome (guardEp _ _) s = _
  rw [guardEp, if_pos h]

/-- The outcome of a piece that does not raise and of what comes after it. -/
theorem outcome_bind {p q : Prog Unit} {s : State} (hp : ∀ e t, p s ≠ .error (.raise e) t) :
    outcome (p >>= fun _ => q) s
      = match outcome p s with
        | .next t => outcome q t
        | .fault f => .fault f
        | .refused r => .refused r := by
  simp only [outcome, bind_run]
  cases h : p s with
  | ok a t => simp
  | error e t =>
    cases e with
    | raise e => exact (hp e t h).elim
    | fault f => simp
    | refuse r => simp

end Sys2Proof.Machine
end

