-- ==== Sys2Proof/Laws/PerInstr.lean ====
section
/-! SUPPORT. Statements about every operation as syntax, one lemma per constructor. The family Row: the words the encoder gives hold the fixed
bits of the operation's row of spec/opcode_table.json. -/

set_option Elab.async false

namespace Sys2Proof.Laws.Row

/-- The `mask` and `match` of the operation's row of spec/opcode_table.json, the default `BITMAP` (R90 to R95); `ALLOC` has none (R105). -/
def tableRow : Instr → Option (Word × Word)
  | .attach => some (0xFFFFFFFF#32, 0x00000001#32)
  | .detach => some (0xFFFFFFFF#32, 0x00000002#32)
  | .reset => some (0xFFFFFFFF#32, 0x00000003#32)
  | .setAddress _ => some (0xFFFFFFFF#32, 0x00000004#32)
  | .setStatusCallback _ => some (0xFFFFFFFF#32, 0x00000005#32)
  | .epCheckCap _ _ _ => some (0xFFFFFFFF#32, 0x00000006#32)
  | .epConfigure _ _ _ => some (0xFFFFFFFF#32, 0x00000007#32)
  | .epSetStall _ => some (0xFFFFFFFF#32, 0x00000008#32)
  | .epClearStall _ => some (0xFFFFFFFF#32, 0x00000009#32)
  | .epIsStalled _ => some (0xFFFFFFFF#32, 0x0000000A#32)
  | .epEnable _ => some (0xFFFFFFFF#32, 0x0000000B#32)
  | .epDisable _ => some (0xFFFFFFFF#32, 0x0000000C#32)
  | .epFlush _ => some (0xFFFFFFFF#32, 0x0000000D#32)
  | .epWrite _ _ _ _ => some (0xFFFFFFFF#32, 0x0000000E#32)
  | .epRead _ _ _ _ => some (0xFFFFFFFF#32, 0x0000000F#32)
  | .epReadWait _ _ _ _ => some (0xFFFFFFFF#32, 0x00000010#32)
  | .epReadContinue _ => some (0xFFFFFFFF#32, 0x00000011#32)
  | .epSetCallback _ _ => some (0xFFFFFFFF#32, 0x00000012#32)
  | .epMps _ => some (0xFFFFFFFF#32, 0x00000013#32)
  | .readPeek _ _ => some (0xFFFFFFFF#32, 0x00000010#32)
  | .statusZlp => some (0xFFFFFFFF#32, 0x0000000E#32)
  | .reservedOpcode op => some (0xFFFFFFFF#32, op)
  | .gintBus => some (0x00000001#32, 0x00000001#32)
  | .gintCep => some (0x00000002#32, 0x00000002#32)
  | .gintEp i => some (1#32 <<< (1 + i), 1#32 <<< (1 + i))
  | .busReset => some (0x00000001#32, 0x00000001#32)
  | .busResume => some (0x00000002#32, 0x00000002#32)
  | .busSuspend => some (0x00000004#32, 0x00000004#32)
  | .busHighSpeed => some (0x00000008#32, 0x00000008#32)
  | .busDmaDone => some (0x00000010#32, 0x00000010#32)
  | .busVbus => some (0x00000020#32, 0x00000020#32)
  | .busUnrecognised b => some (0xFFFFFFC0#32, bit b)
  | .cepSetupToken => some (0x00000001#32, 0x00000001#32)
  | .cepSetupPkt => some (0x00000002#32, 0x00000002#32)
  | .cepOutToken => some (0x00000004#32, 0x00000004#32)
  | .cepInToken => some (0x00000008#32, 0x00000008#32)
  | .cepPing => some (0x00000010#32, 0x00000010#32)
  | .cepTxComplete => some (0x00000020#32, 0x00000020#32)
  | .cepRxComplete => some (0x00000040#32, 0x00000040#32)
  | .cepNakSent => some (0x00000080#32, 0x00000080#32)
  | .cepStallSent => some (0x00000100#32, 0x00000100#32)
  | .cepError => some (0x00000200#32, 0x00000200#32)
  | .cepStatusDone => some (0x00000400#32, 0x00000400#32)
  | .cepBufFull => some (0x00000800#32, 0x00000800#32)
  | .cepBufEmpty => some (0x00001000#32, 0x00001000#32)
  | .cepUnrecognised b => some (0xFFFFE000#32, bit b)
  | .epIn _ bits => some (0xFFFFFFFF#32, bits)
  | .epOut _ bits => some (0xFFFFFFFF#32, bits)
  | .alloc _ => none

/-- An encoding's first word agrees with a row under the row's mask; an operation without a row's word has no encoding. -/
def agrees : Option (Format × List Word) → Option (Word × Word) → Bool
  | some (_, w :: _), some (mask, value) => decide (w &&& mask = value)
  | some (_, []), _ => false
  | some _, none => false
  | none, some _ => false
  | none, none => true

/-- In the default configuration a well-formed operation's words agree with its row. -/
abbrev Statement (i : Instr) : Prop :=
  i.wellFormed Config.default = true → agrees (encode Config.default i) (tableRow i) = true

theorem attach : Statement .attach := by intro _; rfl
theorem detach : Statement .detach := by intro _; rfl
theorem reset : Statement .reset := by intro _; rfl
theorem setAddress (addr : BitVec 7) : Statement (.setAddress addr) := by intro _; rfl
theorem setStatusCallback (cb : Word) : Statement (.setStatusCallback cb) := by intro _; rfl
theorem epCheckCap (ep : Byte) (mps : Half) (ty : XferType) : Statement (.epCheckCap ep mps ty) := by intro _; rfl
theorem epConfigure (ep : Byte) (mps : Half) (ty : XferType) : Statement (.epConfigure ep mps ty) := by intro _; rfl
theorem epSetStall (ep : Byte) : Statement (.epSetStall ep) := by intro _; rfl
theorem epClearStall (ep : Byte) : Statement (.epClearStall ep) := by intro _; rfl
theorem epIsStalled (ep : Byte) : Statement (.epIsStalled ep) := by intro _; rfl
theorem epEnable (ep : Byte) : Statement (.epEnable ep) := by intro _; rfl
theorem epDisable (ep : Byte) : Statement (.epDisable ep) := by intro _; rfl
theorem epFlush (ep : Byte) : Statement (.epFlush ep) := by intro _; rfl
theorem epWrite (ep : Byte) (ptr : Word) (len : Word) (cntptr : Word) : Statement (.epWrite ep ptr len cntptr) := by intro _; rfl
theorem epRead (ep : Byte) (ptr : Word) (len : Word) (cntptr : Word) : Statement (.epRead ep ptr len cntptr) := by intro _; rfl
theorem epReadWait (ep : Byte) (ptr : Word) (len : Word) (cntptr : Word) : Statement (.epReadWait ep ptr len cntptr) := by intro _; rfl
theorem epReadContinue (ep : Byte) : Statement (.epReadContinue ep) := by intro _; rfl
theorem epSetCallback (ep : Byte) (cb : Word) : Statement (.epSetCallback ep cb) := by intro _; rfl
theorem epMps (ep : Byte) : Statement (.epMps ep) := by intro _; rfl
theorem readPeek (ep : Byte) (cntptr : Word) : Statement (.readPeek ep cntptr) := by intro _; rfl
theorem statusZlp : Statement .statusZlp := by intro _; rfl
theorem reservedOpcode (op : Word) : Statement (.reservedOpcode op) := by
  intro _
  exact decide_eq_true BitVec.and_allOnes
theorem gintBus : Statement .gintBus := by intro _; rfl
theorem gintCep : Statement .gintCep := by intro _; rfl
theorem gintEp (i : Nat) : Statement (.gintEp i) := by
  intro h
  simp only [Instr.wellFormed, Config.isEp, Bool.and_eq_true, decide_eq_true_eq] at h
  have h2 : i < 13 := h.2
  have e : Config.default.bitmap.gEp i = 1 + i := gEp_default h.1 (by omega)
  exact decide_eq_true (by rw [e, bit, BitVec.and_self])
theorem busReset : Statement .busReset := by intro _; rfl
theorem busResume : Statement .busResume := by intro _; rfl
theorem busSuspend : Statement .busSuspend := by intro _; rfl
theorem busHighSpeed : Statement .busHighSpeed := by intro _; rfl
theorem busDmaDone : Statement .busDmaDone := by intro _; rfl
theorem busVbus : Statement .busVbus := by intro _; rfl
theorem busUnrecognised (b : Fin 32) : Statement (.busUnrecognised b) := by revert b; decide
theorem cepSetupToken : Statement .cepSetupToken := by intro _; rfl
theorem cepSetupPkt : Statement .cepSetupPkt := by intro _; rfl
theorem cepOutToken : Statement .cepOutToken := by intro _; rfl
theorem cepInToken : Statement .cepInToken := by intro _; rfl
theorem cepPing : Statement .cepPing := by intro _; rfl
theorem cepTxComplete : Statement .cepTxComplete := by intro _; rfl
theorem cepRxComplete : Statement .cepRxComplete := by intro _; rfl
theorem cepNakSent : Statement .cepNakSent := by intro _; rfl
theorem cepStallSent : Statement .cepStallSent := by intro _; rfl
theorem cepError : Statement .cepError := by intro _; rfl
theorem cepStatusDone : Statement .cepStatusDone := by intro _; rfl
theorem cepBufFull : Statement .cepBufFull := by intro _; rfl
theorem cepBufEmpty : Statement .cepBufEmpty := by intro _; rfl
theorem cepUnrecognised (b : Fin 32) : Statement (.cepUnrecognised b) := by revert b; decide
theorem epIn (i : Nat) (bits : Word) : Statement (.epIn i bits) := by
  intro _
  exact decide_eq_true BitVec.and_allOnes
theorem epOut (i : Nat) (bits : Word) : Statement (.epOut i bits) := by
  intro _
  exact decide_eq_true BitVec.and_allOnes
theorem alloc (size : Half) : Statement (.alloc size) := by intro _; rfl

end Sys2Proof.Laws.Row
end

