-- ==== Sys2Proof/Laws/Registers.lean ====
section
/-! SUPPORT. What every register access and every step of SIE keeps of the controller's registers: unnamed bits stay zero (10_state.md section 3),
receive counts stay the lengths of their FIFOs (R62). -/

set_option Elab.async false

namespace Sys2Proof.Machine

/-- The two invariants of the controller's registers. -/
abbrev State.Regs (s : State) : Prop := s.NamedBits ∧ s.CountsFit

/-- The registers are these of `s`. -/
theorem Regs_congr {s t : State} (h : s.Regs) (hc : t.cfg = s.cfg) (hk : t.ctl = s.ctl) (he : t.eps = s.eps) : t.Regs := by
  have e : t.ep = s.ep := by
    funext i
    cases i with
    | zero => rfl
    | succ k =>
      show t.eps.getD k _ = s.eps.getD k _
      rw [he]
  unfold State.Regs State.NamedBits State.CountsFit at *
  rw [hc, hk, he, e]
  exact h

theorem ep_setEp_cases (s : State) (i j : Nat) (f : EpRegs → EpRegs) :
    (s.setEp i f).ep j = s.ep j ∨ j = i ∧ (s.setEp i f).ep j = f (s.ep i) := by
  by_cases h : j = i
  · subst h
    by_cases h0 : j ≠ 0 ∧ j ≤ s.eps.length
    · exact .inr ⟨rfl, State.ep_setEp_same s f h0.1 h0.2⟩
    · left
      cases j with
      | zero => rfl
      | succ k =>
        have hk : ¬ k < s.eps.length := fun hk => h0 ⟨by omega, by omega⟩
        simp [State.ep, State.setEp, List.getD_eq_getElem?_getD, hk]
  · exact .inl (State.ep_setEp_other s f h)

theorem mem_modify {l : List EpRegs} {k : Nat} {f : EpRegs → EpRegs} {e : EpRegs} (h : e ∈ l.modify k f) :
    e ∈ l ∨ ∃ e' ∈ l, e = f e' := by
  obtain ⟨n, hn⟩ := List.mem_iff_getElem?.1 h
  rw [List.getElem?_modify] at hn
  cases hl : l[n]? with
  | none => rw [hl] at hn; cases hn
  | some x =>
    rw [hl] at hn
    simp only [Option.map_eq_map, Option.map_some, Option.some.injEq] at hn
    have hx := List.mem_of_getElem? hl
    by_cases hk : k = n
    · rw [if_pos hk] at hn
      exact .inr ⟨x, hx, hn.symm⟩
    · rw [if_neg hk] at hn
      exact .inl (hn ▸ hx)

/-- A change of one endpoint's registers. -/
theorem Regs_setEp {s : State} (h : s.Regs) (i : Nat) (f : EpRegs → EpRegs)
    (hn : ∀ e, EpRegs.NamedBits s.cfg.bitmap e → EpRegs.NamedBits s.cfg.bitmap (f e))
    (hc : i % 2 = 0 → (s.ep i).epdatcnt.toNat = (s.ep i).rxfifo.length → (f (s.ep i)).epdatcnt.toNat = (f (s.ep i)).rxfifo.length) :
    (s.setEp i f).Regs := by
  cases i with
  | zero => exact h
  | succ k =>
    obtain ⟨⟨h1, h2, h3, h4, h5, h6, h7⟩, h8, h9⟩ := h
    refine ⟨⟨h1, h2, h3, h4, h5, h6, fun e he => ?_⟩, h8, fun j hj h0 hp => ?_⟩
    · rcases mem_modify he with he | ⟨e', he', rfl⟩
      · exact h7 e he
      · exact hn e' (h7 e' he')
    · rcases ep_setEp_cases s (k + 1) j f with e | ⟨rfl, e⟩
      · rw [e]; exact h9 j hj h0 hp
      · rw [e]; exact hc hp (h9 _ hj h0 hp)

/-- The part of `Regs` that is about the registers that are not per-endpoint. -/
def CtlFits (c : Config) (k : Ctl) : Prop :=
  k.ginten &&& ~~~gintenMask c = 0 ∧ k.devaddr &&& ~~~devaddrMask = 0 ∧ k.oper &&& ~~~operMask c.bitmap = 0
    ∧ k.phyctl &&& ~~~(phyctlMask c.bitmap ||| phyctlRoMask c.bitmap) = 0
    ∧ k.dmactl &&& ~~~(dmactlMask c.bitmap ||| dmactlRoMask c.bitmap) = 0
    ∧ k.cepctl &&& ~~~cepctlMask c.bitmap = 0 ∧ k.cepdatcnt.toNat = k.cepRxfifo.length

theorem State.Regs.ctl {s : State} (h : s.Regs) : CtlFits s.cfg s.ctl :=
  ⟨h.1.1, h.1.2.1, h.1.2.2.1, h.1.2.2.2.1, h.1.2.2.2.2.1, h.1.2.2.2.2.2.1, h.2.1⟩

theorem Regs_ctl {s : State} (h : s.Regs) {k : Ctl} (hk : CtlFits s.cfg k) : State.Regs { s with ctl := k } :=
  ⟨⟨hk.1, hk.2.1, hk.2.2.1, hk.2.2.2.1, hk.2.2.2.2.1, hk.2.2.2.2.2.1, h.1.2.2.2.2.2.2⟩, hk.2.2.2.2.2.2, h.2.2⟩

theorem masked {mask old v : Word} (h : old &&& ~~~mask = 0) : writeMasked mask old v &&& ~~~mask = 0 :=
  writeMasked_named h (by simp)

theorem masked_left {mask ro old v : Word} (h : old &&& ~~~(mask ||| ro) = 0) : writeMasked mask old v &&& ~~~(mask ||| ro) = 0 :=
  writeMasked_named h (by
    apply word_ext
    intro p hp
    simp only [tst_and, tst_not, tst_or, hp, decide_true, Bool.true_and, tst_zero]
    cases tst mask p <;> simp)

/-- Every register write keeps them. -/
theorem Regs_regWrite {s : State} (h : s.Regs) (r : Reg) (v : Word) : (regWrite r v s).Regs := by
  obtain ⟨h1, h2, h3, h4, h5, h6, h7⟩ := h.ctl
  cases r
  case gintsts => exact h
  case ginten => exact Regs_ctl h ⟨masked h1, h2, h3, h4, h5, h6, h7⟩
  case busintsts => exact Regs_ctl h ⟨h1, h2, h3, h4, h5, h6, h7⟩
  case businten => exact Regs_ctl h ⟨h1, h2, h3, h4, h5, h6, h7⟩
  case devaddr => exact Regs_ctl h ⟨h1, masked h2, h3, h4, h5, h6, h7⟩
  case oper => exact Regs_ctl h ⟨h1, h2, masked h3, h4, h5, h6, h7⟩
  case phyctl => exact Regs_ctl h ⟨h1, h2, h3, masked_left h4, h5, h6, h7⟩
  case dmactl => exact Regs_ctl h ⟨h1, h2, h3, h4, masked_left h5, h6, h7⟩
  case cepctl => exact Regs_ctl h ⟨h1, h2, h3, h4, h5, masked h6, h7⟩
  case cepinten => exact Regs_ctl h ⟨h1, h2, h3, h4, h5, h6, h7⟩
  case cepintsts => exact Regs_ctl h ⟨h1, h2, h3, h4, h5, h6, h7⟩
  case ceptxcnt => exact Regs_ctl h ⟨h1, h2, h3, h4, h5, h6, h7⟩
  case cepdatcnt => exact h
  case cepsetup => exact h
  case epcfg => exact Regs_setEp h _ _ (fun e he => ⟨masked he.1, he.2⟩) fun _ => id
  case eprspctl => exact Regs_setEp h _ _ (fun e he => ⟨he.1, masked he.2.1, he.2.2⟩) fun _ => id
  case epmps => exact Regs_setEp h _ _ (fun e he => ⟨he.1, he.2.1, masked he.2.2⟩) fun _ => id
  case epbufstart => exact Regs_setEp h _ _ (fun e he => he) fun _ => id
  case epbufend => exact Regs_setEp h _ _ (fun e he => he) fun _ => id
  case epinten => exact Regs_setEp h _ _ (fun e he => he) fun _ => id
  case epintsts => exact Regs_setEp h _ _ (fun e he => he) fun _ => id
  case epdatcnt i =>
    simp only [regWrite]
    split
    · exact Regs_setEp h _ _ (fun e he => he) fun h2 => by omega
    · exact h

theorem countDown_fits {c : Word} {l : List Byte} (h : c.toNat = l.length) : (countDown c).toNat = l.tail.length := by
  cases l with
  | nil =>
    have : c = 0 := BitVec.eq_of_toNat_eq (by simpa using h)
    subst this
    rfl
  | cons b r =>
    have h1 : c.toNat = r.length + 1 := by simpa using h
    have h2 : c ≠ 0 := by rintro rfl; simp at h1
    have h3 : (1#32).toNat ≤ c.toNat := by simp; omega
    rw [countDown, if_neg h2, List.tail_cons]
    exact (BitVec.toNat_sub_of_le h3).trans (by simp; omega)

theorem Regs_dropRx {s : State} (h : s.Regs) (f : DatReg) : (dropRx f s).Regs := by
  cases f with
  | cep =>
    obtain ⟨h1, h2, h3, h4, h5, h6, h7⟩ := h.ctl
    exact Regs_ctl h ⟨h1, h2, h3, h4, h5, h6, countDown_fits h7⟩
  | ep i => exact Regs_setEp h _ _ (fun e he => he) fun _ => countDown_fits

theorem Regs_appendTx {s : State} (h : s.Regs) (f : DatReg) (b : Byte) : (appendTx f b s).Regs := by
  cases f with
  | cep => exact Regs_ctl h h.ctl
  | ep i => exact Regs_setEp h _ _ (fun e he => he) fun _ => id

theorem Regs_raiseStatus {s : State} (h : s.Regs) (g : StatusReg) (m : Word) : (raiseStatus g m s).Regs := by
  cases g with
  | bus => exact Regs_ctl h h.ctl
  | cep => exact Regs_ctl h h.ctl
  | ep i => exact Regs_setEp h _ _ (fun e he => he) fun _ => id

theorem ofNat_length {l : List Byte} (h : l.length < 4294967296) : (BitVec.ofNat 32 l.length).toNat = l.length := by
  simp; omega

theorem Regs_setRx {s : State} (h : s.Regs) (f : DatReg) {l : List Byte} (hl : l.length < 4294967296) : (setRx f l s).Regs := by
  cases f with
  | cep =>
    obtain ⟨h1, h2, h3, h4, h5, h6, -⟩ := h.ctl
    exact Regs_ctl h ⟨h1, h2, h3, h4, h5, h6, ofNat_length hl⟩
  | ep i => exact Regs_setEp h _ _ (fun e he => he) fun _ _ => ofNat_length hl

theorem Regs_setTx {s : State} (h : s.Regs) (f : DatReg) (l : List Byte) : (setTx f l s).Regs := by
  cases f with
  | cep => exact Regs_ctl h h.ctl
  | ep i => exact Regs_setEp h _ _ (fun e he => he) fun _ => id

theorem Regs_sendPacket {s : State} (h : s.Regs) (f : DatReg) (n : Nat) : (sendPacket f n s).Regs := by
  have hp : (clearPending f s).Regs := by
    cases f with
    | cep => exact Regs_ctl h h.ctl
    | ep i => exact Regs_setEp h _ _ (fun e he => he) fun _ => id
  exact Regs_congr (Regs_setTx hp f _) rfl rfl rfl

/-- Every step of SIE keeps them. -/
theorem Regs_sieApply {e : SieStep} {s t : State} (h : s.Regs) (he : sieApply e s = some t) : t.Regs := by
  obtain ⟨h1, h2, h3, h4, h5, h6, h7⟩ := h.ctl
  have phy : ∀ {p : Fin 32} (b : Bool), bit p &&& ~~~(phyctlMask s.cfg.bitmap ||| phyctlRoMask s.cfg.bitmap) = 0 →
      State.Regs { s with ctl.phyctl := putBit s.ctl.phyctl p b } :=
    fun b hb => Regs_ctl h ⟨h1, h2, h3, putBit_named b h4 hb, h5, h6, h7⟩
  have clk : bit s.cfg.bitmap.phyClkStb &&& ~~~(phyctlMask s.cfg.bitmap ||| phyctlRoMask s.cfg.bitmap) = 0 := by
    apply word_ext; intro p hp
    simp only [phyctlRoMask, tst_and, tst_not, tst_or, hp, decide_true, Bool.true_and, tst_zero]
    cases tst (bit s.cfg.bitmap.phyClkStb) p <;> simp
  have vb : bit s.cfg.bitmap.phyVbusDet &&& ~~~(phyctlMask s.cfg.bitmap ||| phyctlRoMask s.cfg.bitmap) = 0 := by
    apply word_ext; intro p hp
    simp only [phyctlRoMask, tst_and, tst_not, tst_or, hp, decide_true, Bool.true_and, tst_zero]
    cases tst (bit s.cfg.bitmap.phyVbusDet) p <;> simp
  have dma : ∀ b, State.Regs { s with ctl.dmactl := putBit s.ctl.dmactl s.cfg.bitmap.dmaRd b } := by
    refine fun b => Regs_ctl h ⟨h1, h2, h3, h4, putBit_named b h5 ?_, h6, h7⟩
    apply word_ext; intro p hp
    simp only [dmactlRoMask, tst_and, tst_not, tst_or, hp, decide_true, Bool.true_and, tst_zero]
    cases tst (bit s.cfg.bitmap.dmaRd) p <;> simp
  have cut : ∀ {w mask : Word} {p : Nat}, w &&& ~~~mask = 0 → putBit w p false &&& ~~~mask = 0 := by
    intro w mask p hw
    apply word_ext; intro q hq
    have := congrArg (fun x => tst x q) hw
    simp only [putBit, Bool.false_eq_true, if_false, tst_and, tst_not, hq, decide_true, Bool.true_and, tst_zero] at this ⊢
    revert this
    cases tst w q <;> cases tst mask q <;> simp
  have cutE : ∀ {e : EpRegs}, EpRegs.NamedBits s.cfg.bitmap e →
      (putBit e.eprspctl s.cfg.bitmap.rspFlush false) &&& ~~~eprspctlMask s.cfg.bitmap = 0 := fun h => cut h.2.1
  have ctl : ∀ p : Fin 32, State.Regs { s with ctl.cepctl := putBit s.ctl.cepctl p false } :=
    fun p => Regs_ctl h ⟨h1, h2, h3, h4, h5, cut h6, h7⟩
  have g : ∀ {ok : Bool} {u : State}, guardStep ok u = some t → (ok = true → u.Regs) → t.Regs := by
    intro ok u hg hu
    obtain ⟨ho, rfl⟩ := guardStep_some hg
    exact hu ho
  have p : ∀ {u : State}, some u = some t → u.Regs → t.Regs := by
    intro u hg hu
    cases hg
    exact hu
  cases e
  case raiseBits => exact g he (fun _ => Regs_raiseStatus h _ _)
  case latchWord => exact p he (Regs_ctl h ⟨h1, h2, h3, h4, h5, h6, h7⟩)
  case replaceRx =>
    refine g he (fun ho => Regs_setRx h _ ?_)
    simp only [Bool.and_eq_true, decide_eq_true_eq] at ho
    exact ho.2
  case phyClkStb => exact p he (phy _ clk)
  case vbusDet => exact p he (phy _ vb)
  case dmaRd => exact p he (dma _)
  case takeTx => exact g he (fun _ => Regs_sendPacket h _ _)
  case dropBit b =>
    cases b
    case nakClr => exact g he (fun _ => ctl _)
    case cepFlush => exact g he (fun _ => ctl _)
    case epFlush => exact g he (fun _ => Regs_setEp h _ _ (fun e hb => ⟨hb.1, cutE hb, hb.2.2⟩) fun _ => id)
  case setup b0 b1 b2 b3 b4 b5 b6 b7 =>
    have hs : State.Regs { s with ctl.cepsetup := ⟨setupWord b0 b1, setupWord b2 b3, setupWord b4 b5, setupWord b6 b7⟩ } :=
      Regs_ctl h ⟨h1, h2, h3, h4, h5, h6, h7⟩
    exact p he (Regs_raiseStatus (Regs_raiseStatus hs _ _) _ _)
  case outCep =>
    refine g he (fun ho => Regs_raiseStatus (Regs_raiseStatus (Regs_setRx h _ ?_) _ _) _ _)
    simp only [Bool.and_eq_true, decide_eq_true_eq] at ho
    exact Nat.lt_of_le_of_lt ho.2 (show Config.mpsCtrlMax < 4294967296 by decide)
  case inTokenCep => exact p he (Regs_raiseStatus h _ _)
  case txDoneCep => exact g he (fun _ => Regs_raiseStatus (Regs_sendPacket h _ _) _ _)
  case statusDone => exact p he (Regs_raiseStatus h _ _)
  case outEp i l =>
    refine g he (fun ho => Regs_raiseStatus (Regs_setRx h _ ?_) _ _)
    simp only [Bool.and_eq_true, decide_eq_true_eq] at ho
    have := (s.ep i).epmps.isLt
    omega
  case txDoneEp => exact g he (fun _ => Regs_raiseStatus (Regs_sendPacket h _ _) _ _)
  case nakCleared => exact g he (fun _ => ctl _)
  case flushedCep => exact g he (fun _ => Regs_ctl h ⟨h1, h2, h3, h4, h5, cut h6, rfl⟩)
  case flushedEp i =>
    refine g he (fun _ => Regs_setEp h _ _ (fun e hb => ⟨hb.1, cutE hb, hb.2.2⟩) fun h0 _ => ?_)
    simp only [h0, if_true]
    rfl
  case phyReady => exact p he (phy _ clk)
  case phyLost => exact p he (phy _ clk)
  case vbus => exact p he (Regs_raiseStatus (phy _ vb) _ _)
  case busReset => exact p he (Regs_raiseStatus h _ _)
  case busSuspend => exact p he (Regs_raiseStatus h _ _)
  case busResume => exact p he (Regs_raiseStatus h _ _)
  case busHs => exact p he (Regs_raiseStatus h _ _)
  case dmaDone => exact p he (Regs_raiseStatus (dma _) _ _)
  case diag => exact g he (fun _ => Regs_raiseStatus h _ _)
  case overlapTx => exact g he (fun _ => Regs_setTx h _ _)

end Sys2Proof.Machine
end

