-- ==== Sys2Proof/Laws/Transfer.lean ====
section
/-! SUPPORT. The pieces of the transfer commands with nothing in between: the checks, the two FIFO loops, the SETUP copy, the count word. -/

set_option Elab.async false

namespace Sys2Proof.Machine

/-! The checks (R117). -/

/-- The position of an index's bit in `GINTEN`. -/
def enablePos (c : Config) (i : Nat) : Nat := if i = 0 then c.bitmap.gCep.val else c.bitmap.gEp i

theorem xferCheck_calm {s : State} (h : s.Calm 2) {a : Byte} {needIn nullPtr : Bool} (h1 : epOk s.cfg a = true)
    (h2 : needFits a needIn = true) (h3 : nullPtr = false) (h4 : (s.desc (epIdx a)).mps ≠ 0)
    (h5 : tst s.ctl.ginten (enablePos s.cfg (epIdx a)) = true) : xferCheck cmdAgent a needIn nullPtr s = .ok () (s.skip 2) := by
  rw [xferCheck, withEp_ok h1]
  simp only [h2, h3, Bool.not_true, Bool.false_eq_true, if_false]
  refine bind_seq (own_calm (h.mono (by omega)) _) ?_
  rw [skip_desc, if_neg h4]
  refine bind_seq (rd_calm (State.Calm.skip (j := 1) h) _) ?_
  have : tst (regRead .ginten (s.skip 1)) (if epIdx a = 0 then s.cfg.bitmap.gCep.val else s.cfg.bitmap.gEp (epIdx a)) = true := h5
  simp only [this, if_true]
  rw [skip_skip]
  rfl

theorem xferCheck_direction {g : Agent} {s : State} {a : Byte} {needIn nullPtr : Bool} (h1 : epOk s.cfg a = true)
    (h : needFits a needIn = false ∨ nullPtr = true) :
    xferCheck g a needIn nullPtr s = .error (.raise .invalidParameter) s := by
  rw [xferCheck, withEp_ok h1]
  rcases h with h | h
  · simp [h]
  · cases hn : needFits a needIn <;> simp [h]

theorem xferCheck_unconfigured {s : State} (h : s.CmdAlone) {a : Byte} {needIn nullPtr : Bool} (h1 : epOk s.cfg a = true)
    (h2 : needFits a needIn = true) (h3 : nullPtr = false) (h4 : (s.desc (epIdx a)).mps = 0) :
    xferCheck cmdAgent a needIn nullPtr s = .error (.raise .notReady) s := by
  rw [xferCheck, withEp_ok h1]
  simp only [h2, h3, Bool.not_true, Bool.false_eq_true, if_false]
  refine bind_seq (own_quiet h.quiet _) ?_
  simp [h4]

theorem xferCheck_disabled {s : State} (h : s.CmdAlone) {a : Byte} {needIn nullPtr : Bool} (h1 : epOk s.cfg a = true)
    (h2 : needFits a needIn = true) (h3 : nullPtr = false) (h4 : (s.desc (epIdx a)).mps ≠ 0)
    (h5 : tst s.ctl.ginten (enablePos s.cfg (epIdx a)) = false) :
    xferCheck cmdAgent a needIn nullPtr s = .error (.raise .noDevice) s := by
  rw [xferCheck, withEp_ok h1]
  simp only [h2, h3, Bool.not_true, Bool.false_eq_true, if_false]
  refine bind_seq (own_quiet h.quiet _) ?_
  simp only [h4, if_false]
  refine bind_seq (rd_quiet h.quiet _) ?_
  have : tst (regRead .ginten s) (if epIdx a = 0 then s.cfg.bitmap.gCep.val else s.cfg.bitmap.gEp (epIdx a)) = false := h5
  simp [this]

/-! Bytes into a transmit FIFO (R76, R118). -/

/-- A transmit FIFO with bytes appended. -/
def pushed (f : DatReg) (l : List Byte) (s : State) : State :=
  match f with
  | .cep => { s with ctl.cepTxfifo := s.ctl.cepTxfifo ++ l }
  | .ep i => s.setEp i fun e => { e with txfifo := e.txfifo ++ l }

theorem pushed_nil (f : DatReg) (s : State) : pushed f [] s = s := by
  cases f with
  | cep => simp [pushed]
  | ep i => simpa [pushed] using State.setEp_id s i

theorem pushed_append (f : DatReg) (b : Byte) (l : List Byte) (s : State) : pushed f l (appendTx f b s) = pushed f (b :: l) s := by
  cases f with
  | cep => simp [pushed, appendTx]
  | ep i => simp [pushed, appendTx, State.setEp_setEp]

theorem pushed_skip (f : DatReg) (l : List Byte) (k : Nat) (s : State) : pushed f l (s.skip k) = (pushed f l s).skip k := by
  cases f with
  | cep => rfl
  | ep i => exact setEp_skip k s i _

theorem appendTx_length (f : DatReg) (b : Byte) (s : State) : (txfifo f (appendTx f b s)).length ≤ (txfifo f s).length + 1 := by
  cases f with
  | cep => simp [txfifo, appendTx]
  | ep i =>
    simp only [txfifo, appendTx]
    by_cases h : i ≠ 0 ∧ i ≤ s.eps.length
    · rw [State.ep_setEp_same s _ h.1 h.2]; simp
    · cases i with
      | zero => exact Nat.le_succ _
      | succ k =>
        have hk : ¬ k < s.eps.length := fun hk => h ⟨by omega, by omega⟩
        simp [State.ep, State.setEp, List.getD_eq_getElem?_getD, hk, EpRegs.zero]

/-- The push loop: `n` bytes from `ptr + j` on, `2 n` accesses. -/
theorem pushBytes_calm (f : DatReg) (mps : Half) (ptr : Word) (n : Nat) : ∀ (j : Nat) (s : State), s.Calm (2 * n) →
    (∀ k < n, ptr.toNat + (j + k) < Config.hostTop ∧ hostReadable s (ptr.toNat + (j + k)) = true) →
    (txfifo f s).length + n ≤ fifoCapacity mps →
    pushBytes cmdAgent f mps ptr n j s
      = .ok () ((pushed f ((List.range n).map fun k => Memory.read s.mem (ptr.toNat + (j + k))) s).skip (2 * n)) := by
  induction n with
  | zero => intro j s _ _ _; simp [pushBytes, pushed_nil, skip_zero]
  | succ n ih =>
    intro j s hc hr hcap
    have h0 := hr 0 (by omega)
    simp only [Nat.add_zero] at h0
    refine bind_seq (load_calm (hc.mono (by omega)) h0.1 h0.2) ?_
    refine bind_seq (fifoPush_calm (State.Calm.skip (j := 1) (hc.mono (by omega))) _ (by simp; omega)) ?_
    rw [appendTx_skip, skip_skip]
    have hl := appendTx_length f (Memory.read s.mem (ptr.toNat + j)) s
    rw [ih (j + 1) _ (State.Calm.skip (j := 2) ((Calm_appendTx ..).2 (hc.mono (by omega)))) ?_ ?_]
    · rw [pushed_skip, skip_skip, pushed_append]
      have e : (Memory.read s.mem (ptr.toNat + j) ::
            (List.range n).map fun k => Memory.read (State.skip 2 (appendTx f (Memory.read s.mem (ptr.toNat + j)) s)).mem
              (ptr.toNat + (j + 1 + k)))
          = (List.range (n + 1)).map fun k => Memory.read s.mem (ptr.toNat + (j + k)) := by
        rw [List.range_succ_eq_map, List.map_cons, List.map_map]
        simp only [Nat.add_zero, skip_mem, appendTx_mem]
        congr 1
        apply List.map_congr_left
        intro k _
        simp only [Function.comp, Nat.succ_eq_add_one, show j + 1 + k = j + (k + 1) by omega]
      rw [e, show 2 + 2 * n = 2 * (n + 1) by omega]
    · intro k hk
      have := hr (k + 1) (by omega)
      rw [show ptr.toNat + (j + 1 + k) = ptr.toNat + (j + (k + 1)) by omega]
      refine ⟨this.1, ?_⟩
      simpa [hostReadable] using this.2
    · rw [skip_txfifo]
      omega

/-! Bytes out of a receive FIFO (R75, R121). -/

/-- A receive FIFO with `n` bytes popped and its count lowered by as many. -/
def popped (f : DatReg) (n : Nat) (s : State) : State :=
  match f with
  | .cep => { s with ctl.cepRxfifo := s.ctl.cepRxfifo.drop n, ctl.cepdatcnt := s.ctl.cepdatcnt - BitVec.ofNat 32 n }
  | .ep i => s.setEp i fun e => { e with rxfifo := e.rxfifo.drop n, epdatcnt := e.epdatcnt - BitVec.ofNat 32 n }

/-- The count behind a data register. -/
def rxCount (f : DatReg) (s : State) : Word :=
  match f with
  | .cep => s.ctl.cepdatcnt
  | .ep i => (s.ep i).epdatcnt

theorem popped_zero (f : DatReg) (s : State) : popped f 0 s = s := by
  cases f with
  | cep => simp [popped]
  | ep i => simpa [popped] using State.setEp_id s i

theorem countDown_eq {c : Word} (h : c ≠ 0) : countDown c = c - 1 := if_neg h

theorem rxfifo_dropRx (f : DatReg) (s : State) {b : Byte} {l : List Byte} (h : rxfifo f s = b :: l) : rxfifo f (dropRx f s) = l := by
  cases f with
  | cep => simp only [rxfifo] at h; simp [rxfifo, dropRx, h]
  | ep i =>
    simp only [rxfifo] at h
    cases i with
    | zero => simp [State.ep, EpRegs.zero] at h
    | succ k =>
      have hk : k < s.eps.length := by
        refine Nat.lt_of_not_le fun hk => ?_
        simp [State.ep, List.getD_eq_getElem?_getD, List.getElem?_eq_none hk, EpRegs.zero] at h
      simp only [rxfifo, dropRx]
      rw [State.ep_setEp_same s _ (by omega) (by omega), h]
      rfl

theorem rxCount_dropRx (f : DatReg) (s : State) (h : rxCount f s ≠ 0) : rxCount f (dropRx f s) = rxCount f s - 1 := by
  cases f with
  | cep => exact countDown_eq h
  | ep i =>
    simp only [rxCount] at h ⊢
    cases i with
    | zero => exact absurd rfl h
    | succ k =>
      have hk : k < s.eps.length := by
        refine Nat.lt_of_not_le fun hk => ?_
        apply h
        simp [State.ep, List.getD_eq_getElem?_getD, List.getElem?_eq_none hk, EpRegs.zero]
      simp only [dropRx]
      rw [State.ep_setEp_same s _ (by omega) (by omega)]
      exact countDown_eq h

theorem popped_dropRx (f : DatReg) (n : Nat) (s : State) (h : rxCount f s ≠ 0) : popped f n (dropRx f s) = popped f (n + 1) s := by
  have e : ∀ c : Word, c - 1 - BitVec.ofNat 32 n = c - BitVec.ofNat 32 (n + 1) := by
    intro c
    rw [BitVec.ofNat_add, show BitVec.ofNat 32 1 = (1 : Word) from rfl, BitVec.sub_sub, BitVec.add_comm]
  cases f with
  | cep => simp only [popped, dropRx, countDown_eq (show s.ctl.cepdatcnt ≠ 0 from h), e, List.drop_tail]
  | ep i =>
    simp only [popped, dropRx, State.setEp_setEp]
    apply State.setEp_congr
    simp only [countDown_eq (show (s.ep i).epdatcnt ≠ 0 from h), e, List.drop_tail]

theorem popped_skip (f : DatReg) (n k : Nat) (s : State) : popped f n (s.skip k) = (popped f n s).skip k := by
  cases f with
  | cep => rfl
  | ep i => exact setEp_skip k s i _

theorem popped_mem (f : DatReg) (n : Nat) (s : State) (m : List Host.Cell) :
    popped f n { s with mem := m } = { popped f n s with mem := m } := by
  cases f with
  | cep => rfl
  | ep i => cases i <;> rfl

theorem rxfifo_mem (f : DatReg) (s : State) (m : List Host.Cell) : rxfifo f { s with mem := m } = rxfifo f s := by
  cases f with
  | cep => rfl
  | ep i => cases i <;> rfl

theorem rxCount_mem (f : DatReg) (s : State) (m : List Host.Cell) : rxCount f { s with mem := m } = rxCount f s := by
  cases f with
  | cep => rfl
  | ep i => cases i <;> rfl

@[simp] theorem rxCount_skip (f : DatReg) (s : State) (k : Nat) : rxCount f (s.skip k) = rxCount f s := by
  cases f <;> simp [rxCount]

/-- The pop loop: `n` bytes to `ptr + j` on, `2 n` accesses. -/
theorem popBytes_calm (f : DatReg) (ptr : Word) (n : Nat) : ∀ (j : Nat) (s : State), s.Calm (2 * n) →
    (∀ k < n, ptr.toNat + (j + k) < Config.hostTop ∧ hostWritable s (ptr.toNat + (j + k)) = true) →
    n ≤ (rxfifo f s).length → n ≤ (rxCount f s).toNat →
    popBytes cmdAgent f ptr n j s
      = .ok () (State.skip (2 * n)
        { popped f n s with mem := putBytes s.mem (ptr.toNat + j) ((rxfifo f s).take n) }) := by
  induction n with
  | zero =>
    intro j s _ _ _ _
    simp [popBytes, popped_zero, skip_zero, putBytes]
  | succ n ih =>
    intro j s hc hw hl hn
    have h0 := hw 0 (by omega)
    simp only [Nat.add_zero] at h0
    obtain ⟨b, l, hf⟩ : ∃ b l, rxfifo f s = b :: l := by
      cases hf : rxfifo f s with
      | nil => rw [hf] at hl; simp at hl
      | cons b l => exact ⟨b, l, rfl⟩
    have hne : rxCount f s ≠ 0 := by intro e; rw [e] at hn; simp at hn
    have hw' : hostWritable ((dropRx f s).skip 1) (ptr.toNat + j) = true := by
      simpa [hostWritable] using h0.2
    refine bind_seq (fifoPop_calm (hc.mono (by omega)) hf) ?_
    refine bind_seq (store_calm (State.Calm.skip (j := 1) ((Calm_dropRx ..).2 (hc.mono (by omega)))) h0.1 hw' b) ?_
    have e1 : ({ (dropRx f s).skip 1 with mem := Memory.write ((dropRx f s).skip 1).mem (ptr.toNat + j) b } : State)
        = State.skip 1 { dropRx f s with mem := Memory.write s.mem (ptr.toNat + j) b } := by
      rw [skip_mem, dropRx_mem]; rfl
    rw [e1, skip_skip]
    have hfd := rxfifo_dropRx f s hf
    have hcd := rxCount_dropRx f s hne
    have hlen : n ≤ l.length := by rw [hf] at hl; simpa using hl
    have hcnt : n ≤ (rxCount f s - 1).toNat := by
      have h1 : 1 ≤ (rxCount f s).toNat := by omega
      rw [BitVec.toNat_sub_of_le (by simpa [BitVec.le_def] using h1)]
      simp; omega
    rw [ih (j + 1) _ (State.Calm.skip (j := 2) (by simpa [State.Calm] using hc.mono (m := 2 * (n + 1)) (by omega))) ?_ ?_ ?_]
    · rw [popped_skip, popped_mem, popped_dropRx f n s hne]
      simp only [skip_rxfifo, rxfifo_mem, hfd, hf, List.take_succ_cons, putBytes, skip_mem]
      have e2 : ∀ (m m' : List Host.Cell) (t : State),
          ({ State.skip 2 { t with mem := m } with mem := m' } : State) = State.skip 2 { t with mem := m' } := fun _ _ _ => rfl
      rw [e2, skip_skip, show 2 + 2 * n = 2 * (n + 1) by omega, show ptr.toNat + (j + 1) = ptr.toNat + j + 1 by omega]
    · intro k hk
      have := hw (k + 1) (by omega)
      rw [show ptr.toNat + (j + 1 + k) = ptr.toNat + (j + (k + 1)) by omega]
      refine ⟨this.1, ?_⟩
      simpa [hostWritable] using this.2
    · rw [skip_rxfifo, rxfifo_mem, hfd]
      exact hlen
    · rw [rxCount_skip, rxCount_mem, hcd]
      exact hcnt

/-! The SETUP copy (R121) and the count word (R70, R118). -/

/-- The SETUP copy: `n` bytes from byte `j` on, `2 n` accesses. -/
theorem copySetup_calm (ptr : Word) (n : Nat) : ∀ (j : Nat) (s : State), s.Calm (2 * n) → (hj : j + n ≤ 8) →
    (∀ k < n, ptr.toNat + (j + k) < Config.hostTop ∧ hostWritable s (ptr.toNat + (j + k)) = true) →
    copySetup cmdAgent ptr n j s
      = .ok () (State.skip (2 * n)
        { s with
          mem := putBytes s.mem (ptr.toNat + j)
            ((List.range n).map fun k => if h : j + k < 8 then setupByte s.setupSnap ⟨j + k, h⟩ else 0) }) := by
  induction n with
  | zero => intro j s _ _ _; simp [copySetup, skip_zero, putBytes]
  | succ n ih =>
    intro j s hc hj hw
    have h0 := hw 0 (by omega)
    simp only [Nat.add_zero] at h0
    have hj8 : j < 8 := by omega
    have hb : setupByteAt cmdAgent j s = .ok (setupByte s.setupSnap ⟨j, hj8⟩) (s.skip 1) := by
      refine bind_seq (point_calm (hc.mono (by omega))) ?_
      simp [hj8]
    refine bind_seq hb ?_
    refine bind_seq (store_calm (State.Calm.skip (j := 1) (hc.mono (by omega))) h0.1 h0.2 _) ?_
    have e1 : ∀ m : List Host.Cell, State.skip 1 { s.skip 1 with mem := m } = State.skip 2 { s with mem := m } :=
      fun m => skip_skip 1 1 { s with mem := m }
    rw [e1, ih (j + 1) _ (State.Calm.skip (j := 2) (by simpa [State.Calm] using hc.mono (m := 2 * (n + 1)) (by omega))) (by omega) ?_]
    · have e2 : ∀ m m' : List Host.Cell,
          ({ State.skip 2 { s with mem := m } with mem := m' } : State) = State.skip 2 { s with mem := m' } := fun _ _ => rfl
      rw [e2, skip_skip, show 2 + 2 * n = 2 * (n + 1) by omega, List.range_succ_eq_map, List.map_cons, List.map_map]
      simp only [Nat.add_zero, putBytes, skip_mem, skip_setupSnap, dif_pos hj8]
      have e3 : ((List.range n).map fun k => if h : j + 1 + k < 8 then setupByte s.setupSnap ⟨j + 1 + k, h⟩ else 0)
          = (List.range n).map ((fun k => if h : j + k < 8 then setupByte s.setupSnap ⟨j + k, h⟩ else 0) ∘ Nat.succ) := by
        apply List.map_congr_left
        intro k _
        simp only [Function.comp, show j + 1 + k = j + (k + 1) by omega, Nat.succ_eq_add_one]
      rw [e3]
      rfl
    · intro k hk
      have := hw (k + 1) (by omega)
      rw [show ptr.toNat + (j + 1 + k) = ptr.toNat + (j + (k + 1)) by omega]
      exact this

/-- The four bytes of a count word (R70). -/
def countBytes (n : Nat) : List Byte :=
  [countByte (BitVec.ofNat 32 n) 0, countByte (BitVec.ofNat 32 n) 1, countByte (BitVec.ofNat 32 n) 2, countByte (BitVec.ofNat 32 n) 3]

/-- How many accesses a count word takes. -/
def countGaps (cptr : Word) : Nat := if cptr = 0 then 0 else 4

theorem storeCount_calm {s : State} (h : s.Calm 4) (cptr : Word) (n : Nat)
    (hw : cptr ≠ 0 → ∀ k < 4, cptr.toNat + k < Config.hostTop ∧ hostWritable s (cptr.toNat + k) = true) :
    storeCount cmdAgent cptr n s
      = .ok () (State.skip (countGaps cptr)
        { s with mem := if cptr = 0 then s.mem else putBytes s.mem cptr.toNat (countBytes n) }) := by
  by_cases h0 : cptr = 0
  · simp [storeCount, countGaps, h0, skip_zero]
  · have w := hw h0
    have w0 := w 0 (by omega)
    have w1 := w 1 (by omega)
    have w2 := w 2 (by omega)
    have w3 := w 3 (by omega)
    simp only [storeCount, h0, if_false, countGaps]
    have c : ∀ (j : Nat) (m : List Host.Cell), j + 1 ≤ 4 → State.Calm 1 (State.skip j { s with mem := m }) :=
      fun j m hj => State.Calm.skip (j := j) (by simpa [State.Calm] using h.mono (m := 4) hj)
    refine bind_seq (store_calm (h.mono (by omega)) (by simpa using w0.1) (by simpa using w0.2) _) ?_
    refine bind_seq (store_calm (c 1 _ (by omega)) w1.1 (by simpa [hostWritable] using w1.2) _) ?_
    have e : ∀ (j : Nat) (m m' : List Host.Cell),
        State.skip 1 { State.skip j { s with mem := m } with mem := m' } = State.skip (j + 1) { s with mem := m' } :=
      fun j m m' => skip_skip j 1 { s with mem := m' }
    rw [e]
    refine bind_seq (store_calm (c 2 _ (by omega)) w2.1 (by simpa [hostWritable] using w2.2) _) ?_
    rw [e, store_calm (c 3 _ (by omega)) w3.1 (by simpa [hostWritable] using w3.2) _, e]
    rfl

theorem report_calm {s : State} (h : s.Calm 4) (cptr : Word) (n : Nat)
    (hw : cptr ≠ 0 → ∀ k < 4, cptr.toNat + k < Config.hostTop ∧ hostWritable s (cptr.toNat + k) = true) :
    report cmdAgent cptr n s
      = .ok () (State.skip (countGaps cptr)
        (State.setVal { s with mem := if cptr = 0 then s.mem else putBytes s.mem cptr.toNat (countBytes n) } (BitVec.ofNat 32 n))) :=
  bind_seq (storeCount_calm h cptr n hw) (by rw [upd_run, setVal_skip])

/-! The FIFO flag (R65, R206). -/

theorem beginFifo_free {s : State} {i : Nat} (h : s.busy i = false) : beginFifo i s = .ok () (s.setBusy i true) := by
  simp [beginFifo, h]

theorem beginFifo_busy {s : State} {i : Nat} (h : s.busy i = true) : beginFifo i s = .error (.fault (.fifoConflict i)) s := by
  simp [beginFifo, h]

/-- The flag is raised and lowered again: nothing has changed where it was down. -/
theorem setBusy_setBusy {s : State} {i : Nat} (h : s.busy i = false) : (s.setBusy i true).setBusy i false = s := by
  have : s.fifoBusy.set i false = s.fifoBusy := by
    apply List.ext_getElem?
    intro n
    rw [List.getElem?_set]
    by_cases e : i = n
    · subst e
      cases hk : s.fifoBusy[i]? with
      | none => simp [List.getElem?_eq_none_iff.1 hk]
      | some b =>
        have : b = false := by simpa [State.busy, List.getD_eq_getElem?_getD, hk] using h
        subst this
        have := (List.getElem?_eq_some_iff.1 hk).1
        simp [this]
    · simp [e]
  simp [State.setBusy, List.set_set, this]

theorem inFifo_ok {i : Nat} {body : Prog Unit} {s t : State} (h : s.busy i = false) (hb : body (s.setBusy i true) = .ok () t) :
    inFifo i body s = .ok () (t.setBusy i false) := bind_seq (beginFifo_free h) (bind_seq hb rfl)

theorem inFifo_error {i : Nat} {body : Prog Unit} {s t : State} {e : Stop} (h : s.busy i = false)
    (hb : body (s.setBusy i true) = .error e t) : inFifo i body s = .error e t := bind_seq (beginFifo_free h) (bind_error hb)

theorem inFifo_busy {i : Nat} {body : Prog Unit} {s : State} (h : s.busy i = true) :
    inFifo i body s = .error (.fault (.fifoConflict i)) s := bind_error (beginFifo_busy h)

/-- `n` bytes into a transmit FIFO and the count written: `2 n + 1` accesses (R76, R77). -/
theorem pushSend_calm (f : DatReg) (mps : Half) (ptr : Word) {n : Nat} {s : State} (h : s.Calm (2 * n + 1)) (hn : n ≠ 0)
    (hr : ∀ k < n, ptr.toNat + k < Config.hostTop ∧ hostReadable s (ptr.toNat + k) = true)
    (hc : (txfifo f s).length + n ≤ fifoCapacity mps) {α : Type} (k : Unit → Prog α) :
    (pushBytes cmdAgent f mps ptr n 0 >>= fun _ => sendCount cmdAgent f n >>= k) s
      = k () ((regWrite (txCountReg f) (BitVec.ofNat 32 n) (pushed f (bytesAt s.mem ptr n) s)).skip (2 * n + 1)) := by
  have e : ((List.range n).map fun k => Memory.read s.mem (ptr.toNat + (0 + k))) = bytesAt s.mem ptr n := by
    simp only [Nat.zero_add, bytesAt]
  have hs : State.Calm 1 ((pushed f (bytesAt s.mem ptr n) s).skip (2 * n)) := by
    apply State.Calm.skip (j := 2 * n)
    cases f with
    | cep => exact h
    | ep i => simpa [pushed] using h
  refine bind_seq (pushBytes_calm f mps ptr n 0 s (h.mono (by omega)) (by simpa only [Nat.zero_add] using hr) hc) ?_
  rw [e]
  refine bind_seq (sendCount_calm hs f hn) ?_
  rw [regWrite_skip, skip_skip]

/-! The status stage (R118, R122). -/

theorem ackStatus_calm {s : State} (h : s.Calm 5) :
    ackStatus cmdAgent s
      = .ok () (State.skip 5
        { s with
          ctl.cepctl := s.ctl.cepctl ||| bit s.cfg.bitmap.ctlNakClr
          ctl.cepinten := s.ctl.cepinten ||| bit s.cfg.bitmap.cepStatusDone
          ctrlState := .status }) := by
  refine bind_seq (look_run _ _) (bind_seq (rset_calm (h.mono (by omega)) _ _) ?_)
  rw [rset_cepctl, ctlNakClr_in_mask]
  refine bind_seq (rset_calm (State.Calm.skip (j := 2) (by simpa [State.Calm] using h.mono (m := 5) (k := 4) (by omega))) _ _) ?_
  rw [rset_cepinten]
  have e : ∀ t : State, ({ t.skip 2 with ctl.cepinten := (t.skip 2).ctl.cepinten ||| bit s.cfg.bitmap.cepStatusDone } : State)
      = State.skip 2 { t with ctl.cepinten := t.ctl.cepinten ||| bit s.cfg.bitmap.cepStatusDone } := fun _ => rfl
  rw [e, skip_skip]
  refine (ownUpd_calm (State.Calm.skip (j := 4) (by simpa [State.Calm] using h)) _).trans ?_
  rw [skip_skip]
  rfl

/-! Bytes stored at increasing addresses (R70). -/

/-- A byte outside the stored range reads as before; this needs no canonical form. -/
theorem read_putBytes_other (l : List Byte) : ∀ (m : List Host.Cell) (a b : Nat), b < a ∨ a + l.length ≤ b →
    Memory.read (putBytes m a l) b = Memory.read m b := by
  induction l with
  | nil => intro m a b _; rfl
  | cons x r ih =>
    intro m a b h
    simp only [List.length_cons] at h
    rw [putBytes, ih _ _ _ (by omega), Memory.read_write_other m x (by omega)]

theorem wf_putBytes (l : List Byte) : ∀ (m : List Host.Cell) (a : Nat), Memory.wf m = true → a + l.length ≤ Config.hostTop →
    Memory.wf (putBytes m a l) = true := by
  induction l with
  | nil => intro m a h _; exact h
  | cons x r ih =>
    intro m a h ha
    simp only [List.length_cons] at ha
    exact ih _ _ (Memory.wf_write h x (by omega)) (by omega)

/-- The stored bytes are read back. -/
theorem bytesAt_putBytes (l : List Byte) : ∀ (m : List Host.Cell) (p : Nat), Memory.wf m = true → p + l.length ≤ Config.hostTop →
    ((List.range l.length).map fun j => Memory.read (putBytes m p l) (p + j)) = l := by
  induction l with
  | nil => intro m p _ _; rfl
  | cons x r ih =>
    intro m p h hp
    simp only [List.length_cons] at hp
    rw [List.length_cons, List.range_succ_eq_map, List.map_cons, List.map_map, List.cons.injEq]
    refine ⟨?_, Eq.trans (List.map_congr_left fun j _ => ?_) (ih (Memory.write m p x) (p + 1) (Memory.wf_write h x (by omega)) (by omega))⟩
    · show Memory.read (putBytes (Memory.write m p x) (p + 1) r) (p + 0) = x
      rw [read_putBytes_other _ _ _ _ (by omega)]
      exact Memory.read_write_same h p x
    · show Memory.read (putBytes (Memory.write m p x) (p + 1) r) (p + (j + 1)) = Memory.read (putBytes (Memory.write m p x) (p + 1) r) (p + 1 + j)
      rw [show p + (j + 1) = p + 1 + j by omega]

end Sys2Proof.Machine
end

