-- ==== Sys2Proof/Laws/Undisturbed.lean ====
section
/-! SUPPORT. Undisturbed operations as a whole: the pieces of an event that finish, what a scan leaves of its status word, and the pieces of a
command that raise before they change anything. -/

set_option Elab.async false

namespace Sys2Proof.Machine

/-! Pieces of an undisturbed event that finish. -/

/-- From every undisturbed state the piece ends well, in an undisturbed state related by `P`. -/
def Finishes (P : State → State → Prop) {α : Type} (p : Prog α) : Prop :=
  ∀ s, s.PassAlone → ∃ a t, p s = .ok a t ∧ t.PassAlone ∧ P s t

section Pieces

variable {P : State → State → Prop} {α β : Type}

theorem Finishes.bind (o : Order P) {p : Prog α} {f : α → Prog β} (hp : Finishes P p) (hf : ∀ a, Finishes P (f a)) : Finishes P (p >>= f) := by
  intro s hq
  obtain ⟨a, t, h1, q1, r1⟩ := hp s hq
  obtain ⟨b, u, h2, q2, r2⟩ := hf a t q1
  exact ⟨b, u, by rw [bind_ok h1]; exact h2, q2, o.trans r1 r2⟩

theorem Finishes.upd {f : State → State} (h : ∀ s, s.PassAlone → (f s).PassAlone ∧ P s (f s)) : Finishes P (upd f) :=
  fun s hq => ⟨(), f s, rfl, h s hq⟩
theorem Finishes.look (o : Order P) (f : State → α) : Finishes P (look f) := fun s hq => ⟨f s, s, rfl, hq, o.refl s⟩
theorem Finishes.done (o : Order P) : Finishes P done := fun s hq => ⟨(), s, rfl, hq, o.refl s⟩
theorem Finishes.ite {c : Prop} [Decidable c] {p q : Prog α} (hp : Finishes P p) (hq : Finishes P q) :
    Finishes P (if c then p else q) := by split <;> assumption
theorem Finishes.rd (o : Order P) (r : Reg) : Finishes P (rd isr r) := fun s hq => ⟨_, s, rd_quiet hq.quiet r, hq, o.refl s⟩
theorem Finishes.wr (r : Reg) (v : Word) (h : ∀ s, P s (regWrite r v s)) : Finishes P (wr isr r v) :=
  fun s hq => ⟨(), _, wr_quiet hq.quiet r v, by simpa using hq, h s⟩
theorem Finishes.rset (o : Order P) (r : Reg) (m : Word) (h : ∀ v s, P s (regWrite r v s)) : Finishes P (rset isr r m) :=
  (Finishes.rd o r).bind o fun _ => .wr _ _ (h _)
theorem Finishes.rclr (o : Order P) (r : Reg) (m : Word) (h : ∀ v s, P s (regWrite r v s)) : Finishes P (rclr isr r m) :=
  (Finishes.rd o r).bind o fun _ => .wr _ _ (h _)

theorem Finishes.callback (o : Order P) (hc : ∀ c s, P s { s with calls := c }) (w : Word) (a : Byte) (e : EpNotice) :
    Finishes P (callback w a e) := by
  intro s hq
  unfold Machine.callback
  split
  · exact ⟨(), s, rfl, hq, o.refl s⟩
  · refine ⟨(), { s with calls := s.calls ++ [.endpoint w a e] }, ?_, hq, hc _ s⟩
    simp [hostTurn, hq.2]

theorem Finishes.statusNotify (o : Order P) (hc : ∀ c s, P s { s with calls := c }) (e : BusNotice) : Finishes P (statusNotify e) := by
  intro s hq
  unfold Machine.statusNotify
  split
  · exact ⟨(), s, rfl, hq, o.refl s⟩
  · refine ⟨(), { s with calls := s.calls ++ [.status s.statusCallback e 0] }, ?_, hq, hc _ s⟩
    simp [hostTurn, hq.2]

end Pieces

/-! The scan of a dispatcher (R125, R136). -/

theorem busPosition_busEvent (m : BitMap) (p : Fin 32) : busPosition m (m.busEvent p) = p.val := by
  unfold BitMap.busEvent
  cases h : BusBit.all.find? (fun b => decide (m.busPos b = p)) with
  | none => rfl
  | some b => have := List.find?_some h; simp at this; simp [busPosition, this]

theorem cepPosition_cepEvent (m : BitMap) (p : Fin 32) : cepPosition m (m.cepEvent p) = p.val := by
  unfold BitMap.cepEvent
  cases h : CepBit.all.find? (fun b => decide (m.cepPos b = p)) with
  | none => rfl
  | some b => have := List.find?_some h; simp at this; simp [cepPosition, this]

/-- One position of a scan: the position noted, then the event of the position where the snapshot has its bit. -/
theorem scan_cons (h : Fin 32 → Prog Unit) (p : Fin 32) (r : List (Fin 32)) (s : State) :
    scan h (p :: r) s
      = (if tst s.sSnap p.val then h p >>= fun _ => scan h r else scan h r) { s with scanPos := p.val } := by
  show (upd _ >>= fun _ => look State.sSnap >>= fun w => if tst w p.val then h p >>= fun _ => scan h r
    else Machine.done >>= fun _ => scan h r) s = _
  rw [bind_upd]
  show (if tst s.sSnap p.val then h p >>= fun _ => scan h r else Machine.done >>= fun _ => scan h r) _ = _
  split <;> rfl

/-- A scan whose events each clear their own bit of the word `f`, and otherwise keep `P`: it finishes, and it has cleared the bits of the
snapshot at its positions and no others. -/
theorem scan_finishes {P : State → State → Prop} (o : Order P) (f : State → Word) (h : Fin 32 → Prog Unit) (m : BitMap)
    (hpos : ∀ n s, P s { s with scanPos := n }) (hsn : ∀ s t, P s t → t.sSnap = s.sSnap) (hc : ∀ s t, P s t → t.cfg = s.cfg)
    (hf : ∀ n s, f { s with scanPos := n } = f s)
    (hh : ∀ p s, s.PassAlone → s.cfg.bitmap = m → ∃ t, h p s = .ok () t ∧ t.PassAlone ∧ P s t ∧ f t = f s &&& ~~~bit p.val)
    (l : List (Fin 32)) : ∀ s, s.PassAlone → s.cfg.bitmap = m → ∃ t, scan h l s = .ok () t ∧ t.PassAlone ∧ P s t ∧
      ∀ q < 32, tst (f t) q = (tst (f s) q && !(tst s.sSnap q && l.any fun p => decide (p.val = q))) := by
  induction l with
  | nil => intro s hq _; exact ⟨s, rfl, hq, o.refl s, fun q _ => by simp⟩
  | cons p r ih =>
    intro s hq hm
    rw [scan_cons]
    have q0 : State.PassAlone { s with scanPos := p.val } := hq
    cases hb : tst s.sSnap p.val with
    | true =>
      simp only [if_true]
      obtain ⟨t, h1, q1, r1, e1⟩ := hh p _ q0 hm
      obtain ⟨u, h2, q2, r2, e2⟩ := ih t q1 (by rw [hc _ _ r1]; exact hm)
      refine ⟨u, by rw [bind_ok h1]; exact h2, q2, o.trans (hpos _ s) (o.trans r1 r2), fun q hq => ?_⟩
      rw [e2 q hq, e1, hf, hsn _ _ r1]
      simp only [tst_and, tst_not, hq, decide_true, Bool.true_and, tst_bit, p.isLt, List.any_cons]
      by_cases hpq : p.val = q
      · subst hpq; simp [hb]
      · have : ¬ q = p.val := fun e => hpq e.symm
        simp [hpq, this]
    | false =>
      simp only [Bool.false_eq_true, if_false]
      obtain ⟨u, h2, q2, r2, e2⟩ := ih _ q0 hm
      refine ⟨u, h2, q2, o.trans (hpos _ s) r2, fun q hq => ?_⟩
      rw [e2 q hq, hf]
      simp only [List.any_cons]
      by_cases hpq : p.val = q
      · subst hpq; simp [hb]
      · simp [hpq]

/-- A pass whose global snapshot has no endpoint bit does nothing in its endpoint loop (R134). -/
theorem epLoop_none (m : BitMap) {w : Word} {l : List Nat} (hl : ∀ i ∈ l, tst w (m.gEp i) = false) :
    ∀ s : State, s.gSnap = w → epLoop m l s = .ok () s := by
  induction l with
  | nil => intro s _; rfl
  | cons i r ih =>
    intro s hw
    refine bind_seq (look_run _ _) ?_
    rw [hw, hl i (List.mem_cons_self ..)]
    simp only [Bool.false_eq_true, if_false]
    exact ih (fun j hj => hl j (List.mem_cons_of_mem _ hj)) s hw

/-! Pieces of an undisturbed command that raise, if they raise, before they change anything (R186). -/

/-- If the piece raises in `s`, it has changed nothing. -/
def RaisesFirst (p : Prog Unit) (s : State) : Prop := ∀ e u, p s = .error (.raise e) u → u = s

theorem RaisesFirst.run {R : State → State → Prop} {p : Prog Unit} (h : Run R p) (s : State) : RaisesFirst p s :=
  fun _ _ hp => (h.not_raised hp).elim

theorem RaisesFirst.raise (e : Err) (s : State) : RaisesFirst (raise e) s := fun _ _ h => by cases h; rfl

theorem RaisesFirst.ite {c : Prop} [Decidable c] {p q : Prog Unit} {s : State} (hp : RaisesFirst p s) (hq : RaisesFirst q s) :
    RaisesFirst (if c then p else q) s := by split <;> assumption

theorem RaisesFirst.withEp {a : Byte} {k : Config → Nat → Prog Unit} {s : State} (h : RaisesFirst (k s.cfg (epIdx a)) s) :
    RaisesFirst (withEp a k) s := by
  intro e u hp
  unfold Machine.withEp at hp
  split at hp
  · exact h e u hp
  · cases hp; rfl

/-- A first piece that changes nothing. -/
theorem RaisesFirst.seq {α : Type} {p : Prog α} {f : α → Prog Unit} {s : State} {a : α} (h : p s = .ok a s) (hf : RaisesFirst (f a) s) :
    RaisesFirst (p >>= f) s := by
  intro e u hp
  rw [bind_ok h] at hp
  exact hf e u hp

/-- A first piece that may raise, then one that does not. -/
theorem RaisesFirst.bind {R : State → State → Prop} {p : Prog Unit} {f : Unit → Prog Unit} {s : State} (hp : RaisesFirst p s)
    (hf : Run R (f ())) : RaisesFirst (p >>= f) s := by
  intro e u h
  rw [bind_run] at h
  cases hx : p s with
  | ok a t => rw [hx] at h; exact (hf.not_raised h).elim
  | error e' t => rw [hx] at h; cases h; exact hp _ _ hx

theorem RaisesFirst.xferCheck {a : Byte} {needIn nullPtr : Bool} {s : State} (hq : s.CmdAlone) :
    RaisesFirst (xferCheck cmdAgent a needIn nullPtr) s := by
  refine .withEp (.ite (.raise _ _) (.ite (.raise _ _) (.seq (own_quiet hq.quiet _) (.ite (.raise _ _) ?_))))
  exact .seq (rd_quiet hq.quiet _) (.ite (.run (.done Any.order) _) (.raise _ _))

/-- A sequence that ended well, taken apart. -/
theorem bind_inv {α β : Type} {p : Prog α} {f : α → Prog β} {s t : State} {b : β} (h : (p >>= f) s = .ok b t) :
    ∃ a u, p s = .ok a u ∧ f a u = .ok b t := by
  rw [bind_run] at h
  cases hp : p s with
  | ok a u => rw [hp] at h; exact ⟨a, u, rfl, h⟩
  | error e u => rw [hp] at h; cases h

/-- How a command that went on to a next state ended. -/
theorem run_next {p : Prog Unit} {s t : State} (h : run p s = .next t) :
    (∃ u, p s = .ok () u ∧ t = u.setErr okCode) ∨ ∃ e u, p s = .error (.raise e) u ∧ t = u.setErr e.code := by
  unfold run outcome settle at h
  cases hp : p s with
  | ok a u => simp [hp] at h; exact .inl ⟨u, rfl, h.symm⟩
  | error e u =>
    cases e with
    | raise e => simp [hp] at h; exact .inr ⟨e, u, rfl, h.symm⟩
    | fault => simp [hp] at h
    | refuse => simp [hp] at h

end Sys2Proof.Machine
end

