-- ==== Sys2Proof/Tests/Slice0.lean ====
section
/-! SUPPORT. Small tests. Every expected result is the spec's: a worked vector of 95_test_vectors.md (section and line named), or an encoding of
30_encoding.md written out. -/

set_option Elab.async false

namespace Sys2Proof.Tests

open Sys2Proof.Machine

/-! Helpers. -/

/-- A command-port tuple (x[0], ..., x[5]). -/
def port (x0 x1 x2 x3 x4 x5 : Nat) : Operands :=
  { op := BitVec.ofNat 32 x0, ep := BitVec.ofNat 32 x1, ptr := BitVec.ofNat 32 x2, len := BitVec.ofNat 32 x3,
    cntptr := BitVec.ofNat 32 x4, aux := BitVec.ofNat 32 x5 }

/-- A view of the state after an operation, if it goes on. -/
def after {α : Type} (i : Instr) (s : State) (view : State → α) : Option α := (nextOf (exec i s)).map view

/-- A check of the state after an operation, which must go on. -/
def holds (i : Instr) (s : State) (p : State → Bool) : Bool := ((nextOf (exec i s)).map p).getD false

/-- A check of the state after a step. -/
def stepHolds (s : State) (p : State → Bool) : Bool := ((nextOf (step s)).map p).getD false

/-- A view of the state after a step. -/
def stepped {α : Type} (s : State) (view : State → α) : Option α := (nextOf (step s)).map view

/-- "Control ready" (95_test_vectors.md section 0). -/
def ready : State :=
  { State.reset with
    irqConnected := true
    epTable := State.reset.epTable.set 0 { mps := 64, ramBase := 0, xferType := .control, callbackIn := 0x11, callbackOut := 0x10 }
    ctl.ginten := 0x2
    hostRanges := [{ base := 0x2000, size := 0x4000, readable := true, writable := true }] }

/-- "Control ready" with endpoints 1 and 2 configured and enabled, with the callbacks of section 2.7. -/
def readyEps : State :=
  { ready with
    epTable := (ready.epTable.set 1 { mps := 64, ramBase := 0, xferType := .bulk, callbackIn := 0x31, callbackOut := 0 }).set 2
      { mps := 512, ramBase := 64, xferType := .bulk, callbackIn := 0, callbackOut := 0x32 }
    ctl.ginten := 0xF }

/-- The SETUP snapshot of the worked example 1.1. -/
def snapExample : Quad Half := ⟨0x0102, 0x0304, 0x0506, 0x0708⟩

/-! Well-formedness: one ill-formed term for each check. -/

theorem smoke_reserved_opcode : Instr.wellFormed Config.default (.reservedOpcode 0x13) = false := by decide
theorem smoke_gint_ep_zero : Instr.wellFormed Config.default (.gintEp 0) = false := by decide
theorem smoke_gint_ep_past : Instr.wellFormed Config.default (.gintEp 13) = false := by decide
theorem smoke_bus_named : Instr.wellFormed Config.default (.busUnrecognised 5) = false := by decide
theorem smoke_cep_named : Instr.wellFormed Config.default (.cepUnrecognised 12) = false := by decide
theorem smoke_ep_in_even : Instr.wellFormed Config.default (.epIn 2 1) = false := by decide
theorem smoke_ep_in_no_bits : Instr.wellFormed Config.default (.epIn 1 0) = false := by decide
theorem smoke_ep_in_past : Instr.wellFormed Config.default (.epIn 13 1) = false := by decide
theorem smoke_ep_out_odd : Instr.wellFormed Config.default (.epOut 1 1) = false := by decide
theorem smoke_ep_out_no_bits : Instr.wellFormed Config.default (.epOut 2 0) = false := by decide
theorem smoke_ep_out_zero : Instr.wellFormed Config.default (.epOut 0 1) = false := by decide
theorem smoke_alloc_zero : Instr.wellFormed Config.default (.alloc 0) = false := by decide
theorem smoke_alloc_large : Instr.wellFormed Config.default (.alloc 1025) = false := by decide
theorem smoke_config_n_ep_zero : Config.wf { Config.default with nEp := 0 } = false := by decide +kernel
theorem smoke_config_n_ep_large : Config.wf { Config.default with nEp := 31 } = false := by decide +kernel
theorem smoke_config_ram_size : Config.wf { Config.default with ramSize := 4294966272 } = false := by decide +kernel
theorem smoke_config_bitmap : Config.wf { Config.default with bitmap.busResume := 0 } = false := by decide +kernel
/-- `Ep[12]` without a position, `Ep[2]` on `Cep`, a `Mode` of one bit, `EpNum` on `Type`, two types of one number, a type numbered as `Control`. -/
theorem smoke_config_fields :
    [{ BitMap.default with gEps := [2, 3, 4, 5, 6, 7, 8, 9, 10, 11, 12] },
      { BitMap.default with gEps := [2, 1, 4, 5, 6, 7, 8, 9, 10, 11, 12, 13] },
      { BitMap.default with rspMode := [1] }, { BitMap.default with cfgEpNum := [1, 4, 5, 6, 7, 8, 9, 10] },
      { BitMap.default with enums.typeBulk := 2 }, { BitMap.default with enums.typeIsochronous := 0 }].map (fun m => m.wf 13)
      = [false, false, false, false, false, false] := by decide +kernel
theorem smoke_config_reg_offset :
    Config.wf { Config.default with regOffset := [(.word .oper, 4), (.word .phyctl, 4)] } = false := by decide +kernel
theorem smoke_config_rx_arm : Config.wf { Config.default with epRxArm := 0 } = false := by decide +kernel

/-! Decoding: every constructor's word written out from R87 to R95 (and the encodings of sections 1 and 2 of the vectors). -/

theorem test_decode_device_commands :
    [decodeCmd Config.default (port 0x01 0 0 0 0 0), decodeCmd Config.default (port 0x02 0 0 0 0 0), decodeCmd Config.default (port 0x03 0 0 0 0 0),
      decodeCmd Config.default (port 0x04 0 0 0 0 0x185), decodeCmd Config.default (port 0x05 0 0 0 0 0x21)]
      = [.attach, .detach, .reset, .setAddress 0x05, .setStatusCallback 0x21] := by decide

theorem test_decode_cap_commands :
    [decodeCmd Config.default (port 0x06 0x81 0 0 0 0x10040), decodeCmd Config.default (port 0x06 0x181 0 0 0 0xFFFD0040),
      decodeCmd Config.default (port 0x07 0x83 0 0 0 0x30400), decodeCmd Config.default (port 0x07 0x00 0 0 0 0x00040)]
      = [.epCheckCap 0x81 64 .bulk, .epCheckCap 0x81 64 .bulk, .epConfigure 0x83 1024 .isochronous,
          .epConfigure 0x00 64 .control] := by decide

theorem test_decode_endpoint_commands :
    [decodeCmd Config.default (port 0x08 0x80 0 0 0 0), decodeCmd Config.default (port 0x09 0x00 0 0 0 0), decodeCmd Config.default (port 0x0A 0x02 0 0 0 0),
      decodeCmd Config.default (port 0x0B 0x02 0 0 0 0), decodeCmd Config.default (port 0x0C 0x80 0 0 0 0), decodeCmd Config.default (port 0x0D 0x02 0 0 0 0),
      decodeCmd Config.default (port 0x11 0x02 0 0 0 0), decodeCmd Config.default (port 0x12 0x80 0 0 0 0x11), decodeCmd Config.default (port 0x13 0x8D 0 0 0 0)]
      = [.epSetStall 0x80, .epClearStall 0x00, .epIsStalled 0x02, .epEnable 0x02, .epDisable 0x80, .epFlush 0x02,
          .epReadContinue 0x02, .epSetCallback 0x80 0x11, .epMps 0x8D] := by decide

theorem test_decode_transfer_commands :
    [decodeCmd Config.default (port 0x0E 0x80 0x4000 150 0x3000 0), decodeCmd Config.default (port 0x0F 0x00 0x2000 8 0 0),
      decodeCmd Config.default (port 0x10 0x00 0x2100 4 0x3000 0)]
      = [.epWrite 0x80 0x4000 150 0x3000, .epRead 0x00 0x2000 8 0, .epReadWait 0x00 0x2100 4 0x3000] := by decide

/-- R104: READ_PEEK and STATUS_ZLP are words of EP_READ_WAIT and EP_WRITE. -/
theorem test_decode_aliases :
    [decodeCmd Config.default (port 0x10 0x00 0 0 0x3000 0), decodeCmd Config.default (port 0x0E 0x80 0 0 0 0)]
      = [Instr.canonical (.readPeek 0x00 0x3000), Instr.canonical .statusZlp] := by decide

/-- 2.7: `x[0] = 0x00, 0x14, 0xFF, 0x101, 0x80000003` are reserved. -/
theorem test_decode_reserved :
    [decodeCmd Config.default (port 0x00 0 0 0 0 0), decodeCmd Config.default (port 0x14 0 0 0 0 0), decodeCmd Config.default (port 0xFF 0 0 0 0 0),
      decodeCmd Config.default (port 0x101 0 0 0 0 0), decodeCmd Config.default (port 0x80000003 0 0 0 0 0)]
      = [.reservedOpcode 0x00, .reservedOpcode 0x14, .reservedOpcode 0xFF, .reservedOpcode 0x101,
          .reservedOpcode 0x80000003] := by decide

/-- R92: `Bus 0x1`, `Cep 0x2`, `Ep[1] 0x4`, `Ep[12] 0x2000`; bit 14 is unnamed. -/
theorem test_decode_global_word :
    [decode Config.default .gint [0x1], decode Config.default .gint [0x2], decode Config.default .gint [0x4],
      decode Config.default .gint [0x2000]].map Except.toOption = [some .gintBus, some .gintCep, some (.gintEp 1), some (.gintEp 12)]
      ∧ (decode Config.default .gint [0x4000]).toOption = none := by decide +kernel

/-- R93: bits 0 to 5; bit 6 is unrecognised. -/
theorem test_decode_bus_word :
    ([0x1, 0x2, 0x4, 0x8, 0x10, 0x20, 0x40].map fun w => (decode Config.default .busint [w]).toOption)
      = [some .busReset, some .busResume, some .busSuspend, some .busHighSpeed, some .busDmaDone, some .busVbus,
          some (.busUnrecognised 6)] := by decide +kernel

/-- R94: bits 0 to 12; bit 15 is unrecognised. -/
theorem test_decode_cep_word :
    ([0x1, 0x2, 0x4, 0x8, 0x10, 0x20, 0x40, 0x80, 0x100, 0x200, 0x400, 0x800, 0x1000, 0x8000].map fun w =>
        (decode Config.default .cepint [w]).toOption)
      = [some .cepSetupToken, some .cepSetupPkt, some .cepOutToken, some .cepInToken, some .cepPing, some .cepTxComplete,
          some .cepRxComplete, some .cepNakSent, some .cepStallSent, some .cepError, some .cepStatusDone, some .cepBufFull,
          some .cepBufEmpty, some (.cepUnrecognised 15)] := by decide +kernel

/-- R95, R148: any set bit of the masked word, direction by parity; an all-zero word is no event. -/
theorem test_decode_endpoint_word :
    [decode Config.default (.epint 1) [0x4], decode Config.default (.epint 2) [0x3]].map Except.toOption
        = [some (.epIn 1 0x4), some (.epOut 2 0x3)]
      ∧ (decode Config.default (.epint 2) [0]).toOption = none := by decide +kernel

/-- Words of the wrong number are rejected by name. -/
theorem test_decode_lengths :
    (match decode Config.default .cmd [1] with | .error e => some e | .ok _ => none) = some (.portWords 1)
      ∧ (match decode Config.default .gint [] with | .error e => some e | .ok _ => none) = some (.statusWords 0) := by decide

/-- 0x30000: `mps | type << 16` (section 0). -/
theorem test_encode_cap_word :
    encode Config.default (.epConfigure 0x83 1024 .isochronous) = some (.cmd, [0x07, 0x83, 0, 0, 0, 0x30400]) := by decide

/-- R11, R97, R98, R100, U22: a `BITMAP` with the bits `Ep[i]` and the fields scattered, and other numbers. -/
def scattered : Config :=
  { Config.default with
    bitmap := { BitMap.default with
      gEps := [31, 5, 9, 2, 3, 4, 6, 7, 8, 10, 11, 12]
      rspMode := [20, 7]
      cfgType := [30, 12]
      cfgEpNum := [9, 1, 25, 3, 4, 5, 6, 7]
      enums := { EnumMap.default with typeBulk := 3, typeIsochronous := 1, modeFly := 3 } } }

/-- An operand's type, the global word of `Ep[2]`, and the words EP_CONFIGURE assigns for an isochronous endpoint 5 (`Type = 1`, `EpNum = 5`). -/
theorem test_scattered_bitmap :
    scattered.wf = true ∧ encode scattered (.gintEp 2) = some (.gint, [0x20])
      ∧ eventsOf scattered .gint 0x80000020 = [.gintEp 1, .gintEp 2]
      ∧ decodeCmd scattered (port 0x07 0x81 0 0 0 0x30040) = .epConfigure 0x81 64 .bulk
      ∧ rspctlValue scattered.bitmap .isochronous = 0x100080 ∧ rspctlValue scattered.bitmap .bulk = 0x100000
      ∧ epcfgValue scattered.bitmap .isochronous true 5 = 0x42000204 := by decide +kernel

/-- R100: the default numbers. -/
theorem test_default_numbers :
    [Lce.none, .setup, .dataOut, .dataIn].map (Lce.code EnumMap.default) = [0, 1, 2, 3]
      ∧ [CtrlState.idle, .setup, .dataOut, .dataIn, .status].map (CtrlState.code EnumMap.default) = [0, 1, 2, 3, 4]
      ∧ [EpNotice.setup, .dataOut, .dataIn].map (EpNotice.code EnumMap.default) = [1, 2, 3]
      ∧ [BusNotice.reset, .suspend, .resume].map (BusNotice.code EnumMap.default) = [1, 2, 3]
      ∧ [XferType.control, .bulk, .interrupt, .isochronous].map (XferType.toBits EnumMap.default) = [0, 1, 2, 3] := by decide

/-- R93, R94, R125, R136: under the default positions both scans go from bit 0 to bit 31. -/
theorem test_default_scans : BitMap.default.busOrder = List.finRange 32 ∧ BitMap.default.cepOrder = List.finRange 32 := by decide +kernel

/-! Commands. -/

/-- 2.6 other commands, line 1. -/
theorem test_attach_ready :
    holds .attach { State.reset with ctl.phyctl := 0x4 } (fun t =>
        decide (t.port.err = 0) && decide (t.ctl.phyctl = 0x7) && decide (t.ctl.businten = 0x33)
          && decide (t.ctl.ginten = 0x1) && decide (t.ctl.devaddr = 0) && decide (t.ctl.oper = 0x1)
          && decide (t.irqConnected = true)) = true := by decide +kernel

/-- Line 2: `t0` is 1000, the polls read 1000, 1030, 1050, 1051; Timeout at the last. Two accesses a poll, after three before the loop. -/
theorem test_attach_timeout :
    holds .attach
      { State.reset with
        now := 1000
        taskGaps := [[], [], [], [], [], [], [.env (.tick 30)], [], [.env (.tick 20)], [], [.env (.tick 1)]] }
      (fun t =>
        decide (t.port.err = 6) && decide (t.ctl.phyctl = 0x1) && decide (t.ctl.businten = 0)
          && decide (t.ctl.ginten = 0) && decide (t.ctl.oper = 0) && decide (t.irqConnected = false)
          && decide (t.now = 1051)) = true := by decide +kernel

/-- Line 3: readiness is tested first, so a PHY that is ready wins against a budget that has run out. -/
theorem test_attach_ready_late :
    after .attach
      { State.reset with
        now := 1000
        taskGaps := [[], [], [], [], [.env (.tick 50)], [.env (.tick 40), .env (.sie .phyReady)]] }
      (fun t => (t.port.err, t.irqConnected, t.now)) = some (0, true, 1090) := by decide +kernel

/-- Line 4. -/
theorem test_detach :
    holds .detach { State.reset with irqConnected := true, ctl.phyctl := 0x7, ctl.businten := 0x33, ctl.ginten := 0x1 }
      (fun t =>
        decide (t.port.err = 0) && decide (t.irqConnected = false) && decide (t.ctl.phyctl = 0x4)
          && decide (t.ctl.businten = 0x33) && decide (t.ctl.ginten = 0x1)) = true := by decide +kernel

/-- 1.6: callbacks, table, cursor and sequencer are zeroed, registers are not. -/
theorem test_reset :
    holds .reset
      { readyEps with ramOffset := 576, lce := .dataIn, ctrlState := .status, statusCallback := 0x21, setupSnap := snapExample }
      (fun t =>
        decide (t.ramOffset = 0) && decide (t.lce = .none) && decide (t.ctrlState = .idle)
          && decide (t.statusCallback = 0) && decide (t.setupSnap = ⟨0, 0, 0, 0⟩) && decide (t.desc 0 = EpDesc.zero)
          && decide (t.desc 1 = EpDesc.zero) && decide (t.ctl.ginten = 0xF)) = true := by decide +kernel

/-- Lines 5 and 6. -/
theorem test_set_address :
    [0x185, 0x7F, 0x80].map (fun x => after (decodeCmd Config.default (port 0x04 0 0 0 0 x)) ready fun t => t.ctl.devaddr)
      = [some 0x05, some 0x7F, some 0x00] := by decide +kernel

/-- Line 7. -/
theorem test_set_status_callback :
    after (.setStatusCallback 0x21) ready (fun t => (t.statusCallback, t.port.err)) = some (0x21, 0) := by decide

/-- 2.6, the EP_CHECK_CAP table, all sixteen lines. -/
theorem test_check_cap :
    ([(0x00, 0x00040), (0x80, 0x00040), (0x00, 0x00041), (0x00, 0x00001), (0x00, 0x10040), (0x81, 0x00040), (0x81, 0x10400),
        (0x81, 0x10401), (0x81, 0x10000), (0x01, 0x10040), (0x82, 0x10040), (0x02, 0x20001), (0x0C, 0x30008), (0x0D, 0x30008),
        (0x7F, 0x10040), (0x181, 0xFFFD0040)].map fun p =>
        after (decodeCmd Config.default (port 0x06 p.1 0 0 0 p.2)) State.reset fun t => t.port.err)
      = [0, 0, 1, 0, 1, 1, 0, 1, 1, 1, 1, 0, 0, 1, 1, 0].map fun n => some (BitVec.ofNat 32 n) := by decide +kernel

/-- 2.6, EP_CONFIGURE, fourth line: isochronous at cursor 136. -/
theorem test_configure :
    holds (.epConfigure 0x04 1024 .isochronous) { State.reset with ramOffset := 136 }
      (fun t =>
        decide ((t.ep 4).epbufstart = 136) && decide ((t.ep 4).epbufend = 1159) && decide ((t.ep 4).epmps = 1024)
          && decide ((t.ep 4).eprspctl = 0x4) && decide ((t.ep 4).epcfg = 0x23)
          && decide (t.desc 4 = { mps := 1024, ramBase := 136, xferType := .isochronous, callbackIn := 0, callbackOut := 0 })
          && decide (t.ramOffset = 1160) && decide (t.port.err = 0)) = true := by
  decide +kernel

/-- 2.6, EP_CONFIGURE, the last two lines, and 1.7: out of space, whole-register write, busy. -/
theorem test_configure_errors :
    after (.epConfigure 0x85 1024 .bulk) { State.reset with ramOffset := 3073 } (fun t => (t.port.err, t.ramOffset))
        = some (5, 3073)
      ∧ after (.epConfigure 0x81 64 .bulk) { readyEps with ramOffset := 512 } (fun t => (t.port.err, t.ramOffset, t.desc 1))
        = some (2, 512, readyEps.desc 1)
      ∧ after (.epConfigure 0x81 0 .bulk) readyEps (fun t => t.port.err) = some 1 := by decide +kernel

/-- 1.8 and line 18. -/
theorem test_stall :
    after (.epSetStall 0x80) ready (fun t => (t.port.err, t.ctl.cepctl)) = some (0, 0x2)
      ∧ after (.epSetStall 0x02) (ready.setEp 2 fun e => { e with eprspctl := 0x2 }) (fun t => (t.ep 2).eprspctl) = some 0xA
      ∧ after (.epClearStall 0x02) (ready.setEp 2 fun e => { e with eprspctl := 0xA }) (fun t => (t.ep 2).eprspctl) = some 0x2
      ∧ after (.epClearStall 0x00) { ready with ctl.cepctl := 0x2 } (fun t => t.ctl.cepctl) = some 0 := by decide +kernel

/-- 1.8 and line 17. -/
theorem test_is_stalled :
    after (.epIsStalled 0x02) (ready.setEp 2 fun e => { e with eprspctl := 0xA }) (fun t => (t.port.err, t.port.val)) = some (0, 1)
      ∧ after (.epIsStalled 0x00) ready (fun t => (t.port.err, t.port.val)) = some (0, 0)
      ∧ after (.epIsStalled 0x8D) { ready with port.val := 7 } (fun t => (t.port.err, t.port.val)) = some (1, 7) := by
  decide +kernel

/-- Lines 8 to 10. -/
theorem test_enable :
    after (.epEnable 0x02) { State.reset with ctl.ginten := 0x1 } (fun t => (t.ctl.ginten, (t.ep 2).epinten)) = some (0x9, 0x3)
      ∧ after (.epEnable 0x81) { State.reset with ctl.ginten := 0x1 } (fun t => (t.ctl.ginten, (t.ep 1).epinten)) = some (0x5, 0)
      ∧ after (.epEnable 0x00) { State.reset with ctl.ginten := 0x1 } (fun t => (t.ctl.ginten, t.ctl.cepinten)) = some (0x3, 0) := by
  decide +kernel

/-- Lines 11 and 12. -/
theorem test_disable :
    after (.epDisable 0x02) (readyEps.setEp 2 fun e => { e with epinten := 0x3, epintsts := 0x5, epdatcnt := 9 })
        (fun t => (t.ctl.ginten, (t.ep 2).epinten, (t.ep 2).epintsts, (t.ep 2).epdatcnt)) = some (0x7, 0, 0, 9)
      ∧ holds (.epDisable 0x80)
          { ready with ctl.ginten := 0x3, ctl.cepinten := 0x40E, ctl.cepintsts := 0x21, ctrlState := .status, lce := .dataIn }
          (fun t =>
        decide (t.ctl.ginten = 0x1) && decide (t.ctl.cepinten = 0) && decide (t.ctl.cepintsts = 0)
          && decide (t.ctrlState = .status) && decide (t.lce = .dataIn)) = true := by
  decide +kernel

/-- Line 13. -/
theorem test_flush :
    after (.epFlush 0x02) (ready.setEp 2 fun e => { e with eprspctl := 0x2 }) (fun t => (t.ep 2).eprspctl) = some 0x3
      ∧ after (.epFlush 0x80) ready (fun t => t.ctl.cepctl) = some 0x4 := by decide +kernel

/-- Lines 14 and 15. -/
theorem test_set_callback :
    after (.epSetCallback 0x80 0x77) ready (fun t => ((t.desc 0).callbackIn, (t.desc 0).callbackOut)) = some (0x77, 0x10)
      ∧ after (.epSetCallback 0x01 0x31) ready (fun t => (t.port.err, (t.desc 1).callbackIn, (t.desc 1).callbackOut))
        = some (1, 0, 0) := by decide +kernel

/-- Line 16. -/
theorem test_mps :
    [0x81, 0x01, 0x83, 0x8D].map (fun a => after (.epMps (BitVec.ofNat 8 a)) (ready.setDesc 1 fun d => { d with mps := 512 })
        fun t => t.port.val) = [some 512, some 512, some 0, some 0] := by decide +kernel

/-- 2.3 line 1, with three bytes: pushed, sent, StatusDone armed, `Status`; the count word least significant byte first. -/
theorem test_write_control :
    holds (.epWrite 0x80 0x4000 3 0x3000)
      { ready with
        ctrlState := .setup, lce := .setup, ctl.cepinten := 0x40E
        mem := [(0x4000, 1), (0x4001, 2), (0x4002, 3)]
        taskGaps := List.replicate 10 [] ++ [[.env (.sie .txDoneCep)]] }
      (fun t =>
        decide (t.port.err = 0) && decide (t.port.val = 3)
          && decide (t.sent = [{ source := .cep, bytes := [1, 2, 3] }]) && decide (t.ctl.ceptxcnt = 3)
          && decide (t.ctl.cepintsts = 0) && decide (t.ctrlState = .status) && decide (Memory.read t.mem 0x3000 = 3)) = true := by decide +kernel

/-- 2.3 lines 4, 8, 9, 12, 13, 14 and 16. -/
theorem test_write_cases :
    after (.epWrite 0x80 0 0 0) ready (fun t => (t.port.err, t.ctl.cepctl, t.ctl.cepinten, t.ctrlState)) = some (0, 0x1, 0x400, .status)
      ∧ after (.epWrite 0x80 0 5 0) ready (fun t => t.port.err) = some 1
      ∧ after (.epWrite 0x02 0x4000 5 0) readyEps (fun t => t.port.err) = some 1
      ∧ after (.epWrite 0x81 0x4000 5 0) ready (fun t => t.port.err) = some 3
      ∧ after (.epWrite 0x81 0x4000 5 0) { readyEps with ctl.ginten := 0x2 } (fun t => t.port.err) = some 4
      ∧ after (.epWrite 0x80 0x4000 5 0) { ready with ctl.ginten := 0 } (fun t => t.port.err) = some 4
      ∧ (match exec (.epWrite 0x80 0x4000 1 0) ready with | .fault f => some f | _ => none) = some .holdNeverEnds := by
  decide +kernel

/-- 2.3 lines 17 and 19, with 2 bytes for 64. -/
theorem test_write_endpoint :
    holds (.epWrite 0x81 0x4000 2 0) { readyEps with mem := [(0x4000, 7), (0x4001, 8)] }
        (fun t =>
        decide (t.port.val = 2) && decide ((t.ep 1).txfifo = [7, 8]) && decide ((t.ep 1).epdatcnt = 2)
          && decide ((t.ep 1).txPending = true) && decide ((t.ep 1).epinten = 0x4)) = true
      ∧ (match exec (.epWrite 0x81 0x4000 2 0) (readyEps.setEp 1 fun e => { e with txPending := true }) with
          | .refused r => some r
          | _ => none) = some (.txPending 1) := by decide +kernel

/-- 2.4 lines 1 and 5. -/
theorem test_read_wait :
    after (.epReadWait 0x00 0x2000 3 0) { ready with lce := .setup, setupSnap := snapExample }
        (fun t => (t.port.val, t.mem, t.lce)) = some (3, [(0x2000, 2), (0x2001, 1), (0x2002, 4)], .setup)
      ∧ after (.epReadWait 0x00 0x2100 2 0x3000)
          { ready with lce := .dataOut, ctrlState := .dataOut, ctl.cepRxfifo := [0xA0, 0xA1, 0xA2], ctl.cepdatcnt := 3 }
          (fun t => (t.port.val, t.mem, t.ctl.cepRxfifo, t.ctl.cepdatcnt))
          = some (2, [(0x2100, 0xA0), (0x2101, 0xA1), (0x3000, 2)], [0xA2], 1) := by decide +kernel

/-- 1.3: a peek in the state of the second line. -/
theorem test_read_peek :
    holds (.readPeek 0x00 0x3000)
      { ready with lce := .dataOut, ctrlState := .dataOut, ctl.cepRxfifo := [1, 2], ctl.cepdatcnt := 2 }
      (fun t =>
        decide (t.port.err = 0) && decide (t.port.val = 2) && decide (t.mem = [(0x3000, 2)])
          && decide (t.ctl.cepRxfifo = [1, 2]) && decide (t.ctl.cepdatcnt = 2)) = true := by
  decide +kernel

/-- 2.4 lines 2, 7 and 3. -/
theorem test_read :
    after (.epRead 0x00 0x2000 8 0) { ready with lce := .setup, ctrlState := .setup, setupSnap := snapExample }
        (fun t => (t.port.val, t.mem.map Prod.snd, t.ctl.cepinten, t.ctrlState))
        = some (8, [2, 1, 4, 3, 6, 5, 8, 7], 0x4, .setup)
      ∧ holds (.epRead 0x00 0x2104 64 0) { ready with lce := .dataOut, ctl.cepRxfifo := [0xA4], ctl.cepdatcnt := 1 }
          (fun t =>
        decide (t.port.val = 1) && decide (t.ctl.cepdatcnt = 0) && decide (t.ctl.cepctl = 0x1)
          && decide (t.ctl.cepinten = 0x400) && decide (t.ctrlState = .status)) = true
      ∧ after (.epRead 0x00 0x2000 0 0) { ready with lce := .setup } (fun t => (t.port.val, t.ctl.cepinten)) = some (0, 0x4) := by
  decide +kernel

/-- 2.4 lines 6, 9 and 15. -/
theorem test_read_continue :
    after (.epReadContinue 0x00) { ready with lce := .dataOut, ctl.cepdatcnt := 6 } (fun t => (t.ctl.cepinten, t.ctl.cepctl))
        = some (0x4, 0)
      ∧ after (.epReadContinue 0x00) { ready with ctl.cepinten := 0x2 } (fun t => (t.ctl.cepctl, t.ctl.cepinten, t.ctrlState, t.lce))
        = some (0x1, 0x402, .status, .none)
      ∧ after (.epReadContinue 0x02) ready (fun t => t.port.err) = some 3 := by decide +kernel

theorem test_status_zlp :
    after .statusZlp ready (fun t => (t.port.err, t.port.val, t.ctl.cepctl, t.ctrlState)) = some (0, 0, 0x1, .status) := by
  decide +kernel

/-- 2.7: "`-> 1, -` and no other change". -/
theorem test_reserved_opcode :
    nextOf (exec (.reservedOpcode 0x14) ready) = some { ready with port.err := 1 } := by decide +kernel

/-- 2.1, lines 2 and 4. -/
theorem test_alloc :
    after (.alloc 64) { State.reset with ramOffset := 4032 } (fun t => (t.allocRet, t.ramOffset)) = some (4032, 4096)
      ∧ after (.alloc 64) { State.reset with ramOffset := 4033 } (fun t => (t.port.err, t.ramOffset)) = some (5, 4033) := by
  decide +kernel

/-! Events. -/

/-- 2.2 line 1. -/
theorem test_setup_pkt :
    holds .cepSetupPkt
      { ready with ctl.cepinten := 0x2, ctl.cepintsts := 0x2, ctl.cepsetup := ⟨0x0680, 0x0100, 0, 0x0040⟩ }
      (fun t =>
        decide (t.setupSnap = ⟨0x0680, 0x0100, 0, 0x0040⟩) && decide (t.lce = .setup) && decide (t.ctrlState = .setup)
          && decide (t.ctl.cepinten = 0x40E) && decide (t.ctl.cepintsts = 0)
          && decide (t.calls = [.endpoint 0x10 0x00 .setup])) = true := by decide +kernel

/-- 2.2 lines 6 and 7. -/
theorem test_out_token :
    after .cepOutToken { ready with ctrlState := .status, lce := .dataIn, ctl.cepintsts := 0x4 }
        (fun t => (t.lce, t.ctrlState, t.ctl.cepintsts, t.calls)) = some (.dataOut, .dataOut, 0, [.endpoint 0x10 0x00 .dataOut])
      ∧ nextOf (exec .cepOutToken { ready with ctl.cepintsts := 0x4 }) = some ready := by decide +kernel

/-- 2.2 line 10. -/
theorem test_in_token :
    after .cepInToken { ready with ctl.cepintsts := 0x8 } (fun t => (t.lce, t.ctrlState, t.calls))
      = some (.dataIn, .dataIn, [.endpoint 0x11 0x80 .dataIn]) := by decide +kernel

/-- 2.2 line 13. -/
theorem test_status_done :
    holds .cepStatusDone
      { ready with ctrlState := .dataOut, lce := .dataOut, ctl.cepinten := 0x40E, ctl.cepintsts := 0x400, ctl.cepdatcnt := 3 }
      (fun t =>
        decide (t.lce = .none) && decide (t.ctrlState = .idle) && decide (t.ctl.cepinten = 0x2)
          && decide (t.ctl.cepdatcnt = 3) && decide (t.calls = [])) = true := by
  decide +kernel

/-- R137 to R146: cleared, nothing else. -/
theorem test_inert :
    ([(.cepSetupToken, 0x1), (.cepPing, 0x10), (.cepTxComplete, 0x20), (.cepRxComplete, 0x40), (.cepNakSent, 0x80),
        (.cepStallSent, 0x100), (.cepError, 0x200), (.cepBufFull, 0x800), (.cepBufEmpty, 0x1000), (.cepUnrecognised 15, 0x8000)].all
        fun p => decide (nextOf (exec p.1 { ready with ctl.cepintsts := p.2 }) = some ready)) = true := by decide +kernel

/-- 2.5 line 1: endpoints 1 to 12 flushed, the status callback before the clear. -/
theorem test_bus_reset :
    holds .busReset
      { ready with
        statusCallback := 0x21, ctl.devaddr := 5, ctl.busintsts := 0x1, ctl.cepintsts := 0x81
        eps := ready.eps.map fun e => { e with eprspctl := 0x2 } }
      (fun t =>
        decide (t.ctl.busintsts = 0) && decide (t.ctl.devaddr = 0) && decide (t.ctl.dmactl = 0x1)
          && decide (t.eps.map EpRegs.eprspctl = List.replicate 12 0x3) && decide (t.ctl.cepintsts = 0)
          && decide (t.calls = [.status 0x21 .reset 0])) = true := by decide +kernel

/-- 2.5 lines 2, 3 and 8. -/
theorem test_bus_resume_suspend :
    after .busResume { ready with statusCallback := 0x21, ctl.businten := 0x33 } (fun t => (t.ctl.businten, t.calls))
        = some (0x5, [.status 0x21 .resume 0])
      ∧ after .busSuspend { ready with statusCallback := 0x21, ctl.businten := 0x5 } (fun t => (t.ctl.businten, t.calls))
        = some (0x3, [.status 0x21 .suspend 0])
      ∧ after .busResume { ready with cfg.busEnExtra := 0x8 } (fun t => t.ctl.businten) = some 0xD := by decide +kernel

/-- 2.5 lines 6, 9, 11, 12 and 13. -/
theorem test_bus_others :
    after .busHighSpeed ready (fun t => t.ctl.cepinten) = some 0x2
      ∧ nextOf (exec .busDmaDone { ready with ctl.busintsts := 0x10, ctl.dmactl := 0x3 }) = some { ready with ctl.dmactl := 0x3 }
      ∧ after .busVbus { ready with ctl.phyctl := 0xC } (fun t => t.ctl.phyctl) = some 0xF
      ∧ after .busVbus { ready with ctl.phyctl := 0x7 } (fun t => t.ctl.phyctl) = some 0x5
      ∧ nextOf (exec (.busUnrecognised 6) { ready with ctl.busintsts := 0x40 }) = some ready := by decide +kernel

/-- 2.7 lines 5 and 4, as the events they are. -/
theorem test_endpoint_events :
    after (.epIn 1 0x4) (readyEps.setEp 1 fun e => { e with epintsts := 0x4, epinten := 0x4 })
        (fun t => ((t.ep 1).epintsts, (t.ep 1).epinten, t.calls)) = some (0, 0, [.endpoint 0x31 0x81 .dataIn])
      ∧ after (.gintEp 2) (readyEps.setEp 2 fun e => { e with epintsts := 0x5, epinten := 0x3 })
        (fun t => ((t.ep 2).epintsts, (t.ep 2).epinten, t.calls)) = some (0x4, 0x3, [.endpoint 0x32 0x02 .dataOut]) := by
  decide +kernel

/-! Passes and what comes between accesses. -/

/-- 2.7 line 2: thirteen bits in one snapshot; the callbacks in order. -/
theorem test_cep_dispatch_all :
    holds .gintCep { ready with ctl.cepintsts := 0x1FFF, ctl.cepinten := 0x1FFF }
      (fun t =>
        decide (t.ctl.cepintsts = 0) && decide (t.ctl.cepinten = 0x2) && decide (t.ctrlState = .idle)
          && decide (t.lce = .none)
          && decide (t.calls = [.endpoint 0x10 0x00 .setup, .endpoint 0x10 0x00 .dataOut, .endpoint 0x11 0x80 .dataIn])) = true := by
  decide +kernel

/-- 2.5 line 4: Suspend is later and wins. -/
theorem test_bus_dispatch_both :
    after .gintBus { ready with statusCallback := 0x21, ctl.businten := 0x7, ctl.busintsts := 0x6 }
      (fun t => (t.ctl.businten, t.ctl.busintsts, t.calls))
      = some (0x3, 0, [.status 0x21 .resume 0, .status 0x21 .suspend 0]) := by decide +kernel

/-- 2.7 line 6: bus, then control endpoint, then endpoints ascending. -/
theorem test_pass_order :
    stepped
      { ((readyEps.setEp 1 fun e => { e with epintsts := 0x4, epinten := 0x4 }).setEp 2 fun e =>
          { e with epintsts := 0x1, epinten := 0x3 }) with
        statusCallback := 0x21, lce := .setup, ctl.busintsts := 0x2, ctl.businten := 0x33, ctl.cepintsts := 0x8, ctl.cepinten := 0x40E
        script := [.isr { gaps := [], callbacks := [] }] }
      (fun t => (t.inIsr, t.calls))
      = some (false, [.status 0x21 .resume 0, .endpoint 0x11 0x80 .dataIn, .endpoint 0x31 0x81 .dataIn,
          .endpoint 0x32 0x02 .dataOut]) := by decide +kernel

/-- 2.7 lines 7 and 8: no pass. -/
theorem test_no_pass :
    stepped { ready with ctl.ginten := 0x1, ctl.cepinten := 0x2, ctl.cepintsts := 0x2, script := [.isr { gaps := [], callbacks := [] }] }
        (fun t => t.ctl.cepintsts) = some 0x2
      ∧ stepped { ready with irqConnected := false, ctl.cepinten := 0x2, ctl.cepintsts := 0x2, script := [.isr { gaps := [], callbacks := [] }] }
        (fun t => t.ctl.cepintsts) = some 0x2 := by decide +kernel

/-- 2.9 H1: a pass between the two accesses of `RegSet(CEPINTEN, {OutToken})`; "enables of a finished transfer are back on". -/
theorem test_lost_update :
    stepped
      { ready with
        lce := .dataOut, ctrlState := .dataOut, ctl.cepRxfifo := [1, 2, 3], ctl.cepdatcnt := 3, ctl.cepinten := 0x40E
        ctl.cepintsts := 0x400
        script := [.cmd (port 0x11 0x00 0 0 0 0) [[], [], [], [], [], [.isr { gaps := [], callbacks := [] }]]] }
      (fun t => (t.ctl.cepinten, t.lce, t.ctrlState, t.port.err)) = some (0x40E, .none, .idle, 0) := by decide +kernel

/-- 2.9 H3: the callback of a pass that preempts an EP_READ issues another on the same endpoint. -/
theorem test_fifo_conflict :
    (match step
        { (readyEps.setEp 2 fun e => { e with rxfifo := [1, 2, 3, 4, 5], epdatcnt := 5, epinten := 0x3 }) with
          script := [.cmd (port 0x0F 0x02 0x2200 5 0 0)
            [[], [], [], [], [], [], [], [], [.env (.sie (.diag (.ep 2) 0)), .isr
              { gaps := [], callbacks := [[.cmd (port 0x0F 0x02 0x2300 5 0 0) []]] }]]] } with
      | .fault f => some f
      | _ => none) = some (.fifoConflict 2) := by decide +kernel

/-- R119, R192, R219: a RESET from a callback that preempts the push loop of an EP_WRITE of two bytes; the command goes on with the `n` it has. -/
theorem test_reset_during_write :
    stepHolds
      { readyEps with
        lce := .dataOut, ctl.cepinten := 0x8, ctl.cepintsts := 0x8, mem := [(0x4000, 7), (0x4001, 8)]
        script := [.cmd (port 0x0E 0x81 0x4000 2 0 0)
          (List.replicate 5 [] ++ [[.isr { gaps := [], callbacks := [[.cmd (port 0x03 0 0 0 0 0) []]] }]])] }
      (fun t =>
        decide (t.port.err = 0) && decide (t.port.val = 2) && decide ((t.desc 1).mps = 0) && decide ((t.ep 1).txfifo = [7, 8])
          && decide ((t.ep 1).epdatcnt = 2) && decide ((t.ep 1).epinten = 0x4)) = true := by decide +kernel

/-- 2.9 H2: a stale Status-done after a new SETUP in one pass; the EP_READ inside the Setup callback gets the eight bytes. -/
theorem test_stale_status_done :
    stepHolds
      { ready with
        lce := .dataIn, ctrlState := .status, ctl.cepinten := 0x40E, ctl.cepintsts := 0x403, ctl.cepsetup := ⟨0x0500, 0x0005, 0, 0⟩
        script := [.isr { gaps := [], callbacks := [[.cmd (port 0x0F 0x00 0x2000 8 0 0) []]] }] }
      (fun t =>
        decide (t.port.err = 0) && decide (t.port.val = 8) && decide (t.mem = [(0x2001, 5), (0x2002, 5)])
          && decide (t.lce = .none) && decide (t.ctrlState = .idle) && decide (t.ctl.cepinten = 0x2)
          && decide (t.ctl.cepintsts = 0x1)) = true := by decide +kernel

/-! The environment. -/

/-- 2.8, first five lines. -/
theorem test_sie_control :
    (sieApply (.setup 0x80 0x06 0x00 0x01 0x00 0x00 0x40 0x00) ready).map (fun t => (t.ctl.cepsetup, t.ctl.cepintsts))
        = some (⟨0x0680, 0x0100, 0, 0x0040⟩, 0x3)
      ∧ (sieApply (.outCep [0xA0, 0xA1, 0xA2]) ready).map (fun t => (t.ctl.cepRxfifo, t.ctl.cepdatcnt, t.ctl.cepintsts))
        = some ([0xA0, 0xA1, 0xA2], 3, 0x44)
      ∧ sieApply (.outCep [1]) { ready with ctl.cepRxfifo := [9] } = none
      ∧ sieApply .txDoneCep ready = none := by decide +kernel

/-- 2.8: OUT_EP short, TX_DONE_EP, VBUS, DMA_DONE, NAK_CLEARED. -/
theorem test_sie_endpoints :
    (sieApply (.outEp 2 [0x11, 0x22]) (readyEps.setEp 2 fun e => { e with epmps := 512 })).map
        (fun t => ((t.ep 2).rxfifo, (t.ep 2).epdatcnt, (t.ep 2).epintsts)) = some ([0x11, 0x22], 2, 0x3)
      ∧ (sieApply (.txDoneEp 1) (readyEps.setEp 1 fun e => { e with txfifo := [1, 2, 3], epdatcnt := 2, txPending := true })).map
        (fun t => ((t.ep 1).txfifo, (t.ep 1).txPending, (t.ep 1).epintsts)) = some ([3], false, 0x4)
      ∧ (sieApply (.vbus true) ready).map (fun t => (t.ctl.phyctl, t.ctl.busintsts)) = some (0x8, 0x20)
      ∧ (sieApply (.dmaDone true) { ready with ctl.dmactl := 0x1 }).map (fun t => (t.ctl.dmactl, t.ctl.busintsts)) = some (0x3, 0x10)
      ∧ (sieApply .nakCleared { ready with ctl.cepctl := 0x1 }).map (fun t => t.ctl.cepctl) = some 0 := by decide +kernel

/-- Line 13: a served flush. -/
theorem test_sie_flush :
    (sieApply (.flushedEp 2) (readyEps.setEp 2 fun e => { e with eprspctl := 0x3, rxfifo := [1], epdatcnt := 1 })).map
        (fun t => ((t.ep 2).eprspctl, (t.ep 2).rxfifo, (t.ep 2).epdatcnt)) = some (0x2, [], 0)
      ∧ (sieApply .flushedCep { ready with ctl.cepctl := 0x4, ctl.cepRxfifo := [1], ctl.cepdatcnt := 1 }).map
        (fun t => (t.ctl.cepctl, t.ctl.cepRxfifo, t.ctl.cepdatcnt)) = some (0, [], 0) := by decide +kernel

/-! Where the host places a table word. -/

theorem test_fetch_command :
    decodeTableWord 32 0x3 = some .reset ∧ stepped (State.reset.withFetchWord 32 0x14) (fun t => t.port.err) = some 1 := by decide +kernel

theorem test_fetch_event :
    decodeTableWord 16 0x400 = some .cepStatusDone
      ∧ stepped (State.reset.withFetchWord 16 0x400) (fun t => (t.ctl.cepinten, t.ctl.cepintsts, t.inIsr)) = some (0x2, 0, false) := by
  decide +kernel

/-! Witnesses: for every statement with hypotheses, a state and operands that meet them, one for each clause, at the ends of the ranges. -/

open Sys2Proof.Claims

/-- "Control ready" meets the invariants. -/
theorem witness_good : State.Good ready := by
  refine ⟨?_, ?_, ?_, ?_, ?_, ?_, ?_, ?_⟩ <;> decide +kernel

theorem witness_at_rest : ready.AtRest ∧ readyEps.AtRest := by decide +kernel

theorem witness_encoded : Config.default.wf = true
    ∧ ∀ i ∈ [Instr.reservedOpcode 0x14, .gintEp 1, .gintEp 12, .busUnrecognised 6, .cepUnrecognised 31, .epIn 11 1,
        .epOut 12 0x80000000, .epMps 0xFF, .readPeek 0xFF 0xFFFFFFFF], i.wellFormed Config.default = true := by decide +kernel

theorem witness_command_operands :
    Config.default.bitmap.enums.wf = true ∧ scattered.bitmap.enums.wf = true ∧ commandOpcode 0x01 = true ∧ commandOpcode 0x13 = true := by
  decide

/-- Each of the three ways to be reserved. -/
theorem witness_reserved : (port 0x101 0 0 0 0 0).op.extractLsb' 8 24 ≠ 0 ∧ (port 0x00 0 0 0 0 0).op.extractLsb' 0 8 = 0x00#8
    ∧ 0x14 ≤ ((port 0x14 0 0 0 0 0).op.extractLsb' 0 8).toNat ∧ 0x14 ≤ ((port 0xFF 0 0 0 0 0).op.extractLsb' 0 8).toNat := by decide

theorem witness_step :
    decode ready.cfg .cmd (words (port 0x13 0x80 0 0 0 0)) = .ok (.epMps 0x80)
      ∧ (envApply (.sie .busReset) ready).isSome = true ∧ envApply (.sie .txDoneCep) ready = none
      ∧ passEnabled ready = false ∧ ready.script = [] := by
  refine ⟨rfl, ?_⟩
  decide +kernel

theorem witness_pass :
    passEnabled { ready with ctl.cepintsts := 0x2, ctl.cepinten := 0x2 } = true ∧ freshStart []
      ∧ freshStart [[], [], [.sie .busReset]] := by
  refine ⟨by decide +kernel, ?_⟩
  unfold freshStart
  decide

theorem witness_dispatcher : freshStart ready.passGaps ∧ ready.cfg.isEp 1 = true ∧ ready.cfg.isEp 12 = true := by
  refine ⟨?_, by decide +kernel⟩
  unfold freshStart
  decide

theorem witness_dispatcher_alone : ready.PassAlone ∧ ready.cfg.isEp 12 = true ∧ 12 ≤ ready.eps.length := by decide +kernel

theorem witness_set_address : ready.CmdAlone ∧ ready.NamedBits ∧ (port 0x04 0 0 0 0 0x1FF).op = 0x04 := by decide +kernel

theorem witness_set_status_callback : (port 0x05 0 0 0 0 0x21).op = 0x05 := by decide

/-- ATTACH with the PHY ready; with a clock schedule, the PHY not ready; with both at once. -/
theorem witness_attach :
    (∀ s ∈ [{ ready with ctl.phyctl := 0x4 }],
        s.cfg.wf = true ∧ s.NamedBits ∧ s.CmdAlone ∧ tst s.ctl.phyctl s.cfg.bitmap.phyClkStb = true)
      ∧ ∀ s ∈ [{ ready with taskGaps := [[], [], [], [], [.env (.tick 51)]] },
          { ready with taskGaps := [[], [], [], [], [.env (.tick 50)], [.env (.sie .phyReady)]] },
          { ready with taskGaps := [[], [], [], [.env (.tick 0), .env (.sie .phyReady)]] }],
        s.cfg.wf = true ∧ s.NamedBits ∧ s.inIsr = false ∧ s.now + 51 < 18446744073709551616
          ∧ tst s.ctl.phyctl s.cfg.bitmap.phyClkStb = false := by decide +kernel

/-- The last clock value with room for the budget, and the first without. -/
theorem witness_attach_timeout :
    (∀ s ∈ [{ ready with now := 18446744073709551564 }, { ready with now := 18446744073709551565 }],
        s.cfg.wf = true ∧ s.CmdAlone ∧ tst s.ctl.phyctl s.cfg.bitmap.phyClkStb = false)
      ∧ (18446744073709551564 : Nat) + 51 < 18446744073709551616 ∧ 18446744073709551616 ≤ (18446744073709551565 : Nat) + 51 := by
  decide +kernel

theorem witness_check_cap : (∀ p ∈ [((0x00 : Byte), (64 : Half), XferType.control), (0x80, 1, .control), (0x8B, 1024, .bulk), (0x0C, 1, .isochronous)],
      capAccepted Config.default p.1 p.2.1 p.2.2)
    ∧ ∀ p ∈ [((0x0D : Byte), (64 : Half), XferType.bulk), (0x00, 65, .control), (0x00, 64, .bulk), (0x81, 64, .control), (0x81, 1025, .bulk),
        (0x81, 0, .bulk), (0x01, 64, .bulk), (0x82, 64, .bulk)], ¬capAccepted Config.default p.1 p.2.1 p.2.2 := by
  unfold capAccepted
  decide +kernel

/-- Refused; the control endpoint; busy; out of space by one byte; the last byte of the arena. -/
theorem witness_configure :
    ¬capAccepted readyEps.cfg 0x01 64 .bulk ∧ capAccepted readyEps.cfg 0x80 64 .control ∧ capAccepted readyEps.cfg 0x81 1024 .bulk
      ∧ capAccepted readyEps.cfg 0x0C 1024 .bulk
      ∧ ∀ s ∈ [{ readyEps with ramOffset := 3073 }, { readyEps with ramOffset := 3072 }],
        s.CmdAlone ∧ s.NamedBits ∧ s.ctl.ginten &&& enableBit s.cfg 1 ≠ 0 ∧ s.ctl.ginten &&& enableBit s.cfg 12 = 0
          ∧ (s.cfg.ramSize < s.ramOffset.toNat + (1024#16).toNat ↔ s.ramOffset = 3073) := by
  unfold capAccepted
  refine ⟨?_, ?_, ?_, ?_, ?_⟩ <;> decide +kernel

theorem witness_alloc : Config.default.wf = true
    ∧ ∀ s ∈ [{ ready with ramOffset := 4033 }, { ready with ramOffset := 4032 }],
      (s.cfg.ramSize < s.ramOffset.toNat + (64#16).toNat ↔ s.ramOffset = 4033) := by decide +kernel

/-- ENABLE, DISABLE, SET_STALL, CLEAR_STALL, FLUSH, IS_STALLED, SET_CALLBACK: index 0, odd, even, the last index, and refused addresses. -/
theorem witness_ep_commands : ready.CmdAlone ∧ (∀ a ∈ [(0x00 : Byte), 0x80, 0x81, 0x02, 0x0C], epAccepted Config.default a)
    ∧ ∀ a ∈ [(0x0D : Byte), 0x01, 0x82, 0x8C], ¬epAccepted Config.default a := by
  unfold epAccepted
  decide +kernel

theorem witness_stall_round_trip : ready.cfg.wf = true ∧ ready.Sized ∧ ready.CmdAlone ∧ epAccepted ready.cfg 0x80
    ∧ epAccepted ready.cfg 0x0C ∧ (sieApply .busReset ready).isSome = true := by
  unfold epAccepted
  decide +kernel

theorem witness_mps : epIdx 0x0C < ready.cfg.nEp ∧ ready.cfg.nEp ≤ epIdx 0x0D := by decide

/-- Each check of `XferCheck`, in its order, and the operands that pass. -/
theorem witness_transfer_checks : readyEps.CmdAlone
    ∧ [(0x0D : Byte), 0x01, 0x82, 0x02].map (fun a => xferError readyEps a true 0x2000 1) = [some 1, some 1, some 1, some 1]
    ∧ xferError readyEps 0x81 true 0 1 = some 1 ∧ xferError readyEps 0x83 true 0x2000 1 = some 3
    ∧ xferError { readyEps with ctl.ginten := 0 } 0x81 true 0x2000 1 = some 4
    ∧ xferError readyEps 0x81 false 0x2000 1 = some 1 ∧ xferError readyEps 0x04 false 0 0 = some 3
    ∧ xferError { readyEps with ctl.ginten := 0 } 0x80 true 0 0 = some 4
    ∧ xferError readyEps 0x80 true 0x2000 1 = none ∧ xferError readyEps 0x81 true 0x2000 1 = none
    ∧ xferError readyEps 0x02 false 0x2000 1 = none := by decide +kernel

theorem witness_empty_write : ready.CmdAlone ∧ epIdx 0x80 = 0 ∧ xferError ready 0x80 true 0 0 = none ∧ countFits ready 0
    ∧ xferError ready 0x80 true 0x2000 0 = none ∧ countFits ready 0x5FFC := by
  unfold countFits writable
  decide +kernel

/-- A last packet of 64 bytes, and 65 bytes of which 64 go. -/
theorem witness_control_write : ready.inIsr = false ∧ xferError ready 0x80 true 0x2000 64 = none
    ∧ sendReady ready 0x80 0x2000 64 0x3000 ready.ctl.cepTxfifo ∧ sendCountOf ready 0x80 64 = 64
    ∧ sendReady ready 0x80 0x2000 65 0 ready.ctl.cepTxfifo ∧ sendCountOf ready 0x80 65 = 64 := by
  unfold sendReady countFits writable readable
  decide +kernel

theorem witness_stale_flag : ready.CmdAlone ∧ xferError ready 0x80 true 0x2000 1 = none
    ∧ sendReady { ready with ctl.cepintsts := 0x20 } 0x80 0x2000 1 0 [] ∧ tst (0x20 : Word) ready.cfg.bitmap.cepTxComplete = true := by
  unfold sendReady countFits writable readable
  decide +kernel

theorem witness_stalled_controller : ready.CmdAlone ∧ xferError ready 0x80 true 0x2000 1 = none
    ∧ sendReady ready 0x80 0x2000 1 0 ready.ctl.cepTxfifo
    ∧ tst ready.ctl.cepintsts ready.cfg.bitmap.cepTxComplete = false := by
  unfold sendReady countFits writable readable
  decide +kernel

theorem witness_endpoint_write : readyEps.CmdAlone ∧ epIdx 0x81 ≠ 0 ∧ xferError readyEps 0x81 true 0x2000 0 = none ∧ countFits readyEps 0x3000
    ∧ xferError readyEps 0x81 true 0x2000 64 = none ∧ (readyEps.ep 1).txPending = false
    ∧ sendReady readyEps 0x81 0x2000 64 0x3000 (readyEps.ep 1).txfifo
    ∧ State.CmdAlone (readyEps.setEp 1 fun e => { e with txPending := true })
    ∧ ((readyEps.setEp 1 fun e => { e with txPending := true }).ep 1).txPending = true := by
  unfold sendReady countFits writable readable
  decide +kernel

/-- A state with a three-byte OUT packet on the control endpoint and one on endpoint 2. -/
def received3 : State :=
  { (readyEps.setEp 2 fun e => { e with rxfifo := [1, 2, 3], epdatcnt := 3 }) with
    lce := .dataOut, ctrlState := .dataOut, ctl.cepRxfifo := [4, 5, 6], ctl.cepdatcnt := 3 }

/-- READ_WAIT, READ, READ_PEEK: a peek, a FIFO read of each kind, and a SETUP read; READ_CONTINUE with a count and without. -/
theorem witness_reads : received3.CmdAlone ∧ readReady received3 0x00 0 0 0x3000 ∧ readReady received3 0x00 0x2000 3 0
    ∧ readReady received3 0x02 0x2000 2 0x5FFC ∧ readReady { ready with lce := .setup, ctrlState := .setup } 0x00 0x2000 8 0 := by
  refine ⟨by decide +kernel, ?_, ?_, ?_, ?_⟩ <;>
    (unfold readReady countFits writable; decide +kernel)

theorem witness_reads_checked : xferError received3 0x00 false 0 0 = none ∧ xferError received3 0x00 false 0x2000 3 = none
    ∧ xferError received3 0x02 false 0x2000 2 = none ∧ xferError ready 0x00 false 0x2000 8 = none
    ∧ available received3 0 = 3 ∧ available ready 0 = 0 ∧ received3.Good := by
  refine ⟨?_, ?_, ?_, ?_, ?_, ?_, ?_, ?_, ?_, ?_, ?_, ?_, ?_, ?_⟩ <;> decide +kernel

/-- Endpoint 2 in use, endpoint 1 in use, the control endpoint in use. -/
theorem witness_busy_fifo : (∀ i ∈ [0, 1, 2], State.busy { readyEps with fifoBusy := List.replicate 13 true } i = true)
    ∧ State.CmdAlone { readyEps with fifoBusy := List.replicate 13 true }
    ∧ [xferError readyEps 0x81 true 0x2000 1, xferError readyEps 0x02 false 0x2000 1, xferError readyEps 0x80 true 0x2000 1]
      = [none, none, none]
    ∧ isPeek 0x2000 1 = false ∧ readyEps.lce ≠ .setup ∧ (readyEps.ep 1).txPending = false := by decide +kernel

/-- Memory not handed over; a full transmit FIFO; the top of the address space; memory not handed over for a SETUP read. -/
theorem witness_stops :
    (ready.CmdAlone ∧ ready.busy 0 = false ∧ xferError ready 0x80 true 0x6000 1 = none ∧ hostReadable ready 0x6000 = false)
      ∧ (∀ s ∈ [{ ready with ctl.cepTxfifo := List.replicate 64 0 }], s.CmdAlone ∧ s.busy 0 = false
        ∧ xferError s 0x80 true 0x5FFF 1 = none ∧ hostReadable s 0x5FFF = true ∧ (s.desc 0).mps.toNat ≤ s.ctl.cepTxfifo.length)
      ∧ (∀ s ∈ [{ ready with hostRanges := [{ base := 0xFFFFFFFF, size := 1, readable := true, writable := true }] }],
        s.CmdAlone ∧ s.busy 0 = false ∧ xferError s 0x80 true 0xFFFFFFFF 2 = none ∧ 2 ≤ sendCountOf s 0x80 2
          ∧ hostReadable s 0xFFFFFFFF = true ∧ s.ctl.cepTxfifo.length < (s.desc 0).mps.toNat)
      ∧ ∀ s ∈ [{ ready with lce := .setup, ctrlState := .setup }], s.CmdAlone ∧ s.busy 0 = false
        ∧ xferError s 0x00 false 0x6000 8 = none ∧ isPeek 0x6000 8 = false ∧ 0 < readCount s 0x00 0x6000 8
        ∧ hostWritable s 0x6000 = false := by decide +kernel

/-- A read that stores three bytes, and an address it does not store to. -/
theorem witness_stores : received3.CmdAlone ∧ received3.PassAlone
    ∧ (nextOf (exec (.epReadWait 0x00 0x2000 3 0) received3)).isSome = true ∧ ¬storesAt (.epReadWait 0x00 0x2000 3 0) received3 0x2003 := by
  refine ⟨by decide +kernel, by decide +kernel, by decide +kernel, ?_⟩
  unfold storesAt
  decide +kernel

theorem witness_errors : isEvent (.epMps 0x80) = false ∧ ready.CmdAlone
    ∧ after (.epSetStall 0x0D) ready (fun t => t.port.err) = some 1 ∧ after (.epReadWait 0x04 0 0 0) ready (fun t => t.port.err) = some 3 := by
  decide +kernel

/-- The events of the control endpoint and of the bus, of an endpoint, and the terms no encoding gives. -/
theorem witness_events : ready.PassAlone ∧ ready.NamedBits ∧ ready.Sized ∧ ready.lce = .none ∧ received3.PassAlone ∧ received3.lce ≠ .none
    ∧ ready.cfg.isEp 11 = true ∧ 11 % 2 = 1 ∧ ready.cfg.isEp 12 = true ∧ ready.cfg.isEp 13 = false ∧ ready.cfg.isEp 0 = false
    ∧ isEvent .cepSetupPkt = true ∧ (nextOf (exec .cepSetupPkt ready)).isSome = true := by decide +kernel

/-- The HOST configures an endpoint inside the callback. -/
theorem witness_bus_reset_callback :
    State.NamedBits { ready with statusCallback := 0x21 } ∧ ready.Sized ∧ ready.passGaps = []
      ∧ (match runCallback [.cmd (port 0x07 0x81 0 0 0 0x10040) [], .env (.sie (.diag .cep 12))]
          { notified .reset (quiesced { ready with statusCallback := 0x21, ctl.ginten := 0 }) with passCbs := [] } with
        | .ok _ _ => true
        | .error _ _ => false) = true := by decide +kernel

/-- 2.9 H1. -/
def lostUpdate : State :=
  { ready with
    lce := .dataOut, ctrlState := .dataOut, ctl.cepRxfifo := [1, 2, 3], ctl.cepdatcnt := 3, ctl.cepinten := 0x40E
    ctl.cepintsts := 0x400
    taskGaps := [[], [], [], [], [], [.isr { gaps := [], callbacks := [] }]] }

theorem witness_lost_update : lostUpdate.cfg.wf = true ∧ lostUpdate.inIsr = false ∧ lostUpdate.irqConnected = true
    ∧ lostUpdate.cbGaps = [] ∧ xferError lostUpdate 0x00 false 0 0 = none ∧ lostUpdate.lce = .dataOut ∧ lostUpdate.ctl.cepdatcnt ≠ 0
    ∧ lostUpdate.ctl.cepintsts &&& lostUpdate.ctl.cepinten = bit lostUpdate.cfg.bitmap.cepStatusDone
    ∧ gintsts lostUpdate &&& lostUpdate.ctl.ginten = bit lostUpdate.cfg.bitmap.gCep := by decide +kernel

/-- One state for each side of every SIE step's precondition. -/
theorem witness_sie :
    ready.cfg.wf = true ∧ (sieApply .statusDone ready).isSome = true
      ∧ ready.ctl.cepRxfifo = [] ∧ (List.replicate 64 (0 : Byte)).length ≤ 64 ∧ 64 < (List.replicate 65 (0 : Byte)).length
      ∧ received3.ctl.cepRxfifo ≠ [] ∧ ready.ctl.cepTxPending = false
      ∧ ready.cfg.isEp 12 = true ∧ (ready.ep 12).rxfifo = [] ∧ ([] : List Byte).length ≤ (ready.ep 12).epmps.toNat
      ∧ (ready.ep 12).epmps.toNat < [(0 : Byte)].length ∧ (received3.ep 2).rxfifo ≠ []
      ∧ ((readyEps.setEp 1 fun e => { e with txPending := true }).ep 1).txPending = true ∧ (ready.ep 11).txPending = false
      ∧ tst (0x1 : Word) ready.cfg.bitmap.ctlNakClr = true ∧ tst (0x4 : Word) ready.cfg.bitmap.ctlFlush = true
      ∧ tst (0x1 : Word) ready.cfg.bitmap.rspFlush = true ∧ tst (0 : Word) ready.cfg.bitmap.rspFlush = false
      ∧ ready.cfg.bitmap.cepEvent 1 ∈ [.named .setupPkt, .named .outToken, .named .inToken, .named .statusDone]
      ∧ ready.cfg.bitmap.cepEvent 0 ∉ [.named .setupPkt, .named .outToken, .named .inToken, .named .statusDone]
      ∧ (∀ b ∈ BusBit.all, ready.cfg.bitmap.busPos b ≠ 6) ∧ ready.cfg.bitmap.busPos .vbus = 5 := by decide +kernel

theorem witness_setup_bytes : ready.CmdAlone ∧ ready.PassAlone ∧ Memory.wf ready.mem = true ∧ xferError ready 0x00 false 0x2000 8 = none
    ∧ writable ready 0x2000 8
    ∧ ((sieApply (.setup 0x80 0x06 0x00 0x01 0x00 0x00 0x40 0x00) ready).bind fun t => nextOf (exec .cepSetupPkt t)).isSome = true := by
  unfold writable
  decide +kernel

theorem witness_sequencer : ready.CmdAlone ∧ ready.PassAlone ∧ ready.cfg.wf = true ∧ Instr.cepOutToken ≠ .gintCep ∧ Instr.alloc 1 ≠ .reset
    ∧ (nextOf (exec (.alloc 1) ready)).isSome = true ∧ (nextOf (exec .cepOutToken ready)).isSome = true := by decide +kernel

/-- A step that runs a command with an SIE step among its accesses, and no pass. -/
def configuring : State :=
  { ready with
    epTable := ready.epTable.set 1 { mps := 64, ramBase := 0, xferType := .bulk, callbackIn := 0, callbackOut := 0 }
    ramOffset := 64
    script := [.cmd (port 0x07 0x02 0 0 0 0x10040) [[.env (.sie .busReset)]]] }

theorem witness_steps : configuring.Good ∧ configuring.AtRest ∧ configuring.RamDisjoint
    ∧ stepped configuring (fun t => (t.ramOffset, t.port.err)) = some (128, 0)
    ∧ noPass [[.env (.sie .busReset)]] = true := by
  refine ⟨⟨?_, ?_, ?_, ?_, ?_, ?_, ?_, ?_⟩, ?_, ⟨?_, ?_, ?_⟩, ?_, ?_⟩ <;> decide +kernel

end Sys2Proof.Tests
end

section
/-! Settles the statements of 00_scope.md (O5, O36): what one step runs, and where a transfer on the control endpoint stops. -/

namespace Sys2Proof.Machine

/-! One step, by the next entry of the schedule (log 4). -/

theorem step_idle {s : State} (h : s.script = []) : step s = .next s := by simp [step, h]

theorem step_env {s : State} {e : EnvStep} {r : List TopAct} (h : s.script = .env e :: r) :
    step s = outcome (envStep e) { s with script := r } := by simp [step, h]

theorem step_isr {s : State} {p : PassScript} {r : List TopAct} (h : s.script = .isr p :: r) :
    step s = outcome (isrPass p) { s with script := r } := by simp [step, h]

theorem step_cmd {s : State} {ops : Operands} {gaps : List (List TaskAct)} {r : List TopAct} (h : s.script = .cmd ops gaps :: r) :
    step s = endCommand (exec (decodeCmd s.cfg ops) (startCommand ops gaps { s with script := r })) := by simp [step, h]

theorem envStep_allowed {e : EnvStep} {s t : State} (h : envApply e s = some t) : envStep e s = .ok () t := by simp [envStep, h]

theorem envStep_forbidden {e : EnvStep} {s : State} (h : envApply e s = none) :
    envStep e s = .error (.refuse (.stepForbidden e)) s := by simp [envStep, h]

theorem isrPass_disabled {s : State} (h : passEnabled s = false) (p : PassScript) : isrPass p s = .ok () s := by
  simp [isrPass, h]

theorem outcome_refuse {p : Prog Unit} {s t : State} {r : Refusal} (h : p s = .error (.refuse r) t) : outcome p s = .refused r := by
  simp [outcome, h]

/-! The accesses of an agent at rest that stop (R20, R76, R81). -/

theorem load_outside {g : Agent} {s : State} (h : g.Quiet s) {a : Nat} (ha : a < Config.hostTop) (hr : hostReadable s a = false) :
    load g a s = .error (.fault (.outsideHandedMemory a)) s :=
  bind_seq h (by simp [Nat.not_le.2 ha, hr])

theorem load_wrap {g : Agent} {s : State} (h : g.Quiet s) {a : Nat} (ha : Config.hostTop ≤ a) :
    load g a s = .error (.fault .addressWrap) s :=
  bind_seq h (by simp [ha])

theorem store_outside {g : Agent} {s : State} (h : g.Quiet s) {a : Nat} (ha : a < Config.hostTop) (hw : hostWritable s a = false)
    (b : Byte) : store g a b s = .error (.fault (.outsideHandedMemory a)) s :=
  bind_seq h (by simp [Nat.not_le.2 ha, hw])

theorem fifoPush_full {g : Agent} {s : State} (h : g.Quiet s) {f : DatReg} {mps : Half}
    (hc : fifoCapacity mps ≤ (txfifo f s).length) (b : Byte) : fifoPush g f mps b s = .error (.refuse (.fifoOverflow f)) s :=
  bind_seq h (by simp [hc])

/-- A buffer's first byte is always inside the 32-bit address space. -/
theorem toNat_lt_hostTop (p : Word) : p.toNat < Config.hostTop := p.isLt

/-! The two loops that stop. -/

theorem pushBytes_outside {g : Agent} {s : State} (h : g.Quiet s) (f : DatReg) (mps : Half) {ptr : Word} {n : Nat} (hn : n ≠ 0)
    (hr : hostReadable s ptr.toNat = false) :
    pushBytes g f mps ptr n 0 s = .error (.fault (.outsideHandedMemory ptr.toNat)) s := by
  obtain ⟨m, rfl⟩ := Nat.exists_eq_succ_of_ne_zero hn
  exact bind_error (load_outside h (toNat_lt_hostTop ptr) hr)

theorem pushBytes_full {g : Agent} {s : State} (h : g.Quiet s) {f : DatReg} {mps : Half} {ptr : Word} {n : Nat} (hn : n ≠ 0)
    (hr : hostReadable s ptr.toNat = true) (hc : fifoCapacity mps ≤ (txfifo f s).length) :
    pushBytes g f mps ptr n 0 s = .error (.refuse (.fifoOverflow f)) s := by
  obtain ⟨m, rfl⟩ := Nat.exists_eq_succ_of_ne_zero hn
  exact bind_seq (load_quiet h (toNat_lt_hostTop ptr) hr) (bind_error (fifoPush_full h hc _))

/-- A buffer at the last address of the space: the first byte is pushed, the second has no address (R20). -/
theorem pushBytes_wrap {s : State} (h : s.CmdAlone) {f : DatReg} {mps : Half} {n : Nat} (hn : 2 ≤ n)
    (hr : hostReadable s (0xFFFFFFFF : Word).toNat = true) (hc : (txfifo f s).length < fifoCapacity mps) :
    pushBytes cmdAgent f mps 0xFFFFFFFF n 0 s
      = .error (.fault .addressWrap) (appendTx f (Memory.read s.mem (0xFFFFFFFF : Word).toNat) s) := by
  obtain ⟨m, rfl⟩ := Nat.exists_eq_add_of_le' hn
  refine bind_seq (load_quiet h.quiet (toNat_lt_hostTop _) hr) (bind_seq (fifoPush_quiet h.quiet _ hc) (bind_error ?_))
  exact load_wrap ((CmdAlone_appendTx ..).2 h).quiet (by decide)

/-- The SETUP copy stops at its first store where the HOST has not handed over the buffer (R81). -/
theorem copySetup_outside {g : Agent} {s : State} (h : g.Quiet s) {ptr : Word} {n : Nat} (hn : n ≠ 0)
    (hw : hostWritable s ptr.toNat = false) :
    copySetup g ptr n 0 s = .error (.fault (.outsideHandedMemory ptr.toNat)) s := by
  obtain ⟨m, rfl⟩ := Nat.exists_eq_succ_of_ne_zero hn
  have hb : setupByteAt g 0 s = .ok (setupByte s.setupSnap 0) s := bind_seq h (by simp)
  exact bind_seq hb (bind_error (store_outside h (toNat_lt_hostTop ptr) hw _))

end Sys2Proof.Machine

namespace Sys2Proof.Claims

open Sys2Proof.Machine

theorem endCommand_eq_dropTaskGaps (o : Out) : endCommand o = dropTaskGaps o := by cases o <;> rfl

/-! The checks of a transfer command as the statements put them (R88, R117). -/

theorem dirFits_iff (a : Byte) :
    dirFits a = true ↔ ¬(epIdx a ≠ 0 ∧ epIdx a % 2 = 1 ∧ dirIn a = false)
      ∧ ¬(epIdx a ≠ 0 ∧ epIdx a % 2 = 0 ∧ dirIn a = true) := by
  unfold dirFits
  by_cases h0 : epIdx a = 0
  · simp [h0]
  · rcases Nat.mod_two_eq_zero_or_one (epIdx a) with h | h <;> simp [h0, h]

theorem needFits_iff (a : Byte) (needIn : Bool) : needFits a needIn = true ↔ ¬(epIdx a ≠ 0 ∧ dirIn a ≠ needIn) := by
  simp [needFits, ← or_iff_not_imp_left]

/-- `GINTEN` and an index's enable bit, as a mask or as a bit. -/
theorem and_enableBit_eq_zero (w : Word) (c : Config) (i : Nat) : w &&& enableBit c i = 0 ↔ tst w (enablePos c i) = false := by
  unfold enableBit enablePos
  split <;> exact and_bit_eq_zero ..

/-- No error applies exactly when every check of R117 passes. -/
theorem xferError_eq_none {s : State} {a : Byte} {needIn : Bool} {ptr len : Word} :
    xferError s a needIn ptr len = none ↔ epOk s.cfg a = true ∧ needFits a needIn = true ∧ ¬(ptr = 0 ∧ len ≠ 0)
      ∧ (s.desc (epIdx a)).mps ≠ 0 ∧ tst s.ctl.ginten (enablePos s.cfg (epIdx a)) = true := by
  simp only [xferError, epOk, Bool.and_eq_true, decide_eq_true_eq, dirFits_iff, needFits_iff, and_enableBit_eq_zero,
    ite_eq_iff, reduceCtorEq, and_false, false_or, and_true, Bool.not_eq_false, not_not, and_assoc, ne_eq]

/-- A transfer command whose checks pass, undisturbed: they change nothing (R117). -/
theorem xferCheck_passes {s : State} (h : s.CmdAlone) {a : Byte} {needIn : Bool} {ptr len : Word}
    (hx : xferError s a needIn ptr len = none) :
    xferCheck cmdAgent a needIn (decide (ptr = 0) && decide (len ≠ 0)) s = .ok () s := by
  obtain ⟨hep, hneed, hptr, hmps, hen⟩ := xferError_eq_none.1 hx
  rw [xferCheck_calm (h.calm 2) hep hneed (by simpa using hptr) hmps hen, h.skip]

/-! A transfer on the control endpoint stops as its copy loop does. -/

section ControlEndpoint

variable {s t : State} {a : Byte} {ptr len cptr : Word} {e : Stop} (h : s.CmdAlone) (h0 : epIdx a = 0)
include h h0

theorem epWrite_control_stops (hbusy : s.busy 0 = false) (hx : xferError s a true ptr len = none) (hlen : len ≠ 0)
    (hp : pushBytes cmdAgent .cep (s.desc 0).mps ptr (sendCountOf s a len) 0 (s.setBusy 0 true) = .error e t) :
    epWrite cmdAgent a ptr len cptr s = .error e t := by
  rw [sendCountOf, h0] at hp
  refine bind_seq (xferCheck_passes h hx) (ite_run h0 (bind_seq (own_quiet h.quiet _) (else_run hlen (bind_error ?_))))
  exact bind_seq (look_run _ _) (bind_error (inFifo_error hbusy (bind_seq (look_run _ _) (bind_error hp))))

theorem epReadWait_setup_stops (hx : xferError s a false ptr len = none) (hpeek : isPeek ptr len = false) (hl : s.lce = .setup)
    (hp : copySetup cmdAgent ptr (readCount s a ptr len) 0 s = .error e t) :
    epReadWait cmdAgent a ptr len cptr s = .error e t := by
  have havail : availCount cmdAgent (epIdx a) s = .ok (BitVec.ofNat 32 Config.setupLen) s :=
    ite_run h0 (bind_seq (own_quiet h.quiet _) (by rw [hl]; rfl))
  have hcount : readCount s a ptr len = min (BitVec.ofNat 32 Config.setupLen).toNat len.toNat := by
    simp [readCount, hpeek, available, h0, hl, Config.setupLen]
  refine bind_seq (xferCheck_passes h hx) (bind_seq havail (else_run (by simpa [isPeek] using hpeek) (bind_error ?_)))
  exact bind_seq (own_quiet h.quiet _) (ite_run ⟨h0, hl⟩ (hcount ▸ hp))

end ControlEndpoint

/-- A control write of at least one byte sends at least one: a configured endpoint's packet size is not 0. -/
theorem sendCountOf_ne_zero {s : State} {a : Byte} {needIn : Bool} {ptr len : Word} (hx : xferError s a needIn ptr len = none)
    (hlen : len ≠ 0) : sendCountOf s a len ≠ 0 := by
  obtain ⟨-, -, -, hmps, -⟩ := xferError_eq_none.1 hx
  have hl : len.toNat ≠ 0 := fun e => hlen (BitVec.eq_of_toNat_eq e)
  have hm : (s.desc (epIdx a)).mps.toNat ≠ 0 := fun e => hmps (BitVec.eq_of_toNat_eq e)
  unfold sendCountOf
  omega

end Sys2Proof.Claims

section

open Sys2Proof Sys2Proof.Machine Sys2Proof.Claims

/-- Settles O5, by the kind of the schedule's next entry. -/
theorem stepRunsTheDecodedCommand : Obligations.StepRunsTheDecodedCommand := by
  unfold Obligations.StepRunsTheDecodedCommand
  intro s r
  refine ⟨fun ops gaps i hs hd => ?command, fun e t hs he => ?environment, fun e hs he => ?forbidden,
    fun p hs hp => ?disabled, step_idle⟩
  case command =>
    have hi : decodeCmd s.cfg ops = i := Except.ok.inj hd
    rw [step_cmd hs, hi, endCommand_eq_dropTaskGaps]
    rfl
  case environment => rw [step_env hs, outcome_ok (envStep_allowed he)]
  case forbidden => rw [step_env hs, outcome_refuse (envStep_forbidden he)]
  case disabled =>
    have hd : passEnabled { s with script := r } = false :=
      (passEnabled_congr (s := s) (t := { s with script := r }) rfl rfl rfl rfl rfl).trans hp
    rw [step_isr hs, outcome_ok (isrPass_disabled hd p)]

/-- Settles O36: each stop is the copy loop's, at its first byte or, past the top of the address space, its second. -/
theorem transferStopsOutsideItsBounds : Obligations.TransferStopsOutsideItsBounds := by
  unfold Obligations.TransferStopsOutsideItsBounds
  intro s a ptr len cptr h h0 hbusy
  have halone : State.CmdAlone (s.setBusy 0 true) := (CmdAlone_setBusy ..).2 h
  refine ⟨fun hx hlen hr => ?outside, fun hx hlen hr hfull => ?full, fun hx hptr hn hr hroom => ?wrap,
    fun hx hpeek hl hn hw => ?setup⟩
  case outside =>
    exact run_fault (epWrite_control_stops h h0 hbusy hx hlen
      (pushBytes_outside halone.quiet _ _ (sendCountOf_ne_zero hx hlen) hr))
  case full =>
    exact run_refuse (epWrite_control_stops h h0 hbusy hx hlen
      (pushBytes_full halone.quiet (sendCountOf_ne_zero hx hlen) hr hfull))
  case wrap =>
    subst hptr
    have hlen : len ≠ 0 := fun e => by simp [sendCountOf, e] at hn
    exact run_fault (epWrite_control_stops h h0 hbusy hx hlen (pushBytes_wrap halone hn hr hroom))
  case setup =>
    exact run_fault (epReadWait_setup_stops h h0 hx hpeek hl (copySetup_outside h.quiet (by omega) hw))

end

end

section
/-! SUPPORT. What a step runs, taken apart, and what a relation must respect for a callback, a pass and a step to respect it. -/

namespace Sys2Proof.Machine

/-! Two pieces, each with a relation of its own. -/

/-- What a sequence respects, from what its two pieces respect, each in its own way. -/
theorem Run.seq {R S Q : State → State → Prop} {α β : Type} {p : Prog α} {f : α → Prog β} (hp : Run R p) (hf : ∀ a, Run S (f a))
    (hq : ∀ {s t u}, R s t → S t u → Q s u) : Run Q (p >>= f) := by
  refine .of (fun {s u b} h => ?_) (fun {s u e} h => ?_)
  · obtain ⟨a, t, h1, h2⟩ := bind_inv h
    exact hq (hp.ok h1) ((hf a).ok h2)
  · rw [bind_run] at h
    cases h1 : p s with
    | ok a t => rw [h1] at h; exact (hf a).not_raised h
    | error e t => rw [h1] at h; cases h; exact hp.not_raised h1

theorem Run.mono {R S : State → State → Prop} {α : Type} {p : Prog α} (hp : Run R p) (h : ∀ {s t}, R s t → S s t) : Run S p :=
  .of (fun e => h (hp.ok e)) hp.not_raised

/-- What one run of a program leaves, from what every run of it leaves. -/
theorem Run.at_imp {R S : State → State → Prop} {α : Type} {p : Prog α} (hp : Run S p) {s u : State} (h : ∀ {t}, S u t → R s t) :
    Run.at R s (p u) := by
  have hu := hp u
  revert hu
  cases p u with
  | ok a t => exact h
  | error e t => cases e <;> exact id

theorem Rel.at_imp {R S : State → State → Prop} {α : Type} {p : Prog α} (hp : Rel S p) {s u : State} (h : ∀ {t}, S u t → R s t) :
    Rel.at R s (p u) := by
  have hu := hp u
  revert hu
  cases p u with
  | ok a t => exact h
  | error e t =>
    cases e with
    | raise e => exact h
    | fault f => exact id
    | refuse r => exact id

/-! Callbacks and passes. -/

/-- What the HOST does in a callback respects what the commands and the environment respect. -/
theorem Run.hostTurn_of_cmd {R : State → State → Prop} (h : CmdRules R) (env : ∀ e s t, envApply e s = some t → R s t)
    (cb : ∀ r s, R s { s with cbGaps := r }) (cbs : ∀ r s, R s { s with passCbs := r })
    (hc : ∀ a mps ty, Rel R (epConfigure callbackCmd a mps ty)) : Run R Machine.hostTurn :=
  .hostTurn h.toOrder (.runCallback h.toOrder env (.nestedCommand h env cb hc)) cbs

/-- A relation that a pass respects but for its changes of the sequencer. -/
structure PassPieces (R : State → State → Prop) : Prop extends Order R where
  reg : ∀ r v s, R s (regWrite r v s)
  env : ∀ e s t, envApply e s = some t → R s t
  turn : Run R hostTurn
  /-- The schedule, the snapshots and the scan position of the pass, the record of its calls, and the SETUP words. -/
  own : ∀ pg cl g w n q s,
    R s { s with passGaps := pg, calls := cl, gSnap := g, sSnap := w, scanPos := n, setupSnap := q }

section

variable {R : State → State → Prop} (h : PassPieces R)
include h

theorem PassPieces.point : Run R isr.point := .passPoint h.toOrder h.env fun r s => h.own r s.calls s.gSnap s.sSnap s.scanPos s.setupSnap s

theorem PassPieces.call (w : Word) (a : Byte) (e : EpNotice) : Run R (callback w a e) :=
  .callback h.toOrder h.turn (fun c s => h.own s.passGaps c s.gSnap s.sSnap s.scanPos s.setupSnap s) w a e

theorem PassPieces.notice : NoticeRules R where
  toOrder := h.toOrder
  reg r v s _ := h.reg r v s
  point := h.point
  call := h.call
  notify := .statusNotify h.toOrder h.turn fun c s => h.own s.passGaps c s.gSnap s.sSnap s.scanPos s.setupSnap s

theorem PassPieces.scan : ScanRules R where
  toNoticeRules := h.notice
  snap w s := h.own s.passGaps s.calls s.gSnap w s.scanPos s.setupSnap s
  pos n s := h.own s.passGaps s.calls s.gSnap s.sSnap n s.setupSnap s

/-- With the sequencer's own changes, a whole pass. -/
theorem PassPieces.pass (setup : Run R handleSetupPkt) (out : ∀ s, R s { s with lce := .dataOut, ctrlState := .dataOut })
    (inn : ∀ s, R s { s with lce := .dataIn, ctrlState := .dataIn }) (idle : ∀ s, R s { s with lce := .none, ctrlState := .idle }) :
    PassRules R where
  toScanRules := h.scan
  setup := setup
  out := out
  inn := inn
  idle := idle
  gsnap g s := h.own s.passGaps s.calls g s.sSnap s.scanPos s.setupSnap s

/-- A relation blind to the sequencer. -/
theorem PassPieces.pass_of_blind (seq : ∀ l c s, R s { s with lce := l, ctrlState := c }) : PassRules R :=
  h.pass
    (.handleSetupPkt h.toOrder (fun r v s _ => h.reg r v s) h.point h.call
      (fun q s => h.own s.passGaps s.calls s.gSnap s.sSnap s.scanPos q s) (fun s => seq _ s.ctrlState s) (fun s => seq s.lce _ s))
    (fun s => seq _ _ s) (fun s => seq _ _ s) (fun s => seq _ _ s)

end

/-- A pass, for a relation blind to the pass's entry and return. -/
theorem PassRules.isrPass {R : State → State → Prop} (h : PassRules R) (enter : ∀ p s, R s (enterPass p s))
    (leave : ∀ s, R s (leavePass s)) (p : PassScript) : Run R (isrPass p) :=
  .isrPass h h.toOrder (fun p s u _ hu => h.trans (enter p s) (h.trans hu (leave u))) p

/-- What the CMD agent's gaps hold, in either context (R196). -/
theorem Run.cmdPoint {R : State → State → Prop} (cb : ∀ s, s.inIsr = true → Run.at R s (Machine.callbackPoint s))
    (task : Run R Machine.taskPoint) : Run R cmdAgent.point := by
  intro s
  show Run.at R s (if s.inIsr then Machine.callbackPoint s else Machine.taskPoint s)
  split
  · next hi => exact cb s hi
  · exact task s

/-! One step. -/

theorem envStep_next {e : EnvStep} {s t : State} (h : outcome (envStep e) s = .next t) : envApply e s = some t := by
  cases he : envApply e s with
  | none => rw [outcome_refuse (envStep_forbidden he)] at h; cases h
  | some u => rw [outcome_ok (envStep_allowed he)] at h; cases h; rfl

theorem isrPass_next {p : PassScript} {s t : State} (h : outcome (isrPass p) s = .next t) : isrPass p s = .ok () t := by
  rcases outcome_next h with h | ⟨e, u, h, -⟩
  · exact h
  · exact ((Any.pass.isrPass (fun _ _ => trivial) (fun _ => trivial) p).not_raised h).elim

theorem endCommand_next {o : Out} {t : State} (h : endCommand o = .next t) : ∃ u, o = .next u ∧ t = { u with taskGaps := [] } := by
  cases o with
  | next u => cases h; exact ⟨u, rfl, rfl⟩
  | fault f => cases h
  | refused r => cases h

/-- What a step that answers a next state has run: nothing, a step of the environment, a pass, or a command of the port. -/
theorem step_next {s t : State} (h : step s = .next t) :
    t = s ∨ (∃ e r, envApply e { s with script := r } = some t) ∨ (∃ p r, isrPass p { s with script := r } = .ok () t)
      ∨ ∃ ops gaps r u, s.script = .cmd ops gaps :: r
        ∧ run (command cmdAgent (decodeCmd s.cfg ops)) (startCommand ops gaps { s with script := r }) = .next u
        ∧ t = { u with taskGaps := [] } := by
  cases hs : s.script with
  | nil =>
    rw [step_idle hs] at h
    cases h
    exact .inl rfl
  | cons a r =>
    cases a with
    | env e =>
      rw [step_env hs] at h
      exact .inr (.inl ⟨e, r, envStep_next h⟩)
    | isr p =>
      rw [step_isr hs] at h
      exact .inr (.inr (.inl ⟨p, r, isrPass_next h⟩))
    | cmd ops gaps =>
      rw [step_cmd hs, exec_command] at h
      obtain ⟨u, hu, ht⟩ := endCommand_next h
      exact .inr (.inr (.inr ⟨ops, gaps, r, u, rfl, hu, ht⟩))

end Sys2Proof.Machine
end

section
/-! SUPPORT. Changes of `EpTable`: what a descriptor reads as after them, and what they keep of R34(b), (d). -/

namespace Sys2Proof.Machine

/-- After a change of descriptor `i`, a descriptor reads as before, or is `i` and changed. -/
theorem desc_setDesc_cases (s : State) (i j : Nat) (f : EpDesc → EpDesc) :
    (s.setDesc i f).desc j = s.desc j ∨ j = i ∧ (s.setDesc i f).desc j = f (s.desc i) := by
  by_cases hj : j = i
  · subst hj
    by_cases hl : j < s.epTable.length
    · exact .inr ⟨rfl, s.desc_setDesc_same f hl⟩
    · exact .inl (by simp [State.setDesc, State.desc, List.getD_eq_getElem?_getD, hl])
  · exact .inl (s.desc_setDesc_other f hj)

@[simp] theorem desc_zeroBlock (s : State) (i : Nat) : (zeroBlock s).desc i = EpDesc.zero := by
  by_cases hi : i < s.cfg.nEp <;> simp [zeroBlock, State.desc, List.getD_eq_getElem?_getD, hi]

/-- A packet size, a base and a transfer type: what a descriptor holds but for its callbacks (R33). -/
def EpDesc.SameRange (d e : EpDesc) : Prop := e.mps = d.mps ∧ e.ramBase = d.ramBase ∧ e.xferType = d.xferType

/-- EP_SET_CALLBACK touches callbacks only (R165). -/
theorem desc_slot (s : State) (i j : Nat) (b : Bool) (cb : Word) :
    (s.desc j).SameRange
      ((s.setDesc i fun d => if b then { d with callbackIn := cb } else { d with callbackOut := cb }).desc j) := by
  rcases desc_setDesc_cases s i j (fun d => if b then { d with callbackIn := cb } else { d with callbackOut := cb })
    with h | ⟨rfl, h⟩
  · rw [h]; exact ⟨rfl, rfl, rfl⟩
  · rw [h]; cases b <;> exact ⟨rfl, rfl, rfl⟩

theorem TableTyped_congr {s t : State} (h : s.TableTyped) (hc : t.cfg = s.cfg) (hd : ∀ i, (s.desc i).SameRange (t.desc i)) :
    t.TableTyped := by
  have hm : ∀ i, (t.desc i).mps = (s.desc i).mps := fun i => (hd i).1
  have hb : ∀ i, (t.desc i).ramBase = (s.desc i).ramBase := fun i => (hd i).2.1
  have ht : ∀ i, (t.desc i).xferType = (s.desc i).xferType := fun i => (hd i).2.2
  simpa only [State.TableTyped, hc, hm, hb, ht] using h

theorem TableTyped_zeroBlock (s : State) : (zeroBlock s).TableTyped := by simp [State.TableTyped, EpDesc.zero]

/-- A checked descriptor may stand in the table (R157, R158). -/
theorem TableTyped_configureDesc {s : State} (h : s.TableTyped) {i : Nat} {mps : Half} {base : Word} {ty : XferType}
    (hf : DescFits i mps base ty) : (configureDesc i mps base ty s).TableTyped := by
  obtain ⟨hmax, hzero, htype⟩ := hf
  obtain ⟨h1, h2, h3, h4⟩ := h
  have hcases := fun j => desc_setDesc_cases s i j fun d => { d with mps := mps, ramBase := base, xferType := ty }
  have at0 : ((configureDesc i mps base ty s).desc 0).xferType = .control
      ∧ ((configureDesc i mps base ty s).desc 0).ramBase = 0
      ∧ ((configureDesc i mps base ty s).desc 0).mps.toNat ≤ Config.mpsCtrlMax := by
    rcases hcases 0 with e | ⟨e0, e⟩ <;> rw [configureDesc, e]
    · exact ⟨h1, h2, h3⟩
    · exact hzero e0.symm
  refine ⟨at0.1, at0.2.1, at0.2.2, fun j hj hj0 hm => ?_⟩
  rcases hcases j with e | ⟨rfl, e⟩ <;> rw [configureDesc, e] at hm ⊢
  · exact h4 j hj hj0 hm
  · exact ⟨htype hj0, hmax⟩

end Sys2Proof.Machine
end

section
/-! SUPPORT. Every step, whatever is scheduled in it, keeps the invariants of 10_state.md section 3: first those blind to the sequencer, then
R112, which alone is broken for a moment, inside the Setup-packet handler. -/

namespace Sys2Proof.Machine

/-- Once `P` holds it goes on to hold, and the configuration is the same. -/
def Keeps (P : State → Prop) (s t : State) : Prop := P s → P t ∧ t.cfg = s.cfg

theorem Keeps.order (P : State → Prop) : Order (Keeps P) where
  refl _ h := ⟨h, rfl⟩
  trans h1 h2 h := ⟨(h2 (h1 h).1).1, (h2 (h1 h).1).2.trans (h1 h).2⟩

/-- A relation that every change made in a step respects, but for EP_CONFIGURE's and the sequencer's. -/
structure StepPieces (R : State → State → Prop) : Prop extends CmdRules R where
  env : ∀ e s t, envApply e s = some t → R s t
  configure : ∀ g, Run R g.point → ∀ a mps ty, Rel R (epConfigure g a mps ty)
  /-- Schedules, snapshots, the scan position, the record of calls and the SETUP words. -/
  own : ∀ b sc tg pg pc cb cl g w n q s,
    R s { s with
      inIsr := b, script := sc, taskGaps := tg, passGaps := pg, passCbs := pc, cbGaps := cb, calls := cl, gSnap := g,
      sSnap := w, scanPos := n, setupSnap := q }

section

variable {R : State → State → Prop} (h : StepPieces R)
include h

theorem StepPieces.pieces : PassPieces R where
  toOrder := h.toOrder
  reg := h.reg
  env := h.env
  turn := .hostTurn_of_cmd h.toCmdRules h.env (fun r s => h.own _ _ _ _ _ r _ _ _ _ _ s)
    (fun r s => h.own _ _ _ _ r _ _ _ _ _ _ s)
    (h.configure _ (.callbackPoint h.toOrder h.env fun r s => h.own _ _ _ _ _ r _ _ _ _ _ s))
  own pg cl g w n q s := h.own _ _ _ pg _ _ cl g w n q s

theorem StepPieces.step (hp : PassRules R) {s t : State} (ht : step s = .next t) : R s t := by
  have isr : ∀ p, Run R (isrPass p) := hp.isrPass (fun p s => h.own _ _ _ _ _ _ _ _ _ _ _ s) fun s => h.own _ _ _ _ _ _ _ _ _ _ _ s
  have point : Run R cmdAgent.point :=
    .cmdPoint (fun s _ => Run.callbackPoint h.toOrder h.env (fun r s => h.own _ _ _ _ _ r _ _ _ _ _ s) s)
      (.taskPoint h.toOrder (fun l => .runTaskGap h.toOrder h.env isr l) fun r s => h.own _ _ r _ _ _ _ _ _ _ _ s)
  have sched : ∀ r s, R s { s with script := r } := fun r s => h.own _ r _ _ _ _ _ _ _ _ _ s
  rcases step_next ht with rfl | ⟨e, r, he⟩ | ⟨p, r, hr⟩ | ⟨ops, gaps, r, u, -, hu, rfl⟩
  · exact h.refl _
  · exact h.trans (sched r s) (h.env _ _ _ he)
  · exact h.trans (sched r s) ((isr p).ok hr)
  · have start : R s (startCommand ops gaps { s with script := r }) :=
      h.trans (h.port { s.port with operands := ops } s) (h.own _ r gaps _ _ _ _ _ _ _ _ _)
    exact h.trans start (h.trans (Run.command_run h.toCmdRules point (h.configure _ point) hu) (h.own _ _ [] _ _ _ _ _ _ _ _ u))

end

/-- The invariants but for R112. -/
def State.Sound (s : State) : Prop :=
  s.cfg.wf = true ∧ s.Sized ∧ s.Regs ∧ s.TableTyped ∧ Memory.wf s.mem = true ∧ s.now < clockTop

theorem State.Sound.sized {s : State} : s.Sound → s.Sized := fun ⟨_, h, _⟩ => h

theorem State.Sound.regs {s : State} : s.Sound → s.Regs := fun ⟨_, _, h, _⟩ => h

theorem State.Sound.typed {s : State} : s.Sound → s.TableTyped := fun ⟨_, _, _, h, _⟩ => h

theorem good_iff {s : State} : s.Good ↔ s.Sound ∧ s.Sequenced := by
  constructor
  · rintro ⟨hw, hs, hn, hc, hq, ht, hm, hk⟩
    exact ⟨⟨hw, hs, ⟨hn, hc⟩, ht, hm, hk⟩, hq⟩
  · rintro ⟨⟨hw, hs, ⟨hn, hc⟩, ht, hm, hk⟩, hq⟩
    exact ⟨hw, hs, hn, hc, hq, ht, hm, hk⟩

/-- A change of the controller that keeps what is said of its registers. -/
theorem State.Sound.of_outside {s t : State} (h : s.Sound) (ho : s.Outside t) (hr : t.Regs) : t.Sound := by
  obtain ⟨c, l, k, hl, rfl⟩ := ho
  obtain ⟨hw, ⟨h1, h2, h3⟩, -, ht, hm, hk⟩ := h
  exact ⟨hw, ⟨h1, hl.trans h2, h3⟩, hr, ht, hm, hk⟩

theorem State.Outside.cfg {s t : State} (h : s.Outside t) : t.cfg = s.cfg := by
  obtain ⟨c, l, k, -, rfl⟩ := h
  rfl

theorem regWrite_outside (r : Reg) (v : Word) (s : State) : s.Outside (regWrite r v s) := by
  cases r
  case epdatcnt i =>
    unfold regWrite
    dsimp only
    split
    · exact setEp_outside s i _
    · exact ctl_outside s s.ctl
  case epcfg i => exact setEp_outside s i _
  case eprspctl i => exact setEp_outside s i _
  case epmps i => exact setEp_outside s i _
  case epbufstart i => exact setEp_outside s i _
  case epbufend i => exact setEp_outside s i _
  case epinten i => exact setEp_outside s i _
  case epintsts i => exact setEp_outside s i _
  all_goals exact ctl_outside s _

theorem dropRx_outside (f : DatReg) (s : State) : s.Outside (dropRx f s) := by
  cases f with
  | cep => exact ctl_outside s _
  | ep i => exact setEp_outside s i _

theorem appendTx_outside (f : DatReg) (b : Byte) (s : State) : s.Outside (appendTx f b s) := by
  cases f with
  | cep => exact ctl_outside s _
  | ep i => exact setEp_outside s i _

theorem State.Sound.env {s t : State} (h : s.Sound) {e : EnvStep} (he : envApply e s = some t) : t.Sound ∧ t.cfg = s.cfg := by
  have ⟨hw, hs, hr, ht, hm, hk⟩ := h
  cases e with
  | sie k =>
    have ho := sieApply_outside he
    exact ⟨h.of_outside ho (Regs_sieApply hr he), ho.cfg⟩
  | tick n =>
    obtain ⟨hn, rfl⟩ := guardStep_some he
    exact ⟨⟨hw, hs, hr, ht, hm, of_decide_eq_true hn⟩, rfl⟩
  | hostStore a b =>
    obtain ⟨ha, rfl⟩ := guardStep_some he
    exact ⟨⟨hw, hs, hr, ht, Memory.wf_write hm b (of_decide_eq_true ha), hk⟩, rfl⟩
  | hostHand r =>
    obtain ⟨-, rfl⟩ := guardStep_some he
    exact ⟨h, rfl⟩

/-- What is said of `EpTable`, `ram_offset` and `fifo_busy` is its size and the descriptors' types. -/
theorem State.Sound.of_table {s t : State} (h : s.Sound) (hs : t.Sized) (ht : t.TableTyped) (hc : t.cfg = s.cfg) (hk : t.ctl = s.ctl)
    (he : t.eps = s.eps) (hm : t.mem = s.mem) (hn : t.now = s.now) : t.Sound := by
  obtain ⟨hw, -, hr, -, h5, h6⟩ := h
  exact ⟨hc ▸ hw, hs, Regs_congr hr hc hk he, ht, hm ▸ h5, hn ▸ h6⟩

theorem State.Sound.setBusy {s : State} (h : s.Sound) (i : Nat) (b : Bool) : (s.setBusy i b).Sound := by
  obtain ⟨htable, heps, hbusy⟩ := h.sized
  exact h.of_table ⟨htable, heps, (s.setBusy_fifoBusy_length i b).trans hbusy⟩ h.typed rfl rfl rfl rfl rfl

theorem State.Sound.setDesc {s : State} (h : s.Sound) (i : Nat) (f : EpDesc → EpDesc) (ht : (s.setDesc i f).TableTyped) :
    (s.setDesc i f).Sound := by
  obtain ⟨htable, hrest⟩ := h.sized
  exact h.of_table ⟨(s.setDesc_epTable_length i f).trans htable, hrest⟩ ht rfl rfl rfl rfl rfl

theorem State.Sound.zeroBlock {s : State} (h : s.Sound) : (zeroBlock s).Sound := by
  obtain ⟨-, hrest⟩ := h.sized
  exact h.of_table ⟨List.length_replicate, hrest⟩ (TableTyped_zeroBlock s) rfl rfl rfl rfl rfl

theorem State.Sound.cmd : CmdRules (Keeps State.Sound) where
  toOrder := Keeps.order _
  reg r v s h := ⟨h.of_outside (regWrite_outside r v s) (Regs_regWrite h.regs r v), by simp⟩
  tx f b s h := ⟨h.of_outside (appendTx_outside f b s) (Regs_appendTx h.regs f b), by simp⟩
  rx f s h := ⟨h.of_outside (dropRx_outside f s) (Regs_dropRx h.regs f), by simp⟩
  mem a b s ha _ := fun ⟨hw, hs, hr, ht, hm, hk⟩ => ⟨⟨hw, hs, hr, ht, Memory.wf_write hm b ha, hk⟩, rfl⟩
  port _ _ h := ⟨h, rfl⟩
  free _ _ h := ⟨h, rfl⟩
  busy i s t _ hst h := ⟨(hst (h.setBusy i true)).1.setBusy i false, (hst (h.setBusy i true)).2⟩
  clock n s hn := fun ⟨hw, hs, hr, ht, hm, hk⟩ => ⟨⟨hw, hs, hr, ht, hm, Nat.max_lt.2 ⟨hk, hn⟩⟩, rfl⟩
  handle _ _ h := ⟨h, rfl⟩
  irq _ _ h := ⟨h, rfl⟩
  slot i b cb s h := ⟨h.setDesc i _ (TableTyped_congr h.typed rfl fun j => desc_slot s i j b cb), rfl⟩
  status _ h := ⟨h, rfl⟩
  zero _ h := ⟨h.zeroBlock, rfl⟩

theorem State.Sound.pieces : StepPieces (Keeps State.Sound) where
  toCmdRules := State.Sound.cmd
  env _ _ _ he h := h.env he
  configure _ hg := .epConfigure State.Sound.cmd.toPieceRules hg (fun _ _ _ h => ⟨h, rfl⟩) fun i _ _ _ _ hf h =>
    ⟨h.setDesc i _ (TableTyped_configureDesc h.typed hf), rfl⟩
  own _ _ _ _ _ _ _ _ _ _ _ _ h := ⟨h, rfl⟩

/-- Every step keeps the invariants that are blind to the sequencer. -/
theorem State.Sound.step {s t : State} (h : s.Sound) (ht : step s = .next t) : t.Sound ∧ t.cfg = s.cfg :=
  State.Sound.pieces.step (State.Sound.pieces.pieces.pass_of_blind fun _ _ _ h => ⟨h, rfl⟩) ht h

/-! R112. -/

/-- The sequencer is as it was. -/
def SameSeq (s t : State) : Prop := t.ctrlState = s.ctrlState ∧ t.lce = s.lce ∧ t.cfg = s.cfg

theorem SameSeq.order : Order SameSeq where
  refl _ := ⟨rfl, rfl, rfl⟩
  trans := fun ⟨a, b, c⟩ ⟨d, e, f⟩ => ⟨d.trans a, e.trans b, f.trans c⟩

theorem SameSeq.env (e : EnvStep) (s t : State) (h : envApply e s = some t) : SameSeq s t := by
  obtain ⟨c, l, k, m, r, n, -, rfl⟩ := envApply_outside h
  exact ⟨rfl, rfl, rfl⟩

theorem SameSeq.regWrite (r : Reg) (v : Word) (s : State) : SameSeq s (regWrite r v s) := ⟨by simp, by simp, by simp⟩

theorem SameSeq.keeps {s t : State} (h : SameSeq s t) : Keeps State.Sequenced s t := by
  obtain ⟨hc, hl, hcfg⟩ := h
  exact fun hs => ⟨by unfold State.Sequenced; rwa [hc, hl], hcfg⟩

theorem State.Sequenced.cmd : CmdRules (Keeps State.Sequenced) where
  toOrder := Keeps.order _
  reg r v s := (SameSeq.regWrite r v s).keeps
  tx f b s := SameSeq.keeps ⟨by simp, by simp, by simp⟩
  rx f s := SameSeq.keeps ⟨by simp, by simp, by simp⟩
  mem _ _ _ _ _ h := ⟨h, rfl⟩
  port _ _ h := ⟨h, rfl⟩
  free _ _ h := ⟨h, rfl⟩
  busy _ _ _ _ h := h
  clock _ _ _ h := ⟨h, rfl⟩
  handle _ _ h := ⟨h, rfl⟩
  irq _ _ h := ⟨h, rfl⟩
  slot _ _ _ _ h := ⟨h, rfl⟩
  status _ _ := ⟨⟨nofun, nofun, nofun, nofun⟩, rfl⟩
  zero _ _ := ⟨⟨fun _ => rfl, nofun, nofun, nofun⟩, rfl⟩

theorem State.Sequenced.pieces : StepPieces (Keeps State.Sequenced) where
  toCmdRules := State.Sequenced.cmd
  env e s t h := (SameSeq.env e s t h).keeps
  configure _ hg := .epConfigure State.Sequenced.cmd.toPieceRules hg (fun _ _ _ h => ⟨h, rfl⟩) fun _ _ _ _ _ _ h => ⟨h, rfl⟩
  own _ _ _ _ _ _ _ _ _ _ _ _ h := ⟨h, rfl⟩

/-- From a state that `lce` says has taken a SETUP packet, to one in which R112 holds. -/
def FromSetup (s t : State) : Prop := s.lce = .setup → t.Sequenced ∧ t.cfg = s.cfg

/-- The Setup-packet handler (R113): `lce` is written, then `CEPINTEN` is read and written, then `ctrl_state` follows. -/
theorem State.Sequenced.setup : Run (Keeps State.Sequenced) handleSetupPkt := by
  have o := Keeps.order State.Sequenced
  have hp := State.Sequenced.pieces.pieces
  have snap : ∀ k, Run (Keeps State.Sequenced) (snapWord k) := fun k =>
    (Run.rd o hp.point _).bind o fun v => .upd fun s => hp.own _ _ _ _ _ _ s
  have point : Run SameSeq isr.point := .passPoint SameSeq.order SameSeq.env fun _ _ => ⟨rfl, rfl, rfl⟩
  have arm : ∀ m, Run SameSeq (rset isr .cepinten m) := fun m =>
    (Run.rd SameSeq.order point _).bind SameSeq.order fun v =>
      point.bind SameSeq.order fun _ => .upd fun s => SameSeq.regWrite _ _ s
  have close : Run FromSetup
      (do upd fun s => { s with ctrlState := .setup }
          let d ← look fun s => s.desc 0
          callback d.callbackOut 0x00#8 .setup) := by
    refine .seq (R := FromSetup) (S := Keeps State.Sequenced)
      (.upd fun s hl => ⟨⟨nofun, fun _ => hl, nofun, nofun⟩, rfl⟩)
      (fun _ => (Run.look o _).bind o fun d => hp.call _ _ _) ?_
    intro s t u hst htu hl
    exact ⟨(htu (hst hl).1).1, (htu (hst hl).1).2.trans (hst hl).2⟩
  refine (Run.look o _).bind o fun c => (snap 0).bind o fun _ => (snap 1).bind o fun _ => (snap 2).bind o fun _ =>
    (snap 3).bind o fun _ => ?_
  refine .seq (R := fun s t => t.lce = .setup ∧ t.cfg = s.cfg) (S := FromSetup)
    (.upd fun s => ⟨rfl, rfl⟩) (fun _ => ?_) fun hst htu _ => ⟨(htu hst.1).1, (htu hst.1).2.trans hst.2⟩
  refine .seq (arm _) (fun _ => close) fun hst htu hl => ?_
  obtain ⟨-, hlce, hcfg⟩ := hst
  obtain ⟨hs, hc⟩ := htu (hlce.trans hl)
  exact ⟨hs, hc.trans hcfg⟩

theorem State.Sequenced.pass : PassRules (Keeps State.Sequenced) :=
  State.Sequenced.pieces.pieces.pass State.Sequenced.setup (fun _ _ => ⟨⟨nofun, nofun, fun _ => rfl, nofun⟩, rfl⟩)
    (fun _ _ => ⟨⟨nofun, nofun, nofun, fun _ => rfl⟩, rfl⟩) fun _ _ => ⟨⟨fun _ => rfl, nofun, nofun, nofun⟩, rfl⟩

end Sys2Proof.Machine

end

section

open Sys2Proof Sys2Proof.Machine Sys2Proof.Claims

/-- Settles O58: the invariants blind to the sequencer, then R112. -/
theorem everyStepKeepsTheInvariants : Obligations.EveryStepKeepsTheInvariants := by
  unfold Obligations.EveryStepKeepsTheInvariants
  intro s t hgood ht
  obtain ⟨hsound, hseq⟩ := good_iff.1 hgood
  obtain ⟨hsound', hcfg⟩ := hsound.step ht
  exact ⟨good_iff.2 ⟨hsound', (State.Sequenced.pieces.step State.Sequenced.pass ht hseq).1⟩, hcfg⟩

end

section
/-! SUPPORT. Between steps nothing is half done (R64, R65, R193): a pass ends with its own state dead, a transfer command gives back the FIFO it
took, and a command issued from a callback drops its schedule. -/

namespace Sys2Proof.Machine

/-- A transfer that found its FIFO free and gives it back leaves `fifo_busy` as it was. -/
theorem fifoBusy_given_back {s t : State} {i : Nat} (hi : s.busy i = false) (ht : t.fifoBusy = (s.setBusy i true).fifoBusy) :
    (t.setBusy i false).fifoBusy = s.fifoBusy :=
  calc (t.setBusy i false).fifoBusy = ((s.setBusy i true).setBusy i false).fifoBusy := by simp only [State.setBusy, ht]
    _ = s.fifoBusy := by rw [setBusy_setBusy hi]

/-! Inside a pass. -/

/-- `fifo_busy` and the schedule of the task-priority command are the same. -/
def SameBusy (s t : State) : Prop := t.fifoBusy = s.fifoBusy ∧ t.taskGaps = s.taskGaps

theorem SameBusy.cmd : CmdRules SameBusy where
  refl _ := ⟨rfl, rfl⟩
  trans := fun ⟨a, b⟩ ⟨c, d⟩ => ⟨c.trans a, d.trans b⟩
  reg _ _ _ := ⟨by simp, by simp⟩
  tx _ _ _ := ⟨by simp, by simp⟩
  rx _ _ := ⟨by simp, by simp⟩
  mem _ _ _ _ _ := ⟨rfl, rfl⟩
  port _ _ := ⟨rfl, rfl⟩
  free _ _ := ⟨rfl, rfl⟩
  busy _ _ _ hi := fun ⟨hb, ht⟩ => ⟨fifoBusy_given_back hi hb, ht⟩
  clock _ _ _ := ⟨rfl, rfl⟩
  handle _ _ := ⟨rfl, rfl⟩
  irq _ _ := ⟨rfl, rfl⟩
  slot _ _ _ _ := ⟨rfl, rfl⟩
  status _ := ⟨rfl, rfl⟩
  zero _ := ⟨rfl, rfl⟩

theorem SameBusy.env (e : EnvStep) (s t : State) (h : envApply e s = some t) : SameBusy s t := by
  obtain ⟨c, l, k, m, r, n, -, rfl⟩ := envApply_outside h
  exact ⟨rfl, rfl⟩

theorem SameBusy.nestedCommand (ops : Operands) (gaps : List Gap) : Run SameBusy (nestedCommand ops gaps) :=
  .nestedCommand SameBusy.cmd SameBusy.env (fun _ _ => ⟨rfl, rfl⟩)
    (.epConfigure SameBusy.cmd.toPieceRules (.callbackPoint SameBusy.cmd.toOrder SameBusy.env fun _ _ => ⟨rfl, rfl⟩)
      (fun _ _ _ => ⟨rfl, rfl⟩) fun _ _ _ _ _ _ => ⟨rfl, rfl⟩) ops gaps

/-- The last thing a command issued from a callback does is to drop the gaps left over (log 4). -/
theorem nestedCommand_cbGaps {ops : Operands} {gaps : List Gap} {s t : State} {a : Unit}
    (h : nestedCommand ops gaps s = .ok a t) : t.cbGaps = [] := by
  simp only [nestedCommand, bind_look, bind_upd] at h
  obtain ⟨-, u, -, h⟩ := bind_inv h
  cases h
  rfl

/-- What a pass leaves to the command it preempts; and where no callback's command was running, none is. -/
def InPass (s t : State) : Prop := SameBusy s t ∧ (s.cbGaps = [] → t.cbGaps = [])

theorem InPass.order : Order InPass where
  refl s := ⟨SameBusy.cmd.refl s, id⟩
  trans := fun ⟨a, b⟩ ⟨c, d⟩ => ⟨SameBusy.cmd.trans a c, d ∘ b⟩

theorem InPass.env (e : EnvStep) (s t : State) (h : envApply e s = some t) : InPass s t := by
  refine ⟨SameBusy.env e s t h, ?_⟩
  obtain ⟨c, l, k, m, r, n, -, rfl⟩ := envApply_outside h
  exact id

theorem InPass.pieces : PassPieces InPass where
  toOrder := InPass.order
  reg r v s := ⟨SameBusy.cmd.reg r v s, by simp⟩
  env := InPass.env
  turn :=
    have nested ops gaps : Run InPass (nestedCommand ops gaps) :=
      .of (fun h => ⟨(SameBusy.nestedCommand ops gaps).ok h, fun _ => nestedCommand_cbGaps h⟩) (SameBusy.nestedCommand ops gaps).not_raised
    .hostTurn InPass.order (.runCallback InPass.order InPass.env nested) fun _ _ => ⟨⟨rfl, rfl⟩, id⟩
  own _ _ _ _ _ _ _ := ⟨⟨rfl, rfl⟩, id⟩

theorem InPass.pass : PassRules InPass := InPass.pieces.pass_of_blind fun _ _ _ => ⟨⟨rfl, rfl⟩, id⟩

/-! Outside a pass. -/

/-- No pass is in progress, and no command of a callback. -/
def State.NoPass (s : State) : Prop :=
  s.inIsr = false ∧ s.gSnap = 0 ∧ s.sSnap = 0 ∧ s.scanPos = 0 ∧ s.passGaps = [] ∧ s.passCbs = [] ∧ s.cbGaps = []

theorem atRest_iff {s : State} : s.AtRest ↔ s.NoPass ∧ (∀ b ∈ s.fifoBusy, b = false) ∧ s.taskGaps = [] := by
  constructor
  · rintro ⟨hi, hb, hg, hs, hp, ht, h1, h2, h3⟩
    exact ⟨⟨hi, hg, hs, hp, h1, h2, h3⟩, hb, ht⟩
  · rintro ⟨⟨hi, hg, hs, hp, h1, h2, h3⟩, hb, ht⟩
    exact ⟨hi, hb, hg, hs, hp, ht, h1, h2, h3⟩

/-- Between two accesses of a task-priority command: no pass before, no pass after, and `fifo_busy` the same. -/
def OutsidePass (s t : State) : Prop := s.NoPass → t.NoPass ∧ t.fifoBusy = s.fifoBusy

theorem OutsidePass.order : Order OutsidePass where
  refl _ h := ⟨h, rfl⟩
  trans h1 h2 h := ⟨(h2 (h1 h).1).1, (h2 (h1 h).1).2.trans (h1 h).2⟩

theorem OutsidePass.cmd : CmdRules OutsidePass where
  toOrder := OutsidePass.order
  reg _ _ _ h := ⟨by simpa [State.NoPass] using h, by simp⟩
  tx _ _ _ h := ⟨by simpa [State.NoPass] using h, by simp⟩
  rx _ _ h := ⟨by simpa [State.NoPass] using h, by simp⟩
  mem _ _ _ _ _ h := ⟨h, rfl⟩
  port _ _ h := ⟨h, rfl⟩
  free _ _ h := ⟨h, rfl⟩
  busy _ _ _ hi hst h := ⟨(hst h).1, fifoBusy_given_back hi (hst h).2⟩
  clock _ _ _ h := ⟨h, rfl⟩
  handle _ _ h := ⟨h, rfl⟩
  irq _ _ h := ⟨h, rfl⟩
  slot _ _ _ _ h := ⟨h, rfl⟩
  status _ h := ⟨h, rfl⟩
  zero _ h := ⟨h, rfl⟩

theorem OutsidePass.env (e : EnvStep) (s t : State) (h : envApply e s = some t) : OutsidePass s t := by
  obtain ⟨c, l, k, m, r, n, -, rfl⟩ := envApply_outside h
  exact fun hs => ⟨hs, rfl⟩

/-- A whole pass: what is its own is dead after it (R193, log 24). -/
theorem OutsidePass.isrPass : ∀ p, Run OutsidePass (isrPass p) :=
  .isrPass InPass.pass OutsidePass.order fun _ _ _ _ ⟨⟨hb, _⟩, hcb⟩ ⟨_, _, _, _, _, _, h⟩ =>
    ⟨⟨rfl, rfl, rfl, rfl, rfl, rfl, hcb h⟩, hb⟩

theorem OutsidePass.point : Run OutsidePass cmdAgent.point := by
  refine .cmdPoint (fun s hi => ?_) (.taskPoint OutsidePass.order (.runTaskGap OutsidePass.order OutsidePass.env OutsidePass.isrPass)
    fun _ _ h => ⟨h, rfl⟩)
  exact Run.at_imp (Run.callbackPoint Any.order (fun _ _ _ _ => trivial) fun _ _ => trivial) fun _ h => by simp [h.1] at hi

/-- A command of the port at task priority, from its start to its end. -/
theorem OutsidePass.command {i : Instr} {s t : State} (h : run (command cmdAgent i) s = .next t) : OutsidePass s t :=
  Run.command_run OutsidePass.cmd OutsidePass.point
    (.epConfigure OutsidePass.cmd.toPieceRules OutsidePass.point (fun _ _ _ h => ⟨h, rfl⟩) fun _ _ _ _ _ _ h => ⟨h, rfl⟩) h

/-- A pass at top level. -/
theorem InPass.isrPass : ∀ p, Run InPass (isrPass p) :=
  InPass.pass.isrPass (fun _ _ => ⟨⟨rfl, rfl⟩, id⟩) fun _ => ⟨⟨rfl, rfl⟩, id⟩

/-- Every step ends at rest: a command's last gaps are dropped, a pass and a step of the environment touch no gap of a command. -/
theorem State.AtRest.step {s t : State} (h : s.AtRest) (ht : step s = .next t) : t.AtRest := by
  obtain ⟨hpass, hbusy, htask⟩ := atRest_iff.1 h
  have rest : ∀ {r}, OutsidePass { s with script := r } t → SameBusy { s with script := r } t → t.AtRest := fun ho hb =>
    atRest_iff.2 ⟨(ho hpass).1, hb.1 ▸ hbusy, hb.2.trans htask⟩
  rcases step_next ht with rfl | ⟨e, r, he⟩ | ⟨p, r, hp⟩ | ⟨ops, gaps, r, u, -, hu, rfl⟩
  · exact h
  · exact rest (OutsidePass.env _ _ _ he) (SameBusy.env _ _ _ he)
  · exact rest ((OutsidePass.isrPass p).ok hp) ((InPass.isrPass p).ok hp).1
  · obtain ⟨hn, hb⟩ := OutsidePass.command hu hpass
    exact atRest_iff.2 ⟨hn, hb ▸ hbusy, rfl⟩

end Sys2Proof.Machine
end

section
/-! SUPPORT. The packet RAM (R28, R34(c), R105 to R109): what an allocation and the descriptor written after it keep of the ranges, if nothing
that changes `EpTable` or the cursor comes between the two (R207). -/

namespace Sys2Proof.Machine

/-- An allocation that fits does not wrap: RAM_SIZE is small enough (R7). -/
theorem cursor_advance {s : State} {size : Half} (hw : s.cfg.wf = true) (hf : allocFails s size = false) :
    (s.ramOffset + size.setWidth 32).toNat = s.ramOffset.toNat + size.toNat ∧ s.ramOffset.toNat + size.toNat ≤ s.cfg.ramSize := by
  have hsize : s.cfg.ramSize ≤ 4294966271 := by
    simp only [Config.wf, Bool.and_eq_true, decide_eq_true_eq] at hw
    obtain ⟨⟨⟨⟨⟨⟨-, hsize⟩, -⟩, -⟩, -⟩, -⟩, -⟩ := hw
    exact hsize
  have hfit : s.ramOffset.toNat + size.toNat ≤ s.cfg.ramSize := by simpa [allocFails] using hf
  refine ⟨?_, hfit⟩
  have := size.isLt
  rw [BitVec.toNat_add, BitVec.toNat_setWidth, Nat.mod_eq_of_lt (a := size.toNat) (by omega), Nat.mod_eq_of_lt (by omega)]

/-! The ranges. -/

theorem twoConfigured_iff {s : State} {i j : Nat} :
    s.twoConfigured i j = true ↔ s.configured i = true ∧ s.configured j = true ∧ i ≠ j := by
  simp [State.twoConfigured, and_assoc]

theorem configured_ne_zero {s : State} {i : Nat} (h : s.configured i = true) : i ≠ 0 := by
  simp only [State.configured, Bool.and_eq_true, decide_eq_true_eq] at h
  exact h.1

theorem configured_congr {s t : State} {i : Nat} (h : i ≠ 0 → (s.desc i).SameRange (t.desc i)) : t.configured i = s.configured i := by
  by_cases hi : i = 0
  · simp [State.configured, hi]
  · simp [State.configured, (h hi).1]

theorem rangeEnd_congr {s t : State} {i : Nat} (h : (s.desc i).SameRange (t.desc i)) : t.rangeEnd i = s.rangeEnd i := by
  simp [State.rangeEnd, h.1, h.2.1]

theorem RamDisjoint_congr {s t : State} (h : s.RamDisjoint) (hc : t.cfg = s.cfg) (ho : t.ramOffset = s.ramOffset)
    (hd : ∀ i ≠ 0, (s.desc i).SameRange (t.desc i)) : t.RamDisjoint := by
  obtain ⟨hcur, hend, hdis⟩ := h
  have hconf : ∀ i, t.configured i = s.configured i := fun i => configured_congr (hd i)
  refine ⟨ho ▸ hc ▸ hcur, fun i hi hci => ?_, fun i hi j hj hij => ?_⟩
  · rw [rangeEnd_congr (hd i (configured_ne_zero hci)), ho]
    exact hend i (hc ▸ hi) (hconf i ▸ hci)
  · obtain ⟨hci, hcj, hne⟩ := twoConfigured_iff.1 hij
    have hdi := hd i (configured_ne_zero hci)
    have hdj := hd j (configured_ne_zero hcj)
    rw [rangeEnd_congr hdi, rangeEnd_congr hdj, hdi.2.1, hdj.2.1]
    exact hdis i (hc ▸ hi) j (hc ▸ hj) (twoConfigured_iff.2 ⟨hconf i ▸ hci, hconf j ▸ hcj, hne⟩)

theorem RamDisjoint_zeroBlock (s : State) : (zeroBlock s).RamDisjoint := by
  have hn : ∀ i, (zeroBlock s).configured i = false := fun i => by simp [State.configured, EpDesc.zero]
  exact ⟨Nat.zero_le _, by simp [hn], by simp [State.twoConfigured, hn]⟩

/-- The new range is the arena from the old cursor on; every other ended at or below it. -/
theorem RamDisjoint_configureDesc {s u : State} (h : s.RamDisjoint) (hw : s.cfg.wf = true) {mps : Half}
    (hf : allocFails s mps = false) (i : Nat) (ty : XferType) (hc : u.cfg = s.cfg) (ht : u.epTable = s.epTable)
    (ho : u.ramOffset = s.ramOffset + mps.setWidth 32) : (configureDesc i mps s.ramOffset ty u).RamDisjoint := by
  obtain ⟨hadd, hfit⟩ := cursor_advance hw hf
  obtain ⟨-, hend, hdis⟩ := h
  generalize ht' : configureDesc i mps s.ramOffset ty u = t
  have hcfg : t.cfg = s.cfg := by rw [← ht', configureDesc, State.setDesc_cfg, hc]
  have hcur : t.ramOffset.toNat = s.ramOffset.toNat + mps.toNat := by
    rw [← ht', configureDesc, State.setDesc_ramOffset, ho, hadd]
  have hdesc : ∀ j, t.desc j = s.desc j ∨ j = i ∧ (t.desc j).ramBase = s.ramOffset ∧ t.rangeEnd j = t.ramOffset.toNat := fun j => by
    have hold : ∀ k, u.desc k = s.desc k := fun k => by simp only [State.desc, ht]
    rw [hcur, State.rangeEnd, ← ht', configureDesc]
    rcases desc_setDesc_cases u i j fun d => { d with mps := mps, ramBase := s.ramOffset, xferType := ty } with e | ⟨hj, e⟩ <;> rw [e]
    · exact .inl (hold j)
    · exact .inr ⟨hj, rfl, rfl⟩
  have hsame : ∀ {j}, t.desc j = s.desc j → (s.desc j).SameRange (t.desc j) := fun e => e ▸ ⟨rfl, rfl, rfl⟩
  have hbelow : ∀ j < t.cfg.nEp, t.configured j = true → t.desc j = s.desc j → t.rangeEnd j ≤ s.ramOffset.toNat := fun j hj hcj e => by
    rw [rangeEnd_congr (hsame e)]
    exact hend j (hcfg ▸ hj) (configured_congr (fun _ => hsame e) ▸ hcj)
  refine ⟨by rw [hcfg]; omega, fun j hj hcj => ?_, fun j hj k hk hjk => ?_⟩
  · rcases hdesc j with e | ⟨-, -, e⟩
    · have := hbelow j hj hcj e
      omega
    · exact Nat.le_of_eq e
  · obtain ⟨hcj, hck, hne⟩ := twoConfigured_iff.1 hjk
    rcases hdesc j with ej | ⟨rfl, bj, -⟩ <;> rcases hdesc k with ek | ⟨rfl, bk, -⟩
    · have hold := hdis j (hcfg ▸ hj) k (hcfg ▸ hk) (twoConfigured_iff.2
        ⟨configured_congr (fun _ => hsame ej) ▸ hcj, configured_congr (fun _ => hsame ek) ▸ hck, hne⟩)
      rwa [rangeEnd_congr (hsame ej), rangeEnd_congr (hsame ek), ej, ek]
    · exact .inl (bk ▸ hbelow j hj hcj ej)
    · exact .inr (bj ▸ hbelow k hk hck ek)
    · exact absurd rfl hne

/-! What a step whose commands no pass preempts keeps. -/

/-- The ranges are disjoint in a part the spec allows, and no pass is scheduled among a command's accesses. -/
def State.Arena (s : State) : Prop := s.cfg.wf = true ∧ s.RamDisjoint ∧ noPass s.taskGaps = true

theorem State.Arena.disjoint {s : State} : s.Arena → s.RamDisjoint := fun ⟨_, h, _⟩ => h

/-- `EpTable` and the cursor are the same, and a schedule without passes has none after. -/
def SameArena (s t : State) : Prop :=
  noPass s.taskGaps = true → noPass t.taskGaps = true ∧ t.cfg = s.cfg ∧ t.epTable = s.epTable ∧ t.ramOffset = s.ramOffset

theorem SameArena.order : Order SameArena where
  refl _ h := ⟨h, rfl, rfl, rfl⟩
  trans h1 h2 h := by
    obtain ⟨hg, hc, ht, ho⟩ := h1 h
    obtain ⟨hg', hc', ht', ho'⟩ := h2 hg
    exact ⟨hg', hc'.trans hc, ht'.trans ht, ho'.trans ho⟩

theorem SameArena.env (e : EnvStep) (s t : State) (h : envApply e s = some t) : SameArena s t := by
  obtain ⟨c, l, k, m, r, n, -, rfl⟩ := envApply_outside h
  exact fun hg => ⟨hg, rfl, rfl, rfl⟩

theorem SameArena.regWrite (r : Reg) (v : Word) (s : State) : SameArena s (regWrite r v s) :=
  fun hg => ⟨by simpa using hg, by simp, by simp, by simp⟩

theorem SameArena.keeps {s t : State} (h : SameArena s t) : Keeps State.Arena s t := fun ⟨hw, hr, hg⟩ => by
  obtain ⟨hg', hc, ht, ho⟩ := h hg
  have hd : ∀ i, t.desc i = s.desc i := fun i => by simp only [State.desc, ht]
  exact ⟨⟨hc ▸ hw, RamDisjoint_congr hr hc ho fun i _ => by rw [hd]; exact ⟨rfl, rfl, rfl⟩, hg'⟩, hc⟩

theorem State.Arena.cmd : CmdRules (Keeps State.Arena) where
  toOrder := Keeps.order _
  reg r v s := (SameArena.regWrite r v s).keeps
  tx f b s := SameArena.keeps fun hg => ⟨by simpa using hg, by simp, by simp, by simp⟩
  rx f s := SameArena.keeps fun hg => ⟨by simpa using hg, by simp, by simp, by simp⟩
  mem _ _ _ _ _ h := ⟨h, rfl⟩
  port _ _ h := ⟨h, rfl⟩
  free _ _ h := ⟨h, rfl⟩
  busy _ _ _ _ h := h
  clock _ _ _ h := ⟨h, rfl⟩
  handle _ _ h := ⟨h, rfl⟩
  irq _ _ h := ⟨h, rfl⟩
  slot i b cb s := fun ⟨hw, hr, hg⟩ => ⟨⟨hw, RamDisjoint_congr hr rfl rfl fun j _ => desc_slot s i j b cb, hg⟩, rfl⟩
  status _ h := ⟨h, rfl⟩
  zero s := fun ⟨hw, _, hg⟩ => ⟨⟨hw, RamDisjoint_zeroBlock s, hg⟩, rfl⟩

/-- The descriptor of `i` is written at the end, and nothing else changes `EpTable` or the cursor on the way. -/
def Placed (i : Nat) (mps : Half) (base : Word) (ty : XferType) (s t : State) : Prop :=
  ∃ u, SameArena s u ∧ t = configureDesc i mps base ty u

theorem Placed.keeps {s t : State} {mps : Half} (hf : allocFails s mps = false) {i : Nat} {ty : XferType}
    (h : Placed i mps s.ramOffset ty { s with ramOffset := s.ramOffset + mps.setWidth 32, allocRet := s.ramOffset } t) :
    Keeps State.Arena s t := by
  obtain ⟨u, hu, rfl⟩ := h
  intro ⟨hw, hr, hg⟩
  obtain ⟨hg', hc, ht, ho⟩ := hu hg
  exact ⟨⟨hc ▸ hw, RamDisjoint_configureDesc hr hw hf i ty hc ht ho, hg'⟩, hc⟩

section

variable {g : Agent} (hg : Run SameArena g.point)
include hg

/-- A piece that leaves `EpTable` and the cursor alone, before the rest of EP_CONFIGURE. -/
theorem Placed.wr_bind {i : Nat} {mps : Half} {base : Word} {ty : XferType} {p : Prog Unit} (r : Reg) (v : Word)
    (hp : Run (Placed i mps base ty) p) : Run (Placed i mps base ty) (wr g r v >>= fun _ => p) :=
  .seq (hg.bind SameArena.order fun _ => .upd (SameArena.regWrite r v)) (fun _ => hp)
    fun hst ⟨u, hu, ht⟩ => ⟨u, SameArena.order.trans hst hu, ht⟩

/-- From the allocation on, EP_CONFIGURE keeps the ranges disjoint (R109). -/
theorem State.Arena.configureEndpoint (a : Byte) (i : Nat) (mps : Half) (ty : XferType) :
    Rel (Keeps State.Arena) (configureEndpoint g a i mps ty) := by
  have o := Keeps.order State.Arena
  have place : ∀ base, Run (Placed i mps base ty) (ownUpd g (configureDesc i mps base ty)) := fun base =>
    .seq (S := fun s t => t = configureDesc i mps base ty s) hg (fun _ => .upd fun _ => rfl) fun hst ht => ⟨_, hst, ht⟩
  refine (Run.look o _).rel.bind o fun c => (hg.mono SameArena.keeps).rel.bind o fun _ s => ?_
  rw [bind_run]
  cases hf : allocFails s mps with
  | true =>
    simp only [allocRam, hf, if_true]
    exact o.refl s
  | false =>
    simp only [allocRam, hf, Bool.false_eq_true, if_false]
    have tail := Placed.wr_bind hg (.epbufstart i) s.ramOffset <| Placed.wr_bind hg (.epbufend i) (s.ramOffset + mps.setWidth 32 - 1) <|
      Placed.wr_bind hg (.epmps i) (mps.setWidth 32) <| Placed.wr_bind hg (.eprspctl i) (rspctlValue c.bitmap ty) <|
      Placed.wr_bind hg (.epcfg i) (epcfgValue c.bitmap ty (dirIn a) i) <| place s.ramOffset
    exact tail.rel.at_imp (Placed.keeps hf)

theorem State.Arena.epConfigure (a : Byte) (mps : Half) (ty : XferType) : Rel (Keeps State.Arena) (epConfigure g a mps ty) := by
  have o := Keeps.order State.Arena
  refine (Rel.checkCap o a mps ty).bind o fun _ => .ite (Run.upd fun s => ?_).rel ?_
  · exact fun ⟨hw, hr, hg⟩ => ⟨⟨hw, RamDisjoint_congr hr rfl rfl fun i hi => s.desc_setDesc_other _ hi ▸ ⟨rfl, rfl, rfl⟩, hg⟩, rfl⟩
  · exact (Run.look o _).rel.bind o fun c => (Run.rd o (hg.mono SameArena.keeps) _).rel.bind o fun v =>
      .ite (.raise o _) (State.Arena.configureEndpoint hg a _ mps ty)

end

/-! The agents' gaps. -/

theorem noPass_cons {l : List TaskAct} {r : List (List TaskAct)} (h : noPass (l :: r) = true) :
    (∀ p, .isr p ∉ l) ∧ noPass r = true := by
  unfold noPass at h
  rw [List.all_cons, Bool.and_eq_true] at h
  exact ⟨fun p hp => (nomatch List.all_eq_true.1 h.1 _ hp), h.2⟩

theorem SameArena.runTaskGap {l : List TaskAct} (h : ∀ p, .isr p ∉ l) : Run SameArena (runTaskGap l) := by
  induction l with
  | nil => exact .done SameArena.order
  | cons a r ih =>
    cases a with
    | env e => exact (Run.envStep SameArena.env e).bind SameArena.order fun _ => ih fun p hp => h p (List.mem_cons_of_mem _ hp)
    | isr p => exact absurd (List.mem_cons_self ..) (h p)

theorem SameArena.callbackPoint : Run SameArena callbackPoint :=
  .callbackPoint SameArena.order SameArena.env fun _ _ hg => ⟨hg, rfl, rfl, rfl⟩

theorem SameArena.taskPoint : Run SameArena taskPoint := by
  have hraise : Run Any Machine.taskPoint := .taskPoint Any.order
    (.runTaskGap Any.order (fun _ _ _ _ => trivial) (Any.pass.isrPass (fun _ _ => trivial) fun _ => trivial)) fun _ _ => trivial
  refine .of (fun {s t a} ht hg => ?_) hraise.not_raised
  unfold Machine.taskPoint at ht
  split at ht
  · cases ht
    exact SameArena.order.refl s hg
  · next l r hgaps =>
    obtain ⟨hl, hr⟩ := noPass_cons (hgaps ▸ hg)
    have hrun : SameArena { s with taskGaps := r } t := (SameArena.runTaskGap hl).ok ht
    exact hrun hr

theorem SameArena.cmdPoint : Run SameArena cmdAgent.point := .cmdPoint (fun s _ => SameArena.callbackPoint s) SameArena.taskPoint

theorem State.Arena.pass : PassRules (Keeps State.Arena) :=
  PassPieces.pass_of_blind (seq := fun _ _ _ h => ⟨h, rfl⟩)
    { toOrder := Keeps.order _
      reg := State.Arena.cmd.reg
      env := fun e s t h => (SameArena.env e s t h).keeps
      turn := .hostTurn_of_cmd State.Arena.cmd (fun e s t h => (SameArena.env e s t h).keeps) (fun _ _ h => ⟨h, rfl⟩)
        (fun _ _ h => ⟨h, rfl⟩) (State.Arena.epConfigure SameArena.callbackPoint)
      own := fun _ _ _ _ _ _ _ h => ⟨h, rfl⟩ }

/-- A step that meets R207's condition keeps the ranges disjoint. -/
theorem RamDisjoint_step {s t : State} (hw : s.cfg.wf = true) (hr : s.RamDisjoint) (hg : s.taskGaps = [])
    (hs : ∀ ops gaps r, s.script = .cmd ops gaps :: r → noPass gaps = true) (ht : step s = .next t) : t.RamDisjoint := by
  have h : ∀ r, State.Arena { s with script := r } := fun r => ⟨hw, hr, by rw [hg]; rfl⟩
  rcases step_next ht with rfl | ⟨e, r, he⟩ | ⟨p, r, hp⟩ | ⟨ops, gaps, r, u, hscript, hu, rfl⟩
  · exact hr
  · exact ((SameArena.env _ _ _ he).keeps (h r)).1.disjoint
  · exact ((State.Arena.pass.isrPass (fun _ _ h => ⟨h, rfl⟩) (fun _ h => ⟨h, rfl⟩) p).ok hp (h r)).1.disjoint
  · have hstart : State.Arena (startCommand ops gaps { s with script := r }) := ⟨hw, hr, hs ops gaps r hscript⟩
    have hrun := Run.command_run State.Arena.cmd (SameArena.cmdPoint.mono SameArena.keeps) (State.Arena.epConfigure SameArena.cmdPoint) hu
    exact (hrun hstart).1.disjoint

end Sys2Proof.Machine
end

section
/-! SUPPORT. The operations of `exec`, command by command and event by event, and the cursor under them (R28, R106). -/

namespace Sys2Proof.Machine

open Sys2Proof.Claims

/-- An operation that is no event and not the allocator is a command: its program, settled (R24). -/
theorem exec_of_command {i : Instr} (he : isEvent i = false) (ha : ∀ n, i ≠ .alloc n) (s : State) :
    exec i s = run (command cmdAgent i) s := by
  cases i
  case alloc n => exact absurd rfl (ha n)
  case attach | detach | reset | setAddress | setStatusCallback | epCheckCap | epConfigure | epSetStall | epClearStall | epIsStalled |
      epEnable | epDisable | epFlush | epWrite | epRead | epReadWait | epReadContinue | epSetCallback | epMps | readPeek | statusZlp |
      reservedOpcode => rfl
  all_goals cases he

/-- What every event and every dispatcher respects. -/
theorem Run.event {R : State → State → Prop} (h : DispatchRules R) {i : Instr} (hi : isEvent i = true) {s t : State}
    (ht : exec i s = .next t) : R s t := by
  have guarded : ∀ {b : Bool} {p : Prog Unit}, Run R p → Machine.outcome (guardEp b p) s = .next t → R s t := fun hp ho =>
    (Run.ite hp (.refuse _)).outcome ho
  have bus : ∀ e : BusEvent, exec e.instr s = .next t → R s t := fun e ho =>
    (Run.busEvent h.toNoticeRules e).outcome (exec_busEvent e s ▸ ho)
  have cep : ∀ e : CepEvent, exec e.instr s = .next t → R s t := fun e ho =>
    (Run.cepEvent h.toEventRules e).outcome (exec_cepEvent e s ▸ ho)
  cases i
  case gintBus => exact (Run.busDispatch h.toScanRules).outcome ht
  case gintCep => exact (Run.cepDispatch h).outcome ht
  case gintEp k => exact guarded (.epDispatch h.toScanRules k) ht
  case busReset => exact bus (.named .reset) ht
  case busResume => exact bus (.named .resume) ht
  case busSuspend => exact bus (.named .suspend) ht
  case busHighSpeed => exact bus (.named .highSpeed) ht
  case busDmaDone => exact bus (.named .dmaDone) ht
  case busVbus => exact bus (.named .vbus) ht
  case busUnrecognised b => exact bus (.other b) ht
  case cepSetupToken => exact cep (.named .setupToken) ht
  case cepSetupPkt => exact cep (.named .setupPkt) ht
  case cepOutToken => exact cep (.named .outToken) ht
  case cepInToken => exact cep (.named .inToken) ht
  case cepPing => exact cep (.named .ping) ht
  case cepTxComplete => exact cep (.named .txComplete) ht
  case cepRxComplete => exact cep (.named .rxComplete) ht
  case cepNakSent => exact cep (.named .nakSent) ht
  case cepStallSent => exact cep (.named .stallSent) ht
  case cepError => exact cep (.named .error) ht
  case cepStatusDone => exact cep (.named .statusDone) ht
  case cepBufFull => exact cep (.named .bufFull) ht
  case cepBufEmpty => exact cep (.named .bufEmpty) ht
  case cepUnrecognised b => exact cep (.other b) ht
  case epIn k w => exact guarded (.endpointIn h.toNoticeRules k w) ht
  case epOut k w => exact guarded (.endpointOut h.toNoticeRules k w) ht
  all_goals cases hi

/-- In a well-formed configuration the cursor is not lowered. -/
def CursorUp (s t : State) : Prop := s.cfg.wf = true → t.cfg = s.cfg ∧ s.ramOffset.toNat ≤ t.ramOffset.toNat

theorem CursorUp.order : Order CursorUp where
  refl _ _ := ⟨rfl, Nat.le_refl _⟩
  trans h1 h2 hw := by
    obtain ⟨hc, ho⟩ := h1 hw
    obtain ⟨hc', ho'⟩ := h2 (hc ▸ hw)
    exact ⟨hc'.trans hc, Nat.le_trans ho ho'⟩

/-- A change that leaves the cursor and the configuration alone. -/
theorem CursorUp.of_eq {s t : State} (hc : t.cfg = s.cfg) (ho : t.ramOffset = s.ramOffset) : CursorUp s t :=
  fun _ => ⟨hc, by rw [ho]⟩

theorem CursorUp.reg (r : Reg) (v : Word) (s : State) : CursorUp s (regWrite r v s) := .of_eq (by simp) (by simp)

/-- The one change of the cursor but for RESET's (R105, R106). -/
theorem CursorUp.alloc {size : Half} {s : State} (hf : allocFails s size = false) :
    CursorUp s { s with ramOffset := s.ramOffset + size.setWidth 32, allocRet := s.ramOffset } := fun hw =>
  ⟨rfl, (cursor_advance hw hf).1 ▸ Nat.le_add_right ..⟩

/-- What an undisturbed command changes. -/
theorem CursorUp.command : StatusRules (fun _ => True) (Along CursorUp) where
  toOrder := Along.order CursorUp.order
  reg r v s h := ⟨by simpa using h, CursorUp.reg r v s⟩
  tx f b s h := ⟨by simpa using h, .of_eq (by simp) (by simp)⟩
  rx f s h := ⟨by simpa using h, .of_eq (by simp) (by simp)⟩
  mem _ _ _ _ _ h := ⟨h, .of_eq rfl rfl⟩
  port _ _ h := ⟨h, .of_eq rfl rfl⟩
  free _ _ h := ⟨h, .of_eq rfl rfl⟩
  busy _ _ _ _ h := h
  clock _ _ _ h := ⟨h, .of_eq rfl rfl⟩
  handle _ _ h := ⟨h, .of_eq rfl rfl⟩
  irq _ _ h := ⟨h, .of_eq rfl rfl⟩
  slot _ _ _ _ h := ⟨h, .of_eq rfl rfl⟩
  status _ h := ⟨h, .of_eq rfl rfl⟩

theorem CursorUp.event : DispatchRules (Under CursorUp) :=
  .under (.under CursorUp.order (fun r v s _ => CursorUp.reg r v s) (fun _ _ => .of_eq rfl rfl) (fun _ _ => .of_eq rfl rfl)
    (fun _ _ => .of_eq rfl rfl) fun _ _ => .of_eq rfl rfl) (fun _ _ => .of_eq rfl rfl) fun _ _ => .of_eq rfl rfl

theorem CursorUp.epConfigure (a : Byte) (mps : Half) (ty : XferType) : Rel (Along CursorUp) (epConfigure cmdAgent a mps ty) :=
  .epConfigure CursorUp.command.toPieceRules (.cmdPoint_along CursorUp.order) (fun _ _ hf h => ⟨h, .alloc hf⟩)
    (fun _ _ _ _ _ _ h => ⟨h, .of_eq rfl rfl⟩) a mps ty

theorem CursorUp.execAlloc {size : Half} {s t : State} (ht : execAlloc size s = .next t) : CursorUp s t := by
  have hrel : Rel CursorUp (allocRam size >>= fun _ => done) :=
    Rel.bind CursorUp.order (fun u => by
      unfold allocRam
      cases hf : allocFails u size with
      | true => exact CursorUp.order.refl u
      | false => exact CursorUp.alloc hf) fun _ => (Run.done CursorUp.order).rel
  rcases outcome_next ht with h | ⟨e, u, h, rfl⟩
  · exact hrel.ok h
  · exact CursorUp.order.trans (hrel.raised h) (.of_eq rfl rfl)

end Sys2Proof.Machine
end

section

open Sys2Proof Sys2Proof.Machine Sys2Proof.Claims

/-- Settles O57: each conjunct is a closed fact about one state. -/
theorem resetStateMeetsTheInvariants : Obligations.ResetStateMeetsTheInvariants := by
  unfold Obligations.ResetStateMeetsTheInvariants
  refine ⟨⟨?wf, ?sized, ?named, ?counts, ?sequenced, ?typed, ?mem, ?clock⟩, ?rest, ?cursor, ?ends, ?apart⟩ <;> decide +kernel

/-- Settles O56: events run no command when undisturbed, the allocator and EP_CONFIGURE advance the cursor without a wrap, and no other
command but RESET touches it. -/
theorem onlyResetLowersTheCursor : Obligations.OnlyResetLowersTheCursor := by
  unfold Obligations.OnlyResetLowersTheCursor
  intro i s t hw hcmd hpass hreset ht
  cases he : isEvent i with
  | true => exact ((Run.event CursorUp.event he ht hpass).2 hw).2
  | false =>
    by_cases ha : ∃ n, i = .alloc n
    · obtain ⟨n, rfl⟩ := ha
      exact (CursorUp.execAlloc ht hw).2
    · rw [exec_of_command he (fun n hn => ha ⟨n, hn⟩)] at ht
      have hrel : Rel (Along CursorUp) (command cmdAgent i) :=
        .command_other CursorUp.command (.cmdPoint_along CursorUp.order) CursorUp.epConfigure i hreset
      exact (((Run.settle CursorUp.command.toStoreRules hrel).outcome ht hcmd).2 hw).2

/-- Settles O59, by what the step runs. -/
theorem everyStepEndsAtRest : Obligations.EveryStepEndsAtRest := by
  unfold Obligations.EveryStepEndsAtRest
  intro s t _ hrest ht
  exact hrest.step ht

/-- Settles O60: from the allocation to the descriptor's write nothing changes `EpTable` or the cursor. -/
theorem stepsKeepTheRangesDisjoint : Obligations.StepsKeepTheRangesDisjoint := by
  unfold Obligations.StepsKeepTheRangesDisjoint
  intro s t hgood hrest hram hscript ht
  obtain ⟨-, -, hgaps⟩ := atRest_iff.1 hrest
  exact RamDisjoint_step hgood.1 hram hgaps hscript ht

end

section
/-! SUPPORT. Memory under an operation: the bytes a read stores to are those it counted as available (R70, R120, R121), and nothing but a
transfer command stores (R187). -/

namespace Sys2Proof.Machine

open Sys2Proof.Claims

/-! A command from one state on: what it leaves, where its first pieces change nothing. -/

/-- What a sequence leaves, from what its first piece leaves here and its second one anywhere. -/
theorem Rel.at.bind {R : State → State → Prop} (o : Order R) {α β : Type} {p : Prog α} {f : α → Prog β} {s : State}
    (hp : Rel.at R s (p s)) (hf : ∀ a, Rel R (f a)) : Rel.at R s ((p >>= f) s) := by
  rw [bind_run]
  cases hs : p s with
  | ok a t =>
    rw [hs] at hp
    exact (hf a).at_imp (o.trans hp)
  | error e t =>
    rw [hs] at hp
    cases e <;> exact hp

/-- A first piece that moves no undisturbed state, then the rest from the same state. -/
theorem Rel.at.seq {R : State → State → Prop} (o : Order R) {α β : Type} {p : Prog α} {f : α → Prog β} {s : State}
    (hp : Rel (Along Eq) p) (h : s.CmdAlone) (hf : ∀ a, p s = .ok a s → Rel.at R s (f a s)) : Rel.at R s ((p >>= f) s) := by
  rw [bind_run]
  cases hs : p s with
  | ok a t =>
    obtain ⟨-, rfl⟩ := hp.ok hs h
    exact hf a hs
  | error e t =>
    cases e with
    | raise e =>
      obtain ⟨-, rfl⟩ := hp.raised hs h
      exact o.refl s
    | fault f => trivial
    | refuse r => trivial

/-- The checks of a transfer command, passed or not, change nothing (R117). -/
theorem xferCheck_still (a : Byte) (needIn nullPtr : Bool) : Rel (Along Eq) (xferCheck cmdAgent a needIn nullPtr) :=
  have o : Order (@Eq State) := ⟨fun _ => rfl, Eq.trans⟩
  .xferCheck (Along.order o) (.cmdPoint_along o) a needIn nullPtr

/-- `AvailCount(i)` of an undisturbed command (R120). -/
theorem availCount_alone {s : State} (h : s.CmdAlone) (i : Nat) :
    ∃ w : Word, availCount cmdAgent i s = .ok w s ∧ w.toNat = available s i := by
  by_cases h0 : i = 0
  · rw [available, if_pos h0]
    cases hl : s.lce with
    | none => exact ⟨0, ite_run h0 (bind_seq (own_quiet h.quiet _) (by rw [hl]; rfl)), rfl⟩
    | setup => exact ⟨BitVec.ofNat 32 Config.setupLen, ite_run h0 (bind_seq (own_quiet h.quiet _) (by rw [hl]; rfl)), rfl⟩
    | dataOut =>
      exact ⟨s.ctl.cepdatcnt, ite_run h0 (bind_seq (own_quiet h.quiet _) (by rw [hl]; exact rd_quiet h.quiet _)), rfl⟩
    | dataIn => exact ⟨0, ite_run h0 (bind_seq (own_quiet h.quiet _) (by rw [hl]; rfl)), rfl⟩
  · exact ⟨(s.ep i).epdatcnt, else_run h0 (rd_quiet h.quiet _), by rw [available, if_neg h0]⟩

/-- The number of bytes a read that is no peek copies and reports (R121). -/
theorem min_available {s : State} {a : Byte} {p m w : Word} (hw : w.toNat = available s (epIdx a)) (hp : isPeek p m = false) :
    min w.toNat m.toNat = readCount s a p m := by
  rw [hw, readCount, hp]
  rfl

theorem isPeek_eq_true {p m : Word} : isPeek p m = true ↔ p = 0 ∧ m = 0 := by simp [isPeek]

/-- EP_READ_WAIT from an undisturbed state: it stores at the buffer, as many bytes as it reports, and at the count word. -/
theorem Rel.at.epReadWait {P : State → State → Prop} {M : Nat → Prop} (hr : StoreRules M (Along P)) (hg : Run (Along P) cmdAgent.point)
    {s : State} (h : s.CmdAlone) {a : Byte} {p m c : Word} (hbuf : isPeek p m = false → ∀ k < readCount s a p m, M (p.toNat + k))
    (hcount : c ≠ 0 → ∀ k < 4, M (c.toNat + k)) : Rel.at (Along P) s (Machine.epReadWait cmdAgent a p m c s) := by
  have o := hr.toOrder
  refine .seq o (xferCheck_still a false _) h fun _ _ => ?_
  obtain ⟨w, hw, hn⟩ := availCount_alone h (epIdx a)
  rw [bind_ok hw]
  by_cases hp : p = 0 ∧ m = 0
  · rw [if_pos hp]
    exact (Run.report hr hg c _ hcount).rel s
  · have hpeek : isPeek p m = false := by rwa [← Bool.not_eq_true, isPeek_eq_true]
    rw [if_neg hp, min_available hn hpeek]
    exact ((Run.readBytes hr hg _ p _ (hbuf hpeek)).bind o fun _ => .report hr hg c _ hcount).rel s

/-! Memory outside a set of addresses. -/

/-- Memory reads as before outside the addresses `M`. -/
def SameOutside (M : Nat → Prop) (s t : State) : Prop := ∀ b, ¬M b → Memory.read t.mem b = Memory.read s.mem b

section

variable {M : Nat → Prop}

theorem SameOutside.order : Order (SameOutside M) := ⟨fun _ _ _ => rfl, fun h1 h2 b hb => (h2 b hb).trans (h1 b hb)⟩

/-- A change that leaves memory alone. -/
theorem SameOutside.of_mem {s t : State} (h : t.mem = s.mem) : SameOutside M s t := fun b _ => by rw [h]

theorem SameOutside.write (s : State) {a : Nat} (b : Byte) (ha : M a) : SameOutside M s { s with mem := Memory.write s.mem a b } :=
  fun _ hx => Memory.read_write_other s.mem b fun e => hx (e ▸ ha)

theorem SameOutside.command : StatusRules M (Along (SameOutside M)) where
  toOrder := Along.order SameOutside.order
  reg r v s h := ⟨by simpa using h, .of_mem (by simp)⟩
  tx f b s h := ⟨by simpa using h, .of_mem (by simp)⟩
  rx f s h := ⟨by simpa using h, .of_mem (by simp)⟩
  mem _ b s _ ha h := ⟨h, .write s b ha⟩
  port _ _ h := ⟨h, .of_mem rfl⟩
  free _ _ h := ⟨h, .of_mem rfl⟩
  busy _ _ _ _ h := h
  clock _ _ _ h := ⟨h, .of_mem rfl⟩
  handle _ _ h := ⟨h, .of_mem rfl⟩
  irq _ _ h := ⟨h, .of_mem rfl⟩
  slot _ _ _ _ h := ⟨h, .of_mem rfl⟩
  status _ h := ⟨h, .of_mem rfl⟩

theorem SameOutside.event : DispatchRules (Under (SameOutside M)) :=
  .under (.under SameOutside.order (fun r v s _ => .of_mem (by simp)) (fun _ _ => .of_mem rfl) (fun _ _ => .of_mem rfl)
    (fun _ _ => .of_mem rfl) fun _ _ => .of_mem rfl) (fun _ _ => .of_mem rfl) fun _ _ => .of_mem rfl

theorem SameOutside.point : Run (Along (SameOutside M)) cmdAgent.point := .cmdPoint_along SameOutside.order

theorem SameOutside.epConfigure (a : Byte) (mps : Half) (ty : XferType) :
    Rel (Along (SameOutside M)) (epConfigure cmdAgent a mps ty) :=
  .epConfigure SameOutside.command.toPieceRules SameOutside.point (fun _ _ _ h => ⟨h, .of_mem rfl⟩)
    (fun _ _ _ _ _ _ h => ⟨h, .of_mem rfl⟩) a mps ty

/-- A command that neither writes nor reads a packet stores nothing. -/
theorem SameOutside.command_other (i : Instr) (hw : ¬((∃ a p l c, i = .epWrite a p l c) ∨ i = .statusZlp))
    (hd : ¬((∃ a p m c, i = .epReadWait a p m c) ∨ (∃ a p m c, i = .epRead a p m c) ∨ ∃ a c, i = .readPeek a c)) :
    Rel (Along (SameOutside M)) (Machine.command cmdAgent i) :=
  .command_of SameOutside.command.toPieceRules SameOutside.point i SameOutside.epConfigure
    (fun _ => (Run.upd fun _ h => ⟨h, .of_mem rfl⟩).rel) (fun h => absurd h hw) (fun h => absurd h hd)
    fun _ => .epReadContinue SameOutside.command SameOutside.point

end

/-- The count word of a command is at the four bytes from its pointer on. -/
theorem inCount_add {c : Word} (hc : c ≠ 0) {k : Nat} (hk : k < 4) : c ≠ 0 ∧ c.toNat ≤ c.toNat + k ∧ c.toNat + k < c.toNat + 4 :=
  ⟨hc, by omega, by omega⟩

/-- The buffer of a read. -/
theorem inBuffer_add {s : State} {a : Byte} {p m : Word} (hp : isPeek p m = false) {k : Nat} (hk : k < readCount s a p m) :
    isPeek p m = false ∧ p.toNat ≤ p.toNat + k ∧ p.toNat + k < p.toNat + readCount s a p m :=
  ⟨hp, by omega, by omega⟩

/-- An undisturbed command stores to no byte but those of its own. -/
theorem SameOutside.command_at {s : State} (h : s.CmdAlone) (i : Instr) :
    Rel.at (Along (SameOutside (storesAt i s))) s (Machine.command cmdAgent i s) := by
  have write : ∀ {M : Nat → Prop} {a : Byte} {p l c : Word}, (c ≠ 0 → ∀ k < 4, M (c.toNat + k)) →
      Rel (Along (SameOutside M)) (Machine.epWrite cmdAgent a p l c) := fun hm =>
    .epWrite SameOutside.command SameOutside.point _ _ _ _ hm
  have read : ∀ {M : Nat → Prop} {a : Byte} {p m c : Word}, (isPeek p m = false → ∀ k < readCount s a p m, M (p.toNat + k)) →
      (c ≠ 0 → ∀ k < 4, M (c.toNat + k)) → Rel.at (Along (SameOutside M)) s (Machine.epReadWait cmdAgent a p m c s) :=
    .epReadWait SameOutside.command.toStoreRules SameOutside.point h
  cases i
  case epWrite a p l c => exact write (fun hc _ hk => inCount_add hc hk) s
  case statusZlp => exact write (fun hc => absurd rfl hc) s
  case epReadWait a p m c => exact read (fun hp _ hk => .inl (inBuffer_add hp hk)) fun hc _ hk => .inr (inCount_add hc hk)
  case readPeek a c => exact read (fun hp => absurd hp (by decide)) fun hc _ hk => inCount_add hc hk
  case epRead a p m c =>
    refine .bind (Along.order SameOutside.order)
      (read (fun hp _ hk => .inl (inBuffer_add hp hk)) fun hc _ hk => .inr (inCount_add hc hk)) fun _ => ?_
    exact .ite (Run.done (Along.order SameOutside.order)).rel (.epReadContinue SameOutside.command SameOutside.point a)
  all_goals exact SameOutside.command_other _ (by simp) (by simp) s

/-- The allocator stores nothing. -/
theorem execAlloc_mem {size : Half} {s t : State} (ht : execAlloc size s = .next t) : t.mem = s.mem := by
  cases hf : allocFails s size with
  | true =>
    have hr : (allocRam size >>= fun _ => done) s = .error (.raise .outOfSpace) s := bind_error (by simp [allocRam, hf])
    rw [execAlloc, outcome_raise hr] at ht
    cases ht
    rfl
  | false =>
    have hr : (allocRam size >>= fun _ => done) s
        = .ok () { s with ramOffset := s.ramOffset + size.setWidth 32, allocRet := s.ramOffset } :=
      bind_seq (a := s.ramOffset) (by simp [allocRam, hf]) (done_run _)
    rw [execAlloc, outcome_ok hr] at ht
    cases ht
    rfl

end Sys2Proof.Machine
end

section

open Sys2Proof Sys2Proof.Machine Sys2Proof.Claims

/-- Settles O37: events and the allocator store nothing, a command only at its count word and its buffer. -/
theorem operationsStoreOnlyTheirBytes : Obligations.OperationsStoreOnlyTheirBytes := by
  unfold Obligations.OperationsStoreOnlyTheirBytes
  intro i s t hcmd hpass ht b hb
  cases he : isEvent i with
  | true => exact (Run.event SameOutside.event he ht hpass).2 b hb
  | false =>
    by_cases ha : ∃ n, i = .alloc n
    · obtain ⟨n, rfl⟩ := ha
      rw [execAlloc_mem ht]
    · rw [exec_of_command he fun n hn => ha ⟨n, hn⟩] at ht
      have hrel := SameOutside.command_at hcmd i
      rcases run_next ht with ⟨u, hu, rfl⟩ | ⟨e, u, hu, rfl⟩
      · rw [hu] at hrel
        exact (hrel hcmd).2 b hb
      · rw [hu] at hrel
        exact (hrel hcmd).2 b hb

end

section
/-! SUPPORT. The SETUP packet from SIE to the HOST, undisturbed: the latch (R171), the snapshot (R113), the copy (R121). -/

namespace Sys2Proof.Machine

open Sys2Proof.Claims

/-! The SETUP step of SIE and the SETUP-packet event. -/

theorem sieRun_setup (s : State) (b0 b1 b2 b3 b4 b5 b6 b7 : Byte) :
    sieRun s (.setup b0 b1 b2 b3 b4 b5 b6 b7) = .next (raiseCep .setupPkt (raiseCep .setupToken
      { s with ctl.cepsetup := ⟨setupWord b0 b1, setupWord b2 b3, setupWord b4 b5, setupWord b6 b7⟩ })) :=
  (step_env rfl).trans (outcome_ok (envStep_allowed rfl))

theorem snapWord_alone {s : State} (h : s.PassAlone) (k : Fin 4) :
    snapWord k s = .ok () { s with setupSnap := s.setupSnap.set k (s.ctl.cepsetup.get k) } :=
  bind_seq (rd_quiet h.quiet _) (by simp [regRead])

theorem callback_alone {s : State} (h : s.PassAlone) (w : Word) (a : Byte) (e : EpNotice) :
    callback w a e s = .ok () (called w a e s) := by
  unfold callback called
  split
  · rfl
  · simp [hostTurn, h.2]

/-- The Setup-packet handler: the four words, the last event, the follow-on enables, the state, the callback (R113). -/
theorem handleSetupPkt_alone {s : State} (h : s.PassAlone) :
    handleSetupPkt s = .ok () (called (s.desc 0).callbackOut 0x00 .setup
      { s with
        setupSnap := s.ctl.cepsetup
        lce := .setup
        ctl.cepinten := s.ctl.cepinten ||| s.cfg.cepFollowOn
        ctrlState := .setup }) := by
  refine bind_seq (look_run _ _) (bind_seq (snapWord_alone h 0) (bind_seq (snapWord_alone (by exact h) 1) ?_))
  refine bind_seq (snapWord_alone (by exact h) 2) (bind_seq (snapWord_alone (by exact h) 3) (bind_seq (upd_run _ _) ?_))
  refine bind_seq (rset_quiet (State.PassAlone.quiet (by exact h)) _ _) (bind_seq (upd_run _ _) (bind_seq (look_run _ _) ?_))
  exact callback_alone (by exact h) _ _ _

theorem exec_cepSetupPkt_alone {s : State} (h : s.PassAlone) :
    exec .cepSetupPkt s = .next (called (s.desc 0).callbackOut 0x00 .setup
      { s with
        ctl.cepintsts := s.ctl.cepintsts &&& ~~~bit s.cfg.bitmap.cepSetupPkt
        setupSnap := s.ctl.cepsetup
        lce := .setup
        ctl.cepinten := s.ctl.cepinten ||| s.cfg.cepFollowOn
        ctrlState := .setup }) :=
  outcome_ok (bind_seq (look_run _ _) (bind_seq (wr_quiet h.quiet _ _)
    (handleSetupPkt_alone (by exact h))))

/-- A callback whose HOST returns at once moves the record of calls and nothing else. -/
theorem called_calls (w : Word) (a : Byte) (e : EpNotice) (s : State) : ∃ c, called w a e s = { s with calls := c } := by
  unfold called
  split
  · exact ⟨s.calls, rfl⟩
  · exact ⟨_, rfl⟩

/-! The read of the snapshot. -/

/-- Byte `j` of the count word, least significant first (R70). -/
theorem countByte_ofNat (n : Nat) {j : Nat} (hj : j < 4) : countByte (BitVec.ofNat 32 n) j = BitVec.ofNat 8 (n / 2 ^ (8 * j)) := by
  apply BitVec.eq_of_getLsbD_eq
  intro i hi
  simp only [countByte, BitVec.getLsbD_extractLsb', BitVec.getLsbD_ofNat, Nat.testBit_div_two_pow, hi, show i + 8 * j < 32 by omega,
    decide_true, Bool.true_and, Nat.add_comm]

/-- The count word as the statements write it (R70, R118). -/
theorem countBytes_putCount (m : List Host.Cell) (cptr : Word) (n : Nat) :
    (if cptr = 0 then m else putBytes m cptr.toNat (countBytes n)) = putCount m cptr n := by
  simp only [countBytes, countByte_ofNat n (show 0 < 4 by omega), countByte_ofNat n (show 1 < 4 by omega),
    countByte_ofNat n (show 2 < 4 by omega), countByte_ofNat n (show 3 < 4 by omega), putCount, Nat.reduceMul, Nat.reducePow, Nat.div_one]

/-- The results of an undisturbed transfer (R118, R121). -/
theorem report_alone {s : State} (h : s.CmdAlone) {cptr : Word} (n : Nat) (hc : countFits s cptr) :
    report cmdAgent cptr n s = .ok () { s with mem := putCount s.mem cptr n, port.val := BitVec.ofNat 32 n } := by
  rw [report_calm (h.calm 4) cptr n fun h0 k hk => ?inside, State.CmdAlone.skip (by exact h), countBytes_putCount]
  · rfl
  case inside =>
    obtain ⟨htop, hw⟩ := hc h0
    exact ⟨by simp only [Config.hostTop]; omega, hw k hk⟩

/-- The first bytes of the SETUP packet as the copy loop makes them (R69, R121). -/
theorem setupBytes_take (q : Quad Half) {n : Nat} (hn : n ≤ 8) :
    (List.range n).map (fun k => if h : 0 + k < 8 then setupByte q ⟨0 + k, h⟩ else 0) = (setupBytes q).take n := by
  have all : (List.range 8).map (fun k => if h : 0 + k < 8 then setupByte q ⟨0 + k, h⟩ else 0) = setupBytes q := rfl
  rw [← all, ← List.map_take, List.take_range, Nat.min_eq_left hn]

/-- EP_READ_WAIT of the SETUP packet (R121). -/
theorem epReadWait_setup_alone {s : State} (h : s.CmdAlone) {a : Byte} {ptr max cptr : Word} (h0 : epIdx a = 0) (hl : s.lce = .setup)
    (hx : xferError s a false ptr max = none) (hpeek : isPeek ptr max = false) (hcount : countFits s cptr)
    (hbuf : writable s ptr (readCount s a ptr max)) :
    exec (.epReadWait a ptr max cptr) s = .next (reported
      { s with mem := putBytes s.mem ptr.toNat ((setupBytes s.setupSnap).take (readCount s a ptr max)) }
      cptr (readCount s a ptr max)) := by
  obtain ⟨htop, hw⟩ := hbuf
  have h8 : readCount s a ptr max ≤ 8 := by simp [readCount, hpeek, available, h0, hl]
  obtain ⟨w, hav, hn⟩ := availCount_alone h (epIdx a)
  have copy := copySetup_calm ptr (readCount s a ptr max) 0 s (h.calm _) (by omega)
    fun k hk => ⟨by simp only [Config.hostTop]; omega, by simpa using hw k hk⟩
  rw [setupBytes_take _ h8, State.CmdAlone.skip (by exact h)] at copy
  have hrun : epReadWait cmdAgent a ptr max cptr s = .ok () { s with
      mem := putCount (putBytes s.mem ptr.toNat ((setupBytes s.setupSnap).take (readCount s a ptr max))) cptr (readCount s a ptr max)
      port.val := BitVec.ofNat 32 (readCount s a ptr max) } := by
    refine bind_seq (xferCheck_passes h hx) (bind_seq hav (else_run (by simpa [isPeek] using hpeek) ?_))
    rw [min_available hn hpeek]
    exact bind_seq (bind_seq (own_quiet h.quiet _) (ite_run ⟨h0, hl⟩ copy)) (report_alone (by exact h) _ hcount)
  exact run_ok hrun

/-- The HOST reads the whole packet: eight bytes into its buffer and no count word. -/
theorem epReadWait_setup_eight {s : State} (h : s.CmdAlone) (hwf : Memory.wf s.mem = true) {a : Byte} {ptr : Word} (h0 : epIdx a = 0)
    (hl : s.lce = .setup) (hx : xferError s a false ptr 8 = none) (hw : writable s ptr 8) :
    ∃ v, exec (.epReadWait a ptr 8 0) s = .next v ∧ v.port.err = 0 ∧ v.port.val = 8 ∧ bytesAt v.mem ptr 8 = setupBytes s.setupSnap := by
  have hn : readCount s a ptr 8 = 8 := by simp [readCount, available, h0, hl]
  have hexec := epReadWait_setup_alone h h0 hl hx (by simp [isPeek]) (cptr := 0) (fun hc => absurd rfl hc) (hn ▸ hw)
  rw [hn] at hexec
  exact ⟨_, hexec, rfl, rfl, bytesAt_putBytes (setupBytes s.setupSnap) s.mem ptr.toNat hwf hw.1⟩

/-- The words SIE latches hold the bytes of the packet in order (R69, R171). -/
theorem setupBytes_setupWord (b0 b1 b2 b3 b4 b5 b6 b7 : Byte) :
    setupBytes ⟨setupWord b0 b1, setupWord b2 b3, setupWord b4 b5, setupWord b6 b7⟩ = [b0, b1, b2, b3, b4, b5, b6, b7] := by
  have lo : ∀ l h : Byte, (setupWord l h).setWidth 8 = l := fun l h => BitVec.setWidth_append_eq_right
  have hi : ∀ l h : Byte, (setupWord l h).extractLsb' 8 8 = h := fun l h => BitVec.extractLsb'_append_eq_left
  simp only [setupBytes, lo, hi]

end Sys2Proof.Machine
end

section

open Sys2Proof Sys2Proof.Machine Sys2Proof.Claims

/-- Settles O54: the latch, the snapshot and the buffer hold the same eight bytes. -/
theorem setupBytesReachTheHost : Obligations.SetupBytesReachTheHost := by
  unfold Obligations.SetupBytesReachTheHost
  intro s t u b0 b1 b2 b3 b4 b5 b6 b7 a ptr hcmd hpass hwf h0 hx hw ht hu
  obtain rfl := Host.Outcome.next.inj ((sieRun_setup ..).symm.trans ht)
  obtain rfl := Host.Outcome.next.inj ((exec_cepSetupPkt_alone (by exact hpass)).symm.trans hu)
  obtain ⟨c, hc⟩ := called_calls _ _ _ _
  rw [hc, ← setupBytes_setupWord b0 b1 b2 b3 b4 b5 b6 b7]
  exact epReadWait_setup_eight (by exact hcmd) (by exact hwf) h0 rfl (by exact hx) (by exact hw)

end

section
/-! SUPPORT. The encodings read back (R86 to R95): the words the encoder gives a command and a status event, and the operand bits a command reads. -/

namespace Sys2Proof

open Sys2Proof.Machine Sys2Proof.Claims

/-! Operand fields (R87 to R89): a field taken out of a register and put back is the register with its other bits zeroed. -/

theorem setWidth_setWidth_eq_and_lowMask (w : Word) (n : Nat) : (w.setWidth n).setWidth 32 = w &&& lowMask n := by
  apply word_ext
  intro p hp
  simp only [tst, lowMask, BitVec.getLsbD_and, BitVec.getLsbD_setWidth, BitVec.getLsbD_ofNat, Nat.testBit_two_pow_sub_one, hp,
    decide_true, Bool.true_and, Bool.and_comm]

/-- The endpoint address is the low byte of `x[1]` (R88). -/
theorem epAddr_extended (w : Word) : (w.setWidth 8).setWidth 32 = w &&& 0xFF#32 := setWidth_setWidth_eq_and_lowMask w 8

/-- The device address is the low seven bits of `x[5]` (R89). -/
theorem devAddr_extended (w : Word) : (w.setWidth 7).setWidth 32 = w &&& 0x7F#32 := setWidth_setWidth_eq_and_lowMask w 7

/-- The configuration word is the low eighteen bits of `x[5]`: every two-bit transfer type has a name (R89, R102). -/
theorem capWord_fields {e : EnumMap} (h : e.wf = true) (w : Word) :
    capWord e (w.setWidth 16) (XferType.ofBits e (w.extractLsb' 16 2)) = w &&& 0x3FFFF#32 := by
  rw [capWord, XferType.toBits_ofBits h, show (0x3FFFF#32 : Word) = lowMask 18 from rfl]
  apply word_ext
  intro p hp
  simp only [tst, lowMask, BitVec.getLsbD_or, BitVec.getLsbD_and, BitVec.getLsbD_setWidth, BitVec.getLsbD_shiftLeft,
    BitVec.getLsbD_extractLsb', BitVec.getLsbD_ofNat, Nat.testBit_two_pow_sub_one]
  by_cases h16 : p < 16
  · simp [h16, hp, show p < 18 by omega]
  · simp [h16, hp, show p - 16 < 32 by omega, show 16 + (p - 16) = p by omega, show p - 16 < 2 ↔ p < 18 by omega, Bool.and_comm]

/-! Commands. -/

theorem commandOpcode_iff {op : Word} : commandOpcode op = true ↔ 1 ≤ op.toNat ∧ op.toNat ≤ 0x13 := by simp [commandOpcode]

theorem not_commandOpcode_of_reserved {c : Config} {op : Word} (h : (Instr.reservedOpcode op).wellFormed c = true) :
    ¬(1 ≤ op.toNat ∧ op.toNat ≤ 0x13) :=
  fun hop => by simp [Instr.wellFormed, commandOpcode_iff.2 hop] at h

/-- R91's three ranges of reserved values, by the bits of `x[0]`. -/
theorem not_command_of_reserved_bits {op : Word}
    (h : op.extractLsb' 8 24 ≠ 0 ∨ op.extractLsb' 0 8 = 0x00#8 ∨ 0x14 ≤ (op.extractLsb' 0 8).toNat) :
    ¬(1 ≤ op.toNat ∧ op.toNat ≤ 0x13) := by
  rintro ⟨hlow, hhigh⟩
  have hbyte : (op.extractLsb' 0 8).toNat = op.toNat := by
    rw [BitVec.extractLsb'_toNat, Nat.shiftRight_zero, Nat.mod_eq_of_lt (by omega)]
  rcases h with h | h | h
  · refine h (BitVec.eq_of_toNat_eq ?_)
    simp [Nat.shiftRight_eq_div_pow, Nat.div_eq_of_lt (show op.toNat < 256 by omega)]
  · rw [h, BitVec.toNat_ofNat] at hbyte
    omega
  · omega

/-- The encoder's words of a command are port words, and decoding them gives the command back (R86 to R91, R104). -/
theorem decode_encode_command {c : Config} {i : Instr} (he : c.bitmap.enums.wf = true) (hi : isEvent i = false)
    (ha : ∀ n, i ≠ .alloc n) (hw : i.wellFormed c = true) :
    ∃ ws, encode c i = some (.cmd, ws) ∧ decode c .cmd ws = .ok i.canonical := by
  cases i
  case alloc n => exact absurd rfl (ha n)
  case reservedOpcode op => exact ⟨_, rfl, congrArg Except.ok (decodeCmd_reserved c _ (not_commandOpcode_of_reserved hw))⟩
  case attach | detach | reset | setStatusCallback | statusZlp => exact ⟨_, rfl, rfl⟩
  case setAddress => exact ⟨_, rfl, by rw [decode_portWords, decodeCmd_setAddress, address_roundTrip]; rfl⟩
  case epCheckCap | epConfigure =>
    refine ⟨_, rfl, ?_⟩
    simp only [decode_portWords, decodeCmd_checkCap, decodeCmd_configure, byte_roundTrip, capWord_mps, capWord_type,
      XferType.ofBits_toBits he]
    rfl
  case epSetStall | epClearStall | epIsStalled | epEnable | epDisable | epFlush | epWrite | epRead | epReadWait | epReadContinue |
      epSetCallback | epMps | readPeek =>
    refine ⟨_, rfl, ?_⟩
    simp only [decode_portWords, decodeCmd_setStall, decodeCmd_clearStall, decodeCmd_isStalled, decodeCmd_enable, decodeCmd_disable,
      decodeCmd_flush, decodeCmd_write, decodeCmd_read, decodeCmd_readWait, decodeCmd_readContinue, decodeCmd_setCallback,
      decodeCmd_mps, byte_roundTrip]
    rfl
  all_goals cases hi

/-- What the port's words decode to is a command that the encoder has words for, in its core form (R90, R91). -/
theorem decodeCmd_core (c : Config) (o : Operands) :
    isEvent (decodeCmd c o) = false ∧ (∀ n, decodeCmd c o ≠ .alloc n) ∧ (decodeCmd c o).wellFormed c = true
      ∧ (decodeCmd c o).canonical = decodeCmd c o := by
  by_cases h : 1 ≤ o.op.toNat ∧ o.op.toNat ≤ 0x13
  · unfold decodeCmd
    split
    case h_20 =>
      simp only [imp_false] at *
      omega
    all_goals exact ⟨rfl, nofun, rfl, rfl⟩
  · rw [decodeCmd_reserved c o h]
    exact ⟨rfl, nofun, by simpa [Instr.wellFormed, ← commandOpcode_iff] using h, rfl⟩

/-- Encoding what the port's words decode to keeps the bits the command reads and zeroes the others, opcode by opcode (R87 to R89). -/
theorem encode_decodeCmd {c : Config} {o : Operands} (he : c.bitmap.enums.wf = true) (hop : commandOpcode o.op = true) :
    encode c (decodeCmd c o) = some (.cmd, words (kept o)) := by
  obtain ⟨op, ep, ptr, len, cntptr, aux⟩ := o
  obtain ⟨n, hop, hlow, hhigh⟩ : ∃ n, op = BitVec.ofNat 32 n ∧ 1 ≤ n ∧ n ≤ 0x13 :=
    ⟨op.toNat, by simp, commandOpcode_iff.1 hop⟩
  subst hop
  interval_cases n <;> simp [encode, portWords, words, kept, epAddr_extended, devAddr_extended, capWord_fields he]

/-! Status words: the word with one bit set decodes to that bit's event (R92 to R95). -/

theorem decode_busPos {c : Config} (hc : c.wf = true) (b : BusBit) :
    decode c .busint [bit (c.bitmap.busPos b)] = .ok (BusEvent.named b).instr := by
  rw [decode_bus_bit, busEvent_pos _ _ (Config.bitmap_wf hc)]

theorem decode_cepPos {c : Config} (hc : c.wf = true) (b : CepBit) :
    decode c .cepint [bit (c.bitmap.cepPos b)] = .ok (CepEvent.named b).instr := by
  rw [decode_cep_bit, cepEvent_pos _ _ (Config.bitmap_wf hc)]

theorem decode_bus_unrecognised {c : Config} {p : Fin 32} (h : (Instr.busUnrecognised p).wellFormed c = true) :
    decode c .busint [bit p] = .ok (.busUnrecognised p) := by
  rw [decode_bus_bit, busEvent_other _ _ fun b => of_decide_eq_true (List.all_eq_true.1 h b (BusBit.mem_all b))]
  rfl

theorem decode_cep_unrecognised {c : Config} {p : Fin 32} (h : (Instr.cepUnrecognised p).wellFormed c = true) :
    decode c .cepint [bit p] = .ok (.cepUnrecognised p) := by
  rw [decode_cep_bit, cepEvent_other _ _ fun b => of_decide_eq_true (List.all_eq_true.1 h b (CepBit.mem_all b))]
  rfl

/-- An endpoint's status word is one event whatever bits are set; the index's parity is the direction (R95, R148). -/
theorem decode_epint {c : Config} {i : Nat} {w : Word} (hi : c.isEp i = true) (hw : w ≠ 0#32) :
    decode c (.epint i) [w] = .ok (if i % 2 = 1 then .epIn i w else .epOut i w) := by
  have hone : eventsOf c (.epint i) w = [if i % 2 = 1 then .epIn i w else .epOut i w] := by
    simp [eventsOf, hi, hw, apply_ite (fun e : Instr => [e])]
  simp only [decode, hone]

/-- The encoder's word of a status event decodes to the event (R86, R92 to R95). -/
theorem decode_encode_event {c : Config} {i : Instr} (hc : c.wf = true) (hi : isEvent i = true) (hw : i.wellFormed c = true) :
    ∃ f ws, encode c i = some (f, ws) ∧ decode c f ws = .ok i.canonical := by
  cases i
  case gintBus => exact ⟨_, _, rfl, decode_gBus c⟩
  case gintCep => exact ⟨_, _, rfl, decode_gCep c hc⟩
  case gintEp i => exact ⟨_, _, rfl, decode_gEp c hc i hw⟩
  case busReset => exact ⟨_, _, rfl, decode_busPos hc .reset⟩
  case busResume => exact ⟨_, _, rfl, decode_busPos hc .resume⟩
  case busSuspend => exact ⟨_, _, rfl, decode_busPos hc .suspend⟩
  case busHighSpeed => exact ⟨_, _, rfl, decode_busPos hc .highSpeed⟩
  case busDmaDone => exact ⟨_, _, rfl, decode_busPos hc .dmaDone⟩
  case busVbus => exact ⟨_, _, rfl, decode_busPos hc .vbus⟩
  case busUnrecognised p => exact ⟨_, _, rfl, decode_bus_unrecognised hw⟩
  case cepSetupToken => exact ⟨_, _, rfl, decode_cepPos hc .setupToken⟩
  case cepSetupPkt => exact ⟨_, _, rfl, decode_cepPos hc .setupPkt⟩
  case cepOutToken => exact ⟨_, _, rfl, decode_cepPos hc .outToken⟩
  case cepInToken => exact ⟨_, _, rfl, decode_cepPos hc .inToken⟩
  case cepPing => exact ⟨_, _, rfl, decode_cepPos hc .ping⟩
  case cepTxComplete => exact ⟨_, _, rfl, decode_cepPos hc .txComplete⟩
  case cepRxComplete => exact ⟨_, _, rfl, decode_cepPos hc .rxComplete⟩
  case cepNakSent => exact ⟨_, _, rfl, decode_cepPos hc .nakSent⟩
  case cepStallSent => exact ⟨_, _, rfl, decode_cepPos hc .stallSent⟩
  case cepError => exact ⟨_, _, rfl, decode_cepPos hc .error⟩
  case cepStatusDone => exact ⟨_, _, rfl, decode_cepPos hc .statusDone⟩
  case cepBufFull => exact ⟨_, _, rfl, decode_cepPos hc .bufFull⟩
  case cepBufEmpty => exact ⟨_, _, rfl, decode_cepPos hc .bufEmpty⟩
  case cepUnrecognised p => exact ⟨_, _, rfl, decode_cep_unrecognised hw⟩
  case epIn i w =>
    simp only [Instr.wellFormed, Bool.and_eq_true, decide_eq_true_eq] at hw
    obtain ⟨⟨hep, hodd⟩, hbits⟩ := hw
    exact ⟨_, _, rfl, (decode_epint hep hbits).trans (by rw [if_pos hodd]; rfl)⟩
  case epOut i w =>
    simp only [Instr.wellFormed, Bool.and_eq_true, decide_eq_true_eq] at hw
    obtain ⟨⟨hep, heven⟩, hbits⟩ := hw
    exact ⟨_, _, rfl, (decode_epint hep hbits).trans (by rw [if_neg (by omega)]; rfl)⟩
  all_goals cases hi

end Sys2Proof
end

section
/-! SUPPORT. The two abbreviations of R104, undisturbed: a peek reports what is available (R121), a status ZLP enters the status stage (R118). -/

namespace Sys2Proof.Machine

open Sys2Proof.Claims

/-- The status stage is entered (R118, R122). -/
theorem ackStatus_alone {s : State} (h : s.CmdAlone) : ackStatus cmdAgent s = .ok () (awaitStatus s) := by
  rw [ackStatus_calm (h.calm 5), State.CmdAlone.skip (by exact h)]
  rfl

/-- A peek reports the available count and moves no byte (R121). -/
theorem epReadWait_peek_alone {s : State} {a : Byte} {cptr : Word} (h : s.CmdAlone) (hx : xferError s a false 0 0 = none)
    (hc : countFits s cptr) : exec (.epReadWait a 0 0 cptr) s = .next (reported s cptr (available s (epIdx a))) := by
  obtain ⟨w, hav, hw⟩ := availCount_alone h (epIdx a)
  have hrun : epReadWait cmdAgent a 0 0 cptr s
      = .ok () { s with mem := putCount s.mem cptr (available s (epIdx a)), port.val := BitVec.ofNat 32 (available s (epIdx a)) } := by
    refine bind_seq (xferCheck_passes h hx) (bind_seq hav (ite_run ⟨rfl, rfl⟩ ?_))
    rw [hw]
    exact report_alone h _ hc
  exact run_ok hrun

/-- A control write with null operands enters the status stage and reports 0 (R118). -/
theorem epWrite_zlp_alone {s : State} {a : Byte} (h0 : epIdx a = 0) (h : s.CmdAlone) (hx : xferError s a true 0 0 = none) :
    exec (.epWrite a 0 0 0) s = .next (reported (awaitStatus s) 0 0) := by
  have hrun : epWrite cmdAgent a 0 0 0 s = .ok () { awaitStatus s with port.val := 0 } := by
    refine bind_seq (xferCheck_passes h hx) (ite_run h0 (bind_seq (own_quiet h.quiet _) (ite_run rfl ?_)))
    exact ite_run ⟨rfl, rfl⟩ (bind_seq (ackStatus_alone h) (report_alone (by exact h) 0 fun hc => absurd rfl hc))
  exact run_ok hrun

end Sys2Proof.Machine
end

section

open Sys2Proof Sys2Proof.Machine Sys2Proof.Claims

/-- Settles O1: a status event by its one bit, a command by its six operand registers. -/
theorem encodedInstructionDecodesToItself : Obligations.EncodedInstructionDecodesToItself := by
  unfold Obligations.EncodedInstructionDecodesToItself
  intro c i hc hw ha
  cases hi : isEvent i with
  | true => exact decode_encode_event hc hi hw
  | false =>
    obtain ⟨ws, henc, hdec⟩ := decode_encode_command (Config.enums_wf hc) hi ha hw
    exact ⟨.cmd, ws, henc, hdec⟩

/-- Settles O2: the encoder gives the read bits back, and decoding what it gives is the round trip of O1. -/
theorem commandReadsExactlyItsOperandBits : Obligations.CommandReadsExactlyItsOperandBits := by
  unfold Obligations.CommandReadsExactlyItsOperandBits
  intro c o he hop
  have henc := encode_decodeCmd he hop
  obtain ⟨hevent, halloc, hwf, hcore⟩ := decodeCmd_core c o
  obtain ⟨ws, hws, hdec⟩ := decode_encode_command he hevent halloc hwf
  obtain rfl : words (kept o) = ws := (Prod.mk.inj (Option.some.inj (henc.symm.trans hws))).2
  exact ⟨henc, (Except.ok.inj hdec).trans hcore⟩

/-- Settles O3: a command's words by evaluation, a status word as the word of the one bit set in it. -/
theorem writtenOutWordsDecode : Obligations.WrittenOutWordsDecode := by
  unfold Obligations.WrittenOutWordsDecode
  have hc : Config.default.wf = true := by decide
  exact ⟨rfl, rfl, rfl, rfl, rfl, congrArg Except.toOption (decode_gEp _ hc 2 rfl), congrArg Except.toOption (decode_busPos hc .vbus),
    congrArg Except.toOption (decode_cepPos hc .setupPkt), congrArg Except.toOption (decode_cepPos hc .statusDone),
    congrArg Except.toOption (decode_epint rfl (by decide))⟩

/-- Settles O4: a value with a set bit above bit 7, or with the low byte 0 or from 0x14 up, is no command's opcode. -/
theorem reservedOpcodeRaisesInvalidParameter : Obligations.ReservedOpcodeRaisesInvalidParameter := by
  unfold Obligations.ReservedOpcodeRaisesInvalidParameter
  intro c o s h
  exact ⟨decodeCmd_reserved c o (not_command_of_reserved_bits h), run_raise (raise_run _ s)⟩

/-- Settles O34: the abbreviations are their core forms by definition; a peek and a status ZLP are a count and a report. -/
theorem abbreviationsMeanTheirCoreForms : Obligations.AbbreviationsMeanTheirCoreForms := by
  unfold Obligations.AbbreviationsMeanTheirCoreForms
  intro s a cptr
  exact ⟨rfl, rfl, epReadWait_peek_alone, epWrite_zlp_alone (show epIdx 0x80 = 0 by decide)⟩

end

section
/-! SUPPORT. The two runs of `ALLOC` (R105). -/

namespace Sys2Proof.Machine

/-- The sum exceeds RAM_SIZE: the exception comes before any change, so only the error register differs. -/
theorem execAlloc_of_fails {size : Half} {s : State} (hf : allocFails s size = true) :
    execAlloc size s = .next { s with port.err := 5 } :=
  outcome_raise (e := .outOfSpace) (bind_error (by simp [allocRam, hf]))

/-- The sum fits: the cursor advances and the old one is returned. -/
theorem execAlloc_of_fits {size : Half} {s : State} (hf : allocFails s size = false) :
    execAlloc size s = .next { s with ramOffset := s.ramOffset + size.setWidth 32, allocRet := s.ramOffset } :=
  outcome_ok (bind_seq (a := s.ramOffset) (by simp [allocRam, hf]) (done_run _))

end Sys2Proof.Machine
end

section

open Sys2Proof Sys2Proof.Machine Sys2Proof.Claims

/-- Settles O17: the allocator's check decides which of its two runs is taken; RAM_SIZE is small enough that the advance does not wrap (R7). -/
theorem allocAdvancesOrFails : Obligations.AllocAdvancesOrFails := by
  unfold Obligations.AllocAdvancesOrFails
  intro s size hw
  constructor
  · intro hover
    have hf : allocFails s size = true := decide_eq_true hover
    exact execAlloc_of_fails hf
  · intro hfit
    have hf : allocFails s size = false := decide_eq_false (Nat.not_lt.2 hfit)
    exact ⟨execAlloc_of_fits hf, (cursor_advance hw hf).1⟩

end

section
/-! SUPPORT. The control endpoint's token and status events, undisturbed (R114 to R116). -/

namespace Sys2Proof.Machine

open Sys2Proof.Claims

/-- A control-endpoint event: its bit is cleared, then its handler runs (R136). -/
theorem cepEvent_alone {s t : State} (h : s.PassAlone) (e : CepEvent)
    (hh : cepHandler e { s with ctl.cepintsts := s.ctl.cepintsts &&& ~~~bit (cepPosition s.cfg.bitmap e) } = .ok () t) :
    exec e.instr s = .next t := by
  rw [exec_cepEvent]
  exact outcome_ok (bind_seq (look_run _ _) (bind_seq (wr_quiet h.quiet _ _) hh))

/-- No SETUP has been seen: the Out-token handler does nothing (R114). -/
theorem handleOutToken_idle {s : State} (hl : s.lce = .none) : handleOutToken s = .ok () s :=
  bind_seq (look_run _ _) (ite_run hl (done_run _))

/-- A SETUP has been seen: the sequencer moves to the data stage and the OUT callback is made (R114). -/
theorem handleOutToken_alone {s : State} (h : s.PassAlone) (hl : s.lce ≠ .none) :
    handleOutToken s
      = .ok () (called (s.desc 0).callbackOut 0x00 .dataOut { s with lce := .dataOut, ctrlState := .dataOut }) :=
  bind_seq (look_run _ _) (else_run hl (callback_alone (by exact h) _ _ _))

/-- The In-token handler (R115). -/
theorem handleInToken_alone {s : State} (h : s.PassAlone) :
    handleInToken s
      = .ok () (called (s.desc 0).callbackIn 0x80 .dataIn { s with lce := .dataIn, ctrlState := .dataIn }) :=
  callback_alone (by exact h) _ _ _

/-- The Status-done handler (R116). -/
theorem handleStatusDone_alone {s : State} (h : s.PassAlone) :
    handleStatusDone s
      = .ok () { s with lce := .none, ctrlState := .idle, ctl.cepinten := bit s.cfg.bitmap.cepSetupPkt } :=
  wr_quiet (State.PassAlone.quiet (by exact h)) _ _

end Sys2Proof.Machine
end

section

open Sys2Proof Sys2Proof.Machine Sys2Proof.Claims

/-- Settles O39: the bit is cleared, then the handler's lines in order. -/
theorem setupPktSnapshotsAndCallsBack : Obligations.SetupPktSnapshotsAndCallsBack := by
  unfold Obligations.SetupPktSnapshotsAndCallsBack
  intro s h
  exact exec_cepSetupPkt_alone h

/-- Settles O40: the guard of `OutToken` on either side, and `InToken`, which has none. -/
theorem tokensMoveTheSequencer : Obligations.TokensMoveTheSequencer := by
  unfold Obligations.TokensMoveTheSequencer
  intro s h
  refine ⟨fun hl => ?idle, fun hl => ?data, ?in_token⟩
  case idle => exact cepEvent_alone h (.named .outToken) (handleOutToken_idle hl)
  case data => exact cepEvent_alone h (.named .outToken) (handleOutToken_alone (by exact h) hl)
  case in_token => exact cepEvent_alone h (.named .inToken) (handleInToken_alone (by exact h))

/-- Settles O41. -/
theorem statusDoneReturnsToIdle : Obligations.StatusDoneReturnsToIdle := by
  unfold Obligations.StatusDoneReturnsToIdle
  intro s h
  exact cepEvent_alone h (.named .statusDone) (handleStatusDone_alone (by exact h))

end

section
/-! SUPPORT. The checks of a transfer command (R117) where one of them fails. -/

namespace Sys2Proof.Machine

open Sys2Proof.Claims

/-- The first check that fails ends the command with its code, and no state has changed (R117). -/
theorem xferCheck_fails {s : State} (h : s.CmdAlone) {a : Byte} {needIn : Bool} {ptr len c : Word}
    (hx : xferError s a needIn ptr len = some c) :
    ∃ e : Err, e.code = c ∧ xferCheck cmdAgent a needIn (decide (ptr = 0) && decide (len ≠ 0)) s = .error (.raise e) s := by
  have parameter : epOk s.cfg a = false ∨ needFits a needIn = false ∨ (decide (ptr = 0) && decide (len ≠ 0)) = true →
      ∃ e : Err, e.code = 1 ∧
        xferCheck cmdAgent a needIn (decide (ptr = 0) && decide (len ≠ 0)) s = .error (.raise e) s := fun hbad => by
    refine ⟨.invalidParameter, rfl, ?_⟩
    cases hep : epOk s.cfg a with
    | false => exact withEp_bad hep
    | true => exact xferCheck_direction hep (hbad.resolve_left (by simp [hep]))
  have hep : epOk s.cfg a = true ↔ epIdx a < s.cfg.nEp ∧ dirFits a = true := by simp [epOk]
  unfold xferError at hx
  split_ifs at hx with hidx hin hout hneed hnull hmps hen <;> obtain rfl := Option.some.inj hx
  · exact parameter (.inl (Bool.not_eq_true _ ▸ fun hok => ((dirFits_iff a).1 (hep.1 hok).2).1 hin))
  · exact parameter (.inl (Bool.not_eq_true _ ▸ fun hok => ((dirFits_iff a).1 (hep.1 hok).2).2 hout))
  · exact parameter (.inr (.inl (Bool.not_eq_true _ ▸ fun hok => (needFits_iff a needIn).1 hok hneed)))
  · exact parameter (.inr (.inr (by simpa using hnull)))
  · exact ⟨.notReady, rfl, xferCheck_unconfigured h (hep.2 ⟨hidx, (dirFits_iff a).2 ⟨hin, hout⟩⟩)
      ((needFits_iff a needIn).2 hneed) (by simpa using hnull) hmps⟩
  · exact ⟨.noDevice, rfl, xferCheck_disabled h (hep.2 ⟨hidx, (dirFits_iff a).2 ⟨hin, hout⟩⟩)
      ((needFits_iff a needIn).2 hneed) (by simpa using hnull) hmps ((and_enableBit_eq_zero ..).1 hen)⟩
  · exact parameter (.inl (Bool.not_eq_true _ ▸ fun hok => hidx (hep.1 hok).1))

/-- A command that begins with the checks of R117 ends with the code of the first that fails. -/
theorem run_xferCheck_fails {s : State} (h : s.CmdAlone) {a : Byte} {needIn : Bool} {ptr len c : Word}
    (hx : xferError s a needIn ptr len = some c) (k : Unit → Prog Unit) :
    run (xferCheck cmdAgent a needIn (decide (ptr = 0) && decide (len ≠ 0)) >>= k) s = .next { s with port.err := c } := by
  obtain ⟨e, rfl, he⟩ := xferCheck_fails h hx
  exact run_raise (bind_error he)

end Sys2Proof.Machine
end

section

open Sys2Proof Sys2Proof.Machine Sys2Proof.Claims

/-- Settles O25: each of the six begins with the checks, and the failing one raises before any change. -/
theorem transferChecksInOrder : Obligations.TransferChecksInOrder := by
  unfold Obligations.TransferChecksInOrder
  intro s a ptr len cptr e h
  refine ⟨fun hx => ?write, fun hx => ⟨?read, ?wait⟩, fun hx => ⟨?read_continue, ?peek⟩, fun hx => ?zlp⟩
  case write => exact run_xferCheck_fails h hx _
  case read =>
    obtain ⟨r, rfl, hr⟩ := xferCheck_fails h hx
    exact run_raise (bind_error (bind_error hr))
  case wait => exact run_xferCheck_fails h hx _
  case read_continue => exact run_xferCheck_fails h hx _
  case peek => exact run_xferCheck_fails h hx _
  case zlp => exact run_xferCheck_fails h hx _

end

section
/-! SUPPORT. EP_WRITE with nothing left in its schedule (R118, R119): the packet into the FIFO, the hold, the end of the transfer. -/

namespace Sys2Proof.Machine

open Sys2Proof.Claims

/-! A command with no gap left: the schedule of its own context is used up (R196). -/

/-- Nothing comes before any later access of the command that runs. -/
def State.Unscheduled (s : State) : Prop := (s.inIsr = true → s.cbGaps = []) ∧ (s.inIsr = false → s.taskGaps = [])

theorem State.CmdAlone.unscheduled {s : State} (h : s.CmdAlone) : s.Unscheduled := ⟨fun _ => h.2, fun _ => h.1⟩

theorem State.Unscheduled.calm {s : State} (h : s.Unscheduled) (k : Nat) : s.Calm k :=
  ⟨fun hi p hp => by simp [h.1 hi] at hp, fun hi p hp => by simp [h.2 hi] at hp⟩

theorem State.Unscheduled.skip {s : State} (h : s.Unscheduled) (k : Nat) : s.skip k = s := by
  obtain ⟨hcb, htask⟩ := h
  have ht : s.taskGaps.drop (if s.inIsr then 0 else k) = s.taskGaps := by cases hi : s.inIsr <;> simp [htask, hi]
  have hc : s.cbGaps.drop (if s.inIsr then k else 0) = s.cbGaps := by cases hi : s.inIsr <;> simp [hcb, hi]
  rw [State.skip, ht, hc]

/-- At task priority the accesses use up `taskGaps` alone. -/
theorem skip_task {s : State} (hi : s.inIsr = false) (k : Nat) : s.skip k = { s with taskGaps := s.taskGaps.drop k } := by
  simp [State.skip, hi]

theorem State.Unscheduled.quiet {s : State} (h : s.Unscheduled) : cmdAgent.Quiet s := by
  rw [Agent.Quiet, point_calm (h.calm 1), h.skip]

/-- The results of a transfer (R118, R121). -/
theorem report_unscheduled {s : State} (h : s.Unscheduled) {cptr : Word} (n : Nat) (hc : countFits s cptr) :
    report cmdAgent cptr n s = .ok () { s with mem := putCount s.mem cptr n, port.val := BitVec.ofNat 32 n } := by
  rw [report_calm (h.calm 4) cptr n fun h0 k hk => ?inside, State.Unscheduled.skip (by exact h), countBytes_putCount]
  · rfl
  case inside =>
    obtain ⟨htop, hw⟩ := hc h0
    exact ⟨by simp only [Config.hostTop]; omega, hw k hk⟩

/-- A transfer command whose checks pass with nothing in their two gaps: they change nothing (R117). -/
theorem xferCheck_passes_calm {s : State} (h : s.Calm 2) {a : Byte} {needIn : Bool} {ptr len : Word}
    (hx : xferError s a needIn ptr len = none) :
    xferCheck cmdAgent a needIn (decide (ptr = 0) && decide (len ≠ 0)) s = .ok () (s.skip 2) := by
  obtain ⟨hep, hneed, hptr, hmps, hen⟩ := xferError_eq_none.1 hx
  exact xferCheck_calm h hep hneed (by simpa using hptr) hmps hen

/-- Memory handed over, as the copy loop asks for it (R81). -/
theorem readable_bytes {s : State} {p : Word} {n : Nat} (h : readable s p n) {k : Nat} (hk : k < n) :
    p.toNat + k < Config.hostTop ∧ hostReadable s (p.toNat + k) = true :=
  ⟨by have := h.1; simp only [Config.hostTop]; omega, h.2 k hk⟩

/-- A packet of an endpoint has at most 65535 bytes, so its count is no 0 as a word (R77). -/
theorem sendCountOf_word {s : State} {a : Byte} {len : Word} (hn : sendCountOf s a len ≠ 0) :
    (BitVec.ofNat 32 (sendCountOf s a len)).toNat = sendCountOf s a len ∧ BitVec.ofNat 32 (sendCountOf s a len) ≠ 0 := by
  have hmps := (s.desc (epIdx a)).mps.isLt
  have hle : sendCountOf s a len ≤ (s.desc (epIdx a)).mps.toNat := Nat.min_le_right ..
  have hword : (BitVec.ofNat 32 (sendCountOf s a len)).toNat = sendCountOf s a len := by
    rw [BitVec.toNat_ofNat]
    omega
  exact ⟨hword, fun e => hn (by rw [← hword, e]; rfl)⟩

/-! The hold (R118). -/

/-- At task priority the next gap holds one step of the environment. -/
theorem point_env {s t : State} {e : EnvStep} {r : List (List TaskAct)} (hi : s.inIsr = false) (hg : s.taskGaps = [.env e] :: r)
    (he : envApply e { s with taskGaps := r } = some t) : cmdAgent.point s = .ok () t := by
  have hgap : taskPoint s = runTaskGap [.env e] { s with taskGaps := r } := by simp only [taskPoint, hg]
  have hrun : taskPoint s = .ok () t := hgap.trans (bind_seq (envStep_allowed he) (done_run _))
  exact (if_neg (Bool.eq_false_iff.1 hi)).trans hrun

/-- The first poll sees the flag: the hold ends. -/
theorem holdTxComplete_seen {s t : State} (hp : cmdAgent.point s = .ok () t)
    (hf : tst t.ctl.cepintsts s.cfg.bitmap.cepTxComplete = true) (n : Nat) : holdTxComplete cmdAgent (n + 1) s = .ok () t :=
  bind_seq (look_run _ _) (bind_seq (bind_seq hp (look_run _ _)) (ite_run hf (done_run _)))

/-- A packet of `n` bytes pushed into the control endpoint's FIFO and its count written (R76, R77). -/
def packetQueued (s : State) (l : List Byte) (n : Nat) : State :=
  { s with ctl.cepTxfifo := s.ctl.cepTxfifo ++ l, ctl.ceptxcnt := BitVec.ofNat 32 n, ctl.cepTxPending := true }

/-- The part of a control write in the FIFO: `t` is the state of the poll that sees the flag, which is then cleared (R118). -/
theorem pushAndHold_seen {s t : State} {mps : Half} {ptr : Word} {n : Nat} (h : s.Calm (2 * n + 1)) (hn : n ≠ 0)
    (hw : BitVec.ofNat 32 n ≠ 0) (hr : readable s ptr n) (hc : s.ctl.cepTxfifo.length + n ≤ mps.toNat)
    (hp : cmdAgent.point ((packetQueued s (bytesAt s.mem ptr n) n).skip (2 * n + 1)) = .ok () t)
    (hf : tst t.ctl.cepintsts s.cfg.bitmap.cepTxComplete = true) (ht : t.Unscheduled) :
    pushAndHold cmdAgent mps ptr n s
      = .ok () { t with ctl.cepintsts := t.ctl.cepintsts &&& ~~~bit s.cfg.bitmap.cepTxComplete } := by
  have hcount : regWrite (txCountReg .cep) (BitVec.ofNat 32 n) (pushed .cep (bytesAt s.mem ptr n) s)
      = packetQueued s (bytesAt s.mem ptr n) n := by
    simp only [txCountReg, regWrite, pushed, packetQueued, decide_eq_true hw, Bool.or_true]
  refine bind_seq (look_run _ _) ((pushSend_calm .cep mps ptr h hn (fun k hk => readable_bytes hr hk) hc _).trans ?_)
  rw [hcount]
  exact bind_seq (look_run _ _) (bind_seq (holdTxComplete_seen hp hf _) (wr_quiet ht.quiet _ _))

/-- A flag raised and cleared again, whatever it was before. -/
theorem or_andNot_self (w b : Word) : (w ||| b) &&& ~~~b = w &&& ~~~b := by
  apply word_ext
  intro p hp
  cases hb : tst b p <;> simp [tst_not, hb]

/-- The packet of `n` bytes sent, and the flag raised (R174). -/
def packetSent (s : State) (l : List Byte) (n : Nat) : State :=
  { s with
    ctl.cepTxfifo := (s.ctl.cepTxfifo ++ l).drop n, ctl.ceptxcnt := BitVec.ofNat 32 n, ctl.cepTxPending := false
    ctl.cepintsts := s.ctl.cepintsts ||| bit s.cfg.bitmap.cepTxComplete
    sent := s.sent ++ [{ source := .cep, bytes := (s.ctl.cepTxfifo ++ l).take n }] }

/-- SIE's TX_DONE with a packet queued (R174). -/
theorem txDoneCep_queued (s : State) (l : List Byte) {n : Nat} (hn : (BitVec.ofNat 32 n).toNat = n) :
    envApply (.sie .txDoneCep) (packetQueued s l n) = some (packetSent s l n) := by
  have happly : envApply (.sie .txDoneCep) (packetQueued s l n)
      = some (raiseCep .txComplete (sendPacket .cep (packetQueued s l n).ctl.ceptxcnt.toNat (packetQueued s l n))) := rfl
  have hcount : (packetQueued s l n).ctl.ceptxcnt.toNat = n := hn
  rw [happly, hcount]
  simp only [raiseCep, raiseStatus, sendPacket, setTx, clearPending, txfifo, packetQueued, packetSent, BitMap.cepPos]

/-- The packet part of a control write: the FIFO taken and given back, then what is armed next (R65, R118). -/
theorem sendControl_seen {s t : State} {mps : Half} {ptr len : Word} {n : Nat} (h : s.Calm (2 * n + 1)) (hn : n ≠ 0)
    (hw : BitVec.ofNat 32 n ≠ 0) (hr : readable s ptr n) (hc : s.ctl.cepTxfifo.length + n ≤ mps.toNat) (hbusy : s.busy 0 = false)
    (hp : cmdAgent.point ((packetQueued (s.setBusy 0 true) (bytesAt s.mem ptr n) n).skip (2 * n + 1)) = .ok () (t.setBusy 0 true))
    (hf : tst t.ctl.cepintsts s.cfg.bitmap.cepTxComplete = true) (ht : t.Unscheduled) (hfree : t.busy 0 = false)
    (hcfg : t.cfg = s.cfg) :
    sendControl cmdAgent mps ptr len n s = .ok () (armNext
      { t with ctl.cepintsts := t.ctl.cepintsts &&& ~~~bit s.cfg.bitmap.cepTxComplete } (decide (n < len.toNat))) := by
  have hfifo := inFifo_ok hbusy (pushAndHold_seen (s := s.setBusy 0 true) h hn hw hr hc hp hf ht)
  have hback := setBusy_setBusy (s := { t with ctl.cepintsts := t.ctl.cepintsts &&& ~~~bit s.cfg.bitmap.cepTxComplete })
    (i := 0) hfree
  refine bind_seq (look_run _ _) (bind_seq (hfifo.trans (congrArg _ hback)) ?_)
  rw [← hcfg]
  by_cases hmore : n < len.toNat
  · rw [if_pos hmore, decide_eq_true hmore]
    exact rset_quiet (State.Unscheduled.quiet (by exact ht)) _ _
  · rw [if_neg hmore, decide_eq_false hmore]
    exact bind_seq (rset_quiet (State.Unscheduled.quiet (by exact ht)) _ _)
      (ownUpd_quiet (State.Unscheduled.quiet (by exact ht)) _)

theorem armNext_unscheduled {s : State} (h : s.Unscheduled) (more : Bool) : (armNext s more).Unscheduled := by
  cases more <;> exact h

theorem armNext_countFits {s : State} {cptr : Word} (h : countFits s cptr) (more : Bool) : countFits (armNext s more) cptr := by
  cases more <;> exact h

/-- A control write of at least one byte, from what its packet part leaves (R118). -/
theorem epWrite_control_packet {s u : State} (h : s.Calm 3) {a : Byte} {ptr len cptr : Word} (h0 : epIdx a = 0)
    (hx : xferError s a true ptr len = none) (hlen : len ≠ 0)
    (hsend : sendControl cmdAgent (s.desc 0).mps ptr len (sendCountOf s a len) (s.skip 3) = .ok () u)
    (hu : u.Unscheduled) (hc : countFits u cptr) :
    exec (.epWrite a ptr len cptr) s = .next (reported u cptr (sendCountOf s a len)) := by
  have hown : own cmdAgent (fun t => t.desc 0) (s.skip 2) = .ok (s.desc 0) (s.skip 3) := by
    rw [own_calm (State.Calm.skip (j := 2) h), skip_skip, skip_desc]
  have hn : min len.toNat (s.desc 0).mps.toNat = sendCountOf s a len := by rw [sendCountOf, h0]
  have hrun : epWrite cmdAgent a ptr len cptr s = .ok ()
      { u with mem := putCount u.mem cptr (sendCountOf s a len), port.val := BitVec.ofNat 32 (sendCountOf s a len) } := by
    refine bind_seq (xferCheck_passes_calm (h.mono (by omega)) hx) (ite_run h0 (bind_seq hown (else_run hlen ?_)))
    rw [hn]
    exact bind_seq hsend (report_unscheduled hu _ hc)
  exact run_ok hrun

/-! A control write of length 0 (R118). -/

/-- With an operand that is not null it only reports 0. -/
theorem epWrite_empty_alone {s : State} (h : s.CmdAlone) {a : Byte} {ptr cptr : Word} (h0 : epIdx a = 0)
    (hx : xferError s a true ptr 0 = none) (hnull : ¬(ptr = 0 ∧ cptr = 0)) (hc : countFits s cptr) :
    exec (.epWrite a ptr 0 cptr) s = .next (reported s cptr 0) := by
  have hrun : epWrite cmdAgent a ptr 0 cptr s = .ok () { s with mem := putCount s.mem cptr 0, port.val := 0 } := by
    refine bind_seq (xferCheck_passes h hx) (ite_run h0 (bind_seq (own_quiet h.quiet _) (ite_run rfl ?_)))
    exact else_run hnull (bind_seq (done_run _) (report_alone h 0 hc))
  exact run_ok hrun

/-! A write on another IN endpoint (R119). -/

theorem setEp_setBusy (s : State) (i j : Nat) (f : EpRegs → EpRegs) (b : Bool) :
    (s.setBusy j b).setEp i f = (s.setEp i f).setBusy j b := by cases i <;> rfl

/-- The part of an endpoint write in the FIFO (R76, R77, R119). -/
theorem pushAndQueue_alone {s : State} (h : s.CmdAlone) {i : Nat} {mps : Half} {ptr : Word} {n : Nat} (hi : i % 2 = 1) (hn : n ≠ 0)
    (hw : BitVec.ofNat 32 n ≠ 0) (hr : readable s ptr n) (hc : (s.ep i).txfifo.length + n ≤ mps.toNat) :
    pushAndQueue cmdAgent i mps ptr n s = .ok () (s.setEp i fun e => { e with
      txfifo := e.txfifo ++ bytesAt s.mem ptr n, epdatcnt := BitVec.ofNat 32 n, txPending := true }) := by
  have hpush := pushSend_calm (.ep i) mps ptr (h.calm _) hn (fun k hk => readable_bytes hr hk) hc pure
  rw [bind_pure] at hpush
  refine hpush.trans ?_
  rw [State.CmdAlone.skip (by simpa [pushed] using h)]
  simp only [txCountReg, regWrite, if_pos hi, pushed, State.setEp_setEp, decide_eq_true hw, Bool.or_true]
  rfl

/-- One packet queued and its interrupt armed; the FIFO is taken and given back (R65, R119). -/
theorem sendEndpoint_alone {s : State} (h : s.CmdAlone) {i : Nat} {mps : Half} {ptr : Word} {n : Nat} (hi : i % 2 = 1) (hn : n ≠ 0)
    (hw : BitVec.ofNat 32 n ≠ 0) (hr : readable s ptr n) (hc : (s.ep i).txfifo.length + n ≤ mps.toNat) (hbusy : s.busy i = false)
    (hp : (s.ep i).txPending = false) :
    sendEndpoint cmdAgent i mps ptr n s = .ok () (s.setEp i fun e => { e with
      txfifo := e.txfifo ++ bytesAt s.mem ptr n, epdatcnt := BitVec.ofNat 32 n, txPending := true
      epinten := e.epinten ||| s.cfg.epTxArm }) := by
  have hfifo := inFifo_ok hbusy (pushAndQueue_alone (s := s.setBusy i true) (mps := mps) (by exact h) hi hn hw hr (by exact hc))
  rw [setEp_setBusy, setBusy_setBusy (by simpa [State.busy] using hbusy)] at hfifo
  refine bind_seq (look_run _ _) (bind_seq (look_run _ _) (else_run (by simp [hp]) (bind_seq hfifo ?_)))
  rw [rset_quiet (State.CmdAlone.quiet (by simpa using h)), rset_epinten, State.setEp_setEp]
  rfl

/-- After its checks an EP_WRITE on a non-zero index is the endpoint's write (R119). -/
theorem epWrite_of_writeEndpoint {s : State} (h : s.CmdAlone) {a : Byte} {ptr len cptr : Word} (h0 : epIdx a ≠ 0)
    (hx : xferError s a true ptr len = none) {r : EStateM.Result Stop State Unit}
    (hr : writeEndpoint cmdAgent (epIdx a) ptr len cptr s = r) : epWrite cmdAgent a ptr len cptr s = r :=
  bind_seq (xferCheck_passes h hx) (else_run h0 hr)

/-- A write needs an IN address, and a non-zero index of an IN address is odd (R88, R117). -/
theorem epIdx_odd_of_write {s : State} {a : Byte} {ptr len : Word} (h0 : epIdx a ≠ 0) (hx : xferError s a true ptr len = none) :
    epIdx a % 2 = 1 := by
  obtain ⟨hep, hneed, -⟩ := xferError_eq_none.1 hx
  have hin : dirIn a = true := by simpa [needFits, h0] using hneed
  have hfits : dirFits a = true := by
    rw [epOk, Bool.and_eq_true] at hep
    exact hep.2
  have heven := ((dirFits_iff a).1 hfits).2
  by_contra hodd
  exact heven ⟨h0, by omega, hin⟩

end Sys2Proof.Machine
end

section

open Sys2Proof Sys2Proof.Machine Sys2Proof.Claims

/-- Settles O26: with null operands the status ZLP, with any other only the report. -/
theorem emptyControlWrite : Obligations.EmptyControlWrite := by
  unfold Obligations.EmptyControlWrite
  intro s a ptr cptr h h0 hx hc
  by_cases hnull : ptr = 0 ∧ cptr = 0
  · rw [if_pos hnull]
    obtain ⟨rfl, rfl⟩ := hnull
    exact epWrite_zlp_alone h0 h hx
  · rw [if_neg hnull]
    exact epWrite_empty_alone h h0 hx hnull hc

/-- Settles O28: the first poll sees the flag, nothing having come before it. -/
theorem staleFlagEndsTheHold : Obligations.StaleFlagEndsTheHold := by
  unfold Obligations.StaleFlagEndsTheHold
  rintro s a ptr len cptr n h h0 hx hlen ⟨hcount, hread, hbusy, hroom⟩ rfl hflag
  rw [h0] at hbusy hroom
  have hn := sendCountOf_ne_zero hx hlen
  have hpoll : cmdAgent.Quiet (packetQueued (s.setBusy 0 true) (bytesAt s.mem ptr (sendCountOf s a len)) (sendCountOf s a len)) :=
    State.CmdAlone.quiet (by exact h)
  have hsend := sendControl_seen (t := packetQueued s (bytesAt s.mem ptr (sendCountOf s a len)) (sendCountOf s a len)) (len := len)
    (h.calm _) hn (sendCountOf_word hn).2 hread hroom hbusy (by rw [State.CmdAlone.skip (by exact h)]; exact hpoll) hflag
    h.unscheduled hbusy rfl
  exact epWrite_control_packet (h.calm 3) h0 hx hlen (by rw [h.skip]; exact hsend)
    (armNext_unscheduled (by exact h.unscheduled) _) (armNext_countFits (by exact hcount) _)

/-- Settles O27: SIE's step comes in the gap of the first poll, which sees the flag it raises. -/
theorem controlWriteSendsOnePacket : Obligations.ControlWriteSendsOnePacket := by
  unfold Obligations.ControlWriteSendsOnePacket
  rintro s a ptr len cptr n hi h0 hx hlen ⟨hcount, hread, hbusy, hroom⟩ rfl hgaps
  rw [h0] at hbusy hroom
  have hn := sendCountOf_ne_zero hx hlen
  obtain ⟨hword, hne⟩ := sendCountOf_word hn
  generalize hl : sendCountOf s a len = n at *
  have hcalm : s.Calm (3 + (2 * n + 1)) := ⟨fun hi' => by simp [hi] at hi', fun _ => by
    simp [hgaps, holdGap, show 3 + (2 * n + 1) = 2 * n + 4 by omega]⟩
  have hdrop : s.taskGaps.drop (3 + (2 * n + 1)) = [[.env (.sie .txDoneCep)]] := by
    rw [hgaps, holdGap, show 3 + (2 * n + 1) = 2 * n + 4 by omega, List.drop_left' (by simp)]
  have hlast : (packetQueued ((s.skip 3).setBusy 0 true) (bytesAt s.mem ptr n) n).skip (2 * n + 1)
      = { packetQueued (s.setBusy 0 true) (bytesAt s.mem ptr n) n with taskGaps := [[.env (.sie .txDoneCep)]] } := by
    rw [← hdrop]
    exact (skip_skip 3 _ (packetQueued (s.setBusy 0 true) (bytesAt s.mem ptr n) n)).trans (skip_task (s := packetQueued (s.setBusy 0 true) (bytesAt s.mem ptr n) n) hi _)
  have hpoll := point_env (r := []) (s := (packetQueued ((s.skip 3).setBusy 0 true) (bytesAt s.mem ptr n) n).skip (2 * n + 1)) hi
    (by rw [hlast]) (by rw [hlast]; exact txDoneCep_queued { s.setBusy 0 true with taskGaps := [] } (bytesAt s.mem ptr n) hword)
  have hflag : tst (s.ctl.cepintsts ||| bit s.cfg.bitmap.cepTxComplete) s.cfg.bitmap.cepTxComplete = true := by
    simp [tst_bit]
  have hdone : State.Unscheduled (packetSent { s with taskGaps := [] } (bytesAt s.mem ptr n) n) :=
    ⟨fun hi' => by simp [packetSent, hi] at hi', fun _ => rfl⟩
  have hsend := sendControl_seen (s := s.skip 3) (t := packetSent { s with taskGaps := [] } (bytesAt s.mem ptr n) n)
    (len := len) (mps := (s.desc 0).mps)
    (State.Calm.skip hcalm) hn hne hread hroom hbusy hpoll hflag hdone hbusy rfl
  have hexec := epWrite_control_packet (hcalm.mono (by omega)) h0 hx hlen (by rw [hl]; exact hsend)
    (armNext_unscheduled (by exact hdone) _) (armNext_countFits (by exact hcount) _)
  have hclear : (packetSent { s with taskGaps := [] } (bytesAt s.mem ptr n) n).ctl.cepintsts &&& ~~~bit s.cfg.bitmap.cepTxComplete
      = s.ctl.cepintsts &&& ~~~bit s.cfg.bitmap.cepTxComplete := or_andNot_self ..
  rw [hl] at hexec
  rw [hexec, skip_cfg, hclear]
  rfl

/-- Settles O30: nothing for length 0, the refusal of a packet still unsent, and the packet queued. -/
theorem endpointWriteQueuesOnePacket : Obligations.EndpointWriteQueuesOnePacket := by
  unfold Obligations.EndpointWriteQueuesOnePacket
  intro s a ptr len cptr n h h0 hx
  refine ⟨fun hlen hc => ?empty, fun hlen hp => ?pending, fun hlen hp hready hn => ?queued⟩
  case empty =>
    have hrun := epWrite_of_writeEndpoint (cptr := cptr) h h0 hx
      (bind_seq (own_quiet h.quiet _) (ite_run hlen (report_alone h 0 hc)))
    exact run_ok hrun
  case pending =>
    have hstop : sendEndpoint cmdAgent (epIdx a) (s.desc (epIdx a)).mps ptr (min len.toNat (s.desc (epIdx a)).mps.toNat) s
        = .error (.refuse (.txPending (epIdx a))) s :=
      bind_seq (look_run _ _) (bind_seq (look_run _ _) (ite_run hp (refuse_run _ _)))
    exact run_refuse (epWrite_of_writeEndpoint h h0 hx (bind_seq (own_quiet h.quiet _) (else_run hlen (bind_error hstop))))
  case queued =>
    obtain ⟨hcount, hread, hbusy, hroom⟩ := hready
    subst hn
    have hn := sendCountOf_ne_zero hx hlen
    have hsend := sendEndpoint_alone h (epIdx_odd_of_write h0 hx) hn (sendCountOf_word hn).2 hread hroom hbusy hp
    have hrep := report_alone (s := s.setEp (epIdx a) fun e => { e with
      txfifo := e.txfifo ++ bytesAt s.mem ptr (sendCountOf s a len), epdatcnt := BitVec.ofNat 32 (sendCountOf s a len)
      txPending := true, epinten := e.epinten ||| s.cfg.epTxArm }) (cptr := cptr) (by simpa using h)
      (sendCountOf s a len) (by simpa [countFits, writable, hostWritable] using hcount)
    have hrun := epWrite_of_writeEndpoint (cptr := cptr) h h0 hx
      (bind_seq (own_quiet h.quiet _) (else_run hlen (bind_seq hsend hrep)))
    exact run_ok hrun

end

section
/-! SUPPORT. The reads with nothing in between: the FIFO copy of EP_READ_WAIT (R121), EP_READ_CONTINUE (R122), and EP_READ as the one
after the other (R123). -/

namespace Sys2Proof.Machine

open Sys2Proof.Claims

/-! The receive FIFO of an index, as the statements put it (R62, R120, R121). -/

theorem rxfifo_dat (s : State) (i : Nat) : rxfifo (dat i) s = received s i := by
  unfold dat received
  split <;> rfl

theorem popped_dat (s : State) (i n : Nat) : popped (dat i) n s = drained s i n := by
  unfold dat drained
  split <;> rfl

/-- But for a SETUP packet, what is available is what the count register says, or nothing (R120). -/
theorem available_le_rxCount {s : State} {i : Nat} (hl : ¬(i = 0 ∧ s.lce = .setup)) : available s i ≤ (rxCount (dat i) s).toNat := by
  unfold available dat
  split
  · next h0 =>
    cases hlce : s.lce with
    | setup => exact absurd ⟨h0, hlce⟩ hl
    | dataOut => exact Nat.le_refl _
    | none => exact Nat.zero_le _
    | dataIn => exact Nat.zero_le _
  · exact Nat.le_refl _

theorem popped_setBusy (f : DatReg) (n : Nat) (s : State) (i : Nat) (b : Bool) :
    popped f n (s.setBusy i b) = (popped f n s).setBusy i b := by
  cases f with
  | cep => rfl
  | ep j => exact setEp_setBusy s j i _ b

theorem rxCount_setBusy (f : DatReg) (s : State) (i : Nat) (b : Bool) : rxCount f (s.setBusy i b) = rxCount f s := by
  cases f <;> rfl

@[simp] theorem drained_hostRanges (s : State) (i n : Nat) : (drained s i n).hostRanges = s.hostRanges := by
  unfold drained; split <;> simp
@[simp] theorem drained_fifoBusy (s : State) (i n : Nat) : (drained s i n).fifoBusy = s.fifoBusy := by
  unfold drained; split <;> simp
@[simp] theorem drained_cfg (s : State) (i n : Nat) : (drained s i n).cfg = s.cfg := by
  unfold drained; split <;> simp
@[simp] theorem drained_epTable (s : State) (i n : Nat) : (drained s i n).epTable = s.epTable := by
  unfold drained; split <;> simp
@[simp] theorem drained_ginten (s : State) (i n : Nat) : (drained s i n).ctl.ginten = s.ctl.ginten := by
  unfold drained; split <;> simp
@[simp] theorem drained_taskGaps (s : State) (i n : Nat) : (drained s i n).taskGaps = s.taskGaps := by
  unfold drained; split <;> simp
@[simp] theorem drained_cbGaps (s : State) (i n : Nat) : (drained s i n).cbGaps = s.cbGaps := by
  unfold drained; split <;> simp

/-- The copy out of a receive FIFO: it is taken, drained and given back (R65, R75, R121). -/
theorem readBytes_fifo_alone {s : State} (h : s.CmdAlone) {i : Nat} {ptr : Word} {n : Nat} (hl : ¬(i = 0 ∧ s.lce = .setup))
    (hw : writable s ptr n) (hbusy : s.busy i = false) (hn : n ≤ available s i) (hlen : n ≤ (received s i).length) :
    readBytes cmdAgent i ptr n s
      = .ok () { drained s i n with mem := putBytes s.mem ptr.toNat ((received s i).take n) } := by
  obtain ⟨htop, hin⟩ := hw
  have hcount := hn.trans (available_le_rxCount hl)
  have hpop := popBytes_calm (dat i) ptr n 0 (s.setBusy i true) (h.calm _)
    (fun k hk => ⟨by simp only [Config.hostTop]; omega, by rw [Nat.zero_add]; exact hin k hk⟩)
    (by rw [rxfifo_dat]; exact hlen) (by rw [rxCount_setBusy]; exact hcount)
  rw [popped_setBusy, rxfifo_dat, popped_dat] at hpop
  have hback := setBusy_setBusy (s := { drained s i n with mem := putBytes s.mem ptr.toNat ((received s i).take n) }) (i := i)
    (by simpa [State.busy] using hbusy)
  have hfifo := inFifo_ok hbusy (hpop.trans (congrArg _ (State.CmdAlone.skip (by simpa [State.CmdAlone] using h) _)))
  exact bind_seq (own_quiet h.quiet _) (else_run hl (hfifo.trans (congrArg _ hback)))

/-- EP_READ_WAIT that is no peek, from what its copy leaves (R121). -/
theorem epReadWait_copied {s u : State} (h : s.CmdAlone) {a : Byte} {ptr max cptr : Word} (hx : xferError s a false ptr max = none)
    (hpeek : isPeek ptr max = false) (hcopy : readBytes cmdAgent (epIdx a) ptr (readCount s a ptr max) s = .ok () u)
    (hu : u.CmdAlone) (hc : countFits u cptr) :
    exec (.epReadWait a ptr max cptr) s = .next (reported u cptr (readCount s a ptr max)) := by
  obtain ⟨w, hav, hw⟩ := availCount_alone h (epIdx a)
  have hrun : epReadWait cmdAgent a ptr max cptr s = .ok ()
      { u with mem := putCount u.mem cptr (readCount s a ptr max), port.val := BitVec.ofNat 32 (readCount s a ptr max) } := by
    refine bind_seq (xferCheck_passes h hx) (bind_seq hav (else_run (by simpa [isPeek] using hpeek) ?_))
    rw [min_available hw hpeek]
    exact bind_seq hcopy (report_alone hu _ hc)
  exact run_ok hrun

/-- EP_READ_WAIT from a receive FIFO (R121). -/
theorem epReadWait_fifo_alone {s : State} (h : s.CmdAlone) {a : Byte} {ptr max cptr : Word} (hx : xferError s a false ptr max = none)
    (hpeek : isPeek ptr max = false) (hl : ¬(epIdx a = 0 ∧ s.lce = .setup)) (hready : readReady s a ptr max cptr) :
    exec (.epReadWait a ptr max cptr) s = .next (readWait s a ptr max cptr) := by
  obtain ⟨hcount, hbuf, hfifo⟩ := hready
  obtain ⟨hbusy, hlen⟩ := hfifo hpeek hl
  have hle : readCount s a ptr max ≤ available s (epIdx a) := by
    rw [readCount, hpeek]
    exact Nat.min_le_left ..
  have hcopy := readBytes_fifo_alone h hl (hbuf hpeek) hbusy hle (hle.trans hlen)
  have hexec := epReadWait_copied (cptr := cptr) h hx hpeek hcopy (by simpa [State.CmdAlone] using h)
    (by simpa [countFits, writable, hostWritable] using hcount)
  rw [hexec, readWait, hpeek, if_neg Bool.false_ne_true, if_neg hl]

/-- EP_READ_WAIT by its three cases (R121). -/
theorem epReadWait_alone {s : State} (h : s.CmdAlone) {a : Byte} {ptr max cptr : Word} (hx : xferError s a false ptr max = none)
    (hready : readReady s a ptr max cptr) : exec (.epReadWait a ptr max cptr) s = .next (readWait s a ptr max cptr) := by
  cases hpeek : isPeek ptr max with
  | true =>
    obtain ⟨rfl, rfl⟩ := isPeek_eq_true.1 hpeek
    exact epReadWait_peek_alone h hx hready.1
  | false =>
    by_cases hl : epIdx a = 0 ∧ s.lce = .setup
    · rw [readWait, hpeek, if_neg Bool.false_ne_true, if_pos hl]
      exact epReadWait_setup_alone h hl.1 hl.2 hx hpeek hready.1 (hready.2.1 hpeek)
    · exact epReadWait_fifo_alone h hx hpeek hl hready

/-! EP_READ_CONTINUE (R122). -/

theorem epReadContinue_alone {s : State} (h : s.CmdAlone) {a : Byte} (hx : xferError s a false 0 0 = none) :
    epReadContinue cmdAgent a s = .ok () (readContinue s a) := by
  refine bind_seq (xferCheck_passes h hx) ?_
  by_cases h0 : epIdx a = 0
  · obtain ⟨w, hav, hw⟩ := availCount_alone h 0
    rw [readContinue, if_neg (not_not.2 h0), ← hw]
    refine ite_run h0 (bind_seq hav ?_)
    by_cases hz : w = 0
    · have hnat : w.toNat = 0 := congrArg BitVec.toNat hz
      rw [if_pos hnat]
      exact ite_run hz (ackStatus_alone h)
    · have hnat : w.toNat ≠ 0 := fun e => hz (BitVec.eq_of_toNat_eq e)
      rw [if_neg hnat]
      exact else_run hz (bind_seq (look_run _ _) (rset_quiet h.quiet _ _))
  · rw [readContinue, if_pos h0]
    exact else_run h0 (done_run _)

/-! EP_READ (R123). -/

theorem Err.code_ne_zero (e : Err) : e.code ≠ 0 := by cases e <;> decide

/-- A command that went on without an error in `x[6]` raised none. -/
theorem run_next_ok {p : Prog Unit} {s t : State} (h : run p s = .next t) (he : t.port.err = 0) :
    ∃ u, p s = .ok () u ∧ t = u.setErr okCode := by
  rcases run_next h with h | ⟨e, u, -, rfl⟩
  · exact h
  · exact absurd he e.code_ne_zero

/-- What the checks of R117 look at. -/
theorem xferError_congr {s t : State} (hc : t.cfg = s.cfg) (ht : t.epTable = s.epTable) (hg : t.ctl.ginten = s.ctl.ginten)
    (a : Byte) (needIn : Bool) (ptr len : Word) : xferError t a needIn ptr len = xferError s a needIn ptr len := by
  have hd : ∀ i, t.desc i = s.desc i := fun i => by rw [State.desc, ht]; rfl
  simp only [xferError, hc, hd, hg]

/-- A transfer whose checks pass passes them without its buffer too. -/
theorem xferError_without_buffer {s : State} {a : Byte} {needIn : Bool} {ptr len : Word} (hx : xferError s a needIn ptr len = none) :
    xferError s a needIn 0 0 = none := by
  obtain ⟨hep, hneed, -, hmps, hen⟩ := xferError_eq_none.1 hx
  exact xferError_eq_none.2 ⟨hep, hneed, by simp, hmps, hen⟩

/-- What EP_READ_WAIT leaves of the state that the next half of an EP_READ looks at first. -/
theorem readWait_keeps (s : State) (a : Byte) (ptr max cptr : Word) :
    (readWait s a ptr max cptr).cfg = s.cfg ∧ (readWait s a ptr max cptr).epTable = s.epTable
      ∧ (readWait s a ptr max cptr).ctl.ginten = s.ctl.ginten
      ∧ ((readWait s a ptr max cptr).CmdAlone ↔ s.CmdAlone) ∧ (readWait s a ptr max cptr).port.err = 0 := by
  unfold readWait
  split
  · exact ⟨rfl, rfl, rfl, Iff.rfl, rfl⟩
  · split <;> simp [reported, State.CmdAlone]

theorem readContinue_setErr (s : State) (v : Word) (a : Byte) : readContinue (s.setErr v) a = (readContinue s a).setErr v := by
  have hav : available (s.setErr v) 0 = available s 0 := rfl
  unfold readContinue
  rw [hav]
  split
  · rfl
  · split <;> rfl

end Sys2Proof.Machine
end

section

open Sys2Proof Sys2Proof.Machine Sys2Proof.Claims

/-- Settles O31. -/
theorem readWaitCopiesWhatIsAvailable : Obligations.ReadWaitCopiesWhatIsAvailable := by
  unfold Obligations.ReadWaitCopiesWhatIsAvailable
  intro s a ptr max cptr h hx hready
  exact epReadWait_alone h hx hready

/-- Settles O32. -/
theorem readContinueAwaitsOrRearms : Obligations.ReadContinueAwaitsOrRearms := by
  unfold Obligations.ReadContinueAwaitsOrRearms
  intro s a h hx
  exact run_ok (epReadContinue_alone h hx)

/-- Settles O33: the second half starts where the first left off, and its checks pass again. -/
theorem readIsWaitThenContinue : Obligations.ReadIsWaitThenContinue := by
  unfold Obligations.ReadIsWaitThenContinue
  intro s a ptr max cptr h hx hready
  obtain ⟨hcfg, htable, hginten, halone, herr⟩ := readWait_keeps s a ptr max cptr
  obtain ⟨u, hu, hwait⟩ := run_next_ok (epReadWait_alone h hx hready) herr
  rw [hwait] at hcfg htable hginten halone ⊢
  cases hpeek : isPeek ptr max with
  | true =>
    exact run_ok (bind_seq hu (ite_run (isPeek_eq_true.1 hpeek) (done_run _)))
  | false =>
    have hu' : u.CmdAlone := halone.2 h
    have hxu : xferError u a false 0 0 = none :=
      (xferError_congr (s := s) hcfg htable hginten a false 0 0).trans (xferError_without_buffer hx)
    have hrun : epRead cmdAgent a ptr max cptr s = .ok () (readContinue u a) :=
      bind_seq hu (else_run (by simpa [isPeek] using hpeek) (epReadContinue_alone hu' hxu))
    rw [readContinue_setErr]
    exact (run_ok hrun).trans rfl

end

section
/-! SUPPORT. The sequencer's two fields under one operation (R111): which pieces leave them alone, and which enter `Status`. -/

namespace Sys2Proof.Machine

open Sys2Proof.Claims

/-! Pieces of an undisturbed operation that leave the sequencer alone. -/

theorem SameSeq.fields {s t : State} (h : SameSeq s t) : (t.ctrlState, t.lce) = (s.ctrlState, s.lce) := by
  obtain ⟨hctrl, hlce, -⟩ := h
  rw [hctrl, hlce]

theorem SameSeq.command : PieceRules (fun _ => True) (Along SameSeq) where
  toOrder := Along.order SameSeq.order
  reg r v s h := ⟨by simpa using h, SameSeq.regWrite r v s⟩
  tx f b s h := ⟨by simpa using h, by simp, by simp, by simp⟩
  rx f s h := ⟨by simpa using h, by simp, by simp, by simp⟩
  mem _ _ _ _ _ h := ⟨h, rfl, rfl, rfl⟩
  port _ _ h := ⟨h, rfl, rfl, rfl⟩
  free _ _ h := ⟨h, rfl, rfl, rfl⟩
  busy _ _ _ _ h := h
  clock _ _ _ h := ⟨h, rfl, rfl, rfl⟩
  handle _ _ h := ⟨h, rfl, rfl, rfl⟩
  irq _ _ h := ⟨h, rfl, rfl, rfl⟩
  slot _ _ _ _ h := ⟨h, rfl, rfl, rfl⟩

theorem SameSeq.point : Run (Along SameSeq) cmdAgent.point := .cmdPoint_along SameSeq.order

theorem SameSeq.epReadWait (a : Byte) (ptr max cptr : Word) : Rel (Along SameSeq) (epReadWait cmdAgent a ptr max cptr) :=
  .epReadWait SameSeq.command.toStoreRules SameSeq.point a ptr max cptr

/-- A command that is neither RESET nor a write nor the second half of a read leaves the sequencer alone (R111). -/
theorem SameSeq.command_other (i : Instr) (hz : i ≠ .reset) (hw : ¬((∃ a p l c, i = .epWrite a p l c) ∨ i = .statusZlp))
    (hr : ¬((∃ a, i = .epReadContinue a) ∨ ∃ a p m c, i = .epRead a p m c)) :
    Rel (Along SameSeq) (Machine.command cmdAgent i) :=
  .command_of SameSeq.command SameSeq.point i
    (.epConfigure SameSeq.command SameSeq.point (fun _ _ _ h => ⟨h, rfl, rfl, rfl⟩) fun _ _ _ _ _ _ h => ⟨h, rfl, rfl, rfl⟩)
    (fun h => absurd h hz) (fun h => absurd h hw) (fun _ => SameSeq.epReadWait) fun h => absurd h hr

/-- What an undisturbed bus or endpoint event and their dispatchers change. -/
theorem SameSeq.scan : ScanRules (Under SameSeq) where
  toNoticeRules := .under SameSeq.order (fun r v s _ => SameSeq.regWrite r v s) fun _ _ => ⟨rfl, rfl, rfl⟩
  snap _ _ h := ⟨h, rfl, rfl, rfl⟩
  pos _ _ h := ⟨h, rfl, rfl, rfl⟩

/-- A control-endpoint event with an empty handler (R137 to R147). -/
theorem Run.cepEvent_inert {R : State → State → Prop} (h : NoticeRules R) {e : CepEvent} (he : cepHandler e = Machine.done) :
    Run R (Machine.cepEvent e) := by
  have o := h.toOrder
  unfold Machine.cepEvent
  rw [he]
  exact (Run.look o _).bind o fun c => (Run.isrWr h _ _ (by simp)).bind o fun _ => .done o

/-- An event's row of R111's table, or none. -/
theorem sequencerAfter_event {i : Instr} (hi : isEvent i = true) (hc : i ≠ .gintCep) {s t : State} (h : s.PassAlone)
    (ht : exec i s = .next t) : (t.ctrlState, t.lce) = sequencerAfter i s t := by
  have same : ∀ {p : Prog Unit}, Run (Under SameSeq) p → outcome p s = .next t → (t.ctrlState, t.lce) = (s.ctrlState, s.lce) :=
    fun hp ho => (hp.outcome ho h).2.fields
  have bus : ∀ e : BusEvent, exec e.instr s = .next t → (t.ctrlState, t.lce) = (s.ctrlState, s.lce) := fun e ho =>
    same (.busEvent SameSeq.scan.toNoticeRules e) (exec_busEvent e s ▸ ho)
  have inert : ∀ e : CepEvent, cepHandler e = done → exec e.instr s = .next t → (t.ctrlState, t.lce) = (s.ctrlState, s.lce) :=
    fun e he ho => same (.cepEvent_inert SameSeq.scan.toNoticeRules he) (exec_cepEvent e s ▸ ho)
  have made : ∀ {w a e u}, exec i s = .next (called w a e u) → (t.ctrlState, t.lce) = (u.ctrlState, u.lce) := fun {w a e u} ho => by
    obtain ⟨c, hcalls⟩ := called_calls w a e u
    obtain rfl := Host.Outcome.next.inj (ht.symm.trans ho)
    rw [hcalls]
  cases i
  case gintCep => exact absurd rfl hc
  case gintBus => exact same (.busDispatch SameSeq.scan) ht
  case gintEp k => exact same (.ite (.epDispatch SameSeq.scan k) (.refuse _)) ht
  case busReset => exact bus (.named .reset) ht
  case busResume => exact bus (.named .resume) ht
  case busSuspend => exact bus (.named .suspend) ht
  case busHighSpeed => exact bus (.named .highSpeed) ht
  case busDmaDone => exact bus (.named .dmaDone) ht
  case busVbus => exact bus (.named .vbus) ht
  case busUnrecognised b => exact bus (.other b) ht
  case cepSetupToken => exact inert (.named .setupToken) rfl ht
  case cepPing => exact inert (.named .ping) rfl ht
  case cepTxComplete => exact inert (.named .txComplete) rfl ht
  case cepRxComplete => exact inert (.named .rxComplete) rfl ht
  case cepNakSent => exact inert (.named .nakSent) rfl ht
  case cepStallSent => exact inert (.named .stallSent) rfl ht
  case cepError => exact inert (.named .error) rfl ht
  case cepBufFull => exact inert (.named .bufFull) rfl ht
  case cepBufEmpty => exact inert (.named .bufEmpty) rfl ht
  case cepUnrecognised b => exact inert (.other b) rfl ht
  case epIn k w => exact same (.ite (.endpointIn SameSeq.scan.toNoticeRules k w) (.refuse _)) ht
  case epOut k w => exact same (.ite (.endpointOut SameSeq.scan.toNoticeRules k w) (.refuse _)) ht
  case cepSetupPkt => exact made (exec_cepSetupPkt_alone h)
  case cepInToken => exact made (cepEvent_alone h (.named .inToken) (handleInToken_alone (by exact h)))
  case cepStatusDone =>
    obtain rfl := Host.Outcome.next.inj
      (ht.symm.trans (cepEvent_alone h (.named .statusDone) (handleStatusDone_alone (by exact h))))
    rfl
  case cepOutToken =>
    by_cases hl : s.lce = .none
    · obtain rfl := Host.Outcome.next.inj (ht.symm.trans (cepEvent_alone h (.named .outToken) (handleOutToken_idle hl)))
      rw [sequencerAfter, if_pos hl]
    · rw [sequencerAfter, if_neg hl]
      exact made (cepEvent_alone h (.named .outToken) (handleOutToken_alone (by exact h) hl))
  all_goals cases hi

/-! The entry into `Status` (R118, R122). -/

/-- `ctrl_state` becomes `Status` where `enters` says so, and is kept otherwise; `lce` is kept. -/
def Entered (enters : Bool) (s t : State) : Prop := t.ctrlState = (if enters then .status else s.ctrlState) ∧ t.lce = s.lce

theorem SameSeq.entered {s t : State} (h : SameSeq s t) : Entered false s t := ⟨h.1, h.2.1⟩

theorem Run.seq_entered {b : Bool} {α β : Type} {p : Prog α} {f : α → Prog β} (hp : Run (Along SameSeq) p)
    (hf : ∀ a, Run (Along (Entered b)) (f a)) : Run (Along (Entered b)) (p >>= f) :=
  .seq hp hf fun hst htu hq => by
    obtain ⟨hq', hctrl, hlce, -⟩ := hst hq
    obtain ⟨hq'', hctrl', hlce'⟩ := htu hq'
    exact ⟨hq'', by rw [hctrl', hctrl], hlce'.trans hlce⟩

theorem Run.entered_seq {b : Bool} {α β : Type} {p : Prog α} {f : α → Prog β} (hp : Run (Along (Entered b)) p)
    (hf : ∀ a, Run (Along SameSeq) (f a)) : Run (Along (Entered b)) (p >>= f) :=
  .seq hp hf fun hst htu hq => by
    obtain ⟨hq', hctrl, hlce⟩ := hst hq
    obtain ⟨hq'', hctrl', hlce', -⟩ := htu hq'
    exact ⟨hq'', hctrl'.trans hctrl, hlce'.trans hlce⟩

/-- A piece that leaves the sequencer alone does not enter. -/
theorem Run.not_entered {α : Type} {p : Prog α} (hp : Run (Along SameSeq) p) : Run (Along (Entered false)) p :=
  hp.mono fun h hq => ⟨(h hq).1, (h hq).2.entered⟩

theorem Entered.look {α : Type} (f : State → α) : Run (Along SameSeq) (look f) := .look (Along.order SameSeq.order) f

theorem Entered.rset (r : Reg) (m : Word) : Run (Along SameSeq) (rset cmdAgent r m) := .rset SameSeq.command SameSeq.point r m

theorem Entered.report (cptr : Word) (n : Nat) : Run (Along SameSeq) (report cmdAgent cptr n) :=
  .report SameSeq.command.toStoreRules SameSeq.point cptr n fun _ _ _ => trivial

theorem Entered.status : Run (Along (Entered true)) (ownUpd cmdAgent fun s => { s with ctrlState := .status }) :=
  SameSeq.point.seq_entered fun _ => .upd fun _ h => ⟨h, rfl, rfl⟩

theorem Entered.ackStatus : Run (Along (Entered true)) (ackStatus cmdAgent) :=
  (Entered.look _).seq_entered fun _ => (Entered.rset _ _).seq_entered fun _ => (Entered.rset _ _).seq_entered fun _ => Entered.status

/-- The packet part of a control write enters with the last packet (R118). -/
theorem Entered.sendControl (mps : Half) (ptr len : Word) (n : Nat) :
    Run (Along (Entered (!decide (n < len.toNat)))) (sendControl cmdAgent mps ptr len n) := by
  have hfifo : Run (Along SameSeq) (inFifo 0 (pushAndHold cmdAgent mps ptr n)) :=
    .inFifo SameSeq.command.toStoreRules (.pushAndHold SameSeq.command SameSeq.point mps ptr n)
  refine (Entered.look _).seq_entered fun c => hfifo.seq_entered fun _ => ?_
  by_cases hmore : n < len.toNat
  · rw [if_pos hmore, decide_eq_true hmore]
    exact (Entered.rset _ _).not_entered
  · rw [if_neg hmore, decide_eq_false hmore]
    exact (Entered.rset _ _).seq_entered fun _ => Entered.status

/-- A control write enters as R111's table says. -/
theorem writeControl_entered {s : State} (h : s.CmdAlone) (ptr len cptr : Word) :
    Run.at (Along (Entered (writeEnters s ptr len cptr))) s (writeControl cmdAgent ptr len cptr s) := by
  unfold Machine.writeControl
  rw [bind_ok (own_quiet h.quiet _), writeEnters]
  by_cases hlen : len = 0
  · rw [if_pos hlen, if_pos hlen]
    by_cases hnull : ptr = 0 ∧ cptr = 0
    · rw [if_pos hnull, decide_eq_true hnull]
      exact Entered.ackStatus.entered_seq (fun _ => Entered.report cptr 0) s
    · rw [if_neg hnull, decide_eq_false hnull]
      exact (Run.done (Along.order SameSeq.order)).not_entered.entered_seq (fun _ => Entered.report cptr 0) s
  · rw [if_neg hlen, if_neg hlen]
    have hlast : decide (len.toNat ≤ (s.desc 0).mps.toNat) = !decide (min len.toNat (s.desc 0).mps.toNat < len.toNat) := by
      rw [← decide_not, decide_eq_decide]
      omega
    rw [hlast]
    exact (Entered.sendControl _ ptr len _).entered_seq (fun _ => Entered.report cptr _) s

/-- EP_WRITE whose checks pass enters on index 0 alone. -/
theorem epWrite_entered {s : State} (h : s.CmdAlone) {a : Byte} {ptr len : Word} (cptr : Word) (hx : xferError s a true ptr len = none) :
    Run.at (Along (Entered (decide (epIdx a = 0 ∧ writeEnters s ptr len cptr = true)))) s (epWrite cmdAgent a ptr len cptr s) := by
  unfold Machine.epWrite
  rw [bind_ok (xferCheck_passes h hx)]
  by_cases h0 : epIdx a = 0
  · rw [if_pos h0, show decide (epIdx a = 0 ∧ writeEnters s ptr len cptr = true) = writeEnters s ptr len cptr by simp [h0]]
    exact writeControl_entered h ptr len cptr
  · rw [if_neg h0, decide_eq_false fun hb => h0 hb.1]
    exact (Run.writeEndpoint SameSeq.command SameSeq.point _ ptr len cptr fun _ _ _ => trivial).not_entered s

theorem readContinue_available (s : State) (a : Byte) : available (readContinue s a) 0 = available s 0 := by
  unfold readContinue
  split
  · rfl
  · split <;> rfl

/-- EP_READ_CONTINUE enters on index 0 where no byte waits (R122). -/
theorem readContinue_entered (s : State) (a : Byte) : Entered (decide (epIdx a = 0 ∧ available s 0 = 0)) s (readContinue s a) := by
  unfold readContinue
  by_cases h0 : epIdx a = 0
  · by_cases hz : available s 0 = 0
    · rw [if_neg (not_not.2 h0), if_pos hz, decide_eq_true ⟨h0, hz⟩]
      exact ⟨rfl, rfl⟩
    · rw [if_neg (not_not.2 h0), if_neg hz, decide_eq_false fun hb => hz hb.2]
      exact ⟨rfl, rfl⟩
  · rw [if_pos h0, decide_eq_false fun hb => h0 hb.1]
    exact ⟨rfl, rfl⟩

/-! What a command's answer says of the sequencer. -/

/-- A command that goes on leaves the sequencer as its row of R111's table says, one that raises an error leaves it alone. -/
def SeqEnds (i : Instr) (s : State) : EStateM.Result Stop State Unit → Prop
  | .ok _ u => (u.ctrlState, u.lce) = sequencerAfter i s u
  | .error (.raise _) u => (u.ctrlState, u.lce) = (s.ctrlState, s.lce)
  | .error (.fault _) _ => True
  | .error (.refuse _) _ => True

/-- A command without a row. -/
theorem SeqEnds.of_same {i : Instr} {s : State} (h : s.CmdAlone) (hi : ∀ u, sequencerAfter i s u = (s.ctrlState, s.lce))
    {r : EStateM.Result Stop State Unit} (hr : Rel.at (Along SameSeq) s r) : SeqEnds i s r := by
  match r, hr with
  | .ok _ u, hr => exact (hr h).2.fields.trans (hi u).symm
  | .error (.raise _) _, hr => exact (hr h).2.fields
  | .error (.fault _) _, _ => trivial
  | .error (.refuse _) _, _ => trivial

/-- A command whose row is the entry into `Status`. -/
theorem SeqEnds.of_entered {i : Instr} {s : State} (h : s.CmdAlone) {b : Bool}
    (hi : ∀ u, sequencerAfter i s u = (if b then .status else s.ctrlState, s.lce)) {r : EStateM.Result Stop State Unit}
    (hr : Run.at (Along (Entered b)) s r) : SeqEnds i s r := by
  match r, hr with
  | .ok _ u, hr =>
    obtain ⟨-, hctrl, hlce⟩ := hr h
    exact (Prod.ext hctrl hlce).trans (hi u).symm
  | .error (.raise _) _, hr => exact hr.elim
  | .error (.fault _) _, _ => trivial
  | .error (.refuse _) _, _ => trivial

theorem SeqEnds.epWrite {i : Instr} {s : State} (h : s.CmdAlone) {a : Byte} {ptr len cptr : Word}
    (hi : ∀ u, sequencerAfter i s u
      = (if decide (epIdx a = 0 ∧ writeEnters s ptr len cptr = true) then .status else s.ctrlState, s.lce)) :
    SeqEnds i s (epWrite cmdAgent a ptr len cptr s) := by
  cases hx : xferError s a true ptr len with
  | none => exact .of_entered h hi (epWrite_entered h cptr hx)
  | some c =>
    obtain ⟨e, -, he⟩ := xferCheck_fails h hx
    rw [show Machine.epWrite cmdAgent a ptr len cptr s = .error (.raise e) s from bind_error he]
    rfl

/-- The second half of a read, after a first half that left the sequencer alone. -/
theorem SeqEnds.epReadContinue {i : Instr} {s u : State} (hs : SameSeq s u) (h : u.CmdAlone) {a : Byte}
    (hi : sequencerAfter i s (readContinue u a)
      = (if decide (epIdx a = 0 ∧ available u 0 = 0) then .status else s.ctrlState, s.lce)) :
    SeqEnds i s (epReadContinue cmdAgent a u) := by
  cases hx : xferError u a false 0 0 with
  | none =>
    rw [epReadContinue_alone h hx]
    obtain ⟨hctrl, hlce⟩ := readContinue_entered u a
    rw [hs.1] at hctrl
    exact (Prod.ext hctrl (hlce.trans hs.2.1)).trans hi.symm
  | some c =>
    obtain ⟨e, -, he⟩ := xferCheck_fails h hx
    rw [show Machine.epReadContinue cmdAgent a u = .error (.raise e) u from bind_error he]
    exact hs.fields

/-- EP_READ is its two halves, or the first alone for a peek (R123). -/
theorem SeqEnds.epRead {s : State} (h : s.CmdAlone) (a : Byte) (ptr max cptr : Word) :
    SeqEnds (.epRead a ptr max cptr) s (epRead cmdAgent a ptr max cptr s) := by
  have hwait := SameSeq.epReadWait a ptr max cptr s
  cases hr : epReadWait cmdAgent a ptr max cptr s with
  | ok x u =>
    rw [hr] at hwait
    obtain ⟨hu, hs⟩ := hwait h
    rw [Machine.epRead, bind_ok hr]
    by_cases hp : ptr = 0 ∧ max = 0
    · rw [if_pos hp]
      exact hs.fields.trans (by simp [sequencerAfter, isPeek, hp])
    · rw [if_neg hp]
      have hpeek : isPeek ptr max = false := by simpa [isPeek] using hp
      exact .epReadContinue hs hu (by simp [sequencerAfter, hpeek, readContinue_available])
  | error e u =>
    rw [hr] at hwait
    rw [Machine.epRead, bind_error hr]
    cases e with
    | raise e => exact (hwait h).2.fields
    | fault _ => trivial
    | refuse _ => trivial

/-- Every command's row of R111's table, or none. -/
theorem command_seqEnds {i : Instr} (hi : isEvent i = false) (ha : ∀ n, i ≠ .alloc n) {s : State} (h : s.CmdAlone) :
    SeqEnds i s (command cmdAgent i s) := by
  cases i
  case alloc n => exact absurd rfl (ha n)
  case reset => exact rfl
  case epWrite a ptr len cptr => exact .epWrite h fun _ => by simp [sequencerAfter]
  case statusZlp => exact .epWrite (a := 0x80#8) h fun _ => by simp [sequencerAfter, writeEnters, epIdx]
  case epReadContinue a => exact .epReadContinue (SameSeq.order.refl s) h (by simp [sequencerAfter])
  case epRead a ptr max cptr => exact .epRead h a ptr max cptr
  case attach | detach | setAddress | setStatusCallback | epCheckCap | epConfigure | epSetStall | epClearStall | epIsStalled | epEnable |
      epDisable | epFlush | epReadWait | epSetCallback | epMps | readPeek | reservedOpcode =>
    exact .of_same h (fun _ => rfl) (SameSeq.command_other _ (by simp) (by simp) (by simp) s)
  all_goals cases hi

/-- The answer in the port is not what the table looks at. -/
theorem sequencerAfter_setErr (i : Instr) (s u : State) (v : Word) : sequencerAfter i s (u.setErr v) = sequencerAfter i s u := by
  cases i <;> rfl

/-- ALLOC has no row (R105). -/
theorem execAlloc_sameSeq {n : Half} {s t : State} (ht : execAlloc n s = .next t) : (t.ctrlState, t.lce) = (s.ctrlState, s.lce) := by
  cases hf : allocFails s n with
  | true =>
    obtain rfl := Host.Outcome.next.inj ((execAlloc_of_fails hf).symm.trans ht)
    rfl
  | false =>
    obtain rfl := Host.Outcome.next.inj ((execAlloc_of_fits hf).symm.trans ht)
    rfl

end Sys2Proof.Machine
end

section

open Sys2Proof Sys2Proof.Machine Sys2Proof.Claims

/-- Settles O55: an event runs one row, ALLOC none, and a command ends as `SeqEnds` says, its error code being 0 exactly where it raised none. -/
theorem onlyTheTableWritesTheSequencer : Obligations.OnlyTheTableWritesTheSequencer := by
  intro i s t hcmd hpass hc ht
  cases he : isEvent i with
  | true =>
    rw [if_neg fun hb => Bool.noConfusion hb.1]
    exact sequencerAfter_event he hc hpass ht
  | false =>
    by_cases ha : ∀ n, i ≠ .alloc n
    · rw [exec_of_command he ha s] at ht
      have hends := command_seqEnds he ha hcmd
      obtain ⟨u, hu, rfl⟩ | ⟨e, u, hu, rfl⟩ := run_next ht
      · rw [hu] at hends
        rw [if_neg fun hb => hb.2.1 rfl, sequencerAfter_setErr]
        exact hends
      · rw [hu] at hends
        rw [if_pos ⟨rfl, e.code_ne_zero, ha⟩]
        exact hends
    · rw [if_neg fun hb => ha hb.2.2]
      obtain ⟨n, hn⟩ := not_forall.1 ha
      obtain rfl := not_not.1 hn
      exact execAlloc_sameSeq ht

end

section
/-! SUPPORT. The bus events, undisturbed (R125 to R133). -/

namespace Sys2Proof.Machine

open Sys2Proof.Claims

/-- A bus event: its bit is cleared, then its handler runs (R125). -/
theorem busEvent_quiet {s : State} (hg : s.passGaps = []) (e : BusEvent) :
    busEvent e s = busHandler e { s with ctl.busintsts := s.ctl.busintsts &&& ~~~bit (busPosition s.cfg.bitmap e) } :=
  bind_seq (look_run _ _) (bind_ok (wr_quiet (isr_quiet hg) _ _))

theorem exec_busEvent_quiet {s t : State} (hg : s.passGaps = []) (e : BusEvent)
    (hh : busHandler e { s with ctl.busintsts := s.ctl.busintsts &&& ~~~bit (busPosition s.cfg.bitmap e) } = .ok () t) :
    exec e.instr s = .next t := by
  rw [exec_busEvent]
  exact outcome_ok ((busEvent_quiet hg e).trans hh)

theorem statusNotify_alone {s : State} (h : s.PassAlone) (e : BusNotice) : statusNotify e s = .ok () (notified e s) := by
  unfold statusNotify notified
  split
  · rfl
  · simp [hostTurn, h.2]

theorem PassAlone_notified {s : State} (h : s.PassAlone) (e : BusNotice) : (notified e s).PassAlone := by
  unfold notified
  split <;> exact h

/-- A handler that calls back and then assigns a register (R127 to R129). -/
theorem statusNotify_wr_alone {s : State} (h : s.PassAlone) (e : BusNotice) (r : Reg) (v : Word) :
    (statusNotify e >>= fun _ => wr isr r v) s = .ok () (regWrite r v (notified e s)) :=
  bind_seq (statusNotify_alone h e) (wr_quiet (PassAlone_notified h e).quiet r v)

/-! Reset (R127). -/

/-- One endpoint after another is given its Flush bit, in the order of the list (R127). -/
theorem flushAll_quiet (m : BitMap) (l : List Nat) : ∀ {s : State}, s.passGaps = [] → s.cfg.bitmap = m →
    flushAll m l s
      = .ok () (l.foldl (fun t i => t.setEp i fun e => { e with eprspctl := e.eprspctl ||| bit m.rspFlush }) s) := by
  induction l with
  | nil => intro s _ _; rfl
  | cons i r ih =>
    intro s hg hm
    refine bind_seq (rset_quiet (isr_quiet hg) _ _) ?_
    rw [rset_eprspctl, hm, rspFlush_in_mask]
    exact ih (by simpa using hg) (by simpa using hm)

/-- A change of each of a list's first `n` entries. -/
theorem foldl_modify_getElem? {α : Type} (f : α → α) (l : List α) (n j : Nat) :
    ((List.range n).foldl (fun l k => l.modify k f) l)[j]? = if j < n then l[j]?.map f else l[j]? := by
  induction n with
  | zero => simp
  | succ n ih =>
    rw [List.range_succ, List.foldl_append, List.foldl_cons, List.foldl_nil, List.getElem?_modify, ih]
    obtain hj | rfl | hj := Nat.lt_trichotomy j n
    · simp [hj, hj.ne', Nat.lt_succ_of_lt hj]
    · simp
    · simp [hj.ne, show ¬j < n by omega, show ¬j < n + 1 by omega]

/-- A change of every endpoint that has registers is a change of every entry of the list of them (R53). -/
theorem foldl_setEp_epIndexes {s : State} (hl : s.eps.length = s.cfg.nEp - 1) (f : EpRegs → EpRegs) :
    s.cfg.epIndexes.foldl (fun t i => t.setEp i f) s = { s with eps := s.eps.map f } := by
  have hmap : (List.range (s.cfg.nEp - 1)).foldl (fun l k => l.modify k f) s.eps = s.eps.map f := by
    refine List.ext_getElem? fun j => ?_
    rw [foldl_modify_getElem?, List.getElem?_map, ← hl]
    split
    · rfl
    · next hj => simp [List.getElem?_eq_none (Nat.not_lt.1 hj)]
  rw [Config.epIndexes, List.foldl_map, ← hmap]
  exact List.foldl_hom (fun l => { s with eps := l }) (g₂ := fun t k => t.setEp (k + 1) f) fun _ _ => rfl

theorem flushAll_epIndexes {s : State} {c : Config} (hg : s.passGaps = []) (hc : s.cfg = c) (hl : s.eps.length = c.nEp - 1) :
    flushAll c.bitmap c.epIndexes s
      = .ok () { s with eps := s.eps.map fun e => { e with eprspctl := e.eprspctl ||| bit c.bitmap.rspFlush } } := by
  subst hc
  rw [flushAll_quiet _ _ hg rfl, foldl_setEp_epIndexes hl]

theorem andNot_or_self (w b : Word) : w &&& ~~~b ||| b = w ||| b := by
  apply word_ext
  intro p hp
  simp only [tst_or, tst_and, tst_not, hp, decide_true, Bool.true_and]
  cases tst w p <;> cases tst b p <;> rfl

/-- Disabled and enabled again, the DMA engine is enabled (R127). -/
theorem dma_restart_quiet {s : State} (hg : s.passGaps = []) (f : Unit → Prog Unit) :
    (rclr isr .dmactl (bit s.cfg.bitmap.dmaEn) >>= fun _ => rset isr .dmactl (bit s.cfg.bitmap.dmaEn) >>= f) s
      = f () { s with ctl.dmactl := s.ctl.dmactl ||| bit s.cfg.bitmap.dmaEn } := by
  refine bind_seq (rclr_quiet (isr_quiet hg) _ _) ?_
  rw [rclr_dmactl, dmaEn_in_mask]
  refine bind_seq (rset_quiet (isr_quiet (by exact hg)) _ _) ?_
  rw [rset_dmactl, dmaEn_in_mask, andNot_or_self]

theorem wr_devaddr_zero {s : State} (hg : s.passGaps = []) (hn : s.NamedBits) :
    wr isr .devaddr 0 s = .ok () { s with ctl.devaddr := 0 } := by
  obtain ⟨-, hdev, -⟩ := hn
  rw [wr_quiet (isr_quiet hg), regWrite, writeMasked_of_named (v := 0) hdev BitVec.zero_and]

/-- The Reset event up to its callback: the quiesced state, from which it calls back and then clears every control-endpoint flag (R127, R211). -/
theorem busReset_quiesces {s : State} (hg : s.passGaps = []) (hn : s.NamedBits) (hs : s.Sized) :
    busEvent (.named .reset) s = (statusNotify .reset >>= fun _ => wr isr .cepintsts 0xFFFFFFFF#32) (quiesced s) := by
  obtain ⟨-, heps, -⟩ := hs
  rw [busEvent_quiet hg]
  refine bind_seq (look_run _ _) (bind_seq (wr_devaddr_zero (by exact hg) (by exact hn)) ?_)
  exact (dma_restart_quiet (by exact hg) _).trans (bind_ok (flushAll_epIndexes (by exact hg) rfl heps))

theorem exec_busReset_alone {s : State} (h : s.PassAlone) (hn : s.NamedBits) (hs : s.Sized) :
    exec .busReset s = .next { notified .reset (quiesced s) with ctl.cepintsts := 0 } := by
  refine outcome_ok ((busReset_quiesces h.1 hn hs).trans ?_)
  rw [statusNotify_wr_alone (by exact h)]
  simp only [regWrite, w1cValue_ones]

/-! The other handlers (R128 to R132). -/

theorem handleResume_alone {s : State} (h : s.PassAlone) :
    handleResume s = .ok () { notified .resume s with
      ctl.businten := bit s.cfg.bitmap.busReset ||| bit s.cfg.bitmap.busSuspend ||| s.cfg.busEnExtra } := by
  refine bind_seq (look_run _ _) ((statusNotify_wr_alone h _ _ _).trans ?_)
  simp [regWrite, busBits, BitMap.busPos]

theorem handleSuspend_alone {s : State} (h : s.PassAlone) :
    handleSuspend s = .ok () { notified .suspend s with
      ctl.businten := bit s.cfg.bitmap.busReset ||| bit s.cfg.bitmap.busResume ||| s.cfg.busEnExtra } := by
  refine bind_seq (look_run _ _) ((statusNotify_wr_alone h _ _ _).trans ?_)
  simp [regWrite, busBits, BitMap.busPos]

theorem handleHighSpeed_quiet {s : State} (hg : s.passGaps = []) :
    handleHighSpeed s = .ok () { s with ctl.cepinten := s.ctl.cepinten ||| bit s.cfg.bitmap.cepSetupPkt } :=
  bind_seq (look_run _ _) (rset_quiet (isr_quiet hg) _ _)

theorem handleDmaDone_quiet {s : State} (hg : s.passGaps = []) : handleDmaDone s = .ok () s := by
  refine bind_seq (look_run _ _) (bind_seq (rd_quiet (isr_quiet hg) _) ?_)
  split <;> rfl

/-- VBUS is there: the PHY and the pull-up are enabled (R132). -/
theorem handleVbus_detected {s : State} (hg : s.passGaps = []) (hv : tst s.ctl.phyctl s.cfg.bitmap.phyVbusDet = true) :
    handleVbus s = .ok ()
      { s with ctl.phyctl := s.ctl.phyctl ||| bit s.cfg.bitmap.phyEn ||| bit s.cfg.bitmap.phyDpPuEn } := by
  refine bind_seq (look_run _ _) (bind_seq (rd_quiet (isr_quiet hg) _) (ite_run hv ?_))
  refine bind_seq (rset_quiet (isr_quiet hg) _ _) ?_
  rw [rset_phyctl, phyEn_in_mask, rset_quiet (isr_quiet (by exact hg)), rset_phyctl, phyDpPuEn_in_mask]

/-- VBUS is gone: the pull-up is disabled (R132). -/
theorem handleVbus_removed {s : State} (hg : s.passGaps = []) (hv : ¬tst s.ctl.phyctl s.cfg.bitmap.phyVbusDet = true) :
    handleVbus s = .ok () { s with ctl.phyctl := s.ctl.phyctl &&& ~~~bit s.cfg.bitmap.phyDpPuEn } := by
  refine bind_seq (look_run _ _) (bind_seq (rd_quiet (isr_quiet hg) _) (else_run hv ?_))
  rw [rclr_quiet (isr_quiet hg), rclr_phyctl, phyDpPuEn_in_mask]

end Sys2Proof.Machine
end

section

open Sys2Proof Sys2Proof.Machine Sys2Proof.Claims

/-- Settles O43: the handler's lines in order, each by what its access does. -/
theorem busResetQuiescesAndClears : Obligations.BusResetQuiescesAndClears := by
  unfold Obligations.BusResetQuiescesAndClears
  intro s h hn hs
  exact exec_busReset_alone h hn hs

/-- Settles O45: each clears its own bit, calls back and assigns the enables in one write. -/
theorem resumeAndSuspendReprogramTheEnables : Obligations.ResumeAndSuspendReprogramTheEnables := by
  unfold Obligations.ResumeAndSuspendReprogramTheEnables
  intro s h
  exact ⟨exec_busEvent_quiet h.1 (.named .resume) (handleResume_alone (by exact h)),
    exec_busEvent_quiet h.1 (.named .suspend) (handleSuspend_alone (by exact h))⟩

/-- Settles O46: an unrecognised bit's handler is empty, and VBUS goes by the level at handling time. -/
theorem otherBusEvents : Obligations.OtherBusEvents := by
  unfold Obligations.OtherBusEvents
  intro s h
  refine ⟨?high_speed, ?dma_done, fun b => ?unrecognised, ?vbus⟩
  case high_speed => exact exec_busEvent_quiet h.1 (.named .highSpeed) (handleHighSpeed_quiet h.1)
  case dma_done => exact exec_busEvent_quiet h.1 (.named .dmaDone) (handleDmaDone_quiet h.1)
  case unrecognised => exact exec_busEvent_quiet h.1 (.other b) (done_run _)
  case vbus =>
    by_cases hv : tst s.ctl.phyctl s.cfg.bitmap.phyVbusDet = true
    · rw [if_pos hv]
      exact exec_busEvent_quiet h.1 (.named .vbus) (handleVbus_detected (by exact h.1) hv)
    · rw [if_neg hv]
      exact exec_busEvent_quiet h.1 (.named .vbus) (handleVbus_removed (by exact h.1) hv)

end

section
/-! SUPPORT. The sub-dispatchers: one snapshot of status and enable, then its operations in scan order (R125, R136, R148). -/

namespace Sys2Proof.Machine

open Sys2Proof.Claims

/-! The snapshot. -/

/-- The schedule of a pass is not what its reads look at. -/
theorem regRead_passGaps (r : Reg) (s : State) (l : List Gap) : regRead r { s with passGaps := l } = regRead r s := by
  cases r
  case gintsts => exact gintsts_congr rfl rfl rfl
  all_goals rfl

/-- An access of a pass whose next gap is empty uses that gap up (log 4). -/
theorem isr_point_drop {s : State} (h : ∀ g ∈ s.passGaps.take 1, g = []) :
    isr.point s = .ok () { s with passGaps := s.passGaps.drop 1 } := by
  show passPoint s = _
  unfold passPoint
  cases hg : s.passGaps with
  | nil => cases s; cases hg; rfl
  | cons p r =>
    obtain rfl : p = [] := h p (by simp [hg])
    rfl

theorem rd_drop {s : State} (h : ∀ g ∈ s.passGaps.take 1, g = []) (r : Reg) :
    rd isr r s = .ok (regRead r s) { s with passGaps := s.passGaps.drop 1 } :=
  bind_seq (isr_point_drop h) (by rw [look_run, regRead_passGaps])

/-- The two reads a snapshot is made of (R134, R125, R136, R148). -/
theorem rd_rd_fresh {α : Type} {s : State} (h : freshStart s.passGaps) (st en : Reg) (f : Word → Word → Prog α) :
    (rd isr st >>= fun a => rd isr en >>= f a) s
      = f (regRead st s) (regRead en s) { s with passGaps := s.passGaps.drop 2 } := by
  have hfirst : ∀ g ∈ s.passGaps.take 1, g = [] := fun g hg =>
    h g (List.mem_of_mem_take (i := 1) (by rwa [List.take_take]))
  have hsecond : ∀ g ∈ (s.passGaps.drop 1).take 1, g = [] := fun g hg =>
    h g (List.mem_of_mem_drop (i := 1) (by rwa [List.drop_take]))
  rw [bind_ok (rd_drop hfirst st), bind_ok (rd_drop (by exact hsecond) en)]
  simp only [regRead_passGaps, List.drop_drop, Nat.reduceAdd]

theorem busDispatch_fresh {s : State} (h : freshStart s.passGaps) :
    busDispatch s = scan (fun p => busEvent (s.cfg.bitmap.busEvent p)) s.cfg.bitmap.busOrder
      { s with sSnap := s.ctl.busintsts &&& s.ctl.businten, passGaps := s.passGaps.drop 2 } :=
  rd_rd_fresh h _ _ _

theorem cepDispatch_fresh {s : State} (h : freshStart s.passGaps) :
    cepDispatch s = scan (fun p => cepEvent (s.cfg.bitmap.cepEvent p)) s.cfg.bitmap.cepOrder
      { s with sSnap := s.ctl.cepintsts &&& s.ctl.cepinten, passGaps := s.passGaps.drop 2 } :=
  rd_rd_fresh h _ _ _

theorem epDispatch_fresh {s : State} (h : freshStart s.passGaps) {i : Nat} {w : Word}
    (hw : w = (s.ep i).epintsts &&& (s.ep i).epinten) :
    epDispatch i s = (if w = 0 then done else if i % 2 = 1 then endpointIn i w else endpointOut i w)
      { s with sSnap := w, passGaps := s.passGaps.drop 2 } := by
  subst hw
  exact rd_rd_fresh h _ _ _

/-! The scan, as operations of `exec`. -/

/-- Two runs that answer the same have the same outcome. -/
theorem outcome_congr {p q : Prog Unit} {s u : State} (h : p s = q u) : outcome p s = outcome q u := by
  rw [outcome, h, outcome]

/-- A scan whose events are operations and do not raise is those operations in order (R125, R136). -/
theorem outcome_scan {h : Fin 32 → Prog Unit} {op : Fin 32 → Instr} (hop : ∀ p s, exec (op p) s = outcome (h p) s)
    (hr : ∀ p, Run Any (h p)) (l : List (Fin 32)) : ∀ s, outcome (scan h l) s = scanRun op l s := by
  induction l with
  | nil => intro s; rfl
  | cons p r ih =>
    intro s
    rw [outcome_congr (scan_cons h p r s), scanRun]
    by_cases hb : tst s.sSnap p.val = true
    · rw [if_pos hb, if_pos hb, outcome_bind fun e t => (hr p).not_raised, ← hop]
      cases exec (op p) { s with scanPos := p.val } with
      | next t => exact ih t
      | fault f => rfl
      | refused x => rfl
    · rw [if_neg hb, if_neg hb]
      exact ih _

/-! The endpoint events, as operations of `exec` (log 23). -/

theorem exec_epIn {s : State} {i : Nat} {w : Word} (hi : s.cfg.isEp i = true) (hodd : i % 2 = 1) :
    exec (.epIn i w) s = outcome (endpointIn i w) s :=
  outcome_congr (ite_run (by simp [hi, hodd]) rfl)

theorem exec_epOut {s : State} {i : Nat} {w : Word} (hi : s.cfg.isEp i = true) (heven : i % 2 = 0) :
    exec (.epOut i w) s = outcome (endpointOut i w) s :=
  outcome_congr (ite_run (by simp [hi, heven]) rfl)

/-! The endpoint events, undisturbed (R148 to R150). -/

theorem endpointIn_alone {s : State} (h : s.PassAlone) (i : Nat) (w : Word) :
    endpointIn i w s = .ok () (called (s.desc i).callbackIn (inAddr i) .dataIn
      (s.setEp i fun e => { e with epintsts := e.epintsts &&& ~~~w, epinten := 0 })) := by
  refine bind_seq (wr_quiet h.quiet _ _) (bind_seq (wr_quiet (State.PassAlone.quiet (by simpa using h)) _ _) ?_)
  simp only [regWrite, State.setEp_setEp]
  refine bind_seq (look_run _ _) ?_
  rw [callback_alone (by simpa using h), State.desc, State.setEp_epTable]
  rfl

theorem endpointOut_alone {s : State} (h : s.PassAlone) (i : Nat) (w : Word) :
    endpointOut i w s = .ok () (called (s.desc i).callbackOut (outAddr i) .dataOut
      (s.setEp i fun e => { e with epintsts := e.epintsts &&& ~~~w })) := by
  refine bind_seq (wr_quiet h.quiet _ _) (bind_seq (look_run _ _) ?_)
  rw [callback_alone (by simpa using h), State.desc, regWrite, State.setEp_epTable]
  rfl

/-- A change of one endpoint's registers and a call made after it. -/
theorem called_setEp (cb : Word) (a : Byte) (e : EpNotice) (s : State) (i : Nat) (f : EpRegs → EpRegs) :
    ∃ c, called cb a e (s.setEp i f) = ({ s with calls := c }).setEp i f := by
  obtain ⟨c, hc⟩ := called_calls cb a e (s.setEp i f)
  exact ⟨c, hc.trans (by cases i <;> rfl)⟩

/-- An endpoint event changes that endpoint's registers alone, and of its status bits clears those it was given. -/
theorem endpointEvent_alone {s : State} (h : s.PassAlone) (i : Nat) (w : Word) :
    ∃ c f, (if i % 2 = 1 then endpointIn i w else endpointOut i w) s = .ok () (({ s with calls := c }).setEp i f)
      ∧ ∀ e : EpRegs, (f e).epintsts = e.epintsts &&& ~~~w := by
  by_cases hodd : i % 2 = 1
  · rw [if_pos hodd, endpointIn_alone h]
    obtain ⟨c, hc⟩ := called_setEp (s.desc i).callbackIn (inAddr i) .dataIn s i
      fun e => { e with epintsts := e.epintsts &&& ~~~w, epinten := 0 }
    exact ⟨c, _, congrArg _ hc, fun _ => rfl⟩
  · rw [if_neg hodd, endpointOut_alone h]
    obtain ⟨c, hc⟩ := called_setEp (s.desc i).callbackOut (outAddr i) .dataOut s i
      fun e => { e with epintsts := e.epintsts &&& ~~~w }
    exact ⟨c, _, congrArg _ hc, fun _ => rfl⟩

/-- An undisturbed schedule has no gap before the first two accesses. -/
theorem State.PassAlone.fresh {s : State} (h : s.PassAlone) : freshStart s.passGaps := by
  intro g hg
  simp [h.1] at hg

/-- The dispatcher of an endpoint: its event, or nothing where the snapshot is empty, has cleared the snapshot's bits (R148). -/
theorem epDispatch_alone {s : State} (h : s.PassAlone) (i : Nat) :
    ∃ w c f, epDispatch i s = .ok () (({ s with sSnap := w, passGaps := s.passGaps.drop 2, calls := c }).setEp i f)
      ∧ ∀ e : EpRegs, (f e).epintsts = e.epintsts &&& ~~~((s.ep i).epintsts &&& (s.ep i).epinten) := by
  rw [epDispatch_fresh h.fresh rfl]
  by_cases h0 : (s.ep i).epintsts &&& (s.ep i).epinten = 0
  · refine ⟨0, s.calls, fun e => e, ?_, fun e => ?_⟩
    · rw [if_pos h0, State.setEp_id, h0]
      rfl
    · exact h0 ▸ (BitVec.and_allOnes (x := e.epintsts)).symm
  · rw [if_neg h0]
    obtain ⟨c, f, hrun, hf⟩ := endpointEvent_alone
      (s := { s with sSnap := (s.ep i).epintsts &&& (s.ep i).epinten, passGaps := s.passGaps.drop 2 })
      ⟨by simp [h.1], h.2⟩ i ((s.ep i).epintsts &&& (s.ep i).epinten)
    exact ⟨_, c, f, hrun, hf⟩

/-! The bus and the control dispatcher, undisturbed (R125, R136). -/

/-- What no bus handler writes: everything outside the controller but the record of calls, and in the controller the global enables and the
bus status word. -/
def busHandlerFrame (s : State) : State :=
  { s with ctl := { Ctl.zero with ginten := s.ctl.ginten, busintsts := s.ctl.busintsts }, eps := [], calls := [] }

/-- What no bus event writes, nor the scan's position. -/
def busFrame (s : State) : State := { busHandlerFrame s with ctl.busintsts := 0, scanPos := 0 }

/-- What no control-endpoint handler writes: everything but the control endpoint's enables, the sequencer, the SETUP snapshot and the record
of calls. -/
def cepHandlerFrame (s : State) : State :=
  { s with ctl.cepinten := 0, lce := .none, ctrlState := .idle, setupSnap := ⟨0, 0, 0, 0⟩, calls := [] }

/-- What no control-endpoint event writes, nor the scan's position. -/
def cepFrame (s : State) : State := { cepHandlerFrame s with ctl.cepintsts := 0, scanPos := 0 }

/-- Two states that agree on `f`. -/
def SameOn {α : Type} (f : State → α) (s t : State) : Prop := f t = f s

/-- States that agree on `f` agree on what is read off it. -/
theorem SameOn.field {α β : Type} {f : State → α} {s t : State} (h : SameOn f s t) (g : α → β) : g (f t) = g (f s) := congrArg g h

theorem SameOn.order {α : Type} (f : State → α) : Order (SameOn f) := ⟨fun _ => rfl, fun h1 h2 => h2.trans h1⟩

theorem busHandlerFrame_setEp (s : State) (i : Nat) (f : EpRegs → EpRegs) : busHandlerFrame (s.setEp i f) = busHandlerFrame s := by
  cases i <;> rfl

/-- No register but the two of the frame is part of it. -/
theorem busHandlerFrame_regWrite {r : Reg} (hg : r ≠ .ginten) (hb : r ≠ .busintsts) (v : Word) (s : State) :
    busHandlerFrame (regWrite r v s) = busHandlerFrame s := by
  cases r
  case ginten => exact absurd rfl hg
  case busintsts => exact absurd rfl hb
  case epcfg | eprspctl | epmps | epbufstart | epbufend | epinten | epintsts => exact busHandlerFrame_setEp ..
  case epdatcnt i =>
    show busHandlerFrame (if i % 2 = 1 then _ else s) = _
    split
    · exact busHandlerFrame_setEp ..
    · rfl
  all_goals rfl

section

variable {P : State → State → Prop}

theorem Finishes.flushAll (o : Order P) (hr : ∀ i v s, P s (regWrite (.eprspctl i) v s)) (m : BitMap) (l : List Nat) :
    Finishes P (flushAll m l) := by
  induction l with
  | nil => exact .done o
  | cons i r ih => exact (Finishes.rset o _ _ (hr i)).bind o fun _ => ih

/-- A bus handler finishes, and keeps what its register writes and its calls keep. -/
theorem Finishes.busHandler (o : Order P) (hr : ∀ r v s, r ≠ .ginten → r ≠ .busintsts → P s (regWrite r v s))
    (hc : ∀ c s, P s { s with calls := c }) (e : BusEvent) : Finishes P (busHandler e) := by
  have wr : ∀ {r} v, r ≠ .ginten → r ≠ .busintsts → Finishes P (Machine.wr isr r v) := fun v h1 h2 => .wr _ v fun s => hr _ v s h1 h2
  have rset : ∀ {r} m, r ≠ .ginten → r ≠ .busintsts → Finishes P (Machine.rset isr r m) :=
    fun m h1 h2 => .rset o _ m fun v s => hr _ v s h1 h2
  have rclr : ∀ {r} m, r ≠ .ginten → r ≠ .busintsts → Finishes P (Machine.rclr isr r m) :=
    fun m h1 h2 => .rclr o _ m fun v s => hr _ v s h1 h2
  have notify := Finishes.statusNotify o hc
  cases e with
  | other p => exact .done o
  | named b =>
    cases b
    case reset =>
      refine (Finishes.look o _).bind o fun c => (wr _ (by simp) (by simp)).bind o fun _ => (rclr _ (by simp) (by simp)).bind o fun _ => ?_
      refine (rset _ (by simp) (by simp)).bind o fun _ => (Finishes.flushAll o (fun i v s => hr _ v s (by simp) (by simp)) _ _).bind o ?_
      exact fun _ => (notify _).bind o fun _ => wr _ (by simp) (by simp)
    case resume => exact (Finishes.look o _).bind o fun c => (notify _).bind o fun _ => wr _ (by simp) (by simp)
    case suspend => exact (Finishes.look o _).bind o fun c => (notify _).bind o fun _ => wr _ (by simp) (by simp)
    case highSpeed => exact (Finishes.look o _).bind o fun c => rset _ (by simp) (by simp)
    case dmaDone => exact (Finishes.look o _).bind o fun c => (Finishes.rd o _).bind o fun v => .ite (.done o) (.done o)
    case vbus =>
      refine (Finishes.look o _).bind o fun c => (Finishes.rd o _).bind o fun v => .ite ?_ (rclr _ (by simp) (by simp))
      exact (rset _ (by simp) (by simp)).bind o fun _ => rset _ (by simp) (by simp)

/-- A control-endpoint handler finishes, and keeps what its changes keep. -/
theorem Finishes.cepHandler (o : Order P) (hr : ∀ v s, P s (regWrite .cepinten v s)) (hc : ∀ c s, P s { s with calls := c })
    (hq : ∀ q s, P s { s with setupSnap := q }) (hl : ∀ l s, P s { s with lce := l })
    (ht : ∀ c s, P s { s with ctrlState := c }) (e : CepEvent) : Finishes P (cepHandler e) := by
  have snap : ∀ k, Finishes P (snapWord k) := fun k => (Finishes.rd o _).bind o fun _ => .upd fun s h => ⟨h, hq _ s⟩
  have event : ∀ l, Finishes P (Machine.upd fun s => { s with lce := l }) := fun l => .upd fun s h => ⟨h, hl l s⟩
  have state : ∀ c, Finishes P (Machine.upd fun s => { s with ctrlState := c }) := fun c => .upd fun s h => ⟨h, ht c s⟩
  have sequencer : ∀ l c, Finishes P (Machine.upd fun s => { s with lce := l, ctrlState := c }) :=
    fun l c => .upd fun s h => ⟨h, o.trans (hl l s) (ht c _)⟩
  have call : ∀ (f : State → EpDesc) (g : EpDesc → Word) a e, Finishes P (Machine.look f >>= fun d => Machine.callback (g d) a e) :=
    fun f g a e => (Finishes.look o f).bind o fun _ => .callback o hc _ a e
  cases e with
  | other p => exact .done o
  | named b =>
    cases b
    case setupPkt =>
      refine (Finishes.look o _).bind o fun c => (snap 0).bind o fun _ => (snap 1).bind o fun _ => (snap 2).bind o fun _ => ?_
      refine (snap 3).bind o fun _ => (event _).bind o fun _ => ?_
      refine (Finishes.rset o _ _ hr).bind o fun _ => (state _).bind o fun _ => call _ _ _ _
    case outToken => exact (Finishes.look o _).bind o fun l => .ite (.done o) ((sequencer _ _).bind o fun _ => call _ _ _ _)
    case inToken => exact (sequencer _ _).bind o fun _ => call _ _ _ _
    case statusDone => exact (Finishes.look o _).bind o fun c => (sequencer _ _).bind o fun _ => .wr _ _ (hr _)
    all_goals exact .done o

end

theorem busEvent_finishes {s : State} (h : s.PassAlone) (e : BusEvent) :
    ∃ t, busEvent e s = .ok () t ∧ t.PassAlone ∧ SameOn busFrame s t
      ∧ t.ctl.busintsts = s.ctl.busintsts &&& ~~~bit (busPosition s.cfg.bitmap e) := by
  obtain ⟨_, t, ht, hq, hf⟩ := Finishes.busHandler (SameOn.order busHandlerFrame) (fun r v s hg hb => busHandlerFrame_regWrite hg hb v s)
    (fun _ _ => rfl) e { s with ctl.busintsts := s.ctl.busintsts &&& ~~~bit (busPosition s.cfg.bitmap e) } h
  have hframe := hf.field fun u => ({ u with ctl.busintsts := 0, scanPos := 0 } : State)
  exact ⟨t, (busEvent_quiet h.1 e).trans ht, hq, hframe, hf.field fun u => u.ctl.busintsts⟩

theorem cepEvent_finishes {s : State} (h : s.PassAlone) (e : CepEvent) :
    ∃ t, cepEvent e s = .ok () t ∧ t.PassAlone ∧ SameOn cepFrame s t
      ∧ t.ctl.cepintsts = s.ctl.cepintsts &&& ~~~bit (cepPosition s.cfg.bitmap e) := by
  obtain ⟨_, t, ht, hq, hf⟩ := Finishes.cepHandler (SameOn.order cepHandlerFrame) (fun _ _ => rfl) (fun _ _ => rfl) (fun _ _ => rfl)
    (fun _ _ => rfl) (fun _ _ => rfl) e { s with ctl.cepintsts := s.ctl.cepintsts &&& ~~~bit (cepPosition s.cfg.bitmap e) } h
  have hframe := hf.field fun u => ({ u with ctl.cepintsts := 0, scanPos := 0 } : State)
  exact ⟨t, bind_seq (look_run _ _) (bind_seq (wr_quiet h.quiet _ _) ht), hq, hframe, hf.field fun u => u.ctl.cepintsts⟩

/-- A scan of every position has cleared the snapshot's bits. -/
theorem cleared_of_scan {a b w : Word} {l : List (Fin 32)} (hl : ∀ p, p ∈ l)
    (h : ∀ q < 32, tst a q = (tst b q && !(tst w q && l.any fun p => decide (p.val = q)))) : a = b &&& ~~~w := by
  apply word_ext
  intro q hq
  have hany : (l.any fun p => decide (p.val = q)) = true := List.any_eq_true.2 ⟨⟨q, hq⟩, hl _, by simp⟩
  rw [h q hq, hany, Bool.and_true, tst_and, tst_not, decide_eq_true hq, Bool.true_and]

/-- The bus dispatcher has cleared its snapshot and written nothing of `busFrame` but its own snapshot and gaps (R125). -/
theorem exec_gintBus_alone {s : State} (h : s.PassAlone) :
    ∃ t, exec .gintBus s = .next t ∧ t.ctl.busintsts = s.ctl.busintsts &&& ~~~(s.ctl.busintsts &&& s.ctl.businten)
      ∧ SameOn busFrame { s with sSnap := s.ctl.busintsts &&& s.ctl.businten, passGaps := s.passGaps.drop 2 } t := by
  obtain ⟨t, ht, -, hf, hbits⟩ := scan_finishes (SameOn.order busFrame) (fun u => u.ctl.busintsts)
    (fun p => busEvent (s.cfg.bitmap.busEvent p)) s.cfg.bitmap (fun _ _ => rfl) (fun _ _ hf => hf.field State.sSnap)
    (fun _ _ hf => hf.field State.cfg) (fun _ _ => rfl)
    (fun p u hu hm => by simpa only [hm, busPosition_busEvent] using busEvent_finishes hu (s.cfg.bitmap.busEvent p))
    s.cfg.bitmap.busOrder { s with sSnap := s.ctl.busintsts &&& s.ctl.businten, passGaps := s.passGaps.drop 2 } ⟨by simp [h.1], h.2⟩ rfl
  exact ⟨t, outcome_ok ((busDispatch_fresh h.fresh).trans ht), cleared_of_scan (mem_busOrder _) hbits, hf⟩

/-- The control dispatcher likewise (R136). -/
theorem exec_gintCep_alone {s : State} (h : s.PassAlone) :
    ∃ t, exec .gintCep s = .next t ∧ t.ctl.cepintsts = s.ctl.cepintsts &&& ~~~(s.ctl.cepintsts &&& s.ctl.cepinten)
      ∧ SameOn cepFrame { s with sSnap := s.ctl.cepintsts &&& s.ctl.cepinten, passGaps := s.passGaps.drop 2 } t := by
  obtain ⟨t, ht, -, hf, hbits⟩ := scan_finishes (SameOn.order cepFrame) (fun u => u.ctl.cepintsts)
    (fun p => cepEvent (s.cfg.bitmap.cepEvent p)) s.cfg.bitmap (fun _ _ => rfl) (fun _ _ hf => hf.field State.sSnap)
    (fun _ _ hf => hf.field State.cfg) (fun _ _ => rfl)
    (fun p u hu hm => by simpa only [hm, cepPosition_cepEvent] using cepEvent_finishes hu (s.cfg.bitmap.cepEvent p))
    s.cfg.bitmap.cepOrder { s with sSnap := s.ctl.cepintsts &&& s.ctl.cepinten, passGaps := s.passGaps.drop 2 } ⟨by simp [h.1], h.2⟩ rfl
  exact ⟨t, outcome_ok ((cepDispatch_fresh h.fresh).trans ht), cleared_of_scan (mem_cepOrder _) hbits, hf⟩

end Sys2Proof.Machine
end

section

open Sys2Proof Sys2Proof.Machine Sys2Proof.Claims

/-- Settles O7: the snapshot is the two reads, and after it the scan's events, or the one endpoint event, are operations of `exec`. -/
theorem dispatcherRunsItsSnapshotInOrder : Obligations.DispatcherRunsItsSnapshotInOrder := by
  unfold Obligations.DispatcherRunsItsSnapshotInOrder
  intro s h
  refine ⟨?bus, ?cep, fun i w hi hw => ?ep⟩
  case bus =>
    show outcome busDispatch s = _
    rw [outcome_congr (busDispatch_fresh h)]
    exact outcome_scan (fun p => exec_busEvent _) (fun p => .busEvent Any.pass.toNoticeRules _) _ _
  case cep =>
    show outcome cepDispatch s = _
    rw [outcome_congr (cepDispatch_fresh h)]
    exact outcome_scan (fun p => exec_cepEvent _) (fun p => .cepEvent Any.pass.toEventRules _) _ _
  case ep =>
    rw [exec_gintEp hi, outcome_congr (epDispatch_fresh h hw)]
    by_cases h0 : w = 0
    · rw [if_pos h0, if_pos h0]
      rfl
    · rw [if_neg h0, if_neg h0]
      by_cases hodd : i % 2 = 1
      · rw [if_pos hodd, if_pos hodd]
        exact (exec_epIn (by exact hi) hodd).symm
      · rw [if_neg hodd, if_neg hodd]
        exact (exec_epOut (by exact hi) (Nat.mod_two_ne_one.1 hodd)).symm

/-- Settles O8: a scan of every position clears the snapshot's bits, each event its own, and an endpoint's event clears them in one write. -/
theorem dispatcherCompletesAndClearsItsSnapshot : Obligations.DispatcherCompletesAndClearsItsSnapshot := by
  unfold Obligations.DispatcherCompletesAndClearsItsSnapshot
  intro s h
  refine ⟨?bus, ?cep, fun i hi hlen => ?ep⟩
  case bus =>
    obtain ⟨t, ht, hbits, hf⟩ := exec_gintBus_alone h
    exact ⟨t, ht, hbits, hf.field State.epTable, hf.field State.ramOffset, hf.field State.lce, hf.field State.ctrlState,
      hf.field State.setupSnap, hf.field State.mem, hf.field State.port, hf.field fun u => u.ctl.ginten⟩
  case cep =>
    obtain ⟨t, ht, hbits, hf⟩ := exec_gintCep_alone h
    exact ⟨t, ht, hbits, hf.field State.epTable, hf.field State.ramOffset, hf.field State.eps, hf.field State.mem,
      hf.field State.port, hf.field fun u => u.ctl.ginten, hf.field fun u => u.ctl.businten,
      hf.field fun u => u.ctl.busintsts⟩
  case ep =>
    obtain ⟨w, c, f, hrun, hf⟩ := epDispatch_alone h i
    have h0 : i ≠ 0 := by
      rintro rfl
      simp [Config.isEp] at hi
    refine ⟨_, (exec_gintEp hi).trans (outcome_ok hrun), ?_, fun j hj => ?_, ?_⟩
    · rw [State.ep_setEp_same _ _ h0 (by exact hlen), hf]
      rfl
    · exact State.ep_setEp_other _ _ hj
    · simp

end

section
/-! SUPPORT. An interrupt pass as operations of `exec` (R134, R192, R193), and the events of the control endpoint whose handler is empty
(R137 to R147). -/

namespace Sys2Proof.Machine

open Sys2Proof.Claims

/-! A pass: one snapshot, then the dispatchers its bits select. -/

/-- One bit of the global snapshot: where it is set its operation comes first, and what follows starts with the snapshot still in place. -/
theorem outcome_selected {b : Bool} {p q : Prog Unit} {i : Instr} {l : List Instr} {s : State} (hr : Run SameSnap p)
    (hi : exec i s = outcome p s) (hq : ∀ t, SameSnap s t → outcome q t = inOrder l t) :
    outcome (if b then p >>= fun _ => q else done >>= fun _ => q) s = inOrder ((if b then [i] else []) ++ l) s := by
  cases b with
  | false => exact hq s (SameSnap.order.refl s)
  | true =>
    show outcome (p >>= fun _ => q) s = inOrder (i :: l) s
    rw [outcome_bind fun e t => hr.not_raised, inOrder, hi]
    cases ho : outcome p s with
    | next t => exact hq t (hr.outcome ho)
    | fault f => rfl
    | refused x => rfl

/-- The endpoint loop dispatches the endpoints whose bit the snapshot holds, in the order of the list (R134). -/
theorem outcome_epLoop (c : Config) (w : Word) (l : List Nat) (hl : ∀ i ∈ l, c.isEp i = true) : ∀ s : State, s.cfg = c → s.gSnap = w →
    outcome (epLoop c.bitmap l) s = inOrder ((l.filter fun i => tst w (c.bitmap.gEp i)).map .gintEp) s := by
  induction l with
  | nil => intro s _ _; rfl
  | cons i r ih =>
    intro s hc hg
    have hi : s.cfg.isEp i = true := hc ▸ hl i (List.mem_cons_self ..)
    have hrest : ∀ t, SameSnap s t →
        outcome (epLoop c.bitmap r) t = inOrder ((r.filter fun i => tst w (c.bitmap.gEp i)).map .gintEp) t := fun t ht =>
      ih (fun j hj => hl j (List.mem_cons_of_mem _ hj)) t (ht.2.trans hc) (ht.1.trans hg)
    have hlist : ((i :: r).filter fun i => tst w (c.bitmap.gEp i)).map Instr.gintEp
        = (if tst w (c.bitmap.gEp i) then [.gintEp i] else []) ++ (r.filter fun i => tst w (c.bitmap.gEp i)).map .gintEp := by
      rw [List.filter_cons]
      split <;> rfl
    rw [hlist, ← outcome_selected (Run.epDispatch SameSnap.dispatch.toScanRules i) (exec_gintEp hi) hrest, ← hg]
    rfl

theorem isEp_of_mem_epIndexes {c : Config} {i : Nat} (h : i ∈ c.epIndexes) : c.isEp i = true := by
  simp only [Config.epIndexes, List.mem_map, List.mem_range] at h
  obtain ⟨k, hk, rfl⟩ := h
  exact isEp_of_ne_zero (by omega) (by omega)

/-- The body of a pass: its snapshot read once, then the operations it selects (R134). -/
theorem outcome_passBody {s : State} (h : freshStart s.passGaps) :
    outcome passBody s = inOrder (eventsOf s.cfg .gint (gintsts s &&& s.ctl.ginten))
      { s with gSnap := gintsts s &&& s.ctl.ginten, passGaps := s.passGaps.drop 2 } := by
  rw [eventsOf, List.append_assoc]
  refine (outcome_congr (rd_rd_fresh h .gintsts .ginten _)).trans ?_
  refine outcome_selected (Run.busDispatch SameSnap.dispatch.toScanRules) rfl fun t ht => ?_
  refine outcome_selected (Run.cepDispatch SameSnap.dispatch) rfl fun u hu => ?_
  obtain ⟨hg, hc⟩ := SameSnap.order.trans ht hu
  exact outcome_epLoop s.cfg _ _ (fun i => isEp_of_mem_epIndexes) u hc hg

/-- An enabled pass: entry, body, return, and no body raises (R134, R192, R193). -/
theorem outcome_isrPass {s : State} (h : passEnabled s = true) (p : PassScript) :
    outcome (isrPass p) s = leave (outcome passBody (enterPass p s)) := by
  have hpass : isrPass p s = (passBody >>= fun _ => upd leavePass) (enterPass p s) := if_pos h
  rw [outcome_congr hpass, outcome_bind fun e t => (Run.passBody Any.pass).not_raised]
  cases outcome passBody (enterPass p s) <;> rfl

/-! The control endpoint's inert events. -/

/-- The named bits of `CEPINTSTS` whose handler is empty (R137, R138, R141, R142, R146). -/
def inertCepBits : List CepBit :=
  [.setupToken, .ping, .txComplete, .rxComplete, .nakSent, .stallSent, .error, .bufFull, .bufEmpty]

theorem cepHandler_inert : ∀ b ∈ inertCepBits, cepHandler (.named b) = done := by
  simp [inertCepBits, cepHandler]

/-- An event with an empty handler clears its bit and does nothing else. -/
theorem exec_cepEvent_inert {s : State} (h : s.PassAlone) {e : CepEvent} (he : cepHandler e = done) :
    exec e.instr s = .next { s with ctl.cepintsts := s.ctl.cepintsts &&& ~~~bit (cepPosition s.cfg.bitmap e) } :=
  cepEvent_alone h e (by rw [he, done_run])

/-! Endpoint events that no encoding gives (log 23). -/

theorem outcome_guardEp_false {ok : Bool} (h : ok = false) (p : Prog Unit) (s : State) :
    outcome (guardEp ok p) s = .refused .illFormed := by
  subst h
  rfl

theorem exec_epIn_illFormed {s : State} {i : Nat} (h : s.cfg.isEp i = false ∨ i % 2 = 0) (w : Word) :
    exec (.epIn i w) s = .refused .illFormed :=
  outcome_guardEp_false (by rcases h with h | h <;> simp [h]) _ s

theorem exec_epOut_illFormed {s : State} {i : Nat} (h : s.cfg.isEp i = false ∨ i % 2 = 1) (w : Word) :
    exec (.epOut i w) s = .refused .illFormed :=
  outcome_guardEp_false (by rcases h with h | h <;> simp [h]) _ s

end Sys2Proof.Machine
end

section

open Sys2Proof Sys2Proof.Machine Sys2Proof.Claims

/-- Settles O42: each event's handler is empty. -/
theorem inertControlEventsOnlyClearTheirBit : Obligations.InertControlEventsOnlyClearTheirBit := by
  unfold Obligations.InertControlEventsOnlyClearTheirBit
  intro s h
  refine ⟨?named, fun b => exec_cepEvent_inert h (e := .other b) rfl⟩
  show ∀ p ∈ inertCepBits.map fun b => ((CepEvent.named b).instr, s.cfg.bitmap.cepPos b), _
  refine List.forall_mem_map.2 fun b hb => ?_
  exact exec_cepEvent_inert h (cepHandler_inert b hb)

/-- Settles O6: no dispatcher raises or changes the snapshot, so the pass is the operations the snapshot selects, between entry and return. -/
theorem passRunsItsSnapshotInOrder : Obligations.PassRunsItsSnapshotInOrder := by
  unfold Obligations.PassRunsItsSnapshotInOrder
  intro s r p hs he hp
  have hen : passEnabled { s with script := r } = passEnabled s := passEnabled_congr rfl rfl rfl rfl rfl
  have hsts : gintsts (enterPass p { s with script := r }) = gintsts s := gintsts_congr rfl rfl rfl
  rw [step_isr hs, outcome_isrPass (hen.trans he), outcome_passBody (by exact hp), hsts]
  rfl

/-- Settles O47: the event's accesses in order, and the guard of a term no encoding gives. -/
theorem endpointEventsCallBack : Obligations.EndpointEventsCallBack := by
  unfold Obligations.EndpointEventsCallBack
  intro s i bits h
  refine ⟨fun hi hodd => ?ep_in, fun hi heven => ?ep_out, fun hbad => ?bad_in, fun hbad => ?bad_out⟩
  case ep_in => exact (exec_epIn hi hodd).trans (outcome_ok (endpointIn_alone h i bits))
  case ep_out => exact (exec_epOut hi heven).trans (outcome_ok (endpointOut_alone h i bits))
  case bad_in => exact exec_epIn_illFormed hbad bits
  case bad_out => exact exec_epOut_illFormed hbad bits

end

section
/-! SUPPORT. The device-level commands (R152 to R156): a register's bits set or cleared with nothing before the two accesses, and ATTACH cut at its
poll loop. -/

namespace Sys2Proof.Machine

open Sys2Proof.Claims

/-! `RegSet` and `RegClr` of bits the register's mask lets through. -/

section Accesses

variable {g : Agent} {s : State} (h : g.Quiet s) {m : Word}
include h

theorem rset_ginten_quiet (hm : m &&& gintenMask s.cfg = m) :
    rset g .ginten m s = .ok () { s with ctl.ginten := s.ctl.ginten ||| m } := by rw [rset_quiet h, rset_ginten, hm]

theorem rclr_ginten_quiet (hm : m &&& gintenMask s.cfg = m) :
    rclr g .ginten m s = .ok () { s with ctl.ginten := s.ctl.ginten &&& ~~~m } := by rw [rclr_quiet h, rclr_ginten, hm]

theorem rset_phyctl_quiet (hm : m &&& phyctlMask s.cfg.bitmap = m) :
    rset g .phyctl m s = .ok () { s with ctl.phyctl := s.ctl.phyctl ||| m } := by rw [rset_quiet h, rset_phyctl, hm]

theorem rclr_phyctl_quiet (hm : m &&& phyctlMask s.cfg.bitmap = m) :
    rclr g .phyctl m s = .ok () { s with ctl.phyctl := s.ctl.phyctl &&& ~~~m } := by rw [rclr_quiet h, rclr_phyctl, hm]

theorem rset_oper_quiet (hm : m &&& operMask s.cfg.bitmap = m) :
    rset g .oper m s = .ok () { s with ctl.oper := s.ctl.oper ||| m } := by rw [rset_quiet h, rset_oper, hm]

/-- An assignment of the device address, over a register that holds named bits only (R155). -/
theorem wr_devaddr_quiet (hn : s.ctl.devaddr &&& ~~~devaddrMask = 0) (hm : m &&& devaddrMask = m) :
    wr g .devaddr m s = .ok () { s with ctl.devaddr := m } := by
  rw [wr_quiet h, regWrite, writeMasked_of_named hn hm]

end Accesses

/-! ATTACH (R152). -/

/-- `RegSet(PHYCTL, {PhyEn})` done: the state in which the poll loop starts. -/
def phyEnabled (s : State) : State := { s with ctl.phyctl := s.ctl.phyctl ||| bit s.cfg.bitmap.phyEn }

/-- The lines of ATTACH after its poll loop. -/
def attachConnect (g : Agent) (c : Config) : Prog Unit := do
  upd fun s => { s with irqConnected := true }
  wr g .businten (attachEnables c)
  rset g .ginten (bit c.bitmap.gBus)
  wr g .devaddr 0
  rset g .oper (bit c.bitmap.operHiSpdEn)
  rset g .phyctl (bit c.bitmap.phyDpPuEn)

/-- What they leave of a state. -/
def connected (s : State) : State :=
  { s with
    irqConnected := true
    ctl.businten := attachEnables s.cfg
    ctl.ginten := s.ctl.ginten ||| bit s.cfg.bitmap.gBus
    ctl.devaddr := 0
    ctl.oper := s.ctl.oper ||| bit s.cfg.bitmap.operHiSpdEn
    ctl.phyctl := s.ctl.phyctl ||| bit s.cfg.bitmap.phyDpPuEn }

theorem attachConnect_unscheduled {s : State} (h : s.Unscheduled) (hn : s.ctl.devaddr &&& ~~~devaddrMask = 0) :
    attachConnect cmdAgent s.cfg s = .ok () (connected s) := by
  have quiet : ∀ {t : State}, t.Unscheduled → cmdAgent.Quiet t := fun ht => ht.quiet
  refine bind_seq (upd_run _ _) (bind_seq (wr_quiet (quiet (by exact h)) _ _) ?_)
  refine bind_seq (rset_ginten_quiet (quiet (by exact h)) (gBus_in_mask s.cfg)) ?_
  refine bind_seq (wr_devaddr_quiet (quiet (by exact h)) hn BitVec.zero_and) ?_
  refine bind_seq (rset_oper_quiet (quiet (by exact h)) (operHiSpdEn_in_mask s.cfg.bitmap)) ?_
  exact rset_phyctl_quiet (quiet (by exact h)) (phyDpPuEn_in_mask s.cfg.bitmap)

/-- ATTACH up to its poll loop, which counts the gaps left after the first three. -/
theorem attach_calm {s : State} (h : s.Calm 3) :
    attach cmdAgent s = (attachPoll cmdAgent s.now (cmdAgent.left ((phyEnabled s).skip 3) + 1) >>= fun _ => attachConnect cmdAgent s.cfg)
      ((phyEnabled s).skip 3) := by
  have hset : rset cmdAgent .phyctl (bit s.cfg.bitmap.phyEn) s = .ok () ((phyEnabled s).skip 2) := by
    rw [rset_calm (h.mono (by omega)), rset_phyctl, phyEn_in_mask, phyEnabled]
  have hclock : clock cmdAgent ((phyEnabled s).skip 2) = .ok s.now ((phyEnabled s).skip 3) := by
    rw [clock_calm (State.Calm.skip (s := phyEnabled s) (j := 2) (by exact h)), skip_skip]
    rfl
  exact bind_seq (look_run _ _) (bind_seq hset (bind_seq hclock (bind_look _ _ _)))

/-- With nothing scheduled the loop polls once. -/
theorem attach_alone {s : State} (h : s.CmdAlone) :
    attach cmdAgent s = (attachPoll cmdAgent s.now 1 >>= fun _ => attachConnect cmdAgent s.cfg) (phyEnabled s) := by
  have hskip : (phyEnabled s).skip 3 = phyEnabled s := State.CmdAlone.skip (by exact h) 3
  have hleft : cmdAgent.left (phyEnabled s) = 0 := by
    show (if s.inIsr then s.cbGaps.length else s.taskGaps.length) = 0
    simp [h.1, h.2]
  rw [attach_calm (h.calm 3), hskip, hleft]

/-- At task priority with nothing in the first three gaps. -/
theorem attach_task {s : State} {r : List (List TaskAct)} (hi : s.inIsr = false) (hg : s.taskGaps = [] :: [] :: [] :: r) :
    attach cmdAgent s = (attachPoll cmdAgent s.now (r.length + 1) >>= fun _ => attachConnect cmdAgent s.cfg)
      { phyEnabled s with taskGaps := r } := by
  have hskip : (phyEnabled s).skip 3 = { phyEnabled s with taskGaps := r } := by
    rw [skip_task (by exact hi)]
    simp [phyEnabled, hg]
  have hleft : cmdAgent.left { phyEnabled s with taskGaps := r } = r.length := if_neg (Bool.eq_false_iff.1 hi)
  rw [attach_calm ⟨fun hi' => by simp [hi] at hi', fun _ => by simp [hg]⟩, hskip, hleft]

/-- The bus enables, bit by bit as R152 lists them. -/
theorem attachEnables_eq (c : Config) : attachEnables c
    = bit c.bitmap.busDmaDone ||| bit c.bitmap.busResume ||| bit c.bitmap.busReset ||| bit c.bitmap.busVbus ||| c.busEnExtra := by
  simp [attachEnables, busBits, BitMap.busPos, BitVec.or_assoc]

/-- The PHY is ready when polled: the loop ends. -/
theorem attachPoll_ready {s t : State} (hp : cmdAgent.point s = .ok () t) (hr : tst t.ctl.phyctl s.cfg.bitmap.phyClkStb = true)
    (t0 n : Nat) : attachPoll cmdAgent t0 (n + 1) s = .ok () t :=
  bind_seq (look_run _ _) (bind_seq (bind_seq hp (look_run _ _)) (ite_run hr (done_run _)))

/-- The PHY is not ready when polled in `t`: the clock is read in `u`. -/
theorem attachPoll_not_ready {s t u : State} (hp : cmdAgent.point s = .ok () t)
    (hr : tst t.ctl.phyctl s.cfg.bitmap.phyClkStb = false) (hc : cmdAgent.point t = .ok () u) (t0 n : Nat) :
    attachPoll cmdAgent t0 (n + 1) s = (if 50 < u.now - t0 then raise .timeout else attachPoll cmdAgent t0 n) u :=
  bind_seq (look_run _ _) (bind_seq (bind_seq hp (look_run _ _)) (else_run (Bool.eq_false_iff.1 hr) (bind_seq (bind_seq hc (look_run _ _)) rfl)))

/-- ATTACH whose loop ended in `t`, nothing left in its schedule. -/
theorem attach_connects {s t u : State} {n : Nat}
    (ha : attach cmdAgent s = (attachPoll cmdAgent s.now n >>= fun _ => attachConnect cmdAgent s.cfg) u)
    (hp : attachPoll cmdAgent s.now n u = .ok () t) (hc : t.cfg = s.cfg) (h : t.Unscheduled)
    (hn : t.ctl.devaddr &&& ~~~devaddrMask = 0) : exec .attach s = .next { connected t with port.err := 0 } := by
  have hrun : attach cmdAgent s = .ok () (connected t) := by
    rw [ha, bind_ok hp, ← hc, attachConnect_unscheduled h hn]
  exact run_ok hrun

/-- A PHY that was not ready is not made ready by being enabled: the two bits differ (R11). -/
theorem phyEnabled_not_ready {s : State} (hw : s.cfg.wf = true) (hr : tst s.ctl.phyctl s.cfg.bitmap.phyClkStb = false) :
    tst (phyEnabled s).ctl.phyctl s.cfg.bitmap.phyClkStb = false := by
  obtain ⟨hphy, -⟩ := BitMap.wf_controls (Config.bitmap_wf hw)
  have hne : s.cfg.bitmap.phyClkStb.val ≠ s.cfg.bitmap.phyEn.val := fun e => by simp [Fin.ext e] at hphy
  simp [phyEnabled, tst_bit, hr, hne]

/-- The clock has room for the budget: it passes it, and the command raises Timeout (R197). -/
theorem clockDuty_room {t0 : Nat} {s : State} (h : t0 + 51 < clockTop) :
    clockDuty t0 s = .error (.raise .timeout)
      { s with now := max s.now (max (t0 + 51) (Config.freeClock s.freeCount).toNat), freeCount := s.freeCount + 1 } :=
  if_neg (Nat.not_le.2 h)

/-- The clock has none (log 27). -/
theorem clockDuty_full {t0 : Nat} {s : State} (h : clockTop ≤ t0 + 51) :
    clockDuty t0 s = .error (.refuse .clockExhausted) s :=
  if_pos h

/-- At task priority the next gap holds these actions. -/
theorem point_gap {s t : State} {p : List TaskAct} {r : List (List TaskAct)} (hi : s.inIsr = false) (hg : s.taskGaps = p :: r)
    (hp : runTaskGap p { s with taskGaps := r } = .ok () t) : cmdAgent.point s = .ok () t := by
  have hgap : taskPoint s = runTaskGap p { s with taskGaps := r } := by simp only [taskPoint, hg]
  exact (if_neg (Bool.eq_false_iff.1 hi)).trans (hgap.trans hp)

/-- The next gap is empty. -/
theorem point_empty {s : State} {r : List (List TaskAct)} (hi : s.inIsr = false) (hg : s.taskGaps = [] :: r) :
    cmdAgent.point s = .ok () { s with taskGaps := r } :=
  point_gap hi hg (done_run _)

/-- At task priority with no gap left. -/
theorem unscheduled_task {s : State} (hi : s.inIsr = false) (hg : s.taskGaps = []) : s.Unscheduled :=
  ⟨fun hi' => by simp [hi] at hi', fun _ => hg⟩

theorem envStep_tick {s : State} {k : Nat} (hk : s.now + k < clockTop) : envStep (.tick k) s = .ok () { s with now := s.now + k } :=
  envStep_allowed (if_pos (decide_eq_true hk))

theorem envStep_phyReady (s : State) :
    envStep (.sie .phyReady) s = .ok () { s with ctl.phyctl := s.ctl.phyctl ||| bit s.cfg.bitmap.phyClkStb } := rfl

/-- The poll that finds the PHY not ready at task priority, nothing before it and the clock moved by `k` ms before it is read. -/
theorem attachPoll_tick {s : State} {k : Nat} {r : List (List TaskAct)} (hi : s.inIsr = false)
    (hg : s.taskGaps = [] :: [.env (.tick k)] :: r) (hr : tst s.ctl.phyctl s.cfg.bitmap.phyClkStb = false)
    (hk : s.now + k < clockTop) (n : Nat) :
    attachPoll cmdAgent s.now (n + 1) s
      = (if 50 < k then raise .timeout else attachPoll cmdAgent s.now n) { s with now := s.now + k, taskGaps := r } := by
  have htick := point_gap (s := { s with taskGaps := [.env (.tick k)] :: r }) hi rfl (bind_seq (envStep_tick (by exact hk)) (done_run _))
  rw [attachPoll_not_ready (point_empty hi hg) hr htick]
  simp only [Nat.add_sub_cancel_left]

end Sys2Proof.Machine
end

section

open Sys2Proof Sys2Proof.Machine Sys2Proof.Claims

/-- Settles O12: one poll or two, by what the schedule's gaps bring, and after the loop nothing is left in it. -/
theorem attachWaitsForThePhy : Obligations.AttachWaitsForThePhy := by
  unfold Obligations.AttachWaitsForThePhy
  intro s hw hn attached
  obtain ⟨-, hdev, -⟩ := hn
  have ready : ∀ w : Word, tst (w ||| bit s.cfg.bitmap.phyClkStb) s.cfg.bitmap.phyClkStb = true := fun w => by simp [tst_bit]
  have late : ∀ {n : Nat}, connected { phyEnabled s with
      now := n, taskGaps := [], ctl.phyctl := (phyEnabled s).ctl.phyctl ||| bit s.cfg.bitmap.phyClkStb, port.err := 0 }
      = attached { s with now := n, ctl.phyctl := s.ctl.phyctl ||| bit s.cfg.bitmap.phyClkStb } := by
    intro n
    have hcomm : s.ctl.phyctl ||| bit s.cfg.bitmap.phyEn ||| bit s.cfg.bitmap.phyClkStb
        = s.ctl.phyctl ||| bit s.cfg.bitmap.phyClkStb ||| bit s.cfg.bitmap.phyEn := by ac_rfl
    simp only [connected, phyEnabled, attached, attachEnables_eq, hcomm]
  refine ⟨fun h hr => ?at_once, fun k hi hk hr => ⟨fun h50 hg => ?timeout, fun h50 hg => ?second_poll, fun hg => ?first_poll⟩⟩
  case at_once =>
    have hpoll : attachPoll cmdAgent s.now 1 (phyEnabled s) = .ok () (phyEnabled s) :=
      attachPoll_ready (State.CmdAlone.quiet (by exact h)) (by simp [phyEnabled, hr]) _ _
    rw [attach_connects (attach_alone h) hpoll rfl (State.CmdAlone.unscheduled (by exact h)) hdev]
    simp only [connected, phyEnabled, attached, attachEnables_eq, h.1]
  case timeout =>
    have hpoll := attachPoll_tick (s := { phyEnabled s with taskGaps := [[], [.env (.tick k)]] }) (r := []) hi rfl
      (phyEnabled_not_ready hw hr) hk 2
    rw [if_pos h50] at hpoll
    exact run_raise ((attach_task hi hg).trans (bind_error hpoll))
  case second_poll =>
    have hpoll := attachPoll_tick (s := { phyEnabled s with taskGaps := [[], [.env (.tick k)], [.env (.sie .phyReady)]] })
      (r := [[.env (.sie .phyReady)]]) hi rfl (phyEnabled_not_ready hw hr) hk 3
    rw [if_neg (by omega)] at hpoll
    have hnext := attachPoll_ready (point_gap (s := { phyEnabled s with now := s.now + k, taskGaps := [[.env (.sie .phyReady)]] })
      hi rfl (bind_seq (envStep_phyReady _) (done_run _))) (ready _) s.now 2
    exact (attach_connects (attach_task hi hg) (hpoll.trans hnext) rfl (unscheduled_task hi rfl) hdev).trans (congrArg _ late)
  case first_poll =>
    have hpoll := attachPoll_ready (point_gap
      (s := { phyEnabled s with taskGaps := [[.env (.tick k), .env (.sie .phyReady)]] }) hi rfl
      (bind_seq (envStep_tick (by exact hk)) (bind_seq (envStep_phyReady _) (done_run _)))) (ready _) s.now 1
    exact (attach_connects (attach_task hi hg) hpoll rfl (unscheduled_task hi rfl) hdev).trans (congrArg _ late)

/-- Settles O13: the one poll finds the PHY not ready and the budget not over, and the clock's duty decides (R197). -/
theorem attachTimesOutWhenNothingElseHappens : Obligations.AttachTimesOutWhenNothingElseHappens := by
  unfold Obligations.AttachTimesOutWhenNothingElseHappens
  intro s hw h hr
  have hquiet : cmdAgent.Quiet (phyEnabled s) := State.CmdAlone.quiet (by exact h)
  have hpoll : attachPoll cmdAgent s.now 1 (phyEnabled s) = clockDuty s.now (phyEnabled s) := by
    rw [attachPoll_not_ready hquiet (phyEnabled_not_ready hw hr) hquiet, if_neg (by simp [phyEnabled])]
    rfl
  refine ⟨fun hroom => ⟨max s.now (max (s.now + 51) (Config.freeClock s.freeCount).toNat), ?_, ?_, ?_⟩, fun hfull => ?_⟩
  · omega
  · have := (Config.freeClock s.freeCount).isLt
    omega
  · exact run_raise ((attach_alone h).trans (bind_error (hpoll.trans (clockDuty_room hroom))))
  · exact run_refuse ((attach_alone h).trans (bind_error (hpoll.trans (clockDuty_full hfull))))

/-- Settles O9: the address fits the register's mask, and nothing else stands in the register. -/
theorem setAddressWritesTheAddress : Obligations.SetAddressWritesTheAddress := by
  unfold Obligations.SetAddressWritesTheAddress
  refine ⟨fun c o hop => ?_, fun s addr h hn => ?_⟩
  · obtain ⟨op, ep, ptr, len, cntptr, aux⟩ := o
    subst hop
    rw [show aux.extractLsb' 0 7 = aux.setWidth 7 from BitVec.eq_of_toNat_eq rfl]
    exact decodeCmd_setAddress ..
  · obtain ⟨-, hdev, -⟩ := hn
    exact run_ok (wr_devaddr_quiet h.quiet hdev (address_in_mask addr))

/-- Settles O10. -/
theorem setStatusCallbackStoresTheHandle : Obligations.SetStatusCallbackStoresTheHandle := by
  unfold Obligations.SetStatusCallbackStoresTheHandle
  refine ⟨fun c o hop => ?_, fun s cb => run_ok (upd_run (fun s => { s with statusCallback := cb }) s)⟩
  obtain ⟨op, ep, ptr, len, cntptr, aux⟩ := o
  subst hop
  exact decodeCmd_setStatusCallback ..

/-- Settles O11: what is zeroed stays zero when it is zeroed again. -/
theorem resetZeroesBlockState : Obligations.ResetZeroesBlockState := by
  unfold Obligations.ResetZeroesBlockState
  exact fun s => ⟨_, rfl, run_ok (upd_run zeroBlock s), run_ok (upd_run zeroBlock ((zeroBlock s).setErr okCode))⟩

/-- Settles O14: two clears of one register, each of a bit its mask lets through. -/
theorem detachDisconnects : Obligations.DetachDisconnects := by
  unfold Obligations.DetachDisconnects
  intro s h
  have hrun : detach cmdAgent s = .ok () { s with
      irqConnected := false
      ctl.phyctl := s.ctl.phyctl &&& ~~~bit s.cfg.bitmap.phyEn &&& ~~~bit s.cfg.bitmap.phyDpPuEn } := by
    refine bind_seq (look_run _ _) (bind_seq (upd_run _ _) ?_)
    refine bind_seq (rclr_phyctl_quiet (State.CmdAlone.quiet (by exact h)) (phyEn_in_mask s.cfg.bitmap)) ?_
    exact rclr_phyctl_quiet (State.CmdAlone.quiet (by exact h)) (phyDpPuEn_in_mask s.cfg.bitmap)
  exact run_ok hrun

end

section
/-! SUPPORT. The endpoint commands with nothing in between (R157 to R166): the checks as the statements put them, and what each command leaves. -/

namespace Sys2Proof.Machine

open Sys2Proof.Claims

/-! The checks (R88, R157). -/

theorem epOk_iff {c : Config} {a : Byte} : epOk c a = true ↔ epAccepted c a := by
  simp [epOk, epAccepted, dirFits_iff]

theorem capOk_iff {c : Config} {a : Byte} {mps : Half} {ty : XferType} : capOk c a mps ty = true ↔ capAccepted c a mps ty := by
  unfold capOk capAccepted Config.mpsMax Config.mpsCtrlMax
  simp only [dirFits_iff, Bool.and_eq_true, Bool.not_eq_true', ← Bool.not_eq_true, decide_eq_true_eq, not_and, Nat.not_lt, ne_eq,
    Decidable.not_not, and_assoc]

theorem checkCap_accepted {s : State} {a : Byte} {mps : Half} {ty : XferType} (h : capAccepted s.cfg a mps ty) :
    checkCap a mps ty s = .ok () s := checkCap_ok (capOk_iff.2 h)

theorem checkCap_refused {s : State} {a : Byte} {mps : Half} {ty : XferType} (h : ¬capAccepted s.cfg a mps ty) :
    checkCap a mps ty s = .error (.raise .invalidParameter) s := checkCap_bad (Bool.eq_false_iff.2 (h ∘ capOk_iff.1))

/-- A command that begins with `CheckEp` runs on where it passes. -/
theorem withEp_accepted {s : State} {a : Byte} (h : epAccepted s.cfg a) {k : Config → Nat → Prog Unit}
    {r : EStateM.Result Stop State Unit} (hk : k s.cfg (epIdx a) s = r) : withEp a k s = r := (withEp_ok (epOk_iff.2 h)).trans hk

/-- Where `CheckEp` fails it answers InvalidParameter and changes nothing. -/
theorem run_withEp_refused {s : State} {a : Byte} (h : ¬epAccepted s.cfg a) (k : Config → Nat → Prog Unit) :
    run (withEp a k) s = .next { s with port.err := 1 } := run_raise (withEp_bad (Bool.eq_false_iff.2 (h ∘ epOk_iff.1)))

/-- The enable bit of every index is one `GINTEN` holds. -/
theorem enableBit_in_mask {c : Config} {i : Nat} (h : i < c.nEp) : enableBit c i &&& gintenMask c = enableBit c i := by
  unfold enableBit
  split
  · exact gCep_in_mask c
  · exact gEp_in_mask (isEp_of_ne_zero h ‹_›)

theorem enableBit_zero {c : Config} {i : Nat} (h : i = 0) : enableBit c i = bit c.bitmap.gCep := if_pos h

theorem enableBit_ne_zero {c : Config} {i : Nat} (h : i ≠ 0) : enableBit c i = bit (c.bitmap.gEp i) := if_neg h

/-! EP_CONFIGURE (R158). -/

/-- What the register writes of EP_CONFIGURE make of an endpoint's registers. -/
def EpRegs.programmed (m : BitMap) (i : Nat) (isIn : Bool) (mps : Half) (base : Word) (ty : XferType) (e : EpRegs) : EpRegs :=
  { e with
    epbufstart := base, epbufend := base + mps.setWidth 32 - 1, epmps := mps.setWidth 32
    eprspctl := rspctlValue m ty, epcfg := epcfgValue m ty isIn i }

/-- An endpoint's five writes through their masks, over registers that hold named bits only. -/
theorem regWrite_programmed {s : State} (hn : s.NamedBits) (i : Nat) (isIn : Bool) {mps : Half} (hm : mps.toNat ≤ 1024) (base : Word)
    (ty : XferType) :
    regWrite (.epcfg i) (epcfgValue s.cfg.bitmap ty isIn i)
      (regWrite (.eprspctl i) (rspctlValue s.cfg.bitmap ty) (regWrite (.epmps i) (mps.setWidth 32)
        (regWrite (.epbufend i) (base + mps.setWidth 32 - 1) (regWrite (.epbufstart i) base s))))
      = s.setEp i (EpRegs.programmed s.cfg.bitmap i isIn mps base ty) := by
  obtain ⟨hcfg, hrsp, hmps⟩ := hn.ep i
  simp only [regWrite, State.setEp_setEp, State.setEp_cfg]
  refine State.setEp_congr _ _ _ _ ?_
  simp only [EpRegs.programmed, writeMasked_of_named hcfg (epcfgValue_in_mask ..), writeMasked_of_named hrsp (rspctlValue_in_mask ..),
    writeMasked_of_named hmps (mps_in_mask hm)]

/-- What the allocator leaves where the range fits (R105). -/
def allocated (s : State) (size : Half) : State :=
  { s with ramOffset := s.ramOffset + size.setWidth 32, allocRet := s.ramOffset }

theorem setEp_allocated (s : State) (size : Half) (i : Nat) (f : EpRegs → EpRegs) :
    (allocated s size).setEp i f = { s.setEp i f with ramOffset := s.ramOffset + size.setWidth 32, allocRet := s.ramOffset } := by
  cases i <;> rfl

theorem allocRam_fits {s : State} {size : Half} (hf : allocFails s size = false) :
    allocRam size s = .ok s.ramOffset (allocated s size) := if_neg (Bool.eq_false_iff.1 hf)

theorem allocRam_full {s : State} {size : Half} (hf : allocFails s size = true) :
    allocRam size s = .error (.raise .outOfSpace) s := if_pos hf

/-- EP_CONFIGURE past its checks, where the range fits: the allocation, the five writes, the descriptor (R158). -/
theorem configureEndpoint_fits {s : State} (h : s.CmdAlone) (hn : s.NamedBits) (a : Byte) (i : Nat) {mps : Half} (hm : mps.toNat ≤ 1024)
    (ty : XferType) (hf : allocFails s mps = false) :
    configureEndpoint cmdAgent a i mps ty s = .ok ()
      { configureDesc i mps s.ramOffset ty (s.setEp i (EpRegs.programmed s.cfg.bitmap i (dirIn a) mps s.ramOffset ty)) with
        ramOffset := s.ramOffset + mps.setWidth 32, allocRet := s.ramOffset } := by
  have start : (allocated s mps).CmdAlone := h
  have wrote : ∀ {u : State} {r : Reg} {v : Word}, u.CmdAlone → (regWrite r v u).CmdAlone := (CmdAlone_regWrite ..).2
  refine bind_seq (look_run _ _) (bind_seq h.quiet (bind_seq (allocRam_fits hf) ?_))
  refine bind_seq (wr_quiet start.quiet _ _) (bind_seq (wr_quiet (wrote start).quiet _ _) ?_)
  refine bind_seq (wr_quiet (wrote (wrote start)).quiet _ _) (bind_seq (wr_quiet (wrote (wrote (wrote start))).quiet _ _) ?_)
  refine bind_seq (wr_quiet (wrote (wrote (wrote (wrote start)))).quiet _ _) ?_
  rw [ownUpd_quiet (wrote (wrote (wrote (wrote (wrote start))))).quiet]
  have hwrites := (regWrite_programmed (s := allocated s mps) hn i (dirIn a) hm s.ramOffset ty).trans (setEp_allocated ..)
  exact congrArg (fun u => EStateM.Result.ok () (configureDesc i mps s.ramOffset ty u)) hwrites

theorem configureEndpoint_full {s : State} (h : s.CmdAlone) (a : Byte) (i : Nat) {mps : Half} (ty : XferType)
    (hf : allocFails s mps = true) : configureEndpoint cmdAgent a i mps ty s = .error (.raise .outOfSpace) s :=
  bind_seq (look_run _ _) (bind_seq h.quiet (bind_error (allocRam_full hf)))

/-- EP_CONFIGURE of a non-control index its checks accept: `GINTEN` decides whether it goes on (R158). -/
theorem epConfigure_endpoint {s : State} (h : s.CmdAlone) {a : Byte} {mps : Half} {ty : XferType} (hc : capAccepted s.cfg a mps ty)
    (h0 : epIdx a ≠ 0) {r : EStateM.Result Stop State Unit}
    (hr : (if tst s.ctl.ginten (s.cfg.bitmap.gEp (epIdx a)) then raise .alreadyBusy
      else configureEndpoint cmdAgent a (epIdx a) mps ty) s = r) : epConfigure cmdAgent a mps ty s = r :=
  bind_seq (checkCap_accepted hc) (else_run h0 (bind_seq (look_run _ _) (bind_seq (rd_quiet h.quiet _) hr)))

/-! EP_ENABLE and EP_DISABLE (R159, R160). -/

theorem setEp_ginten (s : State) (w : Word) (i : Nat) (f : EpRegs → EpRegs) :
    State.setEp { s with ctl.ginten := w } i f = { s.setEp i f with ctl.ginten := w } := by
  cases i <;> rfl

theorem epEnable_bit {s : State} (h : s.CmdAlone) {a : Byte} (ha : epAccepted s.cfg a) (hi : epIdx a = 0 ∨ epIdx a % 2 = 1) :
    epEnable cmdAgent a s = .ok () { s with ctl.ginten := s.ctl.ginten ||| enableBit s.cfg (epIdx a) } := by
  have hset := rset_ginten_quiet h.quiet (enableBit_in_mask ha.1)
  refine withEp_accepted ha ?_
  by_cases h0 : epIdx a = 0
  · rw [enableBit_zero h0] at hset ⊢
    exact ite_run h0 hset
  · rw [enableBit_ne_zero h0] at hset ⊢
    exact else_run h0 (bind_seq hset (else_run (by omega) (done_run _)))

/-- An OUT endpoint is armed as well. -/
theorem epEnable_out {s : State} (h : s.CmdAlone) {a : Byte} (ha : epAccepted s.cfg a) (h0 : epIdx a ≠ 0) (heven : epIdx a % 2 = 0) :
    epEnable cmdAgent a s = .ok () { s.setEp (epIdx a) fun e => { e with epinten := e.epinten ||| s.cfg.epRxArm } with
      ctl.ginten := s.ctl.ginten ||| enableBit s.cfg (epIdx a) } := by
  have hset := rset_ginten_quiet h.quiet (enableBit_in_mask ha.1)
  rw [enableBit_ne_zero h0] at hset ⊢
  refine withEp_accepted ha (else_run h0 (bind_seq hset (ite_run heven ?_)))
  rw [rset_quiet (State.CmdAlone.quiet (by exact h)), rset_epinten, setEp_ginten]

theorem epDisable_control {s : State} (h : s.CmdAlone) {a : Byte} (ha : epAccepted s.cfg a) (h0 : epIdx a = 0) :
    epDisable cmdAgent a s = .ok ()
      { s with ctl.ginten := s.ctl.ginten &&& ~~~enableBit s.cfg 0, ctl.cepinten := 0, ctl.cepintsts := 0 } := by
  have quiet : ∀ {u : State}, u.CmdAlone → cmdAgent.Quiet u := fun hu => hu.quiet
  refine withEp_accepted ha (ite_run h0 (bind_seq (rclr_ginten_quiet h.quiet (gCep_in_mask s.cfg)) ?_))
  refine bind_seq (wr_quiet (quiet (by exact h)) _ _) ((wr_quiet (quiet (by exact h)) _ _).trans ?_)
  simp only [regWrite, w1cValue_ones]
  rfl

theorem epDisable_endpoint {s : State} (h : s.CmdAlone) {a : Byte} (ha : epAccepted s.cfg a) (h0 : epIdx a ≠ 0) :
    epDisable cmdAgent a s = .ok () { s.setEp (epIdx a) fun e => { e with epinten := 0, epintsts := 0 } with
      ctl.ginten := s.ctl.ginten &&& ~~~enableBit s.cfg (epIdx a) } := by
  have hclr := rclr_ginten_quiet h.quiet (enableBit_in_mask ha.1)
  rw [enableBit_ne_zero h0] at hclr ⊢
  refine withEp_accepted ha (else_run h0 (bind_seq hclr (bind_seq (wr_quiet (State.CmdAlone.quiet (by exact h)) _ _) ?_)))
  rw [wr_quiet (State.CmdAlone.quiet (by simpa using h))]
  simp only [regWrite, w1cValue_ones, State.setEp_setEp, setEp_ginten]

/-! One bit of an index's control register: `CEPCTL` for index 0, `EPRSPCTL[i]` for the others (R161 to R164). -/

/-- That bit made `b`: it stands at `p` in `CEPCTL` and at `q` in `EPRSPCTL[i]`. -/
def State.putControl (s : State) (i p q : Nat) (b : Bool) : State :=
  if i = 0 then { s with ctl.cepctl := putBit s.ctl.cepctl p b } else s.setEp i fun e => { e with eprspctl := putBit e.eprspctl q b }

/-- That bit. -/
def State.control (s : State) (i p q : Nat) : Bool := if i = 0 then tst s.ctl.cepctl p else tst (s.ep i).eprspctl q

theorem rset_control {s : State} (h : s.CmdAlone) (i : Nat) {p q : Nat} (hp : bit p &&& cepctlMask s.cfg.bitmap = bit p)
    (hq : bit q &&& eprspctlMask s.cfg.bitmap = bit q) :
    (if i = 0 then rset cmdAgent .cepctl (bit p) else rset cmdAgent (.eprspctl i) (bit q)) s = .ok () (s.putControl i p q true) := by
  unfold State.putControl
  split
  · rw [rset_quiet h.quiet, rset_cepctl, hp]
    rfl
  · rw [rset_quiet h.quiet, rset_eprspctl, hq]
    rfl

theorem rclr_control {s : State} (h : s.CmdAlone) (i : Nat) {p q : Nat} (hp : bit p &&& cepctlMask s.cfg.bitmap = bit p)
    (hq : bit q &&& eprspctlMask s.cfg.bitmap = bit q) :
    (if i = 0 then rclr cmdAgent .cepctl (bit p) else rclr cmdAgent (.eprspctl i) (bit q)) s = .ok () (s.putControl i p q false) := by
  unfold State.putControl
  split
  · rw [rclr_quiet h.quiet, rclr_cepctl, hp]
    rfl
  · rw [rclr_quiet h.quiet, rclr_eprspctl, hq]
    rfl

/-- The stall bit of an index. -/
def State.stalled (s : State) (i : Nat) : Bool := s.control i s.cfg.bitmap.ctlStall s.cfg.bitmap.rspHalt

/-- The stall bit made `b`. -/
def State.putStall (s : State) (i : Nat) (b : Bool) : State := s.putControl i s.cfg.bitmap.ctlStall s.cfg.bitmap.rspHalt b

theorem epSetStall_alone {s : State} (h : s.CmdAlone) {a : Byte} (ha : epAccepted s.cfg a) :
    epSetStall cmdAgent a s = .ok () (s.putStall (epIdx a) true) :=
  withEp_accepted ha (rset_control h _ (ctlStall_in_mask _) (rspHalt_in_mask _))

theorem epClearStall_alone {s : State} (h : s.CmdAlone) {a : Byte} (ha : epAccepted s.cfg a) :
    epClearStall cmdAgent a s = .ok () (s.putStall (epIdx a) false) :=
  withEp_accepted ha (rclr_control h _ (ctlStall_in_mask _) (rspHalt_in_mask _))

theorem epFlush_alone {s : State} (h : s.CmdAlone) {a : Byte} (ha : epAccepted s.cfg a) :
    epFlush cmdAgent a s = .ok () (s.putControl (epIdx a) s.cfg.bitmap.ctlFlush s.cfg.bitmap.rspFlush true) :=
  withEp_accepted ha (rset_control h _ (ctlFlush_in_mask _) (rspFlush_in_mask _))

theorem epIsStalled_alone {s : State} (h : s.CmdAlone) {a : Byte} (ha : epAccepted s.cfg a) :
    epIsStalled cmdAgent a s = .ok () (s.setVal (bitValue (s.stalled (epIdx a)))) := by
  refine withEp_accepted ha ?_
  unfold State.stalled State.control
  split <;> exact bind_seq (rd_quiet h.quiet _) rfl

/-! The stall bit between its write and its reading. -/

theorem stalled_putStall {s : State} {i : Nat} (hi : i ≤ s.eps.length) (b : Bool) : (s.putStall i b).stalled i = b := by
  unfold State.putStall State.stalled State.putControl State.control
  split
  · exact (tst_putBit _ _ _ _ s.cfg.bitmap.ctlStall.isLt).trans (if_pos rfl)
  · next h0 =>
    rw [State.setEp_cfg, State.ep_setEp_same _ _ h0 hi]
    exact (tst_putBit _ _ _ _ s.cfg.bitmap.rspHalt.isLt).trans (if_pos rfl)

theorem putStall_cmdAlone {s : State} {i : Nat} {b : Bool} : (s.putStall i b).CmdAlone ↔ s.CmdAlone := by
  unfold State.putStall State.putControl
  split
  · exact Iff.rfl
  · exact CmdAlone_setEp ..

theorem putStall_cfg (s : State) (i : Nat) (b : Bool) : (s.putStall i b).cfg = s.cfg := by
  unfold State.putStall State.putControl
  split
  · rfl
  · exact State.setEp_cfg ..

/-- A change of one endpoint's registers that leaves `Halt`. -/
theorem stalled_setEp {s : State} (j : Nat) {f : EpRegs → EpRegs}
    (hf : ∀ e, tst (f e).eprspctl s.cfg.bitmap.rspHalt = tst e.eprspctl s.cfg.bitmap.rspHalt) (i : Nat) :
    (s.setEp j f).stalled i = s.stalled i := by
  unfold State.stalled State.control
  rw [State.setEp_cfg, State.setEp_ctl]
  rcases ep_setEp_cases s j i f with e | ⟨rfl, e⟩ <;> simp only [e, hf]

@[simp] theorem stalled_raiseStatus (g : StatusReg) (m : Word) (s : State) (i : Nat) : (raiseStatus g m s).stalled i = s.stalled i := by
  cases g with
  | bus | cep => rfl
  | ep j => exact stalled_setEp j (by exact fun _ => rfl) i

@[simp] theorem stalled_setRx (f : DatReg) (l : List Byte) (s : State) (i : Nat) : (setRx f l s).stalled i = s.stalled i := by
  cases f with
  | cep => rfl
  | ep j => exact stalled_setEp j (by exact fun _ => rfl) i

@[simp] theorem stalled_setTx (f : DatReg) (l : List Byte) (s : State) (i : Nat) : (setTx f l s).stalled i = s.stalled i := by
  cases f with
  | cep => rfl
  | ep j => exact stalled_setEp j (by exact fun _ => rfl) i

@[simp] theorem stalled_clearPending (f : DatReg) (s : State) (i : Nat) : (clearPending f s).stalled i = s.stalled i := by
  cases f with
  | cep => rfl
  | ep j => exact stalled_setEp j (by exact fun _ => rfl) i

@[simp] theorem stalled_sendPacket (f : DatReg) (n : Nat) (s : State) (i : Nat) : (sendPacket f n s).stalled i = s.stalled i :=
  (stalled_setTx f _ (clearPending f s) i).trans (stalled_clearPending f s i)

/-- No step of SIE touches a stall bit: of the two registers it writes other bits only (R169, R11). -/
theorem sieApply_stalled {s t : State} (hw : s.cfg.wf = true) {e : SieStep} (he : sieApply e s = some t) (i : Nat) :
    t.stalled i = s.stalled i := by
  obtain ⟨-, -, hctl, hrsp⟩ := BitMap.wf_controls (Config.bitmap_wf hw)
  simp only [List.nodup_cons, List.mem_cons, List.not_mem_nil, or_false, not_or, Fin.ext_iff] at hctl hrsp
  obtain ⟨⟨hnak, -⟩, hflush, -⟩ := hctl
  have guarded : ∀ {ok : Bool} {u : State}, guardStep ok u = some t → u.stalled i = s.stalled i → t.stalled i = s.stalled i :=
    fun hg hu => (guardStep_some hg).2 ▸ hu
  have plain : ∀ {u : State}, some u = some t → u.stalled i = s.stalled i → t.stalled i = s.stalled i :=
    fun hg hu => Option.some.inj hg ▸ hu
  have dropped : ∀ (w : Word) {p n : Fin 32}, ¬p.val = n.val → tst (putBit w n false) p = tst w p := fun w p n hne =>
    (tst_putBit w n p false p.isLt).trans (if_neg hne)
  have ctl : ∀ {k : Ctl}, tst k.cepctl s.cfg.bitmap.ctlStall = tst s.ctl.cepctl s.cfg.bitmap.ctlStall →
      State.stalled { s with ctl := k } i = s.stalled i := fun hk => if_congr Iff.rfl hk rfl
  have nak := ctl (k := { s.ctl with cepctl := putBit s.ctl.cepctl s.cfg.bitmap.ctlNakClr false }) (dropped _ (Ne.symm hnak))
  have flush := ctl (k := { s.ctl with cepctl := putBit s.ctl.cepctl s.cfg.bitmap.ctlFlush false }) (dropped _ hflush)
  have halt : ∀ e : EpRegs, tst (putBit e.eprspctl s.cfg.bitmap.rspFlush false) s.cfg.bitmap.rspHalt
      = tst e.eprspctl s.cfg.bitmap.rspHalt := fun e => dropped _ (Ne.symm hrsp.1)
  cases e
  case latchWord | phyClkStb | vbusDet | dmaRd | phyReady | phyLost => exact plain he (ctl rfl)
  case inTokenCep | statusDone | busReset | busSuspend | busResume | busHs => exact plain he (stalled_raiseStatus ..)
  case setup => exact plain he ((stalled_raiseStatus ..).trans ((stalled_raiseStatus ..).trans (ctl rfl)))
  case vbus | dmaDone => exact plain he ((stalled_raiseStatus ..).trans (ctl rfl))
  case raiseBits | diag => exact guarded he (stalled_raiseStatus ..)
  case replaceRx => exact guarded he (stalled_setRx ..)
  case overlapTx => exact guarded he (stalled_setTx ..)
  case takeTx => exact guarded he (stalled_sendPacket ..)
  case outCep => exact guarded he ((stalled_raiseStatus ..).trans ((stalled_raiseStatus ..).trans (stalled_setRx ..)))
  case outEp => exact guarded he ((stalled_raiseStatus ..).trans (stalled_setRx ..))
  case txDoneCep | txDoneEp => exact guarded he ((stalled_raiseStatus ..).trans (stalled_sendPacket ..))
  case nakCleared => exact guarded he nak
  case flushedCep => exact guarded he flush
  case flushedEp => exact guarded he (stalled_setEp _ (by exact halt) i)
  case dropBit b =>
    cases b with
    | nakClr => exact guarded he nak
    | cepFlush => exact guarded he flush
    | epFlush => exact guarded he (stalled_setEp _ (by exact halt) i)

/-- A stall bit made `b` is what EP_IS_STALLED answers after any one step of SIE (R163). -/
theorem stall_reported {s u : State} (hw : s.cfg.wf = true) (hs : s.Sized) (h : s.CmdAlone) {a : Byte} (ha : epAccepted s.cfg a)
    {b : Bool} {e : SieStep} (he : sieApply e ((s.putStall (epIdx a) b).setErr okCode) = some u) :
    exec (.epIsStalled a) u = .next ((u.setVal (bitValue b)).setErr okCode) := by
  have hcfg : ((s.putStall (epIdx a) b).setErr okCode).cfg = s.cfg := putStall_cfg ..
  have hlen : epIdx a ≤ s.eps.length := by
    obtain ⟨-, heps, -⟩ := hs
    have := ha.1
    omega
  have hstall : u.stalled (epIdx a) = b := (sieApply_stalled (hcfg ▸ hw) he _).trans (stalled_putStall hlen b)
  have halone : u.CmdAlone := by
    obtain ⟨c, l, k, -, rfl⟩ := sieApply_outside he
    exact putStall_cmdAlone.2 h
  rw [← hstall]
  exact run_ok (epIsStalled_alone halone ((sieApply_outside he).cfg.trans hcfg ▸ ha))

end Sys2Proof.Machine
end

section

open Sys2Proof Sys2Proof.Machine Sys2Proof.Claims

/-- Settles O15: the model's check is the conjunction of R157's five. -/
theorem checkCapAnswersByTheTable : Obligations.CheckCapAnswersByTheTable := by
  unfold Obligations.CheckCapAnswersByTheTable
  exact fun s a mps ty => ⟨fun h => run_ok (checkCap_accepted h), fun h => run_raise (checkCap_refused h)⟩

/-- Settles O16, by the check that ends the command. -/
theorem configureProgramsTheEndpoint : Obligations.ConfigureProgramsTheEndpoint := by
  unfold Obligations.ConfigureProgramsTheEndpoint
  intro s a mps ty h hn
  have free : epIdx a ≠ 0 → s.ctl.ginten &&& enableBit s.cfg (epIdx a) = 0 → ¬tst s.ctl.ginten (s.cfg.bitmap.gEp (epIdx a)) = true :=
    fun h0 hen => Bool.eq_false_iff.1 ((and_bit_eq_zero ..).1 (enableBit_ne_zero h0 ▸ hen))
  refine ⟨fun hc => ?refused, fun hc h0 => ?control, fun hc h0 hen => ?busy, fun hc h0 hen hover => ?full, fun hc h0 hen hfit => ?fits⟩
  case refused => exact run_raise (bind_error (checkCap_refused hc))
  case control =>
    have hrun : epConfigure cmdAgent a mps ty s = .ok () (configureDesc 0 mps 0 .control s) :=
      bind_seq (checkCap_accepted hc) (ite_run h0 (upd_run _ _))
    exact run_ok hrun
  case busy =>
    have hset : tst s.ctl.ginten (s.cfg.bitmap.gEp (epIdx a)) = true :=
      Bool.not_eq_false _ ▸ fun hclear => hen (enableBit_ne_zero h0 ▸ (and_bit_eq_zero ..).2 hclear)
    exact run_raise (epConfigure_endpoint h hc h0 (ite_run hset (raise_run _ _)))
  case full =>
    exact run_raise (epConfigure_endpoint h hc h0 (else_run (free h0 hen) (configureEndpoint_full h a _ ty (decide_eq_true hover))))
  case fits =>
    obtain ⟨-, -, -, -, -, -, hmps, -⟩ := id hc
    have hrun := epConfigure_endpoint h hc h0
      (else_run (free h0 hen) (configureEndpoint_fits h hn a _ hmps ty (decide_eq_false (Nat.not_lt.2 hfit))))
    exact run_ok hrun

/-- Settles O18. -/
theorem enableSetsTheGlobalBit : Obligations.EnableSetsTheGlobalBit := by
  unfold Obligations.EnableSetsTheGlobalBit
  intro s a h
  exact ⟨fun ha => run_withEp_refused ha _, fun ha hi => run_ok (epEnable_bit h ha hi),
    fun ha h0 heven => run_ok (epEnable_out h ha h0 heven)⟩

/-- Settles O19. -/
theorem disableZeroesEnableAndStatus : Obligations.DisableZeroesEnableAndStatus := by
  unfold Obligations.DisableZeroesEnableAndStatus
  intro s a h
  exact ⟨fun ha => run_withEp_refused ha _, fun ha h0 => run_ok (epDisable_control h ha h0),
    fun ha h0 => run_ok (epDisable_endpoint h ha h0)⟩

/-- Settles O20: each of the three is one access pair on one register, chosen by the index. -/
theorem stallAndFlushChangeOneBit : Obligations.StallAndFlushChangeOneBit := by
  unfold Obligations.StallAndFlushChangeOneBit
  intro s a h
  refine ⟨fun ha => ?refused, fun ha h0 => ?control, fun ha h0 => ?endpoint⟩
  case refused =>
    simp only [List.forall_mem_cons, List.not_mem_nil, false_imp_iff, implies_true, and_true]
    exact ⟨run_withEp_refused ha _, run_withEp_refused ha _, run_withEp_refused ha _⟩
  case control =>
    have put : ∀ p q b, s.putControl (epIdx a) p q b = { s with ctl.cepctl := putBit s.ctl.cepctl p b } := fun p q b => if_pos h0
    exact ⟨run_ok ((epSetStall_alone h ha).trans (congrArg _ (put ..))), run_ok ((epClearStall_alone h ha).trans (congrArg _ (put ..))),
      run_ok ((epFlush_alone h ha).trans (congrArg _ (put ..)))⟩
  case endpoint =>
    have put : ∀ p q b, s.putControl (epIdx a) p q b = s.setEp (epIdx a) fun e => { e with eprspctl := putBit e.eprspctl q b } :=
      fun p q b => if_neg h0
    exact ⟨run_ok ((epSetStall_alone h ha).trans (congrArg _ (put ..))), run_ok ((epClearStall_alone h ha).trans (congrArg _ (put ..))),
      run_ok ((epFlush_alone h ha).trans (congrArg _ (put ..)))⟩

/-- Settles O21. -/
theorem isStalledReportsTheBit : Obligations.IsStalledReportsTheBit := by
  unfold Obligations.IsStalledReportsTheBit
  intro s a h
  refine ⟨fun ha => run_withEp_refused ha _, fun ha h0 => ?control, fun ha h0 => ?endpoint⟩
  case control =>
    have hbit : s.stalled (epIdx a) = tst s.ctl.cepctl s.cfg.bitmap.ctlStall := if_pos h0
    exact hbit ▸ run_ok (epIsStalled_alone h ha)
  case endpoint =>
    have hbit : s.stalled (epIdx a) = tst (s.ep (epIdx a)).eprspctl s.cfg.bitmap.rspHalt := if_neg h0
    exact hbit ▸ run_ok (epIsStalled_alone h ha)

/-- Settles O22: the bit written is the bit read, for no step of SIE touches it. -/
theorem stallRoundTrip : Obligations.StallRoundTrip := by
  unfold Obligations.StallRoundTrip
  intro s a hw hs h ha
  exact ⟨⟨_, run_ok (epSetStall_alone h ha), fun e u he => ⟨_, stall_reported hw hs h ha he, rfl, rfl⟩⟩,
    ⟨_, run_ok (epClearStall_alone h ha), fun e u he => ⟨_, stall_reported hw hs h ha he, rfl, rfl⟩⟩⟩

/-- Settles O23: the change of one descriptor's slot has no access and so no gap. -/
theorem setCallbackWritesOneSlot : Obligations.SetCallbackWritesOneSlot := by
  unfold Obligations.SetCallbackWritesOneSlot
  intro s a cb
  refine ⟨fun ha => run_withEp_refused ha _, fun ha => ?accepted⟩
  case accepted =>
    have hrun : epSetCallback a cb s = .ok () (s.setDesc (epIdx a) fun d =>
        if dirIn a then { d with callbackIn := cb } else { d with callbackOut := cb }) := withEp_accepted ha (upd_run _ _)
    exact run_ok hrun

/-- Settles O24, by which side of N_EP the index is on. -/
theorem mpsLooksUpTheTable : Obligations.MpsLooksUpTheTable := by
  unfold Obligations.MpsLooksUpTheTable
  intro s a
  have hrun : exec (.epMps a) s
      = .next ((s.setVal (if s.cfg.nEp ≤ epIdx a then 0 else (s.desc (epIdx a)).mps.setWidth 32)).setErr okCode) :=
    run_ok (upd_run (fun s => s.setVal (if s.cfg.nEp ≤ epIdx a then 0 else (s.desc (epIdx a)).mps.setWidth 32)) s)
  constructor
  · intro hin
    rw [hrun, if_neg (Nat.not_le.2 hin)]
    rfl
  · intro hout
    rw [hrun, if_pos hout]
    rfl

end

section
/-! SUPPORT. The steps of SIE (45_sie_agent.md R168 to R182): what none of them touches (R169), and what a step of the machine that runs one
leaves. -/

namespace Sys2Proof.Machine

open Sys2Proof.Claims

/-! A bit set or cleared, and what it leaves of its register. -/

theorem tst_putBit_other (w : Word) {n p : Fin 32} (h : p ≠ n) (b : Bool) : tst (putBit w n b) p = tst w p :=
  (tst_putBit w n p b p.isLt).trans (if_neg (Fin.val_ne_of_ne h))

/-- A clear sets no bit. -/
theorem tst_of_tst_cleared {w : Word} {n p : Nat} (h : tst (putBit w n false) p = true) : tst w p = true :=
  (Bool.and_eq_true_iff.1 ((tst_and ..).symm.trans h)).1

theorem cleared_and_not_bit (w : Word) (n : Nat) : putBit w n false &&& ~~~bit n = w &&& ~~~bit n :=
  (BitVec.and_assoc ..).trans (congrArg (w &&& ·) BitVec.and_self)

/-- A set clears no bit. -/
theorem tst_or_of_tst {w : Word} {p : Nat} (m : Word) (h : tst w p = true) : tst (w ||| m) p = true :=
  (tst_or ..).trans (Bool.or_eq_true_iff.2 (.inl h))

/-! What every step of SIE keeps of the registers (R169), as a relation that holds along any sequence of changes. -/

/-- Of the registers that are not per-endpoint: set status bits stay, the blocks' registers and bits are the same, and no self-clearing bit
is set. -/
structure Ctl.KeptBySie (m : BitMap) (c d : Ctl) : Prop where
  busintsts : ∀ p, tst c.busintsts p = true → tst d.busintsts p = true
  cepintsts : ∀ p, tst c.cepintsts p = true → tst d.cepintsts p = true
  ginten : d.ginten = c.ginten
  businten : d.businten = c.businten
  cepinten : d.cepinten = c.cepinten
  devaddr : d.devaddr = c.devaddr
  oper : d.oper = c.oper
  phyEn : tst d.phyctl m.phyEn = tst c.phyctl m.phyEn
  phyDpPuEn : tst d.phyctl m.phyDpPuEn = tst c.phyctl m.phyDpPuEn
  dmaEn : tst d.dmactl m.dmaEn = tst c.dmactl m.dmaEn
  stall : tst d.cepctl m.ctlStall = tst c.cepctl m.ctlStall
  nakClr : tst d.cepctl m.ctlNakClr = true → tst c.cepctl m.ctlNakClr = true
  flush : tst d.cepctl m.ctlFlush = true → tst c.cepctl m.ctlFlush = true

/-- Of one endpoint's registers. -/
structure EpRegs.KeptBySie (m : BitMap) (e f : EpRegs) : Prop where
  epintsts : ∀ p, tst e.epintsts p = true → tst f.epintsts p = true
  epinten : f.epinten = e.epinten
  epcfg : f.epcfg = e.epcfg
  epmps : f.epmps = e.epmps
  epbufstart : f.epbufstart = e.epbufstart
  epbufend : f.epbufend = e.epbufend
  rspOther : f.eprspctl &&& ~~~bit m.rspFlush = e.eprspctl &&& ~~~bit m.rspFlush
  rspFlush : tst f.eprspctl m.rspFlush = true → tst e.eprspctl m.rspFlush = true

/-- Of all of them. -/
structure State.KeptBySie (m : BitMap) (s t : State) : Prop where
  ctl : Ctl.KeptBySie m s.ctl t.ctl
  ep : ∀ i, EpRegs.KeptBySie m (s.ep i) (t.ep i)

variable {m : BitMap}

theorem Ctl.KeptBySie.refl (c : Ctl) : Ctl.KeptBySie m c c :=
  ⟨fun _ => id, fun _ => id, rfl, rfl, rfl, rfl, rfl, rfl, rfl, rfl, rfl, id, id⟩

theorem Ctl.KeptBySie.trans {a b c : Ctl} (h : Ctl.KeptBySie m a b) (k : Ctl.KeptBySie m b c) : Ctl.KeptBySie m a c where
  busintsts p := k.busintsts p ∘ h.busintsts p
  cepintsts p := k.cepintsts p ∘ h.cepintsts p
  ginten := k.ginten.trans h.ginten
  businten := k.businten.trans h.businten
  cepinten := k.cepinten.trans h.cepinten
  devaddr := k.devaddr.trans h.devaddr
  oper := k.oper.trans h.oper
  phyEn := k.phyEn.trans h.phyEn
  phyDpPuEn := k.phyDpPuEn.trans h.phyDpPuEn
  dmaEn := k.dmaEn.trans h.dmaEn
  stall := k.stall.trans h.stall
  nakClr := h.nakClr ∘ k.nakClr
  flush := h.flush ∘ k.flush

theorem EpRegs.KeptBySie.refl (e : EpRegs) : EpRegs.KeptBySie m e e := ⟨fun _ => id, rfl, rfl, rfl, rfl, rfl, rfl, id⟩

theorem EpRegs.KeptBySie.trans {a b c : EpRegs} (h : EpRegs.KeptBySie m a b) (k : EpRegs.KeptBySie m b c) :
    EpRegs.KeptBySie m a c where
  epintsts p := k.epintsts p ∘ h.epintsts p
  epinten := k.epinten.trans h.epinten
  epcfg := k.epcfg.trans h.epcfg
  epmps := k.epmps.trans h.epmps
  epbufstart := k.epbufstart.trans h.epbufstart
  epbufend := k.epbufend.trans h.epbufend
  rspOther := k.rspOther.trans h.rspOther
  rspFlush := h.rspFlush ∘ k.rspFlush

theorem State.KeptBySie.refl (s : State) : State.KeptBySie m s s := ⟨.refl _, fun _ => .refl _⟩

theorem State.KeptBySie.trans {s t u : State} (h : State.KeptBySie m s t) (k : State.KeptBySie m t u) : State.KeptBySie m s u :=
  ⟨h.ctl.trans k.ctl, fun i => (h.ep i).trans (k.ep i)⟩

theorem keptBySie_ctl {s : State} {c : Ctl} (h : Ctl.KeptBySie m s.ctl c) : State.KeptBySie m s { s with ctl := c } :=
  ⟨h, fun _ => .refl _⟩

theorem keptBySie_setEp (s : State) (i : Nat) {f : EpRegs → EpRegs} (h : ∀ e, EpRegs.KeptBySie m e (f e)) :
    State.KeptBySie m s (s.setEp i f) := by
  refine ⟨State.setEp_ctl s i f ▸ .refl _, fun j => ?_⟩
  rcases ep_setEp_cases s i j f with e | ⟨rfl, e⟩ <;> rw [e]
  · exact .refl _
  · exact h _

/-! The pieces SIE's steps are made of. -/

theorem keptBySie_raiseStatus {s u : State} {g : StatusReg} {w : Word} (h : State.KeptBySie m s u) :
    State.KeptBySie m s (raiseStatus g w u) := by
  refine h.trans ?_
  cases g with
  | bus => exact keptBySie_ctl { Ctl.KeptBySie.refl u.ctl with busintsts := fun _ => tst_or_of_tst w }
  | cep => exact keptBySie_ctl { Ctl.KeptBySie.refl u.ctl with cepintsts := fun _ => tst_or_of_tst w }
  | ep i => exact keptBySie_setEp u i fun e => { EpRegs.KeptBySie.refl e with epintsts := fun _ => tst_or_of_tst w }

theorem keptBySie_setRx (f : DatReg) (l : List Byte) (s : State) : State.KeptBySie m s (setRx f l s) := by
  cases f with
  | cep => exact keptBySie_ctl { Ctl.KeptBySie.refl s.ctl with }
  | ep i => exact keptBySie_setEp s i fun e => { EpRegs.KeptBySie.refl e with }

theorem keptBySie_setTx (f : DatReg) (l : List Byte) (s : State) : State.KeptBySie m s (setTx f l s) := by
  cases f with
  | cep => exact keptBySie_ctl { Ctl.KeptBySie.refl s.ctl with }
  | ep i => exact keptBySie_setEp s i fun e => { EpRegs.KeptBySie.refl e with }

theorem keptBySie_clearPending (f : DatReg) (s : State) : State.KeptBySie m s (clearPending f s) := by
  cases f with
  | cep => exact keptBySie_ctl { Ctl.KeptBySie.refl s.ctl with }
  | ep i => exact keptBySie_setEp s i fun e => { EpRegs.KeptBySie.refl e with }

theorem keptBySie_sendPacket (f : DatReg) (n : Nat) (s : State) : State.KeptBySie m s (sendPacket f n s) :=
  have h := (keptBySie_clearPending f s).trans (keptBySie_setTx f ((txfifo f s).drop n) (clearPending f s))
  ⟨h.ctl, h.ep⟩

/-- Every step of SIE keeps them: of the registers that hold bits of the block it writes other bits only (R11, R169). -/
theorem keptBySie_sieApply {e : SieStep} {s t : State} (hw : s.cfg.wf = true) (he : sieApply e s = some t) :
    State.KeptBySie s.cfg.bitmap s t := by
  obtain ⟨hphy, hdma, hctl, -⟩ := BitMap.wf_controls (Config.bitmap_wf hw)
  simp only [List.nodup_cons, List.mem_cons, List.not_mem_nil, or_false, not_or] at hphy hdma hctl
  obtain ⟨⟨-, hen_clk, hen_vbus⟩, ⟨hpu_clk, hpu_vbus⟩, -⟩ := hphy
  obtain ⟨hnak_stall, -⟩ := hctl.1
  obtain ⟨hstall_flush, -⟩ := hctl.2
  have guarded : ∀ {ok : Bool} {u : State}, guardStep ok u = some t → State.KeptBySie s.cfg.bitmap s u →
      State.KeptBySie s.cfg.bitmap s t := fun hg hu => (guardStep_some hg).2 ▸ hu
  have plain : ∀ {u : State}, some u = some t → State.KeptBySie s.cfg.bitmap s u → State.KeptBySie s.cfg.bitmap s t :=
    fun hg hu => Option.some.inj hg ▸ hu
  have clk : ∀ b, State.KeptBySie s.cfg.bitmap s { s with ctl.phyctl := putBit s.ctl.phyctl s.cfg.bitmap.phyClkStb b } :=
    fun b => keptBySie_ctl { Ctl.KeptBySie.refl s.ctl with
      phyEn := tst_putBit_other _ hen_clk b, phyDpPuEn := tst_putBit_other _ hpu_clk b }
  have vbus : ∀ b, State.KeptBySie s.cfg.bitmap s { s with ctl.phyctl := putBit s.ctl.phyctl s.cfg.bitmap.phyVbusDet b } :=
    fun b => keptBySie_ctl { Ctl.KeptBySie.refl s.ctl with
      phyEn := tst_putBit_other _ hen_vbus b, phyDpPuEn := tst_putBit_other _ hpu_vbus b }
  have dma : ∀ b, State.KeptBySie s.cfg.bitmap s { s with ctl.dmactl := putBit s.ctl.dmactl s.cfg.bitmap.dmaRd b } :=
    fun b => keptBySie_ctl { Ctl.KeptBySie.refl s.ctl with dmaEn := tst_putBit_other _ hdma.1 b }
  have ctl : ∀ {n : Fin 32}, s.cfg.bitmap.ctlStall ≠ n →
      Ctl.KeptBySie s.cfg.bitmap s.ctl { s.ctl with cepctl := putBit s.ctl.cepctl n false } :=
    fun hn => { Ctl.KeptBySie.refl s.ctl with
      stall := tst_putBit_other _ hn false, nakClr := tst_of_tst_cleared, flush := tst_of_tst_cleared }
  have rsp : ∀ e : EpRegs, EpRegs.KeptBySie s.cfg.bitmap e { e with eprspctl := putBit e.eprspctl s.cfg.bitmap.rspFlush false } :=
    fun e => { EpRegs.KeptBySie.refl (m := s.cfg.bitmap) e with
      rspOther := cleared_and_not_bit .., rspFlush := tst_of_tst_cleared }
  cases e
  case latchWord => exact plain he (keptBySie_ctl { Ctl.KeptBySie.refl s.ctl with })
  case phyClkStb | phyReady | phyLost => exact plain he (clk _)
  case vbusDet => exact plain he (vbus _)
  case dmaRd => exact plain he (dma _)
  case inTokenCep | statusDone | busReset | busSuspend | busResume | busHs => exact plain he (keptBySie_raiseStatus (.refl s))
  case setup => exact plain he (keptBySie_raiseStatus (keptBySie_raiseStatus (keptBySie_ctl { Ctl.KeptBySie.refl s.ctl with })))
  case vbus => exact plain he (keptBySie_raiseStatus (vbus _))
  case dmaDone => exact plain he (keptBySie_raiseStatus (dma _))
  case raiseBits | diag => exact guarded he (keptBySie_raiseStatus (.refl s))
  case replaceRx => exact guarded he (keptBySie_setRx ..)
  case overlapTx => exact guarded he (keptBySie_setTx ..)
  case takeTx => exact guarded he (keptBySie_sendPacket ..)
  case outCep => exact guarded he (keptBySie_raiseStatus (keptBySie_raiseStatus (keptBySie_setRx ..)))
  case outEp => exact guarded he (keptBySie_raiseStatus (keptBySie_setRx ..))
  case txDoneCep | txDoneEp => exact guarded he (keptBySie_raiseStatus (keptBySie_sendPacket ..))
  case nakCleared => exact guarded he (keptBySie_ctl (ctl (Ne.symm hnak_stall)))
  case flushedCep => exact guarded he (keptBySie_ctl { ctl hstall_flush with })
  case flushedEp => exact guarded he (keptBySie_setEp s _ fun e => { rsp e with })
  case dropBit b =>
    cases b with
    | nakClr => exact guarded he (keptBySie_ctl (ctl (Ne.symm hnak_stall)))
    | cepFlush => exact guarded he (keptBySie_ctl (ctl hstall_flush))
    | epFlush => exact guarded he (keptBySie_setEp s _ rsp)

/-! A step of the machine that runs one step of SIE (log 4, log 15). -/

theorem sieRun_applies {e : SieStep} {s t : State} (h : sieApply e s = some t) : sieRun s e = .next t :=
  (step_env (e := .sie e) (r := s.script) rfl).trans (outcome_ok (envStep_allowed h))

theorem sieRun_forbidden {e : SieStep} {s : State} (h : sieApply e s = none) : sieRun s e = .refused (.stepForbidden (.sie e)) :=
  (step_env (e := .sie e) (r := s.script) rfl).trans (outcome_refuse (envStep_forbidden h))

/-- A step whose precondition holds. -/
theorem sieRun_guard {e : SieStep} {s t : State} {ok : Bool} (h : ok = true) (he : sieApply e s = guardStep ok t) :
    sieRun s e = .next t := sieRun_applies (he.trans (if_pos h))

/-- A step whose precondition fails. -/
theorem sieRun_guard_fails {e : SieStep} {s t : State} {ok : Bool} (h : ok = false) (he : sieApply e s = guardStep ok t) :
    sieRun s e = .refused (.stepForbidden (.sie e)) := sieRun_forbidden (he.trans (if_neg (Bool.eq_false_iff.1 h)))

/-- An OUT packet of an endpoint (R176). -/
theorem outEp_effect (s : State) (i : Nat) (l : List Byte) (a b : Word) :
    raiseStatus (.ep i) (a ||| b) (setRx (.ep i) l s)
      = s.setEp i fun e => { e with rxfifo := l, epdatcnt := BitVec.ofNat 32 l.length, epintsts := e.epintsts ||| a ||| b } :=
  (State.setEp_setEp ..).trans (State.setEp_congr _ _ _ _ (by simp only [BitVec.or_assoc]))

/-- A packet of an endpoint sent (R177). -/
theorem txDoneEp_effect (s : State) (i n : Nat) (w : Word) :
    raiseStatus (.ep i) w (sendPacket (.ep i) n s)
      = { s.setEp i fun e => { e with txfifo := e.txfifo.drop n, txPending := false, epintsts := e.epintsts ||| w } with
          sent := s.sent ++ [{ source := .ep i, bytes := (s.ep i).txfifo.take n }] } := by
  have registers : raiseStatus (.ep i) w (setTx (.ep i) ((s.ep i).txfifo.drop n) (clearPending (.ep i) s))
      = s.setEp i fun e => { e with txfifo := e.txfifo.drop n, txPending := false, epintsts := e.epintsts ||| w } := by
    simp only [raiseStatus, setTx, clearPending, State.setEp_setEp]
    exact State.setEp_congr _ _ _ _ rfl
  rw [← registers]
  cases i <;> rfl

/-! The bits DIAG may raise (R182). -/

theorem busEvent_eq_other_iff {p : Fin 32} : m.busEvent p = .other p ↔ ∀ b, m.busPos b ≠ p := by
  refine ⟨fun h b hb => ?_, busEvent_other m p⟩
  unfold BitMap.busEvent at h
  split at h
  · cases h
  · next hnone => exact absurd (decide_eq_true hb) (List.find?_eq_none.1 hnone b (BusBit.mem_all b))

theorem diagBit_cep_iff {c : Config} {p : Fin 32} : diagBit c .cep p = true
    ↔ c.bitmap.cepEvent p ∉ [.named .setupPkt, .named .outToken, .named .inToken, .named .statusDone] := by
  simp only [diagBit, Bool.and_eq_true, decide_eq_true_eq, List.mem_cons, List.not_mem_nil, or_false, not_or, and_assoc, ne_eq]

theorem diagBit_bus_iff {c : Config} {p : Fin 32} : diagBit c .bus p = true ↔ ∀ b, c.bitmap.busPos b ≠ p :=
  decide_eq_true_iff.trans busEvent_eq_other_iff

end Sys2Proof.Machine
end

section

open Sys2Proof Sys2Proof.Machine Sys2Proof.Claims

/-- Settles O50: the registers by what every step of SIE keeps of them, the rest by what such a step can change at all. -/
theorem sieStepsKeepWhatIsNotTheirs : Obligations.SieStepsKeepWhatIsNotTheirs := by
  unfold Obligations.SieStepsKeepWhatIsNotTheirs
  intro e s t hw he
  obtain ⟨hc, hep⟩ := keptBySie_sieApply hw he
  obtain ⟨c, l, k, -, rfl⟩ := sieApply_outside he
  exact ⟨hc.busintsts, hc.cepintsts, fun i => (hep i).epintsts, hc.ginten, hc.businten, hc.cepinten, hc.devaddr, hc.oper, hc.phyEn,
    hc.phyDpPuEn, hc.dmaEn, hc.stall, hc.nakClr, hc.flush,
    fun i => ⟨(hep i).epinten, (hep i).epcfg, (hep i).epmps, (hep i).epbufstart, (hep i).epbufend, (hep i).rspOther, (hep i).rspFlush⟩,
    rfl, rfl, rfl, rfl, rfl, rfl, rfl, rfl, rfl⟩

/-- Settles O51: each step's precondition, and its effect written out. -/
theorem sieControlSteps : Obligations.SieControlSteps := by
  unfold Obligations.SieControlSteps
  intro s b0 b1 b2 b3 b4 b5 b6 b7 bytes
  refine ⟨sieRun_applies rfl, fun hempty hlen => ?out, fun hbad => ?outForbidden, sieRun_applies rfl, fun hp => sieRun_guard hp rfl,
    fun hp => sieRun_guard_fails hp rfl, sieRun_applies rfl⟩
  case out => exact sieRun_guard (Bool.and_eq_true_iff.2 ⟨decide_eq_true hempty, decide_eq_true hlen⟩) rfl
  case outForbidden =>
    refine sieRun_guard_fails ?_ rfl
    rw [Bool.and_eq_false_iff, decide_eq_false_iff_not, decide_eq_false_iff_not]
    exact hbad.imp id Nat.not_le.2

/-- Settles O52: each step's precondition, and its effect as one change of the endpoint's registers. -/
theorem sieEndpointSteps : Obligations.SieEndpointSteps := by
  unfold Obligations.SieEndpointSteps
  intro s i bytes hi
  refine ⟨fun heven hempty hlen => ?out, fun hbad => ?outForbidden, fun hodd hp => ?sent, fun hbad => ?sentForbidden,
    fun hb => sieRun_guard hb rfl, fun hb => sieRun_guard hb rfl, fun hb => sieRun_guard (by simp [hi, hb]) rfl,
    fun hb => sieRun_guard_fails hb rfl, fun hb => sieRun_guard_fails hb rfl, fun hb => sieRun_guard_fails (by simp [hb]) rfl⟩
  case out =>
    exact (sieRun_guard (by simp [receives, hi, heven, hempty, hlen]) rfl).trans (congrArg Host.Outcome.next (outEp_effect ..))
  case outForbidden =>
    refine sieRun_guard_fails ?_ rfl
    rcases hbad with hodd | hfull | hlong
    · simp [receives, hodd]
    · simp [hfull]
    · simp [Nat.not_le.2 hlong]
  case sent => exact (sieRun_guard (by simp [hi, hodd, hp]) rfl).trans (congrArg Host.Outcome.next (txDoneEp_effect ..))
  case sentForbidden =>
    refine sieRun_guard_fails ?_ rfl
    rcases hbad with heven | hp
    · simp [heven]
    · simp [hp]

/-- Settles O53: every step but DIAG applies in every state, and DIAG where the bit is its to raise. -/
theorem sieBusSteps : Obligations.SieBusSteps := by
  unfold Obligations.SieBusSteps
  intro s level p
  refine ⟨sieRun_applies rfl, sieRun_applies rfl, sieRun_applies rfl, sieRun_applies rfl, sieRun_applies rfl, sieRun_applies rfl,
    sieRun_applies rfl, sieRun_applies rfl, fun hmem => ?cepForbidden, fun hmem => sieRun_guard (diagBit_cep_iff.2 hmem) rfl,
    fun hfree => sieRun_guard (diagBit_bus_iff.2 hfree) rfl, fun ⟨b, hb⟩ => ?busForbidden, fun i hi => sieRun_guard hi rfl⟩
  case cepForbidden => exact sieRun_guard_fails (Bool.eq_false_iff.2 fun hd => diagBit_cep_iff.1 hd hmem) rfl
  case busForbidden => exact sieRun_guard_fails (Bool.eq_false_iff.2 fun hd => diagBit_bus_iff.1 hd b hb) rfl

end

section
/-! SUPPORT. Exceptions (60_exceptions.md): what no undisturbed event writes (R187), and that an undisturbed command that raises does so before its
first change, but for ATTACH (R186). -/

namespace Sys2Proof.Machine

open Sys2Proof.Claims

/-! Events (R187). -/

/-- What an event leaves alone, as long as no callback issues a command: the port, memory, `EpTable`, the cursor, the connection, `GINTEN`. -/
def State.eventFrame (s : State) : Port × List Host.Cell × List EpDesc × Word × Bool × Word :=
  (s.port, s.mem, s.epTable, s.ramOffset, s.irqConnected, s.ctl.ginten)

/-- All of it is the same. -/
def SameFrame (s t : State) : Prop := t.eventFrame = s.eventFrame

theorem SameFrame.order : Order SameFrame := ⟨fun _ => rfl, fun h1 h2 => Eq.trans h2 h1⟩

/-- No other register's write changes `GINTEN`. -/
theorem regWrite_ginten {r : Reg} (hr : r ≠ .ginten) (v : Word) (s : State) : (regWrite r v s).ctl.ginten = s.ctl.ginten := by
  cases r
  case ginten => exact absurd rfl hr
  all_goals simp [regWrite] <;> split <;> simp

theorem SameFrame.reg {r : Reg} (hr : r ≠ .ginten) (v : Word) (s : State) : SameFrame s (regWrite r v s) := by
  simp [SameFrame, State.eventFrame, regWrite_ginten hr]

theorem SameFrame.event : DispatchRules (Under SameFrame) :=
  .under (.under SameFrame.order (fun _ v s hr => SameFrame.reg hr v s) (fun _ _ => rfl) (fun _ _ => rfl) (fun _ _ => rfl) fun _ _ => rfl)
    (fun _ _ => rfl) fun _ _ => rfl

/-! Commands (R186). The accesses of a command raise nothing. -/

theorem Any.rd (r : Reg) : Run Any (rd cmdAgent r) := .rd Any.order Run.cmdPoint_any r

theorem Any.wr (r : Reg) (v : Word) : Run Any (wr cmdAgent r v) := .wr Any.cmd.toPieceRules Run.cmdPoint_any r v

theorem Any.rset (r : Reg) (m : Word) : Run Any (rset cmdAgent r m) := .rset Any.cmd.toPieceRules Run.cmdPoint_any r m

theorem Any.rclr (r : Reg) (m : Word) : Run Any (rclr cmdAgent r m) := .rclr Any.cmd.toPieceRules Run.cmdPoint_any r m

theorem Any.upd (f : State → State) : Run Any (upd f) := .upd fun _ => trivial

theorem Any.bind {α β : Type} {p : Prog α} {f : α → Prog β} (hp : Run Any p) (hf : ∀ a, Run Any (f a)) : Run Any (p >>= f) :=
  hp.bind Any.order hf

theorem Any.report (cptr : Word) (n : Nat) : Run Any (report cmdAgent cptr n) :=
  .report Any.cmd.toStoreRules Run.cmdPoint_any cptr n fun _ _ _ => trivial

theorem Any.availCount (i : Nat) : Run Any (availCount cmdAgent i) := .availCount Any.order Run.cmdPoint_any i

/-! A command raises before it changes anything. -/

/-- A piece that stops where it started. -/
theorem RaisesFirst.of_error {p : Prog Unit} {s : State} {e : Stop} (h : p s = .error e s) : RaisesFirst p s := by
  intro _ u hp
  cases h.symm.trans hp
  rfl

/-- A first piece that may change the state, then one that does not raise. -/
theorem RaisesFirst.changed {α : Type} {p : Prog α} {f : α → Prog Unit} {s t : State} {a : α}
    (h : p s = .ok a t) (hf : Run Any (f a)) : RaisesFirst (p >>= f) s := by
  intro e u hp
  rw [bind_ok h] at hp
  exact (hf.not_raised hp).elim

/-- An index's command whose accesses raise nothing: only `CheckEp` does (R88). -/
theorem RaisesFirst.checkEp {p : Prog Unit} {a : Byte} {k : Config → Nat → Prog Unit} (hp : p = Machine.withEp a k)
    (hk : ∀ c i, Run Any (k c i)) (s : State) : RaisesFirst p s := hp ▸ .withEp (.run (hk _ _) s)

theorem RaisesFirst.checkCap (a : Byte) (mps : Half) (ty : XferType) (s : State) : RaisesFirst (checkCap a mps ty) s := by
  intro e u hp
  unfold Machine.checkCap at hp
  split at hp <;> cases hp
  rfl

/-- EP_CONFIGURE checks, looks at `GINTEN` and asks the allocator before it writes anything (R105, R158). -/
theorem RaisesFirst.epConfigure {s : State} (h : s.CmdAlone) (a : Byte) (mps : Half) (ty : XferType) :
    RaisesFirst (epConfigure cmdAgent a mps ty) s := by
  by_cases hc : capAccepted s.cfg a mps ty
  · refine .seq (checkCap_accepted hc) (.ite (.run (Any.upd _) s) ?_)
    refine .seq (look_run _ _) (.seq (rd_quiet h.quiet _) (.ite (.raise _ _) ?_))
    cases hf : allocFails s mps with
    | true => exact .of_error (configureEndpoint_full h a _ ty hf)
    | false =>
      refine .seq (look_run _ _) (.seq h.quiet (.changed (allocRam_fits hf) ?_))
      refine Any.bind (Any.wr _ _) fun _ => Any.bind (Any.wr _ _) fun _ => Any.bind (Any.wr _ _) fun _ => ?_
      exact Any.bind (Any.wr _ _) fun _ => Any.bind (Any.wr _ _) fun _ => Any.bind Run.cmdPoint_any fun _ => Any.upd _
  · exact .of_error (bind_error (checkCap_refused hc))

theorem RaisesFirst.epWrite {s : State} (h : s.CmdAlone) (a : Byte) (ptr len cptr : Word) :
    RaisesFirst (epWrite cmdAgent a ptr len cptr) s :=
  .bind (R := Any) (.xferCheck h)
    (.ite (.writeControl Any.cmd.toStatusRules Run.cmdPoint_any _ _ _ fun _ _ _ => trivial)
      (.writeEndpoint Any.cmd.toPieceRules Run.cmdPoint_any _ _ _ _ fun _ _ _ => trivial))

theorem RaisesFirst.epReadWait {s : State} (h : s.CmdAlone) (a : Byte) (ptr max cptr : Word) :
    RaisesFirst (epReadWait cmdAgent a ptr max cptr) s := by
  refine .bind (.xferCheck h) (Any.bind (Any.availCount _) fun w => .ite (Any.report _ _) (Any.bind ?_ fun _ => Any.report _ _))
  exact .readBytes Any.cmd.toStoreRules Run.cmdPoint_any _ _ _ fun _ _ => trivial

theorem RaisesFirst.epReadContinue {s : State} (h : s.CmdAlone) (a : Byte) : RaisesFirst (epReadContinue cmdAgent a) s := by
  refine .bind (.xferCheck (nullPtr := false) h) (.ite (Any.bind (Any.availCount _) fun w => .ite ?_ ?_) (.done Any.order))
  · exact .ackStatus Any.cmd.toStatusRules Run.cmdPoint_any
  · exact Any.bind (.look Any.order _) fun c => Any.rset _ _

/-- What the checks of a transfer command look at (R117) is the same. -/
def SameChecks (s t : State) : Prop := t.cfg = s.cfg ∧ t.epTable = s.epTable ∧ t.ctl.ginten = s.ctl.ginten

theorem SameChecks.order : Order SameChecks where
  refl _ := ⟨rfl, rfl, rfl⟩
  trans := fun ⟨hc, ht, hg⟩ ⟨hc', ht', hg'⟩ => ⟨hc'.trans hc, ht'.trans ht, hg'.trans hg⟩

theorem SameChecks.dropRx (f : DatReg) (s : State) : SameChecks s (dropRx f s) :=
  ⟨by simp, by simp, by cases f <;> simp [Machine.dropRx]⟩

/-- What an undisturbed read changes. -/
theorem SameChecks.read : StoreRules (fun _ => True) (Along SameChecks) where
  toOrder := Along.order SameChecks.order
  rx f s h := ⟨by simpa using h, SameChecks.dropRx f s⟩
  mem _ _ _ _ _ h := ⟨h, rfl, rfl, rfl⟩
  port _ _ h := ⟨h, rfl, rfl, rfl⟩
  free _ _ h := ⟨h, rfl, rfl, rfl⟩
  busy _ _ _ _ h := h

/-- A read whose first half went on: the second half's checks pass as the first's did, so it raises nothing (R123). -/
theorem epReadContinue_after_epReadWait {s u : State} (h : s.CmdAlone) {a : Byte} {ptr max cptr : Word} {b : Unit}
    (hr : epReadWait cmdAgent a ptr max cptr s = .ok b u) : epReadContinue cmdAgent a u = .ok () (readContinue u a) := by
  obtain ⟨hu, hcfg, htable, hginten⟩ := (Rel.epReadWait SameChecks.read (.cmdPoint_along SameChecks.order) a ptr max cptr).ok hr h
  cases hx : xferError s a false ptr max with
  | none =>
    exact epReadContinue_alone hu ((xferError_congr hcfg htable hginten a false 0 0).trans (xferError_without_buffer hx))
  | some c =>
    obtain ⟨e, -, he⟩ := xferCheck_fails h hx
    cases hr.symm.trans (bind_error he)

theorem RaisesFirst.epRead {s : State} (h : s.CmdAlone) (a : Byte) (ptr max cptr : Word) :
    RaisesFirst (epRead cmdAgent a ptr max cptr) s := by
  intro e u hp
  cases hr : Machine.epReadWait cmdAgent a ptr max cptr s with
  | error e' w =>
    cases hp.symm.trans (bind_error hr)
    exact RaisesFirst.epReadWait h a ptr max cptr e u hr
  | ok b w =>
    rw [Machine.epRead, bind_ok hr] at hp
    split at hp
    · cases hp
    · cases hp.symm.trans (epReadContinue_after_epReadWait h hr)

/-- Every undisturbed command but ATTACH. -/
theorem RaisesFirst.command {s : State} (h : s.CmdAlone) {i : Instr} (hi : i ≠ .attach) : RaisesFirst (command cmdAgent i) s := by
  cases i
  case attach => exact absurd rfl hi
  case detach => exact .run (.detach Any.cmd.toPieceRules Run.cmdPoint_any) s
  case setAddress => exact .run (Any.wr _ _) s
  case reset | setStatusCallback | epMps => exact .run (Any.upd _) s
  case epCheckCap a mps ty => exact .checkCap a mps ty s
  case epConfigure a mps ty => exact .epConfigure h a mps ty
  case epSetStall a =>
    exact checkEp (p := epSetStall cmdAgent a) rfl (fun _ _ => .ite (Any.rset _ _) (Any.rset _ _)) s
  case epClearStall a =>
    exact checkEp (p := epClearStall cmdAgent a) rfl (fun _ _ => .ite (Any.rclr _ _) (Any.rclr _ _)) s
  case epFlush a =>
    exact checkEp (p := epFlush cmdAgent a) rfl (fun _ _ => .ite (Any.rset _ _) (Any.rset _ _)) s
  case epIsStalled a =>
    have answer : ∀ x (f : Word → State → State), Run Any (Machine.rd cmdAgent x >>= fun v => Machine.upd (f v)) := fun x f =>
      Any.bind (Any.rd x) fun _ => Any.upd _
    exact checkEp (p := epIsStalled cmdAgent a) rfl (fun _ _ => .ite (answer _ _) (answer _ _)) s
  case epEnable a =>
    exact checkEp (p := epEnable cmdAgent a) rfl (fun _ _ =>
      .ite (Any.rset _ _) (Any.bind (Any.rset _ _) fun _ => .ite (Any.rset _ _) (.done Any.order))) s
  case epDisable a =>
    have off : ∀ m x y, Run Any (Machine.rclr cmdAgent .ginten m >>= fun _ => Machine.wr cmdAgent x 0 >>= fun _ =>
        Machine.wr cmdAgent y 0xFFFFFFFF#32) := fun m x y =>
      Any.bind (Any.rclr _ m) fun _ => Any.bind (Any.wr x _) fun _ => Any.wr y _
    exact checkEp (p := epDisable cmdAgent a) rfl (fun _ _ => .ite (off _ _ _) (off _ _ _)) s
  case epSetCallback a cb => exact checkEp (p := epSetCallback a cb) rfl (fun _ _ => Any.upd _) s
  case epWrite a ptr len cptr => exact .epWrite h a ptr len cptr
  case epRead a ptr max cptr => exact .epRead h a ptr max cptr
  case epReadWait a ptr max cptr => exact .epReadWait h a ptr max cptr
  case epReadContinue a => exact .epReadContinue h a
  case readPeek a cptr => exact .epReadWait h a 0 0 cptr
  case statusZlp => exact .epWrite h _ 0 0 0
  case reservedOpcode => exact .raise _ s
  all_goals exact .of_error (refuse_run _ _)

/-- ATTACH raises Timeout alone, from its poll loop: `PhyEn` is set and the clock has moved (R152, R197). -/
theorem attach_raises {s u : State} (h : s.CmdAlone) {e : Err} (hp : attach cmdAgent s = .error (.raise e) u) :
    e = .timeout ∧ u = { phyEnabled s with now := u.now, freeCount := u.freeCount } := by
  have hconnect : Run Any (attachConnect cmdAgent s.cfg) := by
    refine Any.bind (Any.upd _) fun _ => Any.bind (Any.wr _ _) fun _ => Any.bind (Any.rset _ _) fun _ => ?_
    exact Any.bind (Any.wr _ _) fun _ => Any.bind (Any.rset _ _) fun _ => Any.rset _ _
  have hquiet : cmdAgent.Quiet (phyEnabled s) := State.CmdAlone.quiet (by exact h)
  rw [attach_alone h] at hp
  cases hready : tst (phyEnabled s).ctl.phyctl s.cfg.bitmap.phyClkStb with
  | true =>
    rw [bind_ok (attachPoll_ready hquiet hready s.now 0)] at hp
    exact (hconnect.not_raised hp).elim
  | false =>
    have hpoll : attachPoll cmdAgent s.now 1 (phyEnabled s) = clockDuty s.now (phyEnabled s) := by
      rw [attachPoll_not_ready hquiet hready hquiet, if_neg (by simp [phyEnabled])]
      rfl
    by_cases hroom : s.now + 51 < clockTop
    · cases hp.symm.trans (bind_error (hpoll.trans (clockDuty_room hroom)))
      exact ⟨rfl, rfl⟩
    · cases hp.symm.trans (bind_error (hpoll.trans (clockDuty_full (Nat.not_lt.1 hroom))))

end Sys2Proof.Machine
end

section

open Sys2Proof Sys2Proof.Machine Sys2Proof.Claims

/-- Settles O38: a command's checks come before its first change, and ATTACH's one error is its poll loop's. -/
theorem errorsArePrecise : Obligations.ErrorsArePrecise := by
  unfold Obligations.ErrorsArePrecise
  intro i s t hi h ht ha herr
  rw [exec_of_command hi ha s] at ht
  obtain ⟨u, -, rfl⟩ | ⟨e, u, hu, rfl⟩ := run_next ht
  · exact absurd rfl herr
  · split
    case isTrue hattach =>
      subst hattach
      obtain ⟨rfl, hstate⟩ := attach_raises h hu
      exact congrArg (fun v => v.setErr Err.timeout.code) hstate
    case isFalse hother =>
      obtain rfl := RaisesFirst.command h hother e u hu
      rfl

/-- Settles O48: every access of an event and of a dispatcher leaves these alone. -/
theorem eventsLeaveThePortAlone : Obligations.EventsLeaveThePortAlone := by
  unfold Obligations.EventsLeaveThePortAlone
  intro i s t hi h ht
  simpa only [SameFrame, State.eventFrame, Prod.mk.injEq] using (Run.event SameFrame.event hi ht h).2

end

section
/-! SUPPORT. Transfers that find their FIFO in use (R206), and the control write whose hold never ends (R205). -/

namespace Sys2Proof.Machine

open Sys2Proof.Claims

/-- A control write of at least one byte stops where its packet part does (R118). -/
theorem epWrite_of_sendControl_error {s t : State} (h : s.CmdAlone) {a : Byte} {ptr len cptr : Word} {e : Stop} (h0 : epIdx a = 0)
    (hx : xferError s a true ptr len = none) (hlen : len ≠ 0)
    (hs : sendControl cmdAgent (s.desc 0).mps ptr len (sendCountOf s a len) s = .error e t) :
    epWrite cmdAgent a ptr len cptr s = .error e t := by
  rw [sendCountOf, h0] at hs
  exact bind_seq (xferCheck_passes h hx) (ite_run h0 (bind_seq (own_quiet h.quiet _) (else_run hlen (bind_error hs))))

/-- Nothing is scheduled and the flag is clear: after the one poll the hold has no end (log 8). -/
theorem holdTxComplete_stuck {s : State} (h : s.CmdAlone) (hf : tst s.ctl.cepintsts s.cfg.bitmap.cepTxComplete = false) :
    holdTxComplete cmdAgent (cmdAgent.left s + 1) s = .error (.fault .holdNeverEnds) s := by
  have hleft : cmdAgent.left s = 0 := by simp only [cmdAgent, h.1, h.2, List.length_nil, ite_self]
  rw [hleft]
  exact bind_seq (look_run _ _) (bind_seq (rd_quiet h.quiet _) (else_run (Bool.eq_false_iff.1 hf) (stopFault_run _ _)))

/-- A packet is queued with the flag clear and nothing scheduled: the command is stuck in its hold (R205). -/
theorem pushAndHold_stuck {s : State} (h : s.CmdAlone) {mps : Half} {ptr : Word} {n : Nat} (hn : n ≠ 0) (hr : readable s ptr n)
    (hc : s.ctl.cepTxfifo.length + n ≤ mps.toNat) (hf : tst s.ctl.cepintsts s.cfg.bitmap.cepTxComplete = false) :
    ∃ t, pushAndHold cmdAgent mps ptr n s = .error (.fault .holdNeverEnds) t := by
  refine ⟨regWrite (txCountReg .cep) (BitVec.ofNat 32 n) (pushed .cep (bytesAt s.mem ptr n) s), bind_seq (look_run _ _) ?_⟩
  refine (pushSend_calm .cep mps ptr (h.calm _) hn (fun k hk => readable_bytes hr hk) hc _).trans ?_
  rw [State.CmdAlone.skip (by exact h)]
  exact bind_seq (look_run _ _) (bind_error (holdTxComplete_stuck (by exact h) hf))

/-- A copy out of a receive FIFO in use stops before its first byte (R206). -/
theorem epReadWait_busy {s : State} (h : s.CmdAlone) {a : Byte} {ptr max cptr : Word} (hbusy : s.busy (epIdx a) = true)
    (hx : xferError s a false ptr max = none) (hpeek : isPeek ptr max = false) (hl : ¬(epIdx a = 0 ∧ s.lce = .setup)) :
    epReadWait cmdAgent a ptr max cptr s = .error (.fault (.fifoConflict (epIdx a))) s := by
  obtain ⟨w, hav, -⟩ := availCount_alone h (epIdx a)
  refine bind_seq (xferCheck_passes h hx) (bind_seq hav (else_run (by simpa [isPeek] using hpeek) (bind_error ?_)))
  exact bind_seq (own_quiet h.quiet _) (else_run hl (inFifo_busy hbusy))

/-- A write into a transmit FIFO in use stops before its first byte (R206). -/
theorem epWrite_busy {s : State} (h : s.CmdAlone) {a : Byte} {ptr len cptr : Word} (hbusy : s.busy (epIdx a) = true)
    (hx : xferError s a true ptr len = none) (hlen : len ≠ 0) (hp : epIdx a ≠ 0 → (s.ep (epIdx a)).txPending = false) :
    epWrite cmdAgent a ptr len cptr s = .error (.fault (.fifoConflict (epIdx a))) s := by
  by_cases h0 : epIdx a = 0
  · rw [h0] at hbusy ⊢
    exact epWrite_of_sendControl_error h h0 hx hlen (bind_seq (look_run _ _) (bind_error (inFifo_busy hbusy)))
  · have hfree : ¬(s.ep (epIdx a)).txPending = true := by simp [hp h0]
    have hsend : sendEndpoint cmdAgent (epIdx a) (s.desc (epIdx a)).mps ptr (min len.toNat (s.desc (epIdx a)).mps.toNat) s
        = .error (.fault (.fifoConflict (epIdx a))) s :=
      bind_seq (look_run _ _) (bind_seq (look_run _ _) (else_run hfree (bind_error (inFifo_busy hbusy))))
    exact epWrite_of_writeEndpoint h h0 hx (bind_seq (own_quiet h.quiet _) (else_run hlen (bind_error hsend)))

end Sys2Proof.Machine
end

section
/-! SUPPORT. The bus Reset event whose status callback the HOST makes use of (R127, R211). -/

namespace Sys2Proof.Machine

open Sys2Proof.Claims

/-- The schedule of the pass in progress is the same. -/
def SamePassGaps (s t : State) : Prop := t.passGaps = s.passGaps

theorem SamePassGaps.cmd : CmdRules SamePassGaps where
  refl _ := rfl
  trans h1 h2 := Eq.trans h2 h1
  reg r v s := regWrite_passGaps r v s
  tx f b s := appendTx_passGaps f b s
  rx f s := dropRx_passGaps f s
  mem _ _ _ _ _ := rfl
  port _ _ := rfl
  free _ _ := rfl
  busy _ _ _ _ h := h
  clock _ _ _ := rfl
  handle _ _ := rfl
  irq _ _ := rfl
  slot _ _ _ _ := rfl
  status _ := rfl
  zero _ := rfl

theorem SamePassGaps.env (e : EnvStep) (s t : State) (h : envApply e s = some t) : SamePassGaps s t := by
  obtain ⟨c, l, k, m, r, n, -, rfl⟩ := envApply_outside h
  rfl

/-- What the HOST does inside a callback uses up none of the pass's own gaps (R82(d)). -/
theorem SamePassGaps.runCallback (l : List CallbackAct) : Run SamePassGaps (runCallback l) :=
  .runCallback SamePassGaps.cmd.toOrder SamePassGaps.env (.nestedCommand SamePassGaps.cmd SamePassGaps.env (fun _ _ => rfl)
    (.epConfigure SamePassGaps.cmd.toPieceRules (.callbackPoint SamePassGaps.cmd.toOrder SamePassGaps.env fun _ _ => rfl)
      (fun _ _ _ => rfl) fun _ _ _ _ _ _ => rfl)) l

/-- A status callback that is set: the call is recorded and the HOST does what its schedule says (R25, R195(c)). -/
theorem statusNotify_scheduled {s : State} {l : List CallbackAct} {r : List (List CallbackAct)} (hcb : s.statusCallback ≠ 0)
    (hl : s.passCbs = l :: r) (e : BusNotice) :
    statusNotify e s = runCallback l { notified e s with passCbs := r } := by
  rw [notified, if_neg hcb, statusNotify, if_neg hcb, hostTurn]
  simp only [hl]

theorem notified_passGaps (e : BusNotice) (s : State) : (notified e s).passGaps = s.passGaps := by
  unfold notified
  split <;> rfl

end Sys2Proof.Machine
end

section
/-! SUPPORT. A pass whose only event is Status-done, and a RegSet that such a pass comes between (R22, R116, R134, R220). -/

namespace Sys2Proof.Machine

open Sys2Proof.Claims

/-- The sequencer as a Status-done leaves it (R116). -/
def State.SeqIdle (s : State) : Prop := s.lce = .none ∧ s.ctrlState = .idle

/-- A global snapshot of `Cep` alone selects one operation (R134). -/
theorem eventsOf_gCep {c : Config} (hw : c.wf = true) : eventsOf c .gint (bit c.bitmap.gCep) = [.gintCep] := by
  obtain ⟨hbus, hep⟩ := gint_distinct (Config.bitmap_wf hw)
  have hbus' : ¬c.bitmap.gBus.val = c.bitmap.gCep.val := fun e => hbus (Fin.ext e)
  have hnone : (c.epIndexes.filter fun i => tst (bit c.bitmap.gCep) (c.bitmap.gEp i)) = [] := by
    refine List.filter_eq_nil_iff.2 fun i hi => ?_
    have hi := isEp_of_mem_epIndexes hi
    simp only [Config.isEp, Bool.and_eq_true, decide_eq_true_eq] at hi
    simp [tst_bit, (hep i hi.1 hi.2).2.2]
  rw [eventsOf, hnone]
  simp [tst_bit, hbus']

theorem scanRun_set {op : Fin 32 → Instr} {p : Fin 32} {r : List (Fin 32)} {s t : State} (hb : tst s.sSnap p = true)
    (ht : exec (op p) { s with scanPos := p.val } = .next t) : scanRun op (p :: r) s = scanRun op r t := by
  rw [scanRun, if_pos hb, ht]

theorem scanRun_clear {op : Fin 32 → Instr} {p : Fin 32} {r : List (Fin 32)} {s : State} (hb : ¬tst s.sSnap p = true) :
    scanRun op (p :: r) s = scanRun op r { s with scanPos := p.val } := by
  rw [scanRun, if_neg hb]

/-- A scan whose snapshot is the Status-done bit alone completes, and where it has come to that bit the sequencer is idle (R116, R136). -/
theorem scanRun_statusDone {m : BitMap} {n : Nat} (hm : m.wf n = true) (l : List (Fin 32)) : ∀ s : State, s.PassAlone →
    s.cfg.bitmap = m → s.sSnap = bit m.cepStatusDone → ∃ t, scanRun (fun p => (m.cepEvent p).instr) l s = .next t
      ∧ (m.cepStatusDone ∈ l ∨ s.SeqIdle → t.SeqIdle) := by
  induction l with
  | nil => exact fun s _ _ _ => ⟨s, rfl, fun h => h.resolve_left List.not_mem_nil⟩
  | cons p r ih =>
    intro s h hc hsnap
    by_cases hp : p = m.cepStatusDone
    · have hevent : (m.cepEvent p).instr = .cepStatusDone := by rw [hp]; exact congrArg CepEvent.instr (cepEvent_pos m n hm .statusDone)
      have hb : tst s.sSnap p = true := by simp [hsnap, hp, tst_bit]
      obtain ⟨t, ht, hidle⟩ := ih { s with
        scanPos := p.val, ctl.cepintsts := s.ctl.cepintsts &&& ~~~bit s.cfg.bitmap.cepStatusDone, lce := .none, ctrlState := .idle
        ctl.cepinten := bit s.cfg.bitmap.cepSetupPkt } h hc hsnap
      refine ⟨t, (scanRun_set hb ?_).trans ht, fun _ => hidle (.inr ⟨rfl, rfl⟩)⟩
      rw [hevent]
      exact statusDoneReturnsToIdle _ (by exact h)
    · have hb : ¬tst s.sSnap p = true := by simpa [hsnap, tst_bit] using fun e => hp (Fin.ext e)
      obtain ⟨t, ht, hidle⟩ := ih { s with scanPos := p.val } h hc hsnap
      refine ⟨t, (scanRun_clear hb).trans ht, fun hs => hidle ?_⟩
      exact hs.imp_left fun hmem => (List.mem_cons.1 hmem).resolve_left (Ne.symm hp)

/-- A control dispatcher whose snapshot is the Status-done bit alone (R116, R136). -/
theorem exec_gintCep_statusDone {s : State} (h : s.PassAlone) (hw : s.cfg.wf = true)
    (hcep : s.ctl.cepintsts &&& s.ctl.cepinten = bit s.cfg.bitmap.cepStatusDone) :
    ∃ t, exec .gintCep s = .next t ∧ t.SeqIdle := by
  obtain ⟨t, ht, hidle⟩ := scanRun_statusDone (Config.bitmap_wf hw) s.cfg.bitmap.cepOrder
    { s with sSnap := s.ctl.cepintsts &&& s.ctl.cepinten, passGaps := s.passGaps.drop 2 } ⟨by simp [h.1], h.2⟩ rfl hcep
  obtain ⟨-, hrun, -⟩ := dispatcherRunsItsSnapshotInOrder s h.fresh
  exact ⟨t, hrun.trans ht, hidle (.inl (mem_cepOrder _ _))⟩

/-- A pass with nothing between its accesses, whose callbacks return at once. -/
def calmPass : PassScript := { gaps := [], callbacks := [] }

/-- The pass with its snapshot taken, `Cep` alone (R134, R192). -/
def enteredForCep (s : State) : State := { enterPass calmPass s with gSnap := bit s.cfg.bitmap.gCep }

/-- A pass whose global snapshot is `Cep` alone is entry, the control dispatcher and return (R134, R192, R193). -/
theorem outcome_isrPass_gCep {s : State} (hw : s.cfg.wf = true) (hen : passEnabled s = true)
    (hg : gintsts s &&& s.ctl.ginten = bit s.cfg.bitmap.gCep) :
    outcome (isrPass calmPass) s = leave (exec .gintCep (enteredForCep s)) := by
  have hfresh : freshStart (enterPass calmPass s).passGaps := State.PassAlone.fresh ⟨rfl, rfl⟩
  have hsts : gintsts (enterPass calmPass s) = gintsts s := gintsts_congr rfl rfl rfl
  have hbody : outcome passBody (enterPass calmPass s) = inOrder [.gintCep] (enteredForCep s) := by
    rw [outcome_passBody hfresh, hsts, ← eventsOf_gCep hw, ← hg, enteredForCep, ← hg]
    rfl
  rw [outcome_isrPass hen, hbody, inOrder]
  cases exec .gintCep (enteredForCep s) <;> rfl

/-- An enabled pending source is what the ISR agent waits for (R134). -/
theorem passEnabled_of_pending {s : State} (hi : s.inIsr = false) (hirq : s.irqConnected = true) {p : Fin 32}
    (hg : gintsts s &&& s.ctl.ginten = bit p) : passEnabled s = true := by
  have hline : irqLine s = true := by
    refine decide_eq_true fun hz => ?_
    rw [hg] at hz
    simpa [tst_bit] using congrArg (fun w => tst w p) hz
  simp [passEnabled, hirq, hi, hline]

/-- A pass that finds a Status-done and nothing else completes, and the sequencer is idle after it (R116, R134). -/
theorem isrPass_statusDone {s : State} (hw : s.cfg.wf = true) (hi : s.inIsr = false) (hirq : s.irqConnected = true)
    (hcep : s.ctl.cepintsts &&& s.ctl.cepinten = bit s.cfg.bitmap.cepStatusDone)
    (hg : gintsts s &&& s.ctl.ginten = bit s.cfg.bitmap.gCep) :
    ∃ t, isrPass calmPass s = .ok () t ∧ t.SeqIdle := by
  obtain ⟨u, hu, hidle⟩ := exec_gintCep_statusDone (s := enteredForCep s) ⟨rfl, rfl⟩ hw hcep
  refine ⟨leavePass u, isrPass_next ?_, hidle⟩
  rw [outcome_isrPass_gCep hw (passEnabled_of_pending hi hirq hg) hg, hu]
  rfl

/-! A command that a pass comes between (R22, R82(b)). -/

/-- RegSet is two accesses: what is written is what was read, whatever came between (R22, R220). -/
theorem rset_between {g : Agent} {s t u : State} (hr : g.point s = .ok () t) (hw : g.point t = .ok () u) (r : Reg) (m : Word) :
    rset g r m s = .ok () (regWrite r (regRead r t ||| m) u) :=
  bind_seq (bind_seq hr (look_run _ _)) (bind_seq hw (upd_run _ _))

/-- `AvailCount(0)` in a data stage OUT, nothing coming between its two reads (R120). -/
theorem availCount_dataOut_calm {s : State} (h : s.Calm 2) (hl : s.lce = .dataOut) :
    availCount cmdAgent 0 s = .ok s.ctl.cepdatcnt (s.skip 2) := by
  refine ite_run rfl (bind_seq (own_calm (h.mono (by omega)) _) ?_)
  rw [skip_lce, hl]
  refine (rd_calm (State.Calm.skip (j := 1) h) _).trans ?_
  rw [skip_skip]
  rfl

end Sys2Proof.Machine
end

section

open Sys2Proof Sys2Proof.Machine Sys2Proof.Claims

/-- Settles O29: the packet is queued, and the hold's one poll finds the flag clear with nothing left that could raise it. -/
theorem stalledControllerHangsTheWrite : Obligations.StalledControllerHangsTheWrite := by
  unfold Obligations.StalledControllerHangsTheWrite
  rintro s a ptr len cptr h h0 hx hlen ⟨-, hread, hbusy, hroom⟩ hflag
  rw [h0] at hbusy hroom
  obtain ⟨t, ht⟩ := pushAndHold_stuck (s := s.setBusy 0 true) (by exact h) (sendCountOf_ne_zero hx hlen) hread hroom hflag
  exact run_fault (epWrite_of_sendControl_error h h0 hx hlen (bind_seq (look_run _ _) (bind_error (inFifo_error hbusy ht))))

/-- Settles O35: the check at the FIFO's entry, which each of the three comes to before its first byte. -/
theorem busyFifoFaults : Obligations.BusyFifoFaults := by
  unfold Obligations.BusyFifoFaults
  intro s a ptr n cptr h hbusy
  refine ⟨fun hx hn hp => run_fault (epWrite_busy h hbusy hx hn hp), fun hx hpeek hl => ?_⟩
  have hwait := epReadWait_busy (cptr := cptr) h hbusy hx hpeek hl
  exact ⟨run_fault hwait, run_fault (bind_error hwait)⟩

/-- Settles O44: the handler quiesces before it calls back, and the callback leaves no gap before the clear that follows it. -/
theorem busResetCallbackRunsQuiesced : Obligations.BusResetCallbackRunsQuiesced := by
  unfold Obligations.BusResetCallbackRunsQuiesced
  intro s u acts r hg hn hs hcb hl hu
  have hgu : u.passGaps = [] := ((SamePassGaps.runCallback acts).ok hu).trans ((notified_passGaps _ _).trans hg)
  have hcall := (statusNotify_scheduled (s := quiesced s) hcb hl .reset).trans hu
  refine outcome_ok ((busReset_quiesces hg hn hs).trans (bind_seq hcall ?_))
  rw [wr_quiet (isr_quiet hgu), regWrite, w1cValue_ones]

/-- Settles O49: what the RegSet writes it had read before the pass, and nothing else of what the pass left is written. -/
theorem lostUpdateRestoresTheEnables : Obligations.LostUpdateRestoresTheEnables := by
  unfold Obligations.LostUpdateRestoresTheEnables
  intro s a hw hi hirq _ h0 hx hl hcnt hcep hg hgaps
  have hcalm : s.Calm 5 := ⟨fun hi' => by simp [hi] at hi', fun _ => by simp [hgaps]⟩
  have hfour : s.skip 4 = { s with taskGaps := [[], [.isr calmPass]] } := by rw [skip_task hi, hgaps]; rfl
  have hav := availCount_dataOut_calm (s := s.skip 2) (State.Calm.skip (hcalm.mono (by omega))) hl
  rw [skip_skip, hfour] at hav
  have hsts : gintsts { s with taskGaps := [] } = gintsts s := gintsts_congr rfl rfl rfl
  obtain ⟨u, hpass, hlce, hstate⟩ := isrPass_statusDone (s := { s with taskGaps := [] }) hw hi hirq hcep (by rw [hsts]; exact hg)
  have hset := rset_between (s := { s with taskGaps := [[], [.isr calmPass]] }) (point_empty hi rfl)
    (point_gap (by exact hi) rfl (bind_seq hpass (done_run _))) .cepinten (bit s.cfg.bitmap.cepOutToken)
  have hrun : epReadContinue cmdAgent a s
      = .ok () { u with ctl.cepinten := s.ctl.cepinten ||| bit s.cfg.bitmap.cepOutToken } := by
    refine bind_seq (xferCheck_passes_calm (hcalm.mono (by omega)) hx) (ite_run h0 (bind_seq hav (else_run hcnt ?_)))
    exact bind_seq (look_run _ _) hset
  exact ⟨_, run_ok hrun, hlce, hstate, rfl, rfl⟩

end
